-- ==== Sys2Proof/Word.lean ====
section
/-! DEFINITION. The word types of the JRB: 32-bit CSRs, addresses and command words (R7), 16-bit coefficients and
samples, bytes. -/
namespace Sys2Proof

/-- A CSR, a physical address or a command word (R7). -/
abbrev Word := BitVec 32

/-- A coefficient, a plane sample or a 16-bit register field (R7). -/
abbrev Half := BitVec 16

/-- A byte of system memory or of the source stream (R80). -/
abbrev Byte := BitVec 8

end Sys2Proof
end

