-- ==== Sys2Proof/Syntax.lean ====
section
/-! DEFINITION. The command set (R113), one constructor per row of spec/opcode_table.json. -/
namespace Sys2Proof

/-- The frame type SETFRM's SOFN field selects (R112). -/
inductive SofKind where
  | sof0
  | sof1
  | sof2
  | sof3
deriving DecidableEq, Repr

/-- A command of the JRB command set, version 1 (R113), with its operands as R112 assembles them. -/
inductive Instr where
  | nop
  | endList
  | reset
  | seek (offset : Word)
  | ldqt
  | ldht
  | setfrm (sofn : SofKind)
  | setri
  | setscn
  | decrow (nrows : Nat)
  | idctblk (tq : Nat) (src dst stride : Word)
  | idctrow (row nrows : Nat)
  | upsrow (row nrows : Nat)
  | ccvrow (row nrows : Nat)
  | recrow (row nrows : Nat)
deriving DecidableEq, Repr

end Sys2Proof
end

