-- ==== Sys2Proof/WellFormed.lean ====
section
/-! DEFINITION. The operand ranges of R112. An operand whose type already is its field's range needs no check. -/
namespace Sys2Proof

/-- A 16-bit operand field: NROWS or ROW (R112). -/
def fits16 (n : Nat) : Bool := decide (n < 65536)

/-- A quantisation table id, 0..3 (R112). -/
def fitsTq (n : Nat) : Bool := decide (n < 4)

/-- Every operand lies in its field's range (R112). -/
def Instr.wf : Instr → Bool
  | .nop => true
  | .endList => true
  | .reset => true
  | .seek _ => true
  | .ldqt => true
  | .ldht => true
  | .setfrm _ => true
  | .setri => true
  | .setscn => true
  | .decrow n => fits16 n
  | .idctblk tq _ _ _ => fitsTq tq
  | .idctrow row n => fits16 row && fits16 n
  | .upsrow row n => fits16 row && fits16 n
  | .ccvrow row n => fits16 row && fits16 n
  | .recrow row n => fits16 row && fits16 n

end Sys2Proof
end

