-- ==== Sys2Proof/Decode.lean ====
section
/-! DEFINITION. Command words: the opcode map (R113), the decoder (R114, R115), and the encoder (R111, R116). -/
namespace Sys2Proof

/-- The assigned opcodes (R113). -/
inductive Op where
  | nop | endList | reset | seek
  | ldqt | ldht | setfrm | setri | setscn
  | decrow
  | idctblk | idctrow | upsrow | ccvrow | recrow
deriving DecidableEq, Repr

/-- The command formats (R111). -/
inductive Format where
  | f0 | fa | fm | fn | fb | fr
deriving DecidableEq, Repr

/-- One row of the opcode map (R113). -/
structure OpRow where
  op : Op
  code : BitVec 8
  format : Format
deriving DecidableEq, Repr

/-- The opcode map (R113). -/
def opTable : List OpRow :=
  [⟨.nop, 0x01, .f0⟩, ⟨.endList, 0x02, .f0⟩, ⟨.reset, 0x03, .f0⟩, ⟨.seek, 0x04, .fa⟩] ++
  [⟨.ldqt, 0x10, .f0⟩, ⟨.ldht, 0x11, .f0⟩, ⟨.setfrm, 0x12, .fm⟩, ⟨.setri, 0x13, .f0⟩, ⟨.setscn, 0x14, .f0⟩] ++
  [⟨.decrow, 0x20, .fn⟩] ++
  [⟨.idctblk, 0x30, .fb⟩, ⟨.idctrow, 0x31, .fr⟩, ⟨.upsrow, 0x32, .fr⟩, ⟨.ccvrow, 0x33, .fr⟩, ⟨.recrow, 0x34, .fr⟩]

/-- The length of a format in words (R111). -/
def Format.words : Format → Nat
  | .f0 => 1
  | .fa => 2
  | .fm => 1
  | .fn => 1
  | .fb => 4
  | .fr => 2

/-- The reserved bits of a format's word 0 (R114's RSV masks). -/
def Format.rsv : Format → Word
  | .f0 => 0x00FFFFFF#32
  | .fa => 0x00FFFFFF#32
  | .fm => 0x00FFFFFC#32
  | .fn => 0x00FF0000#32
  | .fb => 0x00FFFFFC#32
  | .fr => 0x00FFFFFF#32

/-- The opcode field of word 0 (R110). -/
def opField (w0 : Word) : BitVec 8 := w0.extractLsb' 24 8

/-- The row of an opcode, if it is assigned (R113). -/
def rowOf (code : BitVec 8) : Option OpRow := opTable.find? fun r => r.code == code

/-- R114's Decode of word 0: the command's row, or none for an illegal word. -/
def decodeWord0 (w0 : Word) : Option OpRow :=
  match rowOf (opField w0) with
  | none => none
  | some r => if w0 &&& r.format.rsv = 0 then some r else none

/-- SETFRM's SOFN field (R112). -/
def sofOf (v : BitVec 2) : SofKind :=
  if v = 0 then .sof0 else if v = 1 then .sof1 else if v = 2 then .sof2 else .sof3

/-- The low half of a word: NROWS of FN, ROW of FR (R111). -/
def loField (w : Word) : Nat := (w.extractLsb' 0 16).toNat

/-- The high half of a word: NROWS of FR (R111). -/
def hiField (w : Word) : Nat := (w.extractLsb' 16 16).toNat

/-- Operand assembly (R112): the command of an opcode from its words. -/
def Op.build (op : Op) (w0 w1 w2 w3 : Word) : Instr :=
  match op with
  | .nop => .nop
  | .endList => .endList
  | .reset => .reset
  | .seek => .seek w1
  | .ldqt => .ldqt
  | .ldht => .ldht
  | .setfrm => .setfrm (sofOf (w0.extractLsb' 0 2))
  | .setri => .setri
  | .setscn => .setscn
  | .decrow => .decrow (loField w0)
  | .idctblk => .idctblk (w0.extractLsb' 0 2).toNat w1 w2 w3
  | .idctrow => .idctrow (loField w1) (hiField w1)
  | .upsrow => .upsrow (loField w1) (hiField w1)
  | .ccvrow => .ccvrow (loField w1) (hiField w1)
  | .recrow => .recrow (loField w1) (hiField w1)

/-- Why bytes are no command. -/
inductive DecodeError where
  /-- The bytes end inside the command. -/
  | truncated
  /-- Word 0 is illegal (R115). -/
  | illegalCommand (w0 : Word)
deriving DecidableEq, Repr

/-- The first little-endian word of a list of bytes and the rest (R83). -/
def takeWord : List Byte → Option (Word × List Byte)
  | b0 :: b1 :: b2 :: b3 :: rest => some (b3 ++ b2 ++ b1 ++ b0, rest)
  | _ => none

/-- `n` extension words after word 0, the missing ones 0. -/
def takeExt : Nat → List Byte → Option (List Word × List Byte)
  | 0, bs => some ([], bs)
  | n + 1, bs =>
    match takeWord bs with
    | none => none
    | some (w, rest) =>
      match takeExt n rest with
      | none => none
      | some (ws, rest') => some (w :: ws, rest')

/-- The command at the head of a list of bytes, and the bytes after it (R110, R114). -/
def decode (bs : List Byte) : Except DecodeError (Instr × List Byte) :=
  match takeWord bs with
  | none => .error .truncated
  | some (w0, rest) =>
    match decodeWord0 w0 with
    | none => .error (.illegalCommand w0)
    | some r =>
      match takeExt (r.format.words - 1) rest with
      | none => .error .truncated
      | some (ws, rest') => .ok (r.op.build w0 (ws.getD 0 0) (ws.getD 1 0) (ws.getD 2 0), rest')

/-- The opcode of a command (R113). -/
def Instr.op : Instr → Op
  | .nop => .nop
  | .endList => .endList
  | .reset => .reset
  | .seek _ => .seek
  | .ldqt => .ldqt
  | .ldht => .ldht
  | .setfrm _ => .setfrm
  | .setri => .setri
  | .setscn => .setscn
  | .decrow _ => .decrow
  | .idctblk _ _ _ _ => .idctblk
  | .idctrow _ _ => .idctrow
  | .upsrow _ _ => .upsrow
  | .ccvrow _ _ => .ccvrow
  | .recrow _ _ => .recrow

/-- The length of an opcode's command in words (R113). -/
def Op.words : Op → Nat
  | .nop => 1
  | .endList => 1
  | .reset => 1
  | .seek => 2
  | .ldqt => 1
  | .ldht => 1
  | .setfrm => 1
  | .setri => 1
  | .setscn => 1
  | .decrow => 1
  | .idctblk => 4
  | .idctrow => 2
  | .upsrow => 2
  | .ccvrow => 2
  | .recrow => 2

/-- SOFN's code (R112). -/
def SofKind.code : SofKind → BitVec 2
  | .sof0 => 0
  | .sof1 => 1
  | .sof2 => 2
  | .sof3 => 3

/-- The FR extension word (R116): `(n << 16) | row`. -/
def rowWord (row n : Nat) : Word := BitVec.ofNat 16 n ++ BitVec.ofNat 16 row

/-- The words of a command, as R116 assembles them. -/
def encode : Instr → List Word
  | .nop => [0x01000000#32]
  | .endList => [0x02000000#32]
  | .reset => [0x03000000#32]
  | .seek off => [0x04000000#32, off]
  | .ldqt => [0x10000000#32]
  | .ldht => [0x11000000#32]
  | .setfrm k => [0x12000000#32 ||| k.code.zeroExtend 32]
  | .setri => [0x13000000#32]
  | .setscn => [0x14000000#32]
  | .decrow n => [0x20000000#32 ||| BitVec.ofNat 32 n]
  | .idctblk tq src dst stride => [0x30000000#32 ||| BitVec.ofNat 32 tq, src, dst, stride]
  | .idctrow row n => [0x31000000#32, rowWord row n]
  | .upsrow row n => [0x32000000#32, rowWord row n]
  | .ccvrow row n => [0x33000000#32, rowWord row n]
  | .recrow row n => [0x34000000#32, rowWord row n]

/-- The bytes of a word in memory order (R83 (e)). -/
def wordBytes (w : Word) : List Byte :=
  [w.extractLsb' 0 8, w.extractLsb' 8 8, w.extractLsb' 16 8, w.extractLsb' 24 8]

/-- The bytes of a command in memory order. -/
def encodeBytes (i : Instr) : List Byte := (encode i).flatMap wordBytes

/-- Word `k` of an instruction whose bits are `w`, of which the lowest `nbits` are given and the others are 0. -/
def tableWord (nbits w k : Nat) : Word := BitVec.ofNat 32 ((w % 2 ^ nbits) >>> (32 * k))

/-- The 16 bytes of an instruction whose bits are `w`, of which the lowest `nbits` are given and the others are 0. -/
def tableBytes (nbits w : Nat) : List Byte :=
  wordBytes (tableWord nbits w 0) ++ wordBytes (tableWord nbits w 1) ++
  wordBytes (tableWord nbits w 2) ++ wordBytes (tableWord nbits w 3)

/-- The command the decoder reads from an instruction whose bits are `w`, numbered as spec/opcode_table.json numbers
them. -/
def decodeTableWord (nbits w : Nat) : Option Instr :=
  match decode (tableBytes nbits w) with
  | .ok (i, _) => some i
  | .error _ => none

end Sys2Proof
end

