-- ==== Sys2Proof/Config.lean ====
section
/-! DEFINITION. What is fixed for the machine, and the free values: constants with no body, which nothing can evaluate. -/
namespace Sys2Proof.Config

/-- The constant of the ID register (R22): the bytes "J", "R", "B" and the version 1. -/
def idWord : Word := 0x4A524201#32

/-- The 8 KiB page of the CSR window in the model's reset state: JRB_BASE = 0xFFFFE000. DESIGN CHOICE (log entry 1):
JRB_BASE is a parameter (R8), held in State; this is only the value State.reset gives it. -/
def resetJrbPage : BitVec 19 := 0x7FFFF#19

/-- Free value (log entry 4): an output byte that the same command also read through another buffer (R95, I6), by the model's
event number, the byte's address and the value the pseudocode's order gives it. -/
opaque overlapByte : Nat → Nat → Byte → Byte

/-- Free value (log entries 5 and 7): a byte that the host's accesses during a run leave open (R97 (c), I5), by the model's
event number and the byte's address. -/
opaque freeByte : Nat → Nat → Byte

/-- Free value (log entry 5): what a host's load of a register other than STATUS returns while BUSY = 1 (R21 (e), I2), by
the model's event number. -/
opaque freeWord : Nat → Word

/-- Free value (log entry 6): whether a byte that an abandoned command would have written was written before the reset
(R380, I3), by the model's event number and the byte's address. -/
opaque freeBit : Nat → Nat → Bool

/-- Free values (log entry 7): what a command's reads of bytes that the host stores to beside it give, one after another, by
the model's event number. -/
opaque freeReads : Nat → List Byte

/-- Free value (log entry 7): what a byte that the host has stored to during a run may hold when one of the run's commands is
fetched (0) or begins (1) (I5), by the model's event number, the output byte asked about, the command, which of the two, and
the byte's address. -/
opaque otherByte : Nat → Nat → Nat → Nat → Nat → Byte

/-- Free value (log entry 7): another value it may hold, by the same. -/
opaque anotherByte : Nat → Nat → Nat → Nat → Nat → Byte

/-- Free values (log entry 7): what the command's reads of such bytes may give, one after another, by the model's event
number, the output byte asked about and the command. -/
opaque otherReads : Nat → Nat → Nat → List Byte

/-- Free values (log entry 7): what else they may give, by the same. -/
opaque anotherReads : Nat → Nat → Nat → List Byte

end Sys2Proof.Config
end

