-- ==== Sys2Proof/Machine/State.lean ====
section
/-! DEFINITION. The machine's state (10_state.md), as plain data, and State.reset (R60, R382). -/
namespace Sys2Proof.Machine

/-- Four like things, one per component (c = 0..3) or per table id (t = 0..3). -/
structure Quad (α : Type) where
  c0 : α
  c1 : α
  c2 : α
  c3 : α
deriving DecidableEq, Repr

/-- Four copies of one value. -/
def Quad.all {α : Type} (v : α) : Quad α := ⟨v, v, v, v⟩

/-- Sparse data by key, in canonical form (Machine/Ops.lean): keys rising, no entry equal to 0, which is what an
unlisted key reads as. -/
abbrev Sparse (w : Nat) := List (Nat × BitVec w)

/-- System memory (R80): bytes by address. An unlisted byte reads 0 (log entry 3). -/
abbrev Memory := List Host.Cell

/-- The parameters a model takes as arguments (R8). No reset and no command changes them. -/
structure Params where
  /-- JRB_BASE divided by 8 KiB (R20). -/
  jrbPage : BitVec 19
  /-- Where MEM_OK is false besides the CSR window (R81): ranges of byte addresses, each a base and a size. -/
  noAccess : List (Nat × Nat)
  /-- IDCT_FN (R262): for a block of 64 dequantised coefficients, by how much each of its 64 samples differs from
  LevelShift(IDCT_REF). A block the table does not list has no difference: the empty table is the default IDCT_REF. -/
  idctDev : List (List Int × List Int)
  /-- N_WORKERS (R9). -/
  nWorkers : Nat
deriving DecidableEq, Repr

/-- The registers only the host writes: the CTRL enables (R23) and the source, coefficient, plane and destination
registers (R28, R32–R36). -/
structure Cfg where
  ieDone : Bool
  ieErr : Bool
  ieWarn : Bool
  srcBase : Word
  srcLen : Word
  coefBase : Word
  coefSize : Word
  planeBase : Quad Word
  planeStride : Quad Word
  uplaneBase : Quad Word
  uplaneStride : Quad Word
  dstBase : Word
  dstStride : Word
  dstCs : BitVec 4
  dstNch : BitVec 3
  dst422 : Bool
  dstPrec16 : Bool
deriving DecidableEq, Repr

/-- The command processor: CQ_PTR (R25), STATUS.BUSY, DONE and ERR (R24), and the error record (R26). -/
structure Proc where
  cqPtr : Word
  busy : Bool
  done : Bool
  err : Bool
  errCode : BitVec 8
  errClass : BitVec 2
  errCp : Word
  errData : Word
deriving DecidableEq, Repr

/-- META (R31). -/
structure Meta where
  jfif : Bool
  adobe : Bool
  adobeXform : BitVec 2
deriving DecidableEq, Repr

/-- One entry of HCODE (R54): the code of length `len` and value `code` decodes to `sym`. -/
structure HEntry where
  len : Nat
  code : Nat
  sym : Byte
deriving DecidableEq, Repr

/-- One Huffman table: BITS[1..16] and HUFFVAL (R53; a value past the list reads 0), and its HCODE (R54). -/
structure HuffTab where
  bits : Vector Byte 16
  vals : List Byte
  hcode : List HEntry
deriving DecidableEq, Repr

/-- QTMEM, HTMEM, HCODE and TBLVALID (R51–R54). -/
structure Tables where
  qt : Quad (Vector Half 64)
  dc : Quad HuffTab
  ac : Quad HuffTab
  qtv : Quad Bool
  dcv : Quad Bool
  acv : Quad Bool
  qtp : Quad Bool
deriving DecidableEq, Repr

/-- The coding mode (R59). -/
inductive Mode where
  | none | sof0 | sof1 | sof2 | sof3
deriving DecidableEq, Repr

/-- The chroma layout (R59). -/
inductive Layout where
  | l444 | l422 | l244 | l411 | other
deriving DecidableEq, Repr

/-- The colour space (R59). -/
inductive CSpace where
  | unknown | gray | rgb | bgr | ycbcr | cmyk | ycck
deriving DecidableEq, Repr

/-- The scan kind (R59). -/
inductive ScanKind where
  | none | seq | dcFirst | dcRefine | acFirst | acRefine | lossless
deriving DecidableEq, Repr

/-- COMP[c] (R41). -/
structure Comp where
  id : Byte
  h : BitVec 4
  v : BitVec 4
  tq : BitVec 2
  uph : BitVec 4
  upv : BitVec 4
deriving DecidableEq, Repr

/-- COMPGEO[c] (R55), derived and not readable. -/
structure Geo where
  bw : Nat
  bh : Nat
  cw : Nat
  ch : Nat
  coff : Nat
deriving DecidableEq, Repr

/-- The frame state SETFRM writes: STATUS.HDR_VALID (R24), FRAME0, FRAME1 but for CS, GEOM, COEF_NEED, COMP, COMPGEO
(R37–R41, R55). -/
structure Frame where
  hdrValid : Bool
  x : Half
  y : Half
  p : Byte
  ncomp : BitVec 3
  mode : Mode
  layout : Layout
  hmax : BitVec 4
  vmax : BitVec 4
  mcux : Half
  mcuy : Half
  coefNeed : Word
  comp : Quad Comp
  geo : Quad Geo
deriving DecidableEq, Repr

/-- The scan state SETSCN writes: STATUS.CS_VALID and SCAN_ACTIVE (R24), FRAME1.CS (R38), SCAN0, SCAN1,
SCANPOS.SROWS and SCANW (R43–R45). -/
structure Scan where
  csValid : Bool
  active : Bool
  cs : CSpace
  ns : BitVec 3
  cidx : Quad (BitVec 2)
  ss : Byte
  se : Byte
  ah : BitVec 4
  al : BitVec 4
  td : Quad (BitVec 2)
  ta : Quad (BitVec 2)
  smode : ScanKind
  srows : Half
  scols : Half
deriving DecidableEq, Repr

/-- The state entropy decoding runs on: BITRD (R48), STATUS.MARKER_HIT (R24), DCPRED (R42), EOBRUN (R47), RTG and
NEXT_RST (R46), SCANPOS.SROW (R45), LLPREV and LLFIRST (R56). -/
structure Entropy where
  bb : Byte
  bl : BitVec 4
  markerHit : Bool
  dcpred : Quad Half
  eobrun : Half
  rtg : Half
  nextRst : BitVec 3
  srow : Half
  llprev : Sparse 16
  llfirst : Bool
deriving DecidableEq, Repr

/-- The completion flags: COMPDONE.SEQDONE and DCDONE (R49), ACMASK (R50). -/
structure Progress where
  seqDone : Quad Bool
  dcDone : Quad Bool
  acmask : Quad (BitVec 64)
deriving DecidableEq, Repr

/-- The warnings: STATUS.WARN_RST and WARN_ENT (R24), WARN_CNT (R27). -/
structure Warn where
  rst : Bool
  ent : Bool
  cntRst : Half
  cntEnt : Half
deriving DecidableEq, Repr

/-- The decoder state: everything the RESET command clears (R325). `ri` is RSTSTAT.RI (R46). -/
structure Dec where
  info : Meta
  tab : Tables
  frm : Frame
  scn : Scan
  ri : Half
  ent : Entropy
  prog : Progress
  warn : Warn
deriving DecidableEq, Repr

/-- The width of a host access. -/
inductive Width where
  | w8 | w16 | w32
deriving DecidableEq, Repr

/-- What the host and the platform do to the block (R6), one event at a time. -/
inductive BusEvent where
  /-- The block takes one step. -/
  | run
  /-- The host loads from a physical address: a CSR inside the window, system memory outside it (R80). -/
  | load (addr : Word) (width : Width)
  /-- The host stores to a physical address (R80). -/
  | store (addr : Word) (width : Width) (value : Word)
  /-- The platform's reset input, between commands (R380). -/
  | resetPin
  /-- A reset, by the reset input or CTRL.SRST, that arrives while the block executes the command it is at (R380, I3). -/
  | resetDuringCommand
deriving DecidableEq, Repr

/-- The buffer an access of the block goes through (R6, R100). -/
inductive Buf where
  | cmd | src | coef | plane (c : Nat) | uplane (c : Nat) | dst | blkSrc | blkDst
deriving DecidableEq, Repr

/-- The addresses `lo`..`hi`, accessed through one buffer. -/
structure Span where
  buf : Buf
  lo : Nat
  hi : Nat
deriving DecidableEq, Repr

/-- What one command of a run read and wrote in system memory. -/
structure Access where
  reads : List Span
  writes : List Span
deriving DecidableEq, Repr

/-- What a run began with (R321), so that what it would have done beside other host stores is known (I5): the host's
registers cannot change during it (R21 (d)). -/
structure RunStart where
  cqPtr : Word
  srcPos : Word
  dec : Dec
  mem : Memory
  free : Nat
deriving DecidableEq, Repr

/-- What R97 (c) and I5 need of the run that is going: what it began with; what its commands have accessed, last first; the
bytes of system memory the host has stored to since GO; how many of the newest loads the host has made since GO. -/
structure Race where
  start : RunStart
  log : List Access
  stored : List Word
  loads : Nat
deriving DecidableEq, Repr

/-- No command has run and the host has done nothing since GO. -/
def RunStart.race (r : RunStart) : Race := { start := r, log := [], stored := [], loads := 0 }

/-- What a load of the host returned. -/
structure Load where
  addr : Word
  width : Width
  value : Word
deriving DecidableEq, Repr

/-- The machine's state. -/
structure State where
  params : Params
  cfg : Cfg
  proc : Proc
  /-- SRC_POS (R29). -/
  srcPos : Word
  dec : Dec
  mem : Memory
  /-- The model's own (log entry 2): what the host and the platform do next, first event first. -/
  events : List BusEvent
  /-- The model's own (log entry 2): what the host's loads returned, last load first. -/
  loads : List Load
  /-- The model's own (log entry 7): the host's accesses to system memory beside the run's (R97). -/
  race : Race
  /-- The model's own (log entry 4): how many free values have been taken. -/
  free : Nat
deriving DecidableEq, Repr

/-- Why the machine stops: no rule stops it. A command's errors are the block's own, and the machine goes on in HALT (R322,
R341); a race between the host and a run gives any value and "never gives a fault" (R97 (c), I5). So no reason is listed. -/
inductive Fault where
deriving DecidableEq, Repr

/-- What the model gives no meaning. -/
inductive Refusal where
  /-- An instruction with no meaning yet. Raised by no arm of exec; safe. -/
  | notModelled (mnemonic : String)
  /-- A host access that touches the CSR window and is not an aligned 32-bit access (R21 (a)): I1 says refuse. Raised by
  Machine/HostPort.lean; safe (log entry 8). -/
  | csrAccessNotWord (addr : Word)
deriving DecidableEq, Repr

/-- MEM_OK true everywhere but in the window, IDCT_FN its default IDCT_REF, one lane: the parameters State.reset carries
(log entry 1). -/
def Params.reset : Params :=
  { jrbPage := Config.resetJrbPage, noAccess := [], idctDev := [], nWorkers := 1 }

/-- R382: the host-programmed registers and the CTRL enables. -/
def Cfg.reset : Cfg :=
  { ieDone := false, ieErr := false, ieWarn := false
    srcBase := 0, srcLen := 0, coefBase := 0, coefSize := 0
    planeBase := .all 0, planeStride := .all 0, uplaneBase := .all 0, uplaneStride := .all 0
    dstBase := 0, dstStride := 0, dstCs := 0, dstNch := 0, dst422 := false, dstPrec16 := false }

/-- R382: CQ_PTR, BUSY, DONE, ERR and the error record. -/
def Proc.reset : Proc :=
  { cqPtr := 0, busy := false, done := false, err := false, errCode := 0, errClass := 0, errCp := 0, errData := 0 }

/-- R382: META. -/
def Meta.reset : Meta := { jfif := false, adobe := false, adobeXform := 0 }

/-- R382: one Huffman table, all 0, with an empty HCODE. -/
def HuffTab.reset : HuffTab := { bits := Vector.replicate 16 0, vals := [], hcode := [] }

/-- R382: QTMEM, HTMEM, HCODE and TBLVALID. -/
def Tables.reset : Tables :=
  { qt := .all (Vector.replicate 64 0), dc := .all HuffTab.reset, ac := .all HuffTab.reset
    qtv := .all false, dcv := .all false, acv := .all false, qtp := .all false }

/-- R382: COMP[c]. -/
def Comp.reset : Comp := { id := 0, h := 0, v := 0, tq := 0, uph := 0, upv := 0 }

/-- R382: COMPGEO[c]. -/
def Geo.reset : Geo := { bw := 0, bh := 0, cw := 0, ch := 0, coff := 0 }

/-- R382: HDR_VALID, FRAME0, FRAME1, GEOM, COEF_NEED, COMP, COMPGEO. -/
def Frame.reset : Frame :=
  { hdrValid := false, x := 0, y := 0, p := 0, ncomp := 0, mode := .none, layout := .l444, hmax := 0, vmax := 0
    mcux := 0, mcuy := 0, coefNeed := 0, comp := .all Comp.reset, geo := .all Geo.reset }

/-- R382: CS_VALID, SCAN_ACTIVE, FRAME1.CS, SCAN0, SCAN1, SROWS, SCANW. -/
def Scan.reset : Scan :=
  { csValid := false, active := false, cs := .unknown, ns := 0, cidx := .all 0, ss := 0, se := 0, ah := 0, al := 0
    td := .all 0, ta := .all 0, smode := .none, srows := 0, scols := 0 }

/-- R382: BITRD, MARKER_HIT, DCPRED, EOBRUN, RTG, NEXT_RST, SROW, LLPREV = 0 and LLFIRST = 1. -/
def Entropy.reset : Entropy :=
  { bb := 0, bl := 0, markerHit := false, dcpred := .all 0, eobrun := 0, rtg := 0, nextRst := 0, srow := 0
    llprev := [], llfirst := true }

/-- R382: COMPDONE and ACMASK. -/
def Progress.reset : Progress := { seqDone := .all false, dcDone := .all false, acmask := .all 0 }

/-- R382: WARN_RST, WARN_ENT, WARN_CNT. -/
def Warn.reset : Warn := { rst := false, ent := false, cntRst := 0, cntEnt := 0 }

/-- R382: the decoder state. -/
def Dec.reset : Dec :=
  { info := Meta.reset, tab := Tables.reset, frm := Frame.reset, scn := Scan.reset, ri := 0
    ent := Entropy.reset, prog := Progress.reset, warn := Warn.reset }

/-- What no run has begun with. -/
def RunStart.reset : RunStart := { cqPtr := 0, srcPos := 0, dec := Dec.reset, mem := [], free := 0 }

/-- No run is going. -/
def Race.empty : Race := RunStart.reset.race

/-- The machine right after reset (R60, R380, R382): idle, nothing pending. -/
def State.reset : State :=
  { params := Params.reset, cfg := Cfg.reset, proc := Proc.reset, srcPos := 0, dec := Dec.reset, mem := []
    events := [], loads := [], race := Race.empty, free := 0 }

end Sys2Proof.Machine
end

