-- ==== Sys2Proof/Machine/Ops.lean ====
section
/-! DEFINITION. The named operations over the state: four-way registers, sparse data and system memory (R80–R83), the
access log behind R95's overlap rule, raising an error and error entry (R340–R343), and completing a command (R320). -/
namespace Sys2Proof.Machine

/-! ### Four-way registers -/

/-- Element `i` of four (an index above 3 reads element 3: no rule uses one). -/
def Quad.get {α : Type} (q : Quad α) (i : Nat) : α :=
  match i with
  | 0 => q.c0
  | 1 => q.c1
  | 2 => q.c2
  | _ => q.c3

/-- Write element `i` of four. -/
def Quad.set {α : Type} (q : Quad α) (i : Nat) (v : α) : Quad α :=
  match i with
  | 0 => { q with c0 := v }
  | 1 => { q with c1 := v }
  | 2 => { q with c2 := v }
  | _ => { q with c3 := v }

/-- Four elements by index. -/
def Quad.ofFn {α : Type} (f : Nat → α) : Quad α := ⟨f 0, f 1, f 2, f 3⟩

/-! ### Sparse data in canonical form -/

/-- Read key `k`: an unlisted key reads 0. -/
def Sparse.read {w : Nat} : Sparse w → Nat → BitVec w
  | [], _ => 0
  | (b, v) :: rest, k => if k = b then v else Sparse.read rest k

/-- Write key `k`, keeping the canonical form: writing 0 removes the entry. -/
def Sparse.write {w : Nat} : Sparse w → Nat → BitVec w → Sparse w
  | [], k, x => if x = 0 then [] else [(k, x)]
  | (b, v) :: rest, k, x =>
    if k < b then (if x = 0 then (b, v) :: rest else (k, x) :: (b, v) :: rest)
    else if k = b then (if x = 0 then rest else (k, x) :: rest)
    else (b, v) :: Sparse.write rest k x

/-- Every key is at least `lo`, keys rise, and no entry equals 0. -/
def Sparse.sortedFrom {w : Nat} : Nat → Sparse w → Bool
  | _, [] => true
  | lo, (b, v) :: rest => decide (lo ≤ b) && decide (v ≠ 0) && Sparse.sortedFrom (b + 1) rest

/-- Keys rise and no entry equals 0. -/
def Sparse.wf {w : Nat} (m : Sparse w) : Bool := Sparse.sortedFrom 0 m

/-- Write the values of a list at consecutive keys from `k`. -/
def Sparse.writeList {w : Nat} : Sparse w → Nat → List (BitVec w) → Sparse w
  | m, _, [] => m
  | m, k, x :: xs => Sparse.writeList (Sparse.write m k x) (k + 1) xs

/-! ### System memory -/

/-- The byte at an address (R80). What an unlisted byte reads as is 0 (log entry 3). -/
def Memory.read (m : Memory) (a : Nat) : Byte := Sparse.read m a

/-- Store one byte (R80). -/
def Memory.write (m : Memory) (a : Nat) (v : Byte) : Memory := Sparse.write m a v

/-- The canonical form: addresses below 2^32 and strictly rising, no entry equal to what an unlisted address reads as. -/
def Memory.wf (m : Memory) : Bool := Sparse.wf m && m.all fun c => decide (c.1 < 2 ^ 32)

/-- Store the bytes of a list at consecutive addresses from `a`, modulo 2^32. -/
def Memory.writeBytes : Memory → Word → List Byte → Memory
  | m, _, [] => m
  | m, a, b :: bs => Memory.writeBytes (Memory.write m a.toNat b) (a + 1) bs

/-- JRB_BASE (R20). -/
def Params.jrbBase (p : Params) : Word := p.jrbPage ++ 0#13

/-- An address in the 8 KiB CSR window (R20). -/
def Params.inWindow (p : Params) (a : Nat) : Bool := decide (p.jrbBase.toNat ≤ a) && decide (a < p.jrbBase.toNat + 0x2000)

/-- MEM_OK (R81), false over the CSR window (R80 (b)). -/
def Params.memOk (p : Params) (a : Nat) : Bool :=
  !p.inWindow a && !p.noAccess.any fun r => decide (r.1 ≤ a) && decide (a < r.1 + r.2)

/-! ### Errors -/

/-- The error names (R340). -/
inductive ErrName where
  | bufferTooSmall | badSegmentLength | badQuantSegment | badHuffTbl | badFrameSegment | badScanSegment
  | badComponentId | notImplemented | outOfMemory | internalError | illegalCommand | busError | badState
deriving DecidableEq, Repr

/-- ERRINFO.CODE (R340). -/
def ErrName.code : ErrName → BitVec 8
  | .bufferTooSmall => 1
  | .badSegmentLength => 2
  | .badQuantSegment => 3
  | .badHuffTbl => 4
  | .badFrameSegment => 5
  | .badScanSegment => 6
  | .badComponentId => 7
  | .notImplemented => 8
  | .outOfMemory => 9
  | .internalError => 10
  | .illegalCommand => 11
  | .busError => 12
  | .badState => 13

/-- ERRINFO.CLASS (R342). -/
def ErrName.cls : ErrName → BitVec 2
  | .bufferTooSmall => 1
  | .badSegmentLength => 1
  | .badQuantSegment => 1
  | .badHuffTbl => 1
  | .badFrameSegment => 1
  | .badScanSegment => 1
  | .badComponentId => 1
  | .notImplemented => 2
  | .outOfMemory => 3
  | .internalError => 1
  | .illegalCommand => 0
  | .busError => 0
  | .badState => 0

/-- A raise: the error and the value ERR_DATA takes (R11, R343). -/
structure Raise where
  name : ErrName
  data : Word
deriving DecidableEq, Repr

/-- A raise whose detail is a number (a stream offset), as a 32-bit value. -/
def Raise.at (name : ErrName) (n : Nat) : Raise := ⟨name, BitVec.ofNat 32 n⟩

/-! ### The access log -/

/-- Add one access to a log, joining it to a span it lies in or follows. -/
def logAccess (b : Buf) (a : Nat) : List Span → List Span
  | [] => [⟨b, a, a⟩]
  | s :: rest =>
    if s.buf = b ∧ s.lo ≤ a ∧ a ≤ s.hi + 1 then { s with hi := max s.hi a } :: rest
    else s :: logAccess b a rest

/-- Log `n` accesses from an address, modulo 2^32. -/
def logRun (b : Buf) : Nat → Word → List Span → List Span
  | 0, _, l => l
  | n + 1, a, l => logRun b n (a + 1) (logAccess b a.toNat l)

/-- The host's stores beside a command (R97 (c)): the bytes stored to, and what the command's reads of them give, one after
another. -/
structure Beside where
  bytes : List Word
  given : List Byte
deriving DecidableEq, Repr

/-- No host store beside a command. -/
def Beside.none : Beside := { bytes := [], given := [] }

/-- System memory during one command, with the log of the command's reads and writes, and the host's stores beside it. -/
structure MemW where
  mem : Memory
  reads : List Span
  writes : List Span
  host : Beside
deriving DecidableEq, Repr

/-- The same with the host's stores beside it. -/
def MemW.beside (h : Beside) (w : MemW) : MemW := { w with host := h }

/-- What a read of an address gives, and the host's stores beside the reads after it: the next value given if the host has
stored there, or what memory holds. -/
def MemW.look (w : MemW) (a : Word) : Byte × Beside :=
  match w.host.given with
  | [] => (w.mem.read a.toNat, w.host)
  | v :: vs => if w.host.bytes.contains a then (v, { w.host with given := vs }) else (w.mem.read a.toNat, w.host)

/-- A computation of one command over system memory: it answers a value or raises, keeping what it did (R82, R341). -/
abbrev MM := EStateM Raise MemW

/-- The addresses two spans share, none if they go through the same buffer. -/
def Span.meet (w r : Span) : List Nat :=
  if w.buf = r.buf then [] else List.range' (max w.lo r.lo) (min w.hi r.hi + 1 - max w.lo r.lo)

/-- The bytes a command wrote and read through different buffers (R95, I6). -/
def MemW.overlap (w : MemW) : List Nat := w.writes.flatMap fun x => w.reads.flatMap fun y => x.meet y

/-! ### Memory accesses (R81, R82) -/

/-- Read one byte through a buffer: BusError where MEM_OK is false. -/
def readByte (p : Params) (b : Buf) (a : Word) : MM Byte := fun w =>
  if p.memOk a.toNat then .ok (w.look a).1 { w with reads := logAccess b a.toNat w.reads, host := (w.look a).2 }
  else .error ⟨.busError, a⟩ w

/-- Write one byte through a buffer: BusError where MEM_OK is false. -/
def writeByte (p : Params) (b : Buf) (a : Word) (v : Byte) : MM Unit := fun w =>
  if p.memOk a.toNat then
    .ok () { w with mem := w.mem.write a.toNat v, writes := logAccess b a.toNat w.writes }
  else .error ⟨.busError, a⟩ w

/-- MemRead (R82): `n` bytes in ascending order, little-endian. -/
def memRead (p : Params) (b : Buf) : Nat → Word → MM Nat
  | 0, _ => pure 0
  | n + 1, a => do
    let x ← readByte p b a
    let r ← memRead p b n (a + 1)
    pure (x.toNat + 256 * r)

/-- MemWrite (R82): `n` bytes in ascending order, little-endian, of a possibly negative value. -/
def memWrite (p : Params) (b : Buf) : Nat → Word → Int → MM Unit
  | 0, _, _ => pure ()
  | n + 1, a, v => do
    writeByte p b a (BitVec.ofInt 8 v)
    memWrite p b n (a + 1) (v / 256)

/-- The little-endian value of `n` bytes of memory, or the first byte's BusError: MemRead where nothing is logged. -/
def fetchBytes (p : Params) (m : Memory) : Nat → Word → Except Raise (List Byte)
  | 0, _ => .ok []
  | n + 1, a =>
    if p.memOk a.toNat then
      match fetchBytes p m n (a + 1) with
      | .ok bs => .ok (m.read a.toNat :: bs)
      | .error e => .error e
    else .error ⟨.busError, a⟩

/-! ### Loops -/

/-- The state a computation leaves, completed or raised. -/
def stateAfter {ε σ α : Type} : EStateM.Result ε σ α → σ
  | .ok _ s => s
  | .error _ s => s

/-- Run `f lo, f (lo+1), …`, `n` times (R11's `for`). -/
def forRange {ε σ : Type} : Nat → Nat → (Nat → EStateM ε σ Unit) → EStateM ε σ Unit
  | _, 0, _ => pure ()
  | lo, n + 1, f => do
    f lo
    forRange (lo + 1) n f

/-- Put a computation that may raise, and changes nothing, into one that keeps a state. -/
def liftX {σ α : Type} (x : Except Raise α) : EStateM Raise σ α := fun s =>
  match x with
  | .ok a => .ok a s
  | .error e => .error e s

/-! ### Completing a command -/

/-- Normal completion (R320): CQ_PTR moves past the command. -/
def advance (op : Op) (s : State) : State :=
  { s with proc := { s.proc with cqPtr := s.proc.cqPtr + BitVec.ofNat 32 (4 * op.words) } }

/-- Error entry (R341): the one shared operation of taking an error. CQ_PTR holds the failing command's address. -/
def errorEntry (r : Raise) (s : State) : State :=
  { s with
    proc :=
      { s.proc with
        errCode := r.name.code, errClass := r.name.cls, errCp := s.proc.cqPtr, errData := r.data
        busy := false, err := true } }

/-- The end of an error (R345): the host writes 1 to STATUS.ERR, which returns the processor to IDLE. -/
def errorReturn (s : State) : State := { s with proc := { s.proc with err := false } }

/-- The memory a command starts with, its own words logged as read (R320). -/
def MemW.start (op : Op) (s : State) : MemW :=
  { mem := s.mem, reads := logRun .cmd (4 * op.words) s.proc.cqPtr [], writes := [], host := .none }

/-- The memory a command leaves: a byte it wrote and also read through another buffer takes a free value (R95, I6). -/
def State.settle (w : MemW) (s : State) : State :=
  match w.overlap with
  | [] => { s with mem := w.mem }
  | as =>
    { s with
      mem := as.foldl (fun m a => m.write a (Config.overlapByte s.free a (w.mem.read a))) w.mem, free := s.free + 1 }

/-- A step's answer. -/
abbrev Answer := Host.Outcome State Fault Refusal

/-- The end of a command that changes nothing but system memory. -/
def finishMem (op : Op) (s : State) (r : EStateM.Result Raise MemW Unit) : Answer :=
  match r with
  | .ok _ w => .next (advance op (s.settle w))
  | .error r w => .next (errorEntry r (s.settle w))

/-- Run a command that changes nothing but system memory. -/
def runMem (op : Op) (body : MM Unit) (s : State) : Answer := finishMem op s (body (MemW.start op s))

end Sys2Proof.Machine
end

