-- ==== Sys2Proof/Machine/Operands.lean ====
section
/-! DEFINITION. The operand forms: source-stream bytes and fields (R85, R86, R141), buffer addresses (R90–R93),
coefficient blocks (R90), row arguments (R270, R271), arithmetic notation (R10) and code values (R59). -/
namespace Sys2Proof.Machine

/-! ### Codes (R59) -/

/-- FRAME1.MODE's code (R59). -/
def Mode.code : Mode → BitVec 3
  | .none => 0
  | .sof0 => 1
  | .sof1 => 2
  | .sof2 => 3
  | .sof3 => 4

/-- FRAME1.LAYOUT's code (R59). -/
def Layout.code : Layout → BitVec 3
  | .l444 => 0
  | .l422 => 1
  | .l244 => 2
  | .l411 => 3
  | .other => 7

/-- A colour space's code (R59). -/
def CSpace.code : CSpace → BitVec 4
  | .unknown => 0
  | .gray => 1
  | .rgb => 2
  | .bgr => 3
  | .ycbcr => 4
  | .cmyk => 5
  | .ycck => 6

/-- SCAN1.SMODE's code (R59). -/
def ScanKind.code : ScanKind → BitVec 3
  | .none => 0
  | .seq => 1
  | .dcFirst => 2
  | .dcRefine => 3
  | .acFirst => 4
  | .acRefine => 5
  | .lossless => 6

/-- The coding mode of a frame type: SOFN + 1 (R170). -/
def modeOf : SofKind → Mode
  | .sof0 => .sof0
  | .sof1 => .sof1
  | .sof2 => .sof2
  | .sof3 => .sof3

/-! ### Notation (R10) -/

/-- `clamp(v, lo, hi)` (R10). -/
def clamp (v lo hi : Int) : Int := min (max v lo) hi

/-- `ceil(a / b)` for b > 0 (R10). -/
def ceilDiv (a b : Nat) : Nat := (a + b - 1) / b

/-- The high nibble of a byte (R86). -/
def hi4 (b : Byte) : BitVec 4 := b.extractLsb' 4 4

/-- The low nibble of a byte (R86). -/
def lo4 (b : Byte) : BitVec 4 := b.extractLsb' 0 4

/-! ### What a command reads and does not change -/

/-- The registers and tables a command's inner operations read. -/
structure Env where
  params : Params
  cfg : Cfg
  tab : Tables
  frm : Frame
  scn : Scan
  ri : Half
deriving DecidableEq, Repr

/-- The registers and tables of a state. -/
def State.env (s : State) : Env :=
  { params := s.params, cfg := s.cfg, tab := s.dec.tab, frm := s.dec.frm, scn := s.dec.scn, ri := s.dec.ri }

/-! ### The source stream -/

/-- The physical address of a source byte (R85). -/
def srcAddr (c : Cfg) (i : Nat) : Word := c.srcBase + BitVec.ofNat 32 i

/-- SrcByte (R85) in a given memory: bounds first, then the access check. -/
def srcByteIn (p : Params) (c : Cfg) (m : Memory) (i : Nat) : Except Raise Byte :=
  if c.srcLen.toNat ≤ i then .error (.at .bufferTooSmall i)
  else if p.memOk (srcAddr c i).toNat then .ok (m.read (srcAddr c i).toNat)
  else .error ⟨.busError, srcAddr c i⟩

/-- BE16 (R86) in a given memory, the byte at `i` read first. -/
def be16In (p : Params) (c : Cfg) (m : Memory) (i : Nat) : Except Raise Nat := do
  let hi ← srcByteIn p c m i
  let lo ← srcByteIn p c m (i + 1)
  pure (hi.toNat * 256 + lo.toNat)

/-- `n` source bytes from offset `i`, in ascending order. -/
def srcBytesIn (p : Params) (c : Cfg) (m : Memory) : Nat → Nat → Except Raise (List Byte)
  | 0, _ => pure []
  | n + 1, i => do
    let b ← srcByteIn p c m i
    let bs ← srcBytesIn p c m n (i + 1)
    pure (b :: bs)

/-- `n` two-byte source fields from offset `i` (R86). -/
def srcFieldsIn (p : Params) (c : Cfg) (m : Memory) : Nat → Nat → Except Raise (List Nat)
  | 0, _ => pure []
  | n + 1, i => do
    let v ← be16In p c m i
    let vs ← srcFieldsIn p c m n (i + 2)
    pure (v :: vs)

/-- SrcByte (R85) as an access of the running command. -/
def srcByte (e : Env) (i : Nat) : MM Byte :=
  if e.cfg.srcLen.toNat ≤ i then throw (.at .bufferTooSmall i) else readByte e.params .src (srcAddr e.cfg i)

/-! ### Buffer addresses -/

/-- CoefAddr (R90). -/
def coefAddr (e : Env) (c bx byy : Nat) : Word :=
  e.cfg.coefBase + BitVec.ofNat 32 ((e.frm.geo.get c).coff + (byy * (e.frm.geo.get c).bw + bx) * 128)

/-- BPS, the bytes of a plane sample (R91). -/
def planeBps (e : Env) : Nat := if e.frm.mode = .sof3 ∧ 8 < e.frm.p.toNat then 2 else 1

/-- PlaneAddr (R91). -/
def planeAddr (e : Env) (c x y : Nat) : Word :=
  e.cfg.planeBase.get c + BitVec.ofNat 32 y * e.cfg.planeStride.get c + BitVec.ofNat 32 (x * planeBps e)

/-- UPlaneAddr (R92). -/
def uplaneAddr (e : Env) (c x y : Nat) : Word :=
  e.cfg.uplaneBase.get c + BitVec.ofNat 32 y * e.cfg.uplaneStride.get c + BitVec.ofNat 32 x

/-- DBPS, the bytes of a destination sample (R93). -/
def dstBps (e : Env) : Nat := if e.cfg.dstPrec16 then 2 else 1

/-- DstAddr (R93). -/
def dstAddr (e : Env) (x y ch : Nat) : Word :=
  e.cfg.dstBase + BitVec.ofNat 32 y * e.cfg.dstStride
    + BitVec.ofNat 32 ((x * e.cfg.dstNch.toNat + ch) * dstBps e)

/-! ### Blocks (R90) -/

/-- 64 coefficients in natural order, 16-bit two's complement (R90). -/
abbrev Block := Vector Half 64

/-- The block of zeros. -/
def Block.zero : Block := Vector.replicate 64 0

/-- Coefficient `n` (0 past the block's end: no rule reads there). -/
def Block.at (b : Block) (n : Nat) : Half := b.toList.getD n 0

/-- Coefficient `n` as a signed number. -/
def Block.val (b : Block) (n : Nat) : Int := (b.at n).toInt

/-- Write coefficient `n`. -/
def Block.put (b : Block) (n : Nat) (v : Half) : Block := b.setIfInBounds n v

/-- wrap16 (R10, R204), as the 16-bit pattern. -/
def wrap16 (v : Int) : Half := BitVec.ofInt 16 v

/-- Read the `k` coefficients from `n` on of the block at `a` (R90). -/
def readCoefs (p : Params) (b : Buf) (a : Word) : Nat → Nat → Block → MM Block
  | 0, _, blk => pure blk
  | k + 1, n, blk => do
    let v ← memRead p b 2 (a + BitVec.ofNat 32 (2 * n))
    readCoefs p b a k (n + 1) (blk.put n (BitVec.ofNat 16 v))

/-- ReadBlock (R90). -/
def readBlock (p : Params) (b : Buf) (a : Word) : MM Block := readCoefs p b a 64 0 Block.zero

/-- WriteBlock (R90). -/
def writeBlock (p : Params) (b : Buf) (a : Word) (blk : Block) : MM Unit :=
  forRange 0 64 fun n => memWrite p b 2 (a + BitVec.ofNat 32 (2 * n)) (blk.val n)

/-! ### Bands and row arguments -/

/-- NBANDS (R270). -/
def nbands (e : Env) : Nat := if e.frm.mode = .sof3 then e.frm.y.toNat else e.frm.mcuy.toNat

/-- RowArgs (R271): the number of bands the command covers. -/
def rowArgs (e : Env) (row n : Nat) : Except Raise Nat :=
  if e.frm.hdrValid = false then .error ⟨.badState, 0⟩
  else
    let nb := nbands e
    let cnt := if n = 0 then nb - row else n
    if nb ≤ row ∨ cnt = 0 ∨ nb < row + cnt then .error (.at .illegalCommand (n * 65536 + row)) else .ok cnt

end Sys2Proof.Machine
end

