-- ==== Sys2Proof/Machine/Flags.lean ====
section
/-! DEFINITION. Every flag computation: warnings (R350), completion (R216), RECON_READY (R217), the interrupt line
(R352) and the STATUS word (R24). -/
namespace Sys2Proof.Machine

/-- A counter that saturates at 0xFFFF (R27). -/
def satInc (v : Half) : Half := if v = 0xFFFF#16 then v else v + 1

/-- `warn RST` (R350). -/
def Warn.warnRst (w : Warn) : Warn := { w with rst := true, cntRst := satInc w.cntRst }

/-- `warn ENT` (R350). -/
def Warn.warnEnt (w : Warn) : Warn := { w with ent := true, cntEnt := satInc w.cntEnt }

/-- Set the flags of the components in a list. -/
def setAll (q : Quad Bool) (cs : List Nat) : Quad Bool := cs.foldl (fun q c => q.set c true) q

/-- Bits `lo`..`hi` of a 64-bit mask. -/
def bitRange (lo hi : Nat) : BitVec 64 :=
  BitVec.ofNat 64 ((List.range' lo (hi + 1 - lo)).foldl (fun m k => m ||| 2 ^ k) 0)

/-- Set bits `lo`..`hi` of the masks of the components in a list. -/
def setBits (q : Quad (BitVec 64)) (lo hi : Nat) (cs : List Nat) : Quad (BitVec 64) :=
  cs.foldl (fun q c => q.set c (q.get c ||| bitRange lo hi)) q

/-- The frame components of the scan, in scan order (R43). -/
def Scan.comps (s : Scan) : List Nat := (List.range s.ns.toNat).map fun j => (s.cidx.get j).toNat

/-- ScanComplete's completion flags (R216). -/
def Progress.complete (p : Progress) (s : Scan) : Progress :=
  match s.smode with
  | .seq => { p with seqDone := setAll p.seqDone s.comps }
  | .lossless => { p with seqDone := setAll p.seqDone s.comps }
  | .dcFirst => { p with dcDone := setAll p.dcDone s.comps }
  | .acFirst => { p with acmask := setBits p.acmask s.ss.toNat s.se.toNat s.comps }
  | .dcRefine => p
  | .acRefine => p
  | .none => p

/-- COMPDONE.ACDONE for one component: its ACMASK[63:1] are all 1 (R49). -/
def acDone (m : BitVec 64) : Bool := m ||| 1 == BitVec.allOnes 64

/-- RECON_READY (R217). -/
def reconReady (f : Frame) (p : Progress) : Bool :=
  let cs := List.range f.ncomp.toNat
  match f.mode with
  | .none => false
  | .sof0 => cs.all fun c => p.seqDone.get c
  | .sof1 => cs.all fun c => p.seqDone.get c
  | .sof3 => cs.all fun c => p.seqDone.get c
  | .sof2 => cs.all fun c => p.dcDone.get c && acDone (p.acmask.get c)

/-- The interrupt line (R352). -/
def irq (s : State) : Bool :=
  (s.proc.done && s.cfg.ieDone) || (s.proc.err && s.cfg.ieErr)
    || ((s.dec.warn.rst || s.dec.warn.ent) && s.cfg.ieWarn)

/-- A flag as one bit. -/
def bit (b : Bool) : BitVec 1 := BitVec.ofBool b

/-- Four flags as a 4-bit field, element c at bit c. -/
def bits4 (q : Quad Bool) : BitVec 4 := bit q.c3 ++ bit q.c2 ++ bit q.c1 ++ bit q.c0

/-- The STATUS register (R24). -/
def statusWord (s : State) : Word :=
  0#18 ++ bit (irq s) ++ bit (reconReady s.dec.frm s.dec.prog) ++ bit s.dec.ent.markerHit ++ bit s.dec.scn.active
    ++ bit s.dec.scn.csValid ++ bit s.dec.frm.hdrValid ++ 0#3 ++ bit s.dec.warn.ent ++ bit s.dec.warn.rst
    ++ bit s.proc.err ++ bit s.proc.done ++ bit s.proc.busy

end Sys2Proof.Machine
end

