-- ==== Sys2Proof/Machine/Control.lean ====
section
/-! DEFINITION. The control commands: NOP, END, RESET (R323–R325). -/
namespace Sys2Proof.Machine

/-- NOP (R323). -/
def execNop (s : State) : Answer := .next (advance .nop s)

/-- END's effect (R324): DONE set and BUSY cleared. -/
def endRun (s : State) : State := { s with proc := { s.proc with busy := false, done := true } }

/-- END (R324). -/
def execEnd (s : State) : Answer := .next (endRun (advance .endList s))

/-- RESET's effect (R325): the decoder state as at reset; the host's registers, BUSY, DONE, ERR, the error record,
SRC_POS and memory stay. -/
def clearDecoder (s : State) : State := { s with dec := Dec.reset }

/-- RESET (R325). -/
def execReset (s : State) : Answer := .next (advance .reset (clearDecoder s))

end Sys2Proof.Machine
end

