-- ==== Sys2Proof/Machine/Segments.lean ====
section
/-! DEFINITION. The segment commands: SEEK, LDQT, LDHT, SETRI, SETFRM, SETSCN (R140–R184). -/
namespace Sys2Proof.Machine

/-! ### SEEK -/

/-- A new source cursor (R140, R29): the bit reader is reset. -/
def setCursor (pos : Word) (s : State) : State :=
  { s with srcPos := pos, dec := { s.dec with ent := { s.dec.ent with bl := 0, markerHit := false } } }

/-- SEEK (R140). -/
def execSeek (offset : Word) (s : State) : Answer :=
  if s.cfg.srcLen.toNat < offset.toNat then .next (errorEntry ⟨.illegalCommand, offset⟩ s)
  else .next (advance .seek (setCursor offset s))

/-! ### Common -/

/-- SrcByte of a segment command, in the memory the command starts with. -/
def State.src (s : State) (i : Nat) : Except Raise Byte := srcByteIn s.params s.cfg s.mem i

/-- BE16 of a segment command. -/
def State.be16 (s : State) (i : Nat) : Except Raise Nat := be16In s.params s.cfg s.mem i

/-- Natural index of the k-th coefficient in zigzag order (R200). -/
def zzTable : List Nat :=
  [ 0,  1,  8, 16,  9,  2,  3, 10, 17, 24, 32, 25, 18, 11,  4,  5] ++
  [12, 19, 26, 33, 40, 48, 41, 34, 27, 20, 13,  6,  7, 14, 21, 28] ++
  [35, 42, 49, 56, 57, 50, 43, 36, 29, 22, 15, 23, 30, 37, 44, 51] ++
  [58, 59, 52, 45, 38, 31, 39, 46, 53, 60, 61, 54, 47, 55, 62, 63]

/-- ZZ[k] (R200). -/
def zz (k : Nat) : Nat := zzTable.getD k 0

/-- A segment command's end: the tables it loaded stay; SRC_POS moves only if it completed (R141). -/
def finishTables (op : Op) (s : State) (r : EStateM.Result Raise Tables Nat) : Answer :=
  match r with
  | .ok pos t => .next (advance op { s with srcPos := BitVec.ofNat 32 pos, dec := { s.dec with tab := t } })
  | .error e t => .next (errorEntry e { s with dec := { s.dec with tab := t } })

/-! ### LDQT -/

/-- The 64 raw values of one quantisation table at offset `p` (R150): bytes for Pq = 0, two-byte fields for Pq = 1. -/
def readQuant (s : State) (pq p : Nat) : Except Raise (List Nat) :=
  if pq = 0 then do
    let bs ← srcBytesIn s.params s.cfg s.mem 64 p
    pure (bs.map BitVec.toNat)
  else srcFieldsIn s.params s.cfg s.mem 64 p

/-- Raw values, in zigzag order from index `k`, at their natural places (R150). -/
def placeQuant : Nat → List Nat → Vector Half 64 → Vector Half 64
  | _, [], q => q
  | k, v :: vs, q => placeQuant (k + 1) vs (q.setIfInBounds (zz k) (BitVec.ofNat 16 v))

/-- Commit one quantisation table (R150). -/
def Tables.commitQuant (t : Tables) (tq pq : Nat) (raw : List Nat) : Tables :=
  { t with
    qt := t.qt.set tq (placeQuant 0 raw (Vector.replicate 64 0))
    qtv := t.qtv.set tq true
    qtp := t.qtp.set tq (pq == 1) }

/-- LDQT's loop (R150) at offset `p` with `rem` bytes left; answers the offset after the segment. -/
def ldqtLoop (s : State) : Nat → Nat → Nat → EStateM Raise Tables Nat
  | 0, p, _ => pure p
  | fuel + 1, p, rem =>
    if rem = 0 then pure p
    else do
      let b ← liftX (s.src p)
      let pq := (hi4 b).toNat
      let tq := (lo4 b).toNat
      if 3 < tq ∨ 1 < pq then throw (.at .badQuantSegment (p + 1))
      else if rem - 1 < 64 * (pq + 1) then throw (.at .badSegmentLength (p + 1))
      else do
        let raw ← liftX (readQuant s pq (p + 1))
        modify fun t => t.commitQuant tq pq raw
        ldqtLoop s fuel (p + 1 + 64 * (pq + 1)) (rem - 1 - 64 * (pq + 1))

/-- LDQT's parse (R150). -/
def ldqtBody (s : State) : EStateM Raise Tables Nat := do
  let pos := s.srcPos.toNat
  let len ← liftX (s.be16 pos)
  if len < 2 then throw (.at .badSegmentLength (pos + 2))
  else ldqtLoop s (len - 2) (pos + 2) (len - 2)

/-- LDQT (R150). -/
def execLdqt (s : State) : Answer := finishTables .ldqt s (ldqtBody s s.dec.tab)

/-! ### LDHT -/

/-- The `n` codes of length `len` from `code` on (R161): the entries, the next code and the values left, or none where
the code space is full. -/
def assignCodes (len : Nat) : Nat → Nat → List Byte → Option (List HEntry × Nat × List Byte)
  | 0, code, vals => some ([], code, vals)
  | n + 1, code, vals =>
    if 2 ^ len ≤ code then none
    else
      match assignCodes len n (code + 1) vals.tail with
      | none => none
      | some (es, code', rest) => some (⟨len, code, vals.headD 0⟩ :: es, code', rest)

/-- BuildHuff (R161) from code length `len` on. -/
def buildFrom : List Nat → Nat → Nat → List Byte → Option (List HEntry)
  | [], _, _, _ => some []
  | n :: counts, len, code, vals =>
    match assignCodes len n code vals with
    | none => none
    | some (es, code', rest) =>
      match buildFrom counts (len + 1) (code' * 2) rest with
      | none => none
      | some more => some (es ++ more)

/-- BuildHuff (R161) of CNT[1..16] and the values; none is "table construction fails". -/
def buildHuff (counts : List Nat) (vals : List Byte) : Option (List HEntry) := buildFrom counts 1 0 vals

/-- Commit one Huffman table (R160). -/
def Tables.commitHuff (t : Tables) (tc th : Nat) (h : HuffTab) : Tables :=
  if tc = 0 then { t with dc := t.dc.set th h, dcv := t.dcv.set th true }
  else { t with ac := t.ac.set th h, acv := t.acv.set th true }

/-- LDHT's loop (R160) at offset `p` with `rem` bytes left; answers the offset after the segment. -/
def ldhtLoop (s : State) : Nat → Nat → Nat → EStateM Raise Tables Nat
  | 0, p, _ => pure p
  | fuel + 1, p, rem =>
    if 16 < rem then do
      let b ← liftX (s.src p)
      let cnt ← liftX (srcBytesIn s.params s.cfg s.mem 16 (p + 1))
      let n := (cnt.map BitVec.toNat).sum
      if 256 < n ∨ rem - 17 < n then throw (.at .badHuffTbl (p + 17))
      else do
        let vals ← liftX (srcBytesIn s.params s.cfg s.mem n (p + 17))
        let tc := (hi4 b).toNat
        let th := (lo4 b).toNat
        if 1 < tc ∨ 3 < th then throw (.at .badHuffTbl (p + 17 + n))
        else
          match buildHuff (cnt.map BitVec.toNat) vals with
          | none => throw (.at .internalError (p + 17 + n))
          | some hc => do
            modify fun t =>
              t.commitHuff tc th { bits := Vector.ofFn fun i => cnt.getD i.val 0, vals := vals, hcode := hc }
            ldhtLoop s fuel (p + 17 + n) (rem - 17 - n)
    else if rem ≠ 0 then throw (.at .badSegmentLength p)
    else pure p

/-- LDHT's parse (R160). -/
def ldhtBody (s : State) : EStateM Raise Tables Nat := do
  let pos := s.srcPos.toNat
  let len ← liftX (s.be16 pos)
  if len < 2 then throw (.at .badSegmentLength (pos + 2))
  else ldhtLoop s (len - 1) (pos + 2) (len - 2)

/-- LDHT (R160). -/
def execLdht (s : State) : Answer := finishTables .ldht s (ldhtBody s s.dec.tab)

/-! ### SETRI -/

/-- SETRI's parse (R165): the restart interval. -/
def parseDri (s : State) : Except Raise Nat := do
  let pos := s.srcPos.toNat
  let len ← s.be16 pos
  let ri ← s.be16 (pos + 2)
  if len ≠ 4 then throw (.at .badSegmentLength (pos + 4)) else pure ri

/-- SETRI's effect (R165). -/
def commitRi (ri : Nat) (s : State) : State :=
  { s with
    srcPos := s.srcPos + 4
    dec := { s.dec with ri := BitVec.ofNat 16 ri, ent := { s.dec.ent with rtg := BitVec.ofNat 16 ri } } }

/-- SETRI (R165). -/
def execSetri (s : State) : Answer :=
  match parseDri s with
  | .ok ri => .next (advance .setri (commitRi ri s))
  | .error r => .next (errorEntry r s)

/-! ### SETFRM -/

/-- One component of a frame header (R142). -/
structure CompHdr where
  id : Byte
  h : Nat
  v : Nat
  tq : Nat
deriving DecidableEq, Repr

/-- A frame header (R142), with the offset after it. -/
structure FrameHdr where
  p : Byte
  y : Nat
  x : Nat
  comps : List CompHdr
  pos : Nat
deriving DecidableEq, Repr

/-- SETFRM's component loop (R170): `n` components from offset `p`. -/
def parseComps (s : State) : Nat → Nat → Except Raise (List CompHdr)
  | 0, _ => pure []
  | n + 1, p => do
    let ci ← s.src p
    let b ← s.src (p + 1)
    let tq ← s.src (p + 2)
    if (hi4 b).toNat = 0 ∨ (lo4 b).toNat = 0 ∨ 3 < tq.toNat then throw (.at .badFrameSegment (p + 3))
    else do
      let rest ← parseComps s n (p + 3)
      pure (⟨ci, (hi4 b).toNat, (lo4 b).toNat, tq.toNat⟩ :: rest)

/-- SETFRM's parse and checks up to the geometry (R170). -/
def parseFrame (s : State) (mode : Mode) : Except Raise FrameHdr := do
  let pos := s.srcPos.toNat
  let len ← s.be16 pos
  let prec ← s.src (pos + 2)
  let y ← s.be16 (pos + 3)
  let x ← s.be16 (pos + 5)
  let nf ← s.src (pos + 7)
  if nf.toNat < 1 ∨ 4 < nf.toNat then throw (.at .badFrameSegment (pos + 8))
  else do
    let comps ← parseComps s nf.toNat (pos + 8)
    let p := pos + 8 + 3 * nf.toNat
    if len ≠ 8 + 3 * nf.toNat then throw (.at .badSegmentLength p)
    else if mode ≠ .sof3 ∧ prec.toNat ≠ 8 then throw (.at .notImplemented p)
    else if mode = .sof3 ∧ nf.toNat ≠ 1 then throw (.at .notImplemented p)
    else if mode = .sof3 ∧ (prec.toNat < 2 ∨ 16 < prec.toNat) then throw (.at .badFrameSegment p)
    else if x = 0 then throw (.at .badFrameSegment p)
    else if y = 0 then throw (.at .notImplemented p)
    else pure { p := prec, y := y, x := x, comps := comps, pos := p }

/-- The layouts of three components whose second and third are (1,1) (R163). -/
def layout3 (h0 v0 : Nat) : Layout :=
  if h0 = 1 ∧ v0 = 1 then .l444
  else if h0 = 2 ∧ v0 = 1 then .l422
  else if h0 = 1 ∧ v0 = 2 then .l244
  else if h0 = 2 ∧ v0 = 2 then .l411
  else .other

/-- A component at full chroma reduction: (1,1). -/
def CompHdr.isUnit (c : CompHdr) : Bool := c.h == 1 && c.v == 1

/-- The chroma layout (R163). -/
def layoutOf : List CompHdr → Layout
  | [c0] => if c0.isUnit then .l444 else .other
  | [c0, c1, c2] => if c1.isUnit && c2.isUnit then layout3 c0.h c0.v else .other
  | [c0, c1, c2, c3] =>
    if c1.isUnit && c2.isUnit && c3.h == c0.h && c3.v == c0.v then layout3 c0.h c0.v else .other
  | _ => .other

/-- The largest of a list of sampling factors. -/
def maxOf (l : List Nat) : Nat := l.foldl max 0

/-- Frame geometry (R171). -/
structure Geom where
  hmax : Nat
  vmax : Nat
  mcux : Nat
  mcuy : Nat
  geos : List Geo
  need : Nat
deriving DecidableEq, Repr

/-- The components' geometry (R171), the first at offset `coff`, and the size of all. -/
def geoList (lossless : Bool) (x y hmax vmax mcux mcuy : Nat) : List CompHdr → Nat → List Geo × Nat
  | [], coff => ([], coff)
  | c :: cs, coff =>
    let g : Geo :=
      { bw := mcux * c.h, bh := mcuy * c.v, cw := ceilDiv (x * c.h) hmax, ch := ceilDiv (y * c.v) vmax, coff := coff }
    let r := geoList lossless x y hmax vmax mcux mcuy cs (if lossless then coff else coff + g.bw * g.bh * 128)
    (g :: r.1, r.2)

/-- Geometry (R171). -/
def geometry (mode : Mode) (f : FrameHdr) : Geom :=
  let hmax := maxOf (f.comps.map CompHdr.h)
  let vmax := maxOf (f.comps.map CompHdr.v)
  let mcux := if mode = .sof3 then f.x else ceilDiv f.x (8 * hmax)
  let mcuy := if mode = .sof3 then f.y else ceilDiv f.y (8 * vmax)
  let r := geoList (mode == .sof3) f.x f.y hmax vmax mcux mcuy f.comps 0
  { hmax := hmax, vmax := vmax, mcux := mcux, mcuy := mcuy, geos := r.1, need := r.2 }

/-- COMP[c] as SETFRM writes it (R41, R170): 0 for c ≥ Nf. -/
def compOf (g : Geom) (comps : List CompHdr) (c : Nat) : Comp :=
  match comps[c]? with
  | none => Comp.reset
  | some h =>
    { id := h.id, h := BitVec.ofNat 4 h.h, v := BitVec.ofNat 4 h.v, tq := BitVec.ofNat 2 h.tq
      uph := BitVec.ofNat 4 (g.hmax / h.h), upv := BitVec.ofNat 4 (g.vmax / h.v) }

/-- The frame registers SETFRM commits (R170). -/
def frameOf (mode : Mode) (f : FrameHdr) (g : Geom) : Frame :=
  { hdrValid := true
    x := BitVec.ofNat 16 f.x, y := BitVec.ofNat 16 f.y, p := f.p, ncomp := BitVec.ofNat 3 f.comps.length
    mode := mode, layout := layoutOf f.comps, hmax := BitVec.ofNat 4 g.hmax, vmax := BitVec.ofNat 4 g.vmax
    mcux := BitVec.ofNat 16 g.mcux, mcuy := BitVec.ofNat 16 g.mcuy, coefNeed := BitVec.ofNat 32 g.need
    comp := Quad.ofFn (compOf g f.comps), geo := Quad.ofFn fun c => g.geos.getD c Geo.reset }

/-- SETFRM's commit (R170): the new frame, no scan, no completion, predictors and EOBRUN 0, SRC_POS after the body. -/
def commitFrame (mode : Mode) (f : FrameHdr) (g : Geom) (s : State) : State :=
  { s with
    srcPos := BitVec.ofNat 32 f.pos
    dec :=
      { s.dec with
        frm := frameOf mode f g
        scn := Scan.reset
        prog := Progress.reset
        ent := { s.dec.ent with dcpred := .all 0, eobrun := 0, srow := 0 } } }

/-- COEF_NEED written by a failing SETFRM, clamped (R40, R170). -/
def noteNeed (need : Nat) (s : State) : State :=
  { s with dec := { s.dec with frm := { s.dec.frm with coefNeed := BitVec.ofNat 32 (min need (2 ^ 32 - 1)) } } }

/-- SETFRM's zero fill of the coefficient buffer (R170). -/
def zeroFill (s : State) (need : Nat) : MM Unit :=
  forRange 0 need fun a => writeByte s.params .coef (s.cfg.coefBase + BitVec.ofNat 32 a) 0

/-- The memory SETFRM's zero fill starts with: the frame header's bytes have been read. -/
def frameMem (s : State) (f : FrameHdr) : MemW :=
  { MemW.start .setfrm s with
    reads := logRun .src (f.pos - s.srcPos.toNat) (srcAddr s.cfg s.srcPos.toNat) (MemW.start .setfrm s).reads }

/-- SETFRM (R170). -/
def execSetfrm (sofn : SofKind) (s : State) : Answer :=
  match parseFrame s (modeOf sofn) with
  | .error r => .next (errorEntry r s)
  | .ok f =>
    let g := geometry (modeOf sofn) f
    if modeOf sofn ≠ .sof3 ∧ s.cfg.coefSize.toNat < g.need then
      .next (errorEntry (.at .outOfMemory f.pos) (noteNeed g.need s))
    else
      match zeroFill s g.need (frameMem s f) with
      | .ok _ w => .next (advance .setfrm (commitFrame (modeOf sofn) f g (s.settle w)))
      | .error r w => .next (errorEntry r (s.settle w))

/-! ### SETSCN -/

/-- One component of a scan header (R142): the frame component it names, and its table ids. -/
structure ScanComp where
  c : Nat
  td : Nat
  ta : Nat
deriving DecidableEq, Repr

/-- A scan header (R142), with the scan kind and the offset after it. -/
structure ScanHdr where
  comps : List ScanComp
  ss : Byte
  se : Byte
  ah : BitVec 4
  al : BitVec 4
  kind : ScanKind
  pos : Nat
deriving DecidableEq, Repr

/-- The least frame component with an id (R180). -/
def Frame.findComp (f : Frame) (id : Byte) : Option Nat :=
  (List.range f.ncomp.toNat).find? fun c => (f.comp.get c).id == id

/-- SETSCN's component loop (R180): `n` components from offset `p`, after those in `seen`. -/
def parseScanComps (s : State) : Nat → Nat → List Nat → Except Raise (List ScanComp)
  | 0, _, _ => pure []
  | n + 1, p, seen => do
    let cs ← s.src p
    let b ← s.src (p + 1)
    match s.dec.frm.findComp cs with
    | none => throw (.at .badComponentId (p + 2))
    | some c =>
      if seen.contains c then throw (.at .badScanSegment (p + 2))
      else if 3 < (hi4 b).toNat ∨ 3 < (lo4 b).toNat then throw (.at .badScanSegment (p + 2))
      else do
        let rest ← parseScanComps s n (p + 2) (c :: seen)
        pure (⟨c, (hi4 b).toNat, (lo4 b).toNat⟩ :: rest)

/-- A sequential coding mode (R180's MODE in {1, 2}). -/
def Mode.isSeq : Mode → Bool
  | .none => false
  | .sof0 => true
  | .sof1 => true
  | .sof2 => false
  | .sof3 => false

/-- ScanKind (R184); none is BadScanSegment. No mode (R59 code 0) means no frame, which SETSCN has already refused. -/
def scanKind (f : Frame) (ns : Nat) (ss se : Byte) (ah al : BitVec 4) : Option ScanKind :=
  match f.mode with
  | .none => some .none
  | .sof0 => some .seq
  | .sof1 => some .seq
  | .sof2 =>
    if se.toNat < ss.toNat ∨ 63 < se.toNat ∨ (ss.toNat = 0 ∧ se.toNat ≠ 0) ∨ (0 < ss.toNat ∧ ns ≠ 1)
        ∨ (ah.toNat ≠ 0 ∧ al.toNat + 1 ≠ ah.toNat) ∨ 13 < al.toNat then none
    else if ss.toNat = 0 then (if ah.toNat = 0 then some .dcFirst else some .dcRefine)
    else if ah.toNat = 0 then some .acFirst
    else some .acRefine
  | .sof3 => if ss.toNat < 1 ∨ 7 < ss.toNat ∨ f.p.toNat ≤ al.toNat then none else some .lossless

/-- The scan kinds that use a DC table (R180). -/
def ScanKind.usesDc : ScanKind → Bool
  | .none => false
  | .seq => true
  | .dcFirst => true
  | .dcRefine => false
  | .acFirst => false
  | .acRefine => false
  | .lossless => true

/-- The scan kinds that use an AC table (R180). -/
def ScanKind.usesAc : ScanKind → Bool
  | .none => false
  | .seq => true
  | .dcFirst => false
  | .dcRefine => false
  | .acFirst => true
  | .acRefine => true
  | .lossless => false

/-- Every table the scan refers to has been loaded (R180). -/
def tablesLoaded (t : Tables) (k : ScanKind) (cs : List ScanComp) : Bool :=
  cs.all fun c => (!k.usesDc || t.dcv.get c.td) && (!k.usesAc || t.acv.get c.ta)

/-- SETSCN's parse and checks (R180). -/
def parseScan (s : State) : Except Raise ScanHdr :=
  let f := s.dec.frm
  if f.hdrValid = false then throw ⟨.badState, 0⟩
  else do
    let pos := s.srcPos.toNat
    let len ← s.be16 pos
    let nsb ← s.src (pos + 2)
    let ns := nsb.toNat
    if ns < 1 ∨ 4 < ns then throw (.at .badScanSegment (pos + 3))
    else if f.mode.isSeq ∧ ns ≠ f.ncomp.toNat ∧ ns ≠ 1 then throw (.at .notImplemented (pos + 3))
    else do
      let comps ← parseScanComps s ns (pos + 3) []
      let q := pos + 3 + 2 * ns
      let ss ← s.src q
      let se ← s.src (q + 1)
      let b ← s.src (q + 2)
      let p := q + 3
      if len ≠ 6 + 2 * ns then throw (.at .badSegmentLength p)
      else
        match scanKind f ns ss se (hi4 b) (lo4 b) with
        | none => throw (.at .badScanSegment p)
        | some k =>
          if !tablesLoaded s.dec.tab k comps then throw (.at .badHuffTbl p)
          else if k = .lossless ∧ s.dec.ri.toNat % f.x.toNat ≠ 0 then throw (.at .notImplemented p)
          else pure { comps := comps, ss := ss, se := se, ah := hi4 b, al := lo4 b, kind := k, pos := p }

/-- ResolveCS (R182). -/
def resolveCs (m : Meta) (n : Nat) : CSpace :=
  let x := m.adobeXform.toNat
  if m.jfif ∧ n = 1 then .gray
  else if m.jfif ∧ n = 3 then .ycbcr
  else if m.adobe ∧ n = 1 then .gray
  else if m.adobe ∧ n = 3 ∧ x = 0 then .rgb
  else if m.adobe ∧ n = 3 ∧ x = 1 then .ycbcr
  else if m.adobe ∧ n = 4 ∧ x = 0 then .cmyk
  else if m.adobe ∧ n = 4 ∧ x = 2 then .ycck
  else if n = 1 then .gray
  else if n = 3 then .ycbcr
  else .unknown

/-- SROWS and SCOLS (R181). -/
def scanSize (f : Frame) (h : ScanHdr) : Nat × Nat :=
  match h.kind, h.comps with
  | .lossless, _ => (f.y.toNat, f.x.toNat)
  | _, [c] => (ceilDiv (f.geo.get c.c).ch 8, ceilDiv (f.geo.get c.c).cw 8)
  | _, _ => (f.mcuy.toNat, f.mcux.toNat)

/-- The scan registers SETSCN commits (R181). DESIGN CHOICE (log entry 16): TD[j] and TA[j] are 0 for j ≥ NS; R43 gives
CIDX's value there, and no rule theirs. -/
def scanOf (s : State) (h : ScanHdr) : Scan :=
  { csValid := true, active := true, cs := resolveCs s.dec.info s.dec.frm.ncomp.toNat
    ns := BitVec.ofNat 3 h.comps.length
    cidx := Quad.ofFn fun j => BitVec.ofNat 2 ((h.comps.map ScanComp.c).getD j 0)
    ss := h.ss, se := h.se, ah := h.ah, al := h.al
    td := Quad.ofFn fun j => BitVec.ofNat 2 ((h.comps.map ScanComp.td).getD j 0)
    ta := Quad.ofFn fun j => BitVec.ofNat 2 ((h.comps.map ScanComp.ta).getD j 0)
    smode := h.kind
    srows := BitVec.ofNat 16 (scanSize s.dec.frm h).1
    scols := BitVec.ofNat 16 (scanSize s.dec.frm h).2 }

/-- SETSCN's commit (R181). -/
def commitScan (h : ScanHdr) (s : State) : State :=
  { s with
    srcPos := BitVec.ofNat 32 h.pos
    dec :=
      { s.dec with
        scn := scanOf s h
        ent :=
          { s.dec.ent with
            srow := 0
            dcpred := h.comps.foldl (fun q c => q.set c.c 0) s.dec.ent.dcpred
            rtg := s.dec.ri, nextRst := 0, eobrun := 0
            bl := 0, markerHit := false
            llfirst := true, llprev := [] } } }

/-- SETSCN (R180). -/
def execSetscn (s : State) : Answer :=
  match parseScan s with
  | .ok h => .next (advance .setscn (commitScan h s))
  | .error r => .next (errorEntry r s)

end Sys2Proof.Machine
end

