-- ==== Sys2Proof/Machine/Entropy.lean ====
section
/-! DEFINITION. The entropy decoder: the bit reader (R87, R88), its primitives (R200–R204), DECROW (R205, R206), restart
(R207, R208), the block decoders (R209–R213), lossless lines (R214, R215) and completion (R216). -/
namespace Sys2Proof.Machine

/-- What entropy decoding changes: SRC_POS, the entropy state, the warnings and system memory. -/
structure DecW where
  pos : Word
  ent : Entropy
  warn : Warn
  mw : MemW
deriving DecidableEq, Repr

/-- A computation of DECROW: it answers a value or raises, keeping what it did (R205). -/
abbrev DM := EStateM Raise DecW

/-- A memory computation inside DECROW. -/
def liftMem {α : Type} (m : MM α) : DM α := fun w =>
  match m w.mw with
  | .ok a mw => .ok a { w with mw := mw }
  | .error r mw => .error r { w with mw := mw }

/-- Change the entropy state. -/
def modEnt (f : Entropy → Entropy) : DM Unit := modify fun w => { w with ent := f w.ent }

/-- `warn ENT` (R350). -/
def warnEnt : DM Unit := modify fun w => { w with warn := w.warn.warnEnt }

/-- `warn RST` (R350). -/
def warnRst : DM Unit := modify fun w => { w with warn := w.warn.warnRst }

/-- Raise InternalError with ERR_DATA = SRC_POS (R203). -/
def raiseInternal {α : Type} : DM α := fun w => .error ⟨.internalError, w.pos⟩ w

/-! ### The bit reader -/

/-- Load the bit buffer from the stream, leaving SRC_POS at `pos` (R87). -/
def loadByte (pos : Nat) (b : Byte) : DM Unit :=
  modify fun w => { w with pos := BitVec.ofNat 32 pos, ent := { w.ent with bb := b, bl := 8 } }

/-- The zero byte the bit reader supplies at a marker, with its warning (R87). -/
def supplyZero : DM Unit := do
  warnEnt
  modEnt fun s => { s with bb := 0, bl := 8 }

/-- The offset of the first byte from `q` on that is not 0xFF (R87). The source's end stops the search. -/
def skipFill (e : Env) : Nat → Nat → DM Nat
  | 0, q => pure q
  | fuel + 1, q => do
    let b ← liftMem (srcByte e q)
    if b = 0xFF#8 then skipFill e fuel (q + 1) else pure q

/-- FillByte (R87). -/
def fillByte (e : Env) : DM Unit := do
  let w ← get
  if w.ent.markerHit then supplyZero
  else do
    let p := w.pos.toNat
    let b ← liftMem (srcByte e p)
    if b ≠ 0xFF#8 then loadByte (p + 1) b
    else do
      let q ← skipFill e (e.cfg.srcLen.toNat - p) (p + 1)
      let z ← liftMem (srcByte e q)
      if z = 0 then loadByte (q + 1) 0xFF#8
      else do
        modEnt fun s => { s with markerHit := true }
        supplyZero

/-- Take the next bit of the bit buffer, most significant first (R88). -/
def takeBit : DM Nat := do
  let w ← get
  modEnt fun s => { s with bl := s.bl - 1 }
  pure (w.ent.bb.getLsbD (w.ent.bl - 1).toNat).toNat

/-- NextBit (R88). -/
def nextBit (e : Env) : DM Nat := do
  let w ← get
  if w.ent.bl = 0 then do
    fillByte e
    takeBit
  else takeBit

/-! ### Primitives -/

/-- EXTEND (R201). -/
def extend (v t : Nat) : Int := if t = 0 then 0 else if v < 2 ^ (t - 1) then (v : Int) - 2 ^ t + 1 else v

/-- RECEIVE (R202), after the bits already read into `acc`. -/
def receiveFrom (e : Env) : Nat → Nat → DM Nat
  | 0, acc => pure acc
  | t + 1, acc => do
    let b ← nextBit e
    receiveFrom e t (2 * acc + b)

/-- RECEIVE (R202). -/
def receive (e : Env) (t : Nat) : DM Nat := receiveFrom e t 0

/-- The symbol of a code in HCODE (R54). -/
def HuffTab.find (h : HuffTab) (len code : Nat) : Option Byte :=
  (h.hcode.find? fun x => x.len == len && x.code == code).map HEntry.sym

/-- DECODE (R203), at code length `len` with `fuel` lengths left. -/
def decodeFrom (e : Env) (h : HuffTab) : Nat → Nat → Nat → DM Byte
  | 0, _, _ => raiseInternal
  | fuel + 1, len, acc => do
    let b ← nextBit e
    match h.find len (2 * acc + b) with
    | some v => pure v
    | none => decodeFrom e h fuel (len + 1) (2 * acc + b)

/-- DECODE (R203): at most 16 bits. -/
def decodeSym (e : Env) (h : HuffTab) : DM Byte := decodeFrom e h 16 1 0

/-- The DC (lossless: residual) table of scan component j (R203). -/
def Env.dcTab (e : Env) (j : Nat) : HuffTab := e.tab.dc.get (e.scn.td.get j).toNat

/-- The AC table of scan component j (R203). -/
def Env.acTab (e : Env) (j : Nat) : HuffTab := e.tab.ac.get (e.scn.ta.get j).toNat

/-- The frame component of scan component j (R43). -/
def Env.comp (e : Env) (j : Nat) : Nat := (e.scn.cidx.get j).toNat

/-! ### Restart -/

/-- R208's skip of fill bytes: the first offset from `p` on where two 0xFF bytes do not follow. -/
def skipPairs (e : Env) : Nat → Nat → DM Nat
  | 0, p => pure p
  | fuel + 1, p => do
    let b ← liftMem (srcByte e p)
    if b = 0xFF#8 then do
      let b' ← liftMem (srcByte e (p + 1))
      if b' = 0xFF#8 then skipPairs e fuel (p + 1) else pure p
    else pure p

/-- Whether the two bytes at `p` are the expected RSTn marker (R208); the second is read only after a 0xFF (log entry
10). -/
def expectedRst (e : Env) (p : Nat) (n : BitVec 3) : DM Bool := do
  let b ← liftMem (srcByte e p)
  if b = 0xFF#8 then do
    let b' ← liftMem (srcByte e (p + 1))
    pure (b' == 0xD0#8 + n.zeroExtend 8)
  else pure false

/-- The state after a restart marker at `p` (R208). -/
def restarted (ri : Half) (s : Entropy) : Entropy :=
  { s with
    markerHit := false, nextRst := s.nextRst + 1, dcpred := .all 0, eobrun := 0, rtg := ri, llfirst := true }

/-- ProcessRestart (R208). -/
def processRestart (e : Env) : DM Unit := do
  modEnt fun s => { s with bl := 0 }
  let w ← get
  let p ← skipPairs e (e.cfg.srcLen.toNat + 1 - w.pos.toNat) w.pos.toNat
  let ok ← expectedRst e p w.ent.nextRst
  if ok then pure () else warnRst
  modify fun w => { w with pos := BitVec.ofNat 32 (p + 2), ent := restarted e.ri w.ent }

/-- BeforeMCU (R207). -/
def beforeMcu (e : Env) : DM Unit := do
  if e.ri = 0 then pure ()
  else do
    let w ← get
    if w.ent.rtg = 0 then processRestart e else pure ()
    modEnt fun s => { s with rtg := s.rtg - 1 }

/-! ### Block decoders -/

/-- A DC difference (R209, R210): decoded, extended and added to the component's predictor. -/
def dcDiff (e : Env) (j : Nat) : DM Half := do
  let s ← decodeSym e (e.dcTab j)
  if 15 < s.toNat then raiseInternal
  else do
    let v ← receive e s.toNat
    let w ← get
    let dc := wrap16 ((w.ent.dcpred.get (e.comp j)).toInt + extend v s.toNat)
    modEnt fun s => { s with dcpred := s.dcpred.set (e.comp j) dc }
    pure dc

/-- SeqBlock's AC loop (R209) from index `k`. -/
def seqAc (e : Env) (j : Nat) : Nat → Nat → Block → DM Block
  | 0, _, b => pure b
  | fuel + 1, k, b =>
    if 63 < k then pure b
    else do
      let rs ← decodeSym e (e.acTab j)
      let r := (hi4 rs).toNat
      let s := (lo4 rs).toNat
      if s = 0 then (if r = 15 then seqAc e j fuel (k + 16) b else pure b)
      else if 63 < k + r then raiseInternal
      else do
        let v ← receive e s
        seqAc e j fuel (k + r + 1) (b.put (zz (k + r)) (wrap16 (extend v s)))

/-- SeqBlock (R209). -/
def seqBlock (e : Env) (j : Nat) (a : Word) : DM Unit := do
  let dc ← dcDiff e j
  let b ← seqAc e j 64 1 (Block.zero.put 0 dc)
  liftMem (writeBlock e.params .coef a b)

/-- DcFirstBlock (R210). -/
def dcFirstBlock (e : Env) (j : Nat) (a : Word) : DM Unit := do
  let b ← liftMem (readBlock e.params .coef a)
  let dc ← dcDiff e j
  liftMem (writeBlock e.params .coef a (b.put 0 (wrap16 (dc.toInt * 2 ^ e.scn.al.toNat))))

/-- DcRefineBlock (R211). -/
def dcRefineBlock (e : Env) (a : Word) : DM Unit := do
  let b ← liftMem (readBlock e.params .coef a)
  let v ← receive e 1
  liftMem (writeBlock e.params .coef a
    (if v = 1 then b.put 0 (b.at 0 ||| BitVec.ofNat 16 (2 ^ e.scn.al.toNat)) else b))

/-- AcFirstBlock's loop (R212) from index `k`. -/
def acFirstLoop (e : Env) (j : Nat) : Nat → Nat → Block → DM Block
  | 0, _, b => pure b
  | fuel + 1, k, b =>
    if e.scn.se.toNat < k then pure b
    else do
      let rs ← decodeSym e (e.acTab j)
      let r := (hi4 rs).toNat
      let s := (lo4 rs).toNat
      if s ≠ 0 then
        if e.scn.se.toNat < k + r then raiseInternal
        else do
          let v ← receive e s
          acFirstLoop e j fuel (k + r + 1) (b.put (zz (k + r)) (wrap16 (extend v s * 2 ^ e.scn.al.toNat)))
      else if r = 15 then acFirstLoop e j fuel (k + 16) b
      else do
        let v ← receive e r
        modEnt fun s => { s with eobrun := BitVec.ofNat 16 (2 ^ r + v - 1) }
        pure b

/-- AcFirstBlock (R212). -/
def acFirstBlock (e : Env) (j : Nat) (a : Word) : DM Unit := do
  let b ← liftMem (readBlock e.params .coef a)
  let w ← get
  if w.ent.eobrun ≠ 0 then do
    modEnt fun s => { s with eobrun := s.eobrun - 1 }
    liftMem (writeBlock e.params .coef a b)
  else do
    let b' ← acFirstLoop e j 256 e.scn.ss.toNat b
    liftMem (writeBlock e.params .coef a b')

/-- Refine (R213): one correction bit for the coefficient at natural index `z`. -/
def refine (e : Env) (b : Block) (z : Nat) : DM Block := do
  let v ← receive e 1
  let p1 := 2 ^ e.scn.al.toNat
  if v = 1 ∧ b.at z &&& BitVec.ofNat 16 p1 = 0 then
    pure (b.put z (wrap16 (b.val z + if 0 ≤ b.val z then (p1 : Int) else -(p1 : Int))))
  else pure b

/-- R213's inner loop: pass `r` zero-history coefficients from index `k`, correcting the others; answers the index it
stops at. -/
def skipZeros (e : Env) : Nat → Nat → Nat → Block → DM (Nat × Block)
  | 0, k, _, b => pure (k, b)
  | fuel + 1, k, r, b =>
    if e.scn.se.toNat < k then pure (k, b)
    else if b.at (zz k) ≠ 0 then do
      let b' ← refine e b (zz k)
      skipZeros e fuel (k + 1) r b'
    else if r = 0 then pure (k, b)
    else skipZeros e fuel (k + 1) (r - 1) b

/-- R213's loop outside an end-of-band run, from index `k`; answers the index it stops at. -/
def acRefineLoop (e : Env) (j : Nat) : Nat → Nat → Block → DM (Nat × Block)
  | 0, k, b => pure (k, b)
  | fuel + 1, k, b =>
    if e.scn.se.toNat < k then pure (k, b)
    else do
      let rs ← decodeSym e (e.acTab j)
      let r := (hi4 rs).toNat
      let s := (lo4 rs).toNat
      if s ≠ 0 then do
        if s ≠ 1 then warnEnt else pure ()
        let v ← receive e 1
        let nv : Int := if v = 1 then 2 ^ e.scn.al.toNat else -(2 ^ e.scn.al.toNat)
        let kb ← skipZeros e 256 k r b
        if e.scn.se.toNat < kb.1 then raiseInternal
        else acRefineLoop e j fuel (kb.1 + 1) (kb.2.put (zz kb.1) (wrap16 nv))
      else if r ≠ 15 then do
        let v ← receive e r
        modEnt fun s => { s with eobrun := BitVec.ofNat 16 (2 ^ r + v) }
        pure (k, b)
      else do
        let kb ← skipZeros e 256 k r b
        acRefineLoop e j fuel (kb.1 + 1) kb.2

/-- R213's rest of a band inside an end-of-band run: correction bits only, from index `k`. -/
def refineRest (e : Env) : Nat → Nat → Block → DM Block
  | 0, _, b => pure b
  | fuel + 1, k, b =>
    if e.scn.se.toNat < k then pure b
    else if b.at (zz k) ≠ 0 then do
      let b' ← refine e b (zz k)
      refineRest e fuel (k + 1) b'
    else refineRest e fuel (k + 1) b

/-- AcRefineBlock (R213). -/
def acRefineBlock (e : Env) (j : Nat) (a : Word) : DM Unit := do
  let b ← liftMem (readBlock e.params .coef a)
  let w ← get
  let kb ← if w.ent.eobrun = 0 then acRefineLoop e j 256 e.scn.ss.toNat b else pure (e.scn.ss.toNat, b)
  let w' ← get
  if w'.ent.eobrun = 0 then liftMem (writeBlock e.params .coef a kb.2)
  else do
    let b' ← refineRest e 256 kb.1 kb.2
    modEnt fun s => { s with eobrun := s.eobrun - 1 }
    liftMem (writeBlock e.params .coef a b')

/-- DecodeBlock (R206). -/
def decodeBlock (e : Env) (j bx byy : Nat) : DM Unit :=
  let a := coefAddr e (e.comp j) bx byy
  match e.scn.smode with
  | .none => pure ()
  | .seq => seqBlock e j a
  | .dcFirst => dcFirstBlock e j a
  | .dcRefine => dcRefineBlock e a
  | .acFirst => acFirstBlock e j a
  | .acRefine => acRefineBlock e j a
  | .lossless => pure ()

/-- The blocks of scan component j in one interleaved MCU (R206). -/
def decodeCompBlocks (e : Env) (mx my j : Nat) : DM Unit :=
  let c := e.frm.comp.get (e.comp j)
  forRange 0 c.v.toNat fun v =>
    forRange 0 c.h.toNat fun h => decodeBlock e j (mx * c.h.toNat + h) (my * c.v.toNat + v)

/-- DecodeMCU (R206). -/
def decodeMcu (e : Env) (my mx : Nat) : DM Unit := do
  beforeMcu e
  if 1 < e.scn.ns.toNat then forRange 0 e.scn.ns.toNat fun j => decodeCompBlocks e mx my j
  else decodeBlock e 0 mx my

/-! ### Lossless -/

/-- Predict (R215). -/
def predict (sel : Nat) (ra rb rc : Int) : Int :=
  match sel with
  | 1 => ra
  | 2 => rb
  | 3 => rc
  | 4 => ra + rb - rc
  | 5 => ra + (rb - rc) / 2
  | 6 => rb + (ra - rc) / 2
  | _ => (ra + rb) / 2

/-- The lossless residual (R214). -/
def residual (e : Env) : DM Int := do
  let s ← decodeSym e (e.dcTab 0)
  if s.toNat = 16 then pure 32768
  else if 16 < s.toNat then raiseInternal
  else do
    let v ← receive e s.toNat
    pure (extend v s.toNat)

/-- The prediction of sample `x` (R214), `ra` the sample before it on the line. -/
def predictAt (e : Env) (s : Entropy) (x : Nat) (ra : Half) : Int :=
  if s.llfirst then (if x = 0 then 2 ^ (e.frm.p.toNat - e.scn.al.toNat - 1) else ra.toNat)
  else if x = 0 then (s.llprev.read 0).toNat
  else predict e.scn.ss.toNat ra.toNat (s.llprev.read x).toNat (s.llprev.read (x - 1)).toNat

/-- LosslessLine's loop (R214): `n` samples from `x` on; answers them. -/
def losslessFrom (e : Env) (y : Nat) : Nat → Nat → Half → DM (List Half)
  | 0, _, _ => pure []
  | n + 1, x, ra => do
    beforeMcu e
    let w ← get
    let px := predictAt e w.ent x ra
    let d ← residual e
    let cur := wrap16 (px + d)
    liftMem (memWrite e.params (.plane 0) (planeBps e) (planeAddr e 0 x y)
      (((cur.toNat * 2 ^ e.scn.al.toNat) % 65536 : Nat) : Int))
    let rest ← losslessFrom e y n (x + 1) cur
    pure (cur :: rest)

/-- LosslessLine (R214). -/
def losslessLine (e : Env) (y : Nat) : DM Unit := do
  let cur ← losslessFrom e y e.frm.x.toNat 0 0
  modEnt fun s => { s with llprev := s.llprev.writeList 0 cur, llfirst := false }

/-! ### DECROW -/

/-- One row of the scan (R205). -/
def decodeRow (e : Env) : DM Unit := do
  let w ← get
  let y := w.ent.srow.toNat
  if e.scn.smode = .lossless then losslessLine e y
  else forRange 0 e.scn.scols.toNat fun mx => decodeMcu e y mx
  modEnt fun s => { s with srow := s.srow + 1 }

/-- The rows DECROW decodes (R205). -/
def decodeRows (e : Env) (n : Nat) : DM Unit := forRange 0 n fun _ => decodeRow e

/-- What DECROW starts with. -/
def DecW.start (s : State) : DecW :=
  { pos := s.srcPos, ent := s.dec.ent, warn := s.dec.warn, mw := MemW.start .decrow s }

/-- The same with the host's stores beside it. -/
def DecW.beside (h : Beside) (w : DecW) : DecW := { w with mw := w.mw.beside h }

/-- What DECROW leaves, completed or not (R205). -/
def State.withDec (w : DecW) (s : State) : State :=
  let s' := s.settle w.mw
  { s' with srcPos := w.pos, dec := { s.dec with ent := w.ent, warn := w.warn } }

/-- ScanComplete (R216), when the last row has been decoded. -/
def scanComplete (s : State) : State :=
  if s.dec.ent.srow = s.dec.scn.srows then
    { s with
      dec := { s.dec with scn := { s.dec.scn with active := false }, prog := s.dec.prog.complete s.dec.scn } }
  else s

/-- The number of rows DECROW decodes (R205): all that are left for NROWS = 0, at most those. -/
def rowCount (s : State) (nrows : Nat) : Nat :=
  let left := s.dec.scn.srows.toNat - s.dec.ent.srow.toNat
  if nrows = 0 then left else min nrows left

/-- DECROW's end (R205, R216). -/
def finishDecrow (s : State) (r : EStateM.Result Raise DecW Unit) : Answer :=
  match r with
  | .ok _ w => .next (advance .decrow (scanComplete (s.withDec w)))
  | .error r w => .next (errorEntry r (s.withDec w))

/-- DECROW (R205). -/
def execDecrow (nrows : Nat) (s : State) : Answer :=
  if s.dec.scn.active = false then .next (errorEntry ⟨.badState, 0⟩ s)
  else finishDecrow s (decodeRows s.env (rowCount s nrows) (DecW.start s))

end Sys2Proof.Machine
end

