-- ==== Sys2Proof/Machine/Idct.lean ====
section
/-! DEFINITION. The inverse transform (R260–R264): dequantisation, IDCT_REF, the parameter IDCT_FN, and the level shift.

IDCT_REF (R261) is exact. With A = cos(aπ/16) and B = cos(bπ/16), A·B = (cos((a+b)π/16) + cos((a−b)π/16))/2, and
Cf(0) = 1/√2 = cos(4π/16), so 8·IDCT_REF(F)[8y+x] is the sum of F[8v+u]·(cos((a+b)π/16) + cos((a−b)π/16)) over u and v,
with a the angle of u at x and b that of v at y. The sum is computed on the integers floor(2^352·cos(kπ/16)).
DEDUCED (log entry 11): that precision decides every rounding of R264 as the real number does. -/
namespace Sys2Proof.Machine

/-- The number of fraction bits of the cosine table. -/
def cosBits : Nat := 352

/-- floor(2^352 · cos(kπ/16)) for k = 0..8. -/
def cosTable : List Int :=
  [0x10000000000000000000000000000000000000000000000000000000000000000000000000000000000000000,
   0xFB14BE7FBAE581562172A361FD2A722EC5F40E3FD8F18AE1B1997321B48E8B1B947A5373353C45A48D5B15EA,
   0xEC835E79946A31457E610231AC1D6180F0A83D3CD0DAE9B5DB897C2384083746A6340CB65C4B11D5B1EC03E9] ++
  [0xD4DB3148750D1819F630E8B6DAC83E68B4691D2F99EC9EAAAC08E58A7CD395443F46DE4FBAFDC08BC63DF891,
   0xB504F333F9DE6484597D89B3754ABE9F1D6F60BA893BA84CED17AC85833399154AFC83043AB8A2C3A8B1FE6F,
   0x8E39D9CD73464364BBA4CFECBFF548677CA7D749ADFBA33ECA996068C296FD797F9152CBA72AE50CDF93EAC8] ++
  [0x61F78A9ABAA58B4698916152CF7EEE1BBDF1F5B4AB3DE24C3A3C159062718F716D12D59BBA9C48817B8A1032,
   0x31F17078D34C156C9732300393F33613F394E58D12972F1D39438767895414C1A28FBDBE7EB1987E24859793,
   0]

/-- cos(jπ/16) in units of 2^-352, from the table by the cosine's symmetries. -/
def cosScaled (j : Nat) : Int :=
  let r := j % 32
  if r ≤ 8 then cosTable.getD r 0
  else if r ≤ 16 then -cosTable.getD (16 - r) 0
  else if r ≤ 24 then -cosTable.getD (r - 16) 0
  else cosTable.getD (32 - r) 0

/-- The angle of frequency `u` at sample `x`, in units of π/16: Cf(u)·cos((2x+1)uπ/16) is the cosine of it (R261). -/
def angle (u x : Nat) : Nat := if u = 0 then 4 else (2 * x + 1) * u

/-- The difference of two numbers, without sign. -/
def absDiff (a b : Nat) : Nat := if b ≤ a then a - b else b - a

/-- 4·Cf(u)·Cf(v)·cos·cos·2, the weight of F[8v+u] in 8·IDCT_REF at sample 8y+x, in units of 2^-352 (R261). -/
def weight (n x y : Nat) : Int :=
  let a := angle (n % 8) x
  let b := angle (n / 8) y
  cosScaled (a + b) + cosScaled (absDiff a b)

/-- The non-zero coefficients of a block with their natural indexes, the first at index `n`. -/
def nonZeros : Nat → List Int → List (Nat × Int)
  | _, [] => []
  | n, f :: fs => if f = 0 then nonZeros (n + 1) fs else (n, f) :: nonZeros (n + 1) fs

/-- 8·IDCT_REF at sample 8y+x in units of 2^-352 (R261), from the non-zero coefficients. -/
def idctSum (nz : List (Nat × Int)) (x y : Nat) : Int := (nz.map fun t => t.2 * weight t.1 x y).sum

/-- LevelShift (R264) of IDCT_REF at sample 8y+x: clamp(floor(f + 1/2) + 128, 0, 255) with f the sum over 8·2^352. -/
def refSample (nz : List (Nat × Int)) (x y : Nat) : Int :=
  clamp ((idctSum nz x y + 4 * 2 ^ cosBits) / (8 * 2 ^ cosBits) + 128) 0 255

/-- A block with no non-zero coefficient but F[0] (R263, property 2). -/
def dcOnly (f : List Int) : Bool := f.tail.all fun v => v == 0

/-- How much the parameter IDCT_FN's sample `n` of a block differs from LevelShift(IDCT_REF)'s: nothing for a DC-only
block (R263, property 2), at most 1 for another (property 3), by the parameter's table. -/
def idctDeviation (p : Params) (f : List Int) (n : Nat) : Int :=
  if dcOnly f then 0
  else
    match p.idctDev.find? fun e => e.1 == f with
    | none => 0
    | some e => clamp (e.2.getD n 0) (-1) 1

/-- Sample 8y+x of LevelShift(IDCT_FN(F)) (R262–R264). -/
def idctSample (p : Params) (f : List Int) (x y : Nat) : Int :=
  clamp (refSample (nonZeros 0 f) x y + idctDeviation p f (8 * y + x)) 0 255

/-- Dequantisation (R260): exact products in natural order. -/
def dequant (c : Block) (q : Vector Half 64) : List Int :=
  List.zipWith (fun (a b : Half) => a.toInt * (b.toNat : Int)) c.toList q.toList

end Sys2Proof.Machine
end

