-- ==== Sys2Proof/Machine/Reconstruct.lean ====
section
/-! DEFINITION. The reconstruction commands: IDCTBLK, IDCTROW, UPSROW, CCVROW, RECROW (R265–R285). -/
namespace Sys2Proof.Machine

/-! ### IDCT -/

/-- One row of eight output samples (R265). -/
def writeIdctRow (p : Params) (b : Buf) (f : List Int) (a : Word) (y : Nat) : MM Unit :=
  forRange 0 8 fun x => memWrite p b 1 (a + BitVec.ofNat 32 x) (idctSample p f x y)

/-- IdctBlock (R265), reading through one buffer and writing through another. -/
def idctBlock (e : Env) (rd wr : Buf) (t : Nat) (src dst stride : Word) : MM Unit := do
  if e.tab.qtv.get t = false then throw ⟨.badQuantSegment, 0⟩
  else do
    let c ← readBlock e.params rd src
    let f := dequant c (e.tab.qt.get t)
    forRange 0 8 fun y => writeIdctRow e.params wr f (dst + BitVec.ofNat 32 y * stride) y

/-- IDCTBLK (R265). -/
def execIdctblk (tq : Nat) (src dst stride : Word) (s : State) : Answer :=
  runMem .idctblk (idctBlock s.env .blkSrc .blkDst tq src dst stride) s

/-- One component's block row of a band (R272). -/
def idctBlockRow (e : Env) (c byy : Nat) : MM Unit :=
  forRange 0 (e.frm.geo.get c).bw fun bx =>
    idctBlock e .coef (.plane c) (e.frm.comp.get c).tq.toNat (coefAddr e c bx byy)
      (planeAddr e c (8 * bx) (8 * byy)) (e.cfg.planeStride.get c)

/-- IdctBand (R272). -/
def idctBand (e : Env) (b : Nat) : MM Unit := do
  if e.frm.mode = .sof3 then pure ()
  else
    forRange 0 e.frm.ncomp.toNat fun c =>
      forRange (b * (e.frm.comp.get c).v.toNat) (e.frm.comp.get c).v.toNat fun byy => idctBlockRow e c byy

/-- A row command (R271): check the arguments, then do the bands in increasing order. -/
def bandsOf (e : Env) (row n : Nat) (band : Nat → MM Unit) : MM Unit := do
  let cnt ← liftX (rowArgs e row n)
  forRange row cnt band

/-- IDCTROW (R272). -/
def execIdctrow (row n : Nat) (s : State) : Answer :=
  runMem .idctrow (bandsOf s.env row n (idctBand s.env)) s

/-! ### Upsampling -/

/-- `clamp(i, 0, n-1)` as an index (R273). -/
def clampIdx (i : Int) (n : Nat) : Nat := (clamp i 0 ((n : Int) - 1)).toNat

/-- S(c, i, j), the edge-replicated plane read (R273). -/
def planeS (e : Env) (c : Nat) (i j : Int) : MM Nat :=
  memRead e.params (.plane c) 1
    (planeAddr e c (clampIdx i (e.frm.geo.get c).cw) (clampIdx j (e.frm.geo.get c).ch))

/-- The horizontal triangle filter (R274). DESIGN CHOICE (log entry 15): its samples are read from left to right as the
formula writes them, which decides ERR_DATA where several are not accessible. -/
def up422 (e : Env) (c xo yo : Nat) : MM Nat := do
  let i : Int := ((xo / 2 : Nat) : Int)
  let a ← planeS e c i yo
  if xo % 2 = 0 then do
    let b ← planeS e c (i - 1) yo
    pure ((3 * a + b + 1) / 4)
  else do
    let b ← planeS e c (i + 1) yo
    pure ((3 * a + b + 2) / 4)

/-- Vertical row duplication (R275). -/
def up244 (e : Env) (c xo yo : Nat) : MM Nat := planeS e c xo ((yo / 2 : Nat) : Int)

/-- V(ii) of R276, with rows `j` and `jn`, read in that order (DESIGN CHOICE, log entry 15). -/
def up411V (e : Env) (c : Nat) (ii j jn : Int) : MM Nat := do
  let a ← planeS e c ii j
  let b ← planeS e c ii jn
  pure (3 * a + b)

/-- The combined triangle filter (R276). DESIGN CHOICE (log entry 15): V(i) is read before V(i-1) or V(i+1). -/
def up411 (e : Env) (c xo yo : Nat) : MM Nat := do
  let i : Int := ((xo / 2 : Nat) : Int)
  let j : Int := ((yo / 2 : Nat) : Int)
  let jn : Int := if yo % 2 = 0 then j - 1 else j + 1
  let a ← up411V e c i j jn
  if xo % 2 = 0 then do
    let b ← up411V e c (i - 1) j jn
    pure ((3 * a + b + 8) / 16)
  else do
    let b ← up411V e c (i + 1) j jn
    pure ((3 * a + b + 7) / 16)

/-- U for the factors (UPH, UPV) (R274–R276); none for factors no supported layout has (R277). -/
def upSample (e : Env) (c xo yo : Nat) : Option (MM Nat) :=
  match (e.frm.comp.get c).uph.toNat, (e.frm.comp.get c).upv.toNat with
  | 2, 1 => some (up422 e c xo yo)
  | 1, 2 => some (up244 e c xo yo)
  | 2, 2 => some (up411 e c xo yo)
  | _, _ => none

/-- One UPlane sample (R277). -/
def upsSample (e : Env) (c yo xo : Nat) : MM Unit :=
  match upSample e c xo yo with
  | none => pure ()
  | some u => do
    let v ← u
    memWrite e.params (.uplane c) 1 (uplaneAddr e c xo yo) v

/-- A component at full resolution: (UPH, UPV) = (1, 1). -/
def fullRes (e : Env) (c : Nat) : Bool := (e.frm.comp.get c).uph == 1 && (e.frm.comp.get c).upv == 1

/-- One row of a component's UPlane (R277). -/
def upsRow (e : Env) (c yo : Nat) : MM Unit :=
  forRange 0 (8 * e.frm.hmax.toNat * e.frm.mcux.toNat) fun xo => upsSample e c yo xo

/-- One component's part of UpsBand (R277). -/
def upsComp (e : Env) (b c : Nat) : MM Unit :=
  if fullRes e c then pure ()
  else forRange (8 * e.frm.vmax.toNat * b) (8 * e.frm.vmax.toNat) fun yo => upsRow e c yo

/-- UpsBand (R277). -/
def upsBand (e : Env) (b : Nat) : MM Unit := do
  if e.frm.mode = .sof3 then pure ()
  else if e.frm.layout = .other then throw ⟨.notImplemented, 0⟩
  else forRange 0 e.frm.ncomp.toNat fun c => upsComp e b c

/-- UPSROW (R277). -/
def execUpsrow (row n : Nat) (s : State) : Answer :=
  runMem .upsrow (bandsOf s.env row n (upsBand s.env)) s

/-! ### Colour conversion -/

/-- YCbCr to RGB (R278). -/
def ycc2rgb (y cb cr : Int) : Int × Int × Int :=
  let cb' := cb - 128
  let cr' := cr - 128
  (clamp (y + (91881 * cr' + 32768) / 65536) 0 255,
   clamp (y + (-22554 * cb' - 46802 * cr' + 32768) / 65536) 0 255,
   clamp (y + (116130 * cb' + 32768) / 65536) 0 255)

/-- YCCK to CMYK (R279). -/
def ycck2cmyk (y cb cr k : Int) : Int × Int × Int × Int :=
  let rgb := ycc2rgb y cb cr
  (255 - rgb.1, 255 - rgb.2.1, 255 - rgb.2.2, k)

/-- The kinds of conversion (R280). -/
inductive CcvKind where
  | copy | rgb | p422 | cmyk
deriving DecidableEq, Repr

/-- Dispatch (R280): the first row that matches; none is NotImplemented. -/
def ccvDispatch (e : Env) : Option CcvKind :=
  let cs := e.scn.cs
  let dcs := e.cfg.dstCs
  let nch := e.cfg.dstNch.toNat
  let nc := e.frm.ncomp.toNat
  if e.cfg.dstPrec16 ≠ decide (8 < e.frm.p.toNat) then none
  else if e.frm.layout = .other then none
  else if e.cfg.dst422 = false ∧ dcs = cs.code ∧ nch = nc then some .copy
  else if e.cfg.dst422 = false ∧ cs = .ycbcr ∧ nc = 3 ∧ (dcs = CSpace.rgb.code ∨ dcs = CSpace.bgr.code) ∧ nch = 3 then
    some .rgb
  else if e.cfg.dst422 = true ∧ cs = .ycbcr ∧ nc = 3 ∧ e.frm.layout = .l422 ∧ dcs = CSpace.ycbcr.code ∧ nch = 2 then
    some .p422
  else if e.cfg.dst422 = false ∧ cs = .ycck ∧ nc = 4 ∧ dcs = CSpace.cmyk.code ∧ nch = 4 then some .cmyk
  else none

/-- Full(c, x, y), the input sample at full resolution (R280). -/
def fullAt (e : Env) (c x y : Nat) : MM Nat :=
  if e.frm.mode = .sof3 ∨ fullRes e c = true then
    memRead e.params (.plane c) (planeBps e) (planeAddr e c x y)
  else memRead e.params (.uplane c) 1 (uplaneAddr e c x y)

/-- The input samples of components `c` on, `n` of them, at one pixel (R281). -/
def fullAll (e : Env) (x y : Nat) : Nat → Nat → MM (List Int)
  | 0, _ => pure []
  | n + 1, c => do
    let v ← fullAt e c x y
    let vs ← fullAll e x y n (c + 1)
    pure ((v : Int) :: vs)

/-- The output channels of a pixel (R281); p422 converts no single pixel (R282). -/
def ccvPixel (e : Env) (k : CcvKind) (v : List Int) : List Int :=
  match k with
  | .copy => v
  | .rgb =>
    let c := ycc2rgb (v.getD 0 0) (v.getD 1 0) (v.getD 2 0)
    if e.cfg.dstCs = CSpace.rgb.code then [c.1, c.2.1, c.2.2] else [c.2.2, c.2.1, c.1]
  | .cmyk =>
    let c := ycck2cmyk (v.getD 0 0) (v.getD 1 0) (v.getD 2 0) (v.getD 3 0)
    [c.1, c.2.1, c.2.2.1, c.2.2.2]
  | .p422 => []

/-- One destination pixel (R281). -/
def ccvAt (e : Env) (k : CcvKind) (y x : Nat) : MM Unit := do
  let v ← fullAll e x y e.frm.ncomp.toNat 0
  let o := ccvPixel e k v
  forRange 0 e.cfg.dstNch.toNat fun ch => memWrite e.params .dst (dstBps e) (dstAddr e x y ch) (o.getD ch 0)

/-- One byte of packed output, copied from plane `c` (R282). -/
def packByte (e : Env) (c x y : Nat) (a : Word) : MM Unit := do
  let v ← memRead e.params (.plane c) 1 (planeAddr e c x y)
  memWrite e.params .dst 1 a v

/-- One pair of pixels of packed 4:2:2 output (R282). -/
def packPair (e : Env) (y pr : Nat) : MM Unit := do
  let a := e.cfg.dstBase + BitVec.ofNat 32 y * e.cfg.dstStride + BitVec.ofNat 32 (4 * pr)
  packByte e 0 (2 * pr) y a
  packByte e 1 pr y (a + 1)
  packByte e 0 (2 * pr + 1) y (a + 2)
  packByte e 2 pr y (a + 3)

/-- Pack422Row (R282). -/
def pack422Row (e : Env) (y : Nat) : MM Unit := forRange 0 (ceilDiv e.frm.x.toNat 2) fun pr => packPair e y pr

/-- One image row of CcvBand (R281). -/
def ccvRow (e : Env) (k : CcvKind) (y : Nat) : MM Unit :=
  if k = .p422 then pack422Row e y else forRange 0 e.frm.x.toNat fun x => ccvAt e k y x

/-- The image rows of a band (R281). -/
def bandHeight (e : Env) : Nat := if e.frm.mode = .sof3 then 1 else 8 * e.frm.vmax.toNat

/-- CcvBand (R281). -/
def ccvBand (e : Env) (b : Nat) : MM Unit := do
  if e.scn.csValid = false then throw ⟨.badState, 0⟩
  else
    match ccvDispatch e with
    | none => throw ⟨.notImplemented, 0⟩
    | some k =>
      let bh := bandHeight e
      forRange (b * bh) (min ((b + 1) * bh) e.frm.y.toNat - b * bh) fun y => ccvRow e k y

/-- CCVROW (R281). -/
def execCcvrow (row n : Nat) (s : State) : Answer :=
  runMem .ccvrow (bandsOf s.env row n (ccvBand s.env)) s

/-! ### The whole pipeline -/

/-- RECROW's work at one band (R283, R284). -/
def recBand (e : Env) (b : Nat) : MM Unit := do
  if e.frm.mode = .sof3 then ccvBand e b
  else do
    idctBand e b
    if 1 ≤ b then do
      upsBand e (b - 1)
      ccvBand e (b - 1)
    else pure ()
    if b + 1 = nbands e then do
      upsBand e b
      ccvBand e b
    else pure ()

/-- RECROW (R283). -/
def execRecrow (row n : Nat) (s : State) : Answer :=
  runMem .recrow (bandsOf s.env row n (recBand s.env)) s

end Sys2Proof.Machine
end

