-- ==== Sys2Proof/Machine/Dispatch.lean ====
section
/-! DEFINITION. The meaning of each command, one arm per constructor of Instr (R113, R320). -/
namespace Sys2Proof.Machine

def exec (i : Instr) (s : State) : Host.Outcome State Fault Refusal :=
  match i with
  | .nop => Sys2Proof.Machine.execNop s
  | .endList => Sys2Proof.Machine.execEnd s
  | .reset => Sys2Proof.Machine.execReset s
  | .seek offset => Sys2Proof.Machine.execSeek offset s
  | .ldqt => Sys2Proof.Machine.execLdqt s
  | .ldht => Sys2Proof.Machine.execLdht s
  | .setfrm sofn => Sys2Proof.Machine.execSetfrm sofn s
  | .setri => Sys2Proof.Machine.execSetri s
  | .setscn => Sys2Proof.Machine.execSetscn s
  | .decrow nrows => Sys2Proof.Machine.execDecrow nrows s
  | .idctblk tq src dst stride => Sys2Proof.Machine.execIdctblk tq src dst stride s
  | .idctrow row nrows => Sys2Proof.Machine.execIdctrow row nrows s
  | .upsrow row nrows => Sys2Proof.Machine.execUpsrow row nrows s
  | .ccvrow row nrows => Sys2Proof.Machine.execCcvrow row nrows s
  | .recrow row nrows => Sys2Proof.Machine.execRecrow row nrows s

end Sys2Proof.Machine
end

