-- ==== Sys2Proof/Machine/Run.lean ====
section
/-! DEFINITION. One command of a run (R320): its fetch, its execution, and what it accessed in system memory (R100), which
is what the host's accesses during the run are held against (R97). -/
namespace Sys2Proof.Machine

/-! ### Fetch -/

/-- The command at CQ_PTR (R320): word 0 is fetched and decoded before an extension word is fetched. -/
def fetch (s : State) : Except Raise Instr := do
  let b0 ← fetchBytes s.params s.mem 4 s.proc.cqPtr
  let w0 := (takeWord b0).map Prod.fst |>.getD 0
  match decodeWord0 w0 with
  | none => throw ⟨.illegalCommand, w0⟩
  | some r => do
    let n := r.format.words - 1
    let bs ← fetchBytes s.params s.mem (4 * n) (s.proc.cqPtr + 4)
    let ws := (takeExt n bs).map Prod.fst |>.getD []
    pure (r.op.build w0 (ws.getD 0 0) (ws.getD 1 0) (ws.getD 2 0))

/-- Fetch and execute the command at CQ_PTR (R320), or enter the error state (R341). -/
def runCommand (s : State) : Answer :=
  match fetch s with
  | .ok i => exec i s
  | .error r => .next (errorEntry r s)

/-! ### A command beside the host's stores -/

/-- What a command does in memory where it changes nothing else; nothing for the other commands. -/
def memBody (i : Instr) (s : State) : MM Unit :=
  match i with
  | .nop | .endList | .reset | .seek _ | .ldqt | .ldht | .setfrm _ | .setri | .setscn | .decrow _ => pure ()
  | .idctblk tq src dst stride => idctBlock s.env .blkSrc .blkDst tq src dst stride
  | .idctrow row n => bandsOf s.env row n (idctBand s.env)
  | .upsrow row n => bandsOf s.env row n (upsBand s.env)
  | .ccvrow row n => bandsOf s.env row n (ccvBand s.env)
  | .recrow row n => bandsOf s.env row n (recBand s.env)

/-- That, with host stores beside it. -/
def memRun (h : Beside) (i : Instr) (s : State) : EStateM.Result Raise MemW Unit :=
  memBody i s ((MemW.start i.op s).beside h)

/-- DECROW's rows, with host stores beside them. -/
def decrowRun (h : Beside) (n : Nat) (s : State) : EStateM.Result Raise DecW Unit :=
  decodeRows s.env (rowCount s n) ((DecW.start s).beside h)

/-- A command with host stores beside it (R97 (c)). The commands that may read a byte more than once meet the stores read by
read; each other command reads a byte of memory once at most, so that it meets them in the memory it begins with. -/
def execBeside (h : Beside) (i : Instr) (s : State) : Answer :=
  match i with
  | .nop | .endList | .reset | .seek _ | .ldqt | .ldht | .setfrm _ | .setri | .setscn => exec i s
  | .decrow n => if s.dec.scn.active = false then exec i s else finishDecrow s (decrowRun h n s)
  | .idctblk _ _ _ _ | .idctrow _ _ | .upsrow _ _ | .ccvrow _ _ | .recrow _ _ => finishMem i.op s (memRun h i s)

/-! ### What a command accesses -/

/-- The `n` bytes of a command read at CQ_PTR. -/
def wordSpans (n : Nat) (s : State) : List Span := logRun .cmd n s.proc.cqPtr []

/-- An access of nothing but the `n` bytes of a command read at CQ_PTR. -/
def wordAccess (n : Nat) (s : State) : Access := { reads := wordSpans n s, writes := [] }

/-- The bytes read at CQ_PTR by a fetch that raises (R344): word 0 if it is illegal, else those before the address that is
not accessible. -/
def failedFetch (r : Raise) (s : State) : Access :=
  wordAccess (if r.name = .busError then (r.data - s.proc.cqPtr).toNat else 4) s

/-- The offset at which a segment command stopped reading: R343's cursor, or the offset of the byte it could not read. -/
def Raise.readUpTo (r : Raise) (c : Cfg) : Nat :=
  if r.name = .busError then (r.data - c.srcBase).toNat else r.data.toNat

/-- Memory with the spans a command has read and nothing written. -/
def State.onlyRead (s : State) (reads : List Span) : MemW :=
  { mem := s.mem, reads := reads, writes := [], host := .none }

/-- A segment command's own word and the source bytes from SRC_POS up to an offset, read. -/
def sourceWork (s : State) (stop : Nat) : MemW :=
  s.onlyRead (wordSpans 4 s ++ logRun .src (stop - s.srcPos.toNat) (srcAddr s.cfg s.srcPos.toNat) [])

/-- Where a segment command stopped reading, from its parse and, if that completed, where its body ends. -/
def parseStop {α : Type} (s : State) (x : Except Raise α) (stop : α → Nat) : Nat :=
  match x with
  | .ok v => stop v
  | .error r => r.readUpTo s.cfg

/-- Where LDQT or LDHT stopped reading. -/
def tablesStop (s : State) (r : EStateM.Result Raise Tables Nat) : Nat :=
  match r with
  | .ok pos _ => pos
  | .error e _ => e.readUpTo s.cfg

/-- SETFRM's work on memory: its header read and, once every check has passed, the zero fill (R170). -/
def frameWork (sofn : SofKind) (s : State) : MemW :=
  match parseFrame s (modeOf sofn) with
  | .error r => sourceWork s (r.readUpTo s.cfg)
  | .ok f =>
    let need := (geometry (modeOf sofn) f).need
    if modeOf sofn ≠ .sof3 ∧ s.cfg.coefSize.toNat < need then sourceWork s f.pos
    else stateAfter (zeroFill s need (frameMem s f))

/-- DECROW's work on memory. -/
def decrowWork (h : Beside) (n : Nat) (s : State) : MemW :=
  if s.dec.scn.active = false then s.onlyRead (wordSpans 4 s) else (stateAfter (decrowRun h n s)).mw

/-- A command's work on memory, with host stores beside it: the memory its pseudocode leaves, and what it reads and writes
(R100), its own words among it. A byte that the command also read through another buffer has yet to be settled (R95, I6). -/
def workOf (h : Beside) (i : Instr) (s : State) : MemW :=
  match i with
  | .nop | .endList | .reset => s.onlyRead (wordSpans 4 s)
  | .seek _ => s.onlyRead (wordSpans 8 s)
  | .ldqt => sourceWork s (tablesStop s (ldqtBody s s.dec.tab))
  | .ldht => sourceWork s (tablesStop s (ldhtBody s s.dec.tab))
  | .setfrm k => frameWork k s
  | .setri => sourceWork s (parseStop s (parseDri s) fun _ => s.srcPos.toNat + 4)
  | .setscn => sourceWork s (parseStop s (parseScan s) ScanHdr.pos)
  | .decrow n => decrowWork h n s
  | .idctblk _ _ _ _ | .idctrow _ _ | .upsrow _ _ | .ccvrow _ _ | .recrow _ _ => stateAfter (memRun h i s)

/-- The accesses that work on memory has made. -/
def MemW.access (w : MemW) : Access := { reads := w.reads, writes := w.writes }

/-- What a command reads and writes in system memory (R100), its own words among it. -/
def accessOf (h : Beside) (i : Instr) (s : State) : Access := (workOf h i s).access

/-- What the command at CQ_PTR reads and writes in system memory (R100). -/
def commandAccess (s : State) : Access :=
  match fetch s with
  | .ok i => accessOf .none i s
  | .error r => failedFetch r s

end Sys2Proof.Machine
end

