-- ==== Sys2Proof/Machine/Race.lean ====
section
/-! DEFINITION. The host's accesses to system memory beside a run's (R97, I5): which bytes the run has touched, and which
of its output bytes depend on a byte the host has stored to. Those take free values; every other byte keeps its own.

Whether an output byte depends is asked of the run itself: it is run again from its GO, twice, beside stores of any values
to the bytes stored to; the byte depends where the two runs leave it different (log entry 7). -/
namespace Sys2Proof.Machine

/-- The spans hold an address. -/
def covers (l : List Span) (a : Word) : Bool := l.any fun x => decide (x.lo ≤ a.toNat) && decide (a.toNat ≤ x.hi)

/-- The first `n` addresses of system memory (R80). -/
def addrsBelow (n : Nat) : List Word := (List.range n).map (BitVec.ofNat 32)

/-- Some access wrote the byte. -/
def wroteByte (log : List Access) (a : Word) : Bool := log.any fun x => covers x.writes a

/-- Some access read or wrote the byte. -/
def touchedByte (log : List Access) (a : Word) : Bool := log.any fun x => covers x.reads a || covers x.writes a

/-- Memory with free values in some bytes, by the model's event number. -/
def freeBytes (k : Nat) (m : Memory) (as : List Word) : Memory :=
  as.foldl (fun m a => m.write a.toNat (Config.freeByte k a.toNat)) m

/-- Memory `m` with the bytes of memory `old` at some addresses. -/
def restoreBytes (old m : Memory) (as : List Word) : Memory := as.foldl (fun m a => m.write a.toNat (old.read a.toNat)) m

/-! ### A host access -/

/-- The number of bytes of an access. -/
def Width.bytes : Width → Nat
  | .w8 => 1
  | .w16 => 2
  | .w32 => 4

/-- The addresses of an access, modulo 2^32. -/
def accessAddrs (a : Word) (w : Width) : List Word := (List.range w.bytes).map fun k => a + BitVec.ofNat 32 k

/-- The little-endian word of `n` bytes of memory. -/
def loadMem (m : Memory) : Nat → Word → Nat
  | 0, _ => 0
  | n + 1, a => (m.read a.toNat).toNat + 256 * loadMem m n (a + 1)

/-- Store the low `n` bytes of a word, little-endian. -/
def storeMem (m : Memory) : Nat → Word → Nat → Memory
  | 0, _, _ => m
  | n + 1, a, v => storeMem (m.write a.toNat (BitVec.ofNat 8 v)) n (a + 1) (v / 256)

/-- What a load returned, recorded; a load made during a run may have to be revised (R97 (c)). -/
def recordLoad (a : Word) (w : Width) (v : Word) (s : State) : State :=
  { s with
    loads := { addr := a, width := w, value := v } :: s.loads
    race := if s.proc.busy then { s.race with loads := s.race.loads + 1 } else s.race }

/-- A host load of system memory during a run: a byte the run has touched reads any value, another what it holds. -/
def racedLoad (a : Word) (w : Width) (s : State) : State :=
  let m := freeBytes s.free s.mem ((accessAddrs a w).filter (touchedByte s.race.log))
  { recordLoad a w (BitVec.ofNat 32 (loadMem m w.bytes a)) s with free := s.free + 1 }

/-! ### A run beside other stores -/

/-- What a command meets in some bytes of memory: what they hold when its words are fetched and when it begins, and what its
reads of them give, one after another. -/
structure Met where
  fetched : Word → Byte
  held : Word → Byte
  given : List Byte

/-- What the commands of a run meet in some bytes of memory, by the command's number. -/
abbrev Others := Nat → Met

/-- The state with other values in some bytes of memory. -/
def State.beside (s : State) (as : List Word) (f : Word → Byte) : State :=
  { s with mem := as.foldl (fun m a => m.write a.toNat (f a)) s.mem }

/-- The command at CQ_PTR (R320) beside other values in some bytes, with what it accesses noted. It takes one event number,
whatever it accesses, so that a byte that does not depend on the others is the same whatever they hold. -/
def rerunCommand (as : List Word) (m : Met) (s : State) : State :=
  match fetch (s.beside as m.fetched) with
  | .error r => errorEntry r s
  | .ok i =>
    let h : Beside := { bytes := as, given := m.given }
    let u := s.beside as m.held
    match execBeside h i u with
    | .next t => { t with free := s.free + 1, race := { s.race with log := accessOf h i u :: s.race.log } }
    | .fault _ => s
    | .refused _ => s

/-- The first `n` commands of a run from its beginning, beside other values in some bytes. -/
def rerun (as : List Word) (f : Others) (s : State) : Nat → State
  | 0 => s
  | n + 1 => if (rerun as f s n).proc.busy then rerunCommand as (f n) (rerun as f s n) else rerun as f s n

/-- What a run begins with. -/
def State.runStart (s : State) : RunStart :=
  { cqPtr := s.proc.cqPtr, srcPos := s.srcPos, dec := s.dec, mem := s.mem, free := s.free }

/-- The state in which the run that is going began. -/
def State.atGo (s : State) : State :=
  { s with
    proc := { s.proc with cqPtr := s.race.start.cqPtr, busy := true }
    srcPos := s.race.start.srcPos, dec := s.race.start.dec, mem := s.race.start.mem, free := s.race.start.free
    events := [], loads := [], race := Race.empty }

/-- A byte of memory after the first `n` commands of the run that is going, beside other values in some bytes. -/
def State.outputBeside (s : State) (as : List Word) (f : Others) (n : Nat) (b : Word) : Byte :=
  (rerun as f s.atGo n).mem.read b.toNat

/-- Whether the first `n` commands of the run that is going write a byte, beside other values in some bytes. -/
def State.writesBeside (s : State) (as : List Word) (f : Others) (n : Nat) (b : Word) : Bool :=
  wroteByte (rerun as f s.atGo n).race.log b

/-- Any values that the commands may meet in some bytes, for a question about the byte `b`. -/
def someValues (k : Nat) (b : Word) : Others := fun c =>
  { fetched := fun a => Config.otherByte k b.toNat c 0 a.toNat
    held := fun a => Config.otherByte k b.toNat c 1 a.toNat
    given := Config.otherReads k b.toNat c }

/-- Any other values that they may meet. -/
def otherValues (k : Nat) (b : Word) : Others := fun c =>
  { fetched := fun a => Config.anotherByte k b.toNat c 0 a.toNat
    held := fun a => Config.anotherByte k b.toNat c 1 a.toNat
    given := Config.anotherReads k b.toNat c }

/-- Whether a byte that the run's first `n` commands leave depends on what some bytes hold (I5): two runs beside any values in
them leave it different. The values are free values for each question, so that nothing can be proved of a byte that depends,
and a byte that does not is never found to. -/
def State.dependsOn (s : State) (k : Nat) (as : List Word) (n : Nat) (b : Word) : Bool :=
  s.outputBeside as (someValues k b) n b != s.outputBeside as (otherValues k b) n b

/-- Whether the host's stores leave a byte open (R97 (c), I5): one stored to, if the run writes it, or does so beside any
values; another, if it depends on the bytes stored to. -/
def State.isOpen (s : State) (k : Nat) (stored : List Word) (log : List Access) (b : Word) : Bool :=
  if stored.contains b then wroteByte log b || s.writesBeside stored (someValues k b) log.length b
  else s.dependsOn k stored log.length b

/-- The bytes that the host's stores leave open, the run having touched one of the bytes stored to. -/
def State.openBytes (s : State) (k : Nat) (stored : List Word) (log : List Access) : List Word :=
  if stored.any (touchedByte log) then (addrsBelow (2 ^ 32)).filter (s.isOpen k stored log) else []

/-- A host store to system memory during a run: a byte left open takes any value, another the one stored, or its own. -/
def racedStore (a : Word) (w : Width) (v : Word) (s : State) : State :=
  let stored := accessAddrs a w ++ s.race.stored
  { s with
    mem := freeBytes s.free (storeMem s.mem w.bytes a v.toNat) (s.openBytes s.free stored s.race.log)
    race := { s.race with stored := stored }
    free := s.free + 1 }

/-! ### A command of a run the host has raced with -/

/-- The host has raced with the run in no way that a command could meet. -/
def Race.quiet (r : Race) : Bool := r.stored.isEmpty && r.loads == 0

/-- Memory as a command of the run meets it, at its fetch or when it begins: any value in a byte the host has stored to. -/
def State.seen (s : State) : State :=
  { s with mem := freeBytes s.free s.mem s.race.stored, free := s.free + 1 }

/-- The host's stores beside a command of the run: any value each time it reads a byte the host has stored to. -/
def State.stores (s : State) : Beside := { bytes := s.race.stored, given := Config.freeReads s.free }

/-- The command at CQ_PTR of a run the host has raced with: fetched from memory as seen, and executed on memory as seen
again, so that a byte in its own words may hold another value where it reads that byte otherwise. -/
def runRaced (s : State) : Answer :=
  match fetch s.seen with
  | .ok i => execBeside s.stores i s.seen.seen
  | .error r => .next (errorEntry r s.seen)

/-- What that command reads and writes in system memory. -/
def racedAccess (s : State) : Access :=
  match fetch s.seen with
  | .ok i => accessOf s.stores i s.seen.seen
  | .error r => failedFetch r s.seen

/-- A load that the run touches later returned any value in the bytes touched. -/
def Load.revise (k : Nat) (new : Access) (l : Load) : Load :=
  let m := storeMem [] l.width.bytes l.addr l.value.toNat
  { l with
    value :=
      BitVec.ofNat 32
        (loadMem (freeBytes k m ((accessAddrs l.addr l.width).filter (touchedByte [new]))) l.width.bytes l.addr) }

/-- Revise the newest `n` loads, each by an event number of its own. -/
def reviseLoads (k : Nat) (new : Access) : Nat → List Load → List Load
  | 0, ls => ls
  | _ + 1, [] => []
  | n + 1, l :: ls => l.revise (k + n) new :: reviseLoads k new n ls

/-- The state after a command of a run, from what it left, `t`, and what it accessed. A byte the host has stored to and
the command did not write holds what the host stored; and every byte left open takes any value. -/
def State.afterRace (s : State) (new : Access) (t : State) : State :=
  let stored := s.race.stored
  let log := new :: s.race.log
  { t with
    mem :=
      freeBytes t.free (restoreBytes s.mem t.mem (stored.filter fun a => !covers new.writes a))
        (s.openBytes t.free stored log)
    loads := reviseLoads (t.free + 1) new s.race.loads t.loads
    race := { s.race with log := log }
    free := t.free + 1 + s.race.loads }

/-- One step of a run: a command, with what it accessed noted, and where the host has raced with the run, the values that
leaves open (R97 (c), I5). -/
def runStep (s : State) : Answer :=
  if s.race.quiet then
    match runCommand s with
    | .next t => .next { t with race := { s.race with log := commandAccess s :: s.race.log } }
    | .fault f => .fault f
    | .refused r => .refused r
  else
    match runRaced s with
    | .next t => .next (s.afterRace (racedAccess s) t)
    | .fault f => .fault f
    | .refused r => .refused r

end Sys2Proof.Machine
end

