-- ==== Sys2Proof/Machine/HostPort.lean ====
section
/-! DEFINITION. The host's side: the CSR window (R20–R56), host loads and stores (R21, R80, R97), GO (R321) and hardware
reset (R380). -/
namespace Sys2Proof.Machine

/-! ### Reset -/

/-- HardwareReset (R380): everything but system memory and the parameters takes its reset value (R382); the run is over. -/
def hardReset (s : State) : State :=
  { s with cfg := Cfg.reset, proc := Proc.reset, srcPos := 0, dec := Dec.reset, race := Race.empty }

/-! ### CSR reads -/

/-- CTRL (R23). -/
def ctrlWord (s : State) : Word := 0#25 ++ bit s.cfg.ieWarn ++ bit s.cfg.ieErr ++ bit s.cfg.ieDone ++ 0#4

/-- ERRINFO (R26). -/
def errInfoWord (p : Proc) : Word := 0#22 ++ p.errClass ++ p.errCode

/-- META (R31). -/
def metaWord (m : Meta) : Word := 0#22 ++ m.adobeXform ++ 0#6 ++ bit m.adobe ++ bit m.jfif

/-- DST_CFG (R36). -/
def dstCfgWord (c : Cfg) : Word :=
  0#19 ++ bit c.dstPrec16 ++ 0#3 ++ bit c.dst422 ++ 0#1 ++ c.dstNch ++ c.dstCs

/-- FRAME1 (R38). -/
def frame1Word (d : Dec) : Word :=
  d.scn.cs.code ++ d.frm.vmax ++ d.frm.hmax ++ 0#1 ++ d.frm.layout.code ++ 0#1 ++ d.frm.mode.code ++ 0#1
    ++ d.frm.ncomp ++ d.frm.p

/-- COMP[c] (R41). -/
def compWord (c : Comp) : Word := 0#4 ++ c.upv ++ c.uph ++ 0#2 ++ c.tq ++ c.v ++ c.h ++ c.id

/-- Four 2-bit fields in one byte (R43, R44). -/
def bytes2 (q : Quad (BitVec 2)) : Byte := q.c3 ++ q.c2 ++ q.c1 ++ q.c0

/-- SCAN0 (R43). -/
def scan0Word (s : Scan) : Word := s.se ++ s.ss ++ bytes2 s.cidx ++ 0#5 ++ s.ns

/-- SCAN1 (R44). -/
def scan1Word (s : Scan) : Word := 0#5 ++ s.smode.code ++ bytes2 s.ta ++ bytes2 s.td ++ s.al ++ s.ah

/-- COMPDONE (R49). -/
def compDoneWord (p : Progress) : Word :=
  0#20 ++ bits4 (Quad.ofFn fun c => acDone (p.acmask.get c)) ++ bits4 p.dcDone ++ bits4 p.seqDone

/-- TBLVALID (R51). -/
def tblValidWord (t : Tables) : Word := 0#16 ++ bits4 t.qtp ++ bits4 t.acv ++ bits4 t.dcv ++ bits4 t.qtv

/-- Word `m` of QT[t] in QTMEM (R52). -/
def qtWord (t : Tables) (i m : Nat) : Word :=
  (t.qt.get i).toList.getD (2 * m + 1) 0 ++ (t.qt.get i).toList.getD (2 * m) 0

/-- Byte `o` of a Huffman table in HTMEM (R53). -/
def htByte (h : HuffTab) (o : Nat) : Byte :=
  if o < 16 then h.bits.toList.getD o 0
  else if o < 256 then 0
  else h.vals.getD (o - 256) 0

/-- The word at byte `o` of a Huffman table in HTMEM (R53). -/
def htWord (h : HuffTab) (o : Nat) : Word := htByte h (o + 3) ++ htByte h (o + 2) ++ htByte h (o + 1) ++ htByte h o

/-- Huffman table h = 4·Tc + Th (R53). -/
def Tables.huff (t : Tables) (h : Nat) : HuffTab := if h < 4 then t.dc.get h else t.ac.get (h - 4)

/-- The array registers of the window: element and offset (R33, R34, R41, R42, R50, R52, R53); a reserved offset reads 0
(R21 (b)). -/
def csrArray (s : State) (off : Nat) : Word :=
  if 0x040 ≤ off ∧ off < 0x050 then s.cfg.planeBase.get ((off - 0x040) / 4)
  else if 0x050 ≤ off ∧ off < 0x060 then s.cfg.planeStride.get ((off - 0x050) / 4)
  else if 0x060 ≤ off ∧ off < 0x070 then s.cfg.uplaneBase.get ((off - 0x060) / 4)
  else if 0x070 ≤ off ∧ off < 0x080 then s.cfg.uplaneStride.get ((off - 0x070) / 4)
  else if 0x0A0 ≤ off ∧ off < 0x0B0 then compWord (s.dec.frm.comp.get ((off - 0x0A0) / 4))
  else if 0x0B0 ≤ off ∧ off < 0x0C0 then (s.dec.ent.dcpred.get ((off - 0x0B0) / 4)).zeroExtend 32
  else if 0x100 ≤ off ∧ off < 0x120 then
    (s.dec.prog.acmask.get ((off - 0x100) / 8)).extractLsb' (if off % 8 = 0 then 0 else 32) 32
  else if 0x400 ≤ off ∧ off < 0x600 then qtWord s.dec.tab ((off - 0x400) / 128) ((off - 0x400) % 128 / 4)
  else if 0x1000 ≤ off ∧ off < 0x2000 then htWord (s.dec.tab.huff ((off - 0x1000) / 512)) ((off - 0x1000) % 512)
  else 0

/-- What an aligned 32-bit read of the window returns while idle (R21 (f)): no side effects (R21 (g)). -/
def csrRead (s : State) (off : Nat) : Word :=
  if off = 0x000 then Config.idWord
  else if off = 0x004 then ctrlWord s
  else if off = 0x008 then statusWord s
  else if off = 0x00C then errInfoWord s.proc
  else if off = 0x010 then s.proc.errCp
  else if off = 0x014 then s.proc.errData
  else if off = 0x018 then s.proc.cqPtr
  else if off = 0x01C then s.dec.warn.cntEnt ++ s.dec.warn.cntRst
  else if off = 0x020 then s.cfg.srcBase
  else if off = 0x024 then s.cfg.srcLen
  else if off = 0x028 then s.srcPos
  else if off = 0x02C then metaWord s.dec.info
  else if off = 0x030 then s.cfg.coefBase
  else if off = 0x034 then s.cfg.coefSize
  else if off = 0x080 then s.cfg.dstBase
  else if off = 0x084 then s.cfg.dstStride
  else if off = 0x088 then dstCfgWord s.cfg
  else if off = 0x090 then s.dec.frm.y ++ s.dec.frm.x
  else if off = 0x094 then frame1Word s.dec
  else if off = 0x098 then s.dec.frm.mcuy ++ s.dec.frm.mcux
  else if off = 0x09C then s.dec.frm.coefNeed
  else if off = 0x0C0 then scan0Word s.dec.scn
  else if off = 0x0C4 then scan1Word s.dec.scn
  else if off = 0x0C8 then s.dec.scn.srows ++ s.dec.ent.srow
  else if off = 0x0CC then 0#13 ++ s.dec.ent.nextRst ++ s.dec.ri
  else if off = 0x0D0 then s.dec.ent.rtg.zeroExtend 32
  else if off = 0x0D4 then s.dec.ent.eobrun.zeroExtend 32
  else if off = 0x0D8 then 0#20 ++ s.dec.ent.bl ++ s.dec.ent.bb
  else if off = 0x0DC then s.dec.scn.scols.zeroExtend 32
  else if off = 0x0E0 then compDoneWord s.dec.prog
  else if off = 0x0E4 then tblValidWord s.dec.tab
  else csrArray s off

/-! ### CSR writes -/

/-- Bit `n` of a written word. -/
def wbit (v : Word) (n : Nat) : Bool := v.getLsbD n

/-- GO (R321): ignored while BUSY or ERR. What the host stored before it is in memory for the run (R97 (a)). -/
def startRun (s : State) : State :=
  if s.proc.busy || s.proc.err then s
  else { s with proc := { s.proc with done := false, busy := true }, race := s.runStart.race }

/-- HostWriteCTRL (R321). -/
def writeCtrl (s : State) (v : Word) : State :=
  if wbit v 1 then hardReset s
  else
    let s' := { s with cfg := { s.cfg with ieDone := wbit v 4, ieErr := wbit v 5, ieWarn := wbit v 6 } }
    if wbit v 0 then startRun s' else s'

/-- A write of STATUS: writing 1 clears DONE, ERR (errorReturn, R345), WARN_RST and WARN_ENT (R24). -/
def writeStatus (s : State) (v : Word) : State :=
  let s1 := if wbit v 2 then errorReturn s else s
  { s1 with
    proc := { s1.proc with done := s1.proc.done && !wbit v 1 }
    dec :=
      { s1.dec with
        warn :=
          { s1.dec.warn with rst := s1.dec.warn.rst && !wbit v 3, ent := s1.dec.warn.ent && !wbit v 4 } } }

/-- The array registers the host may write while idle (R33, R34); a write of another offset is ignored (R21 (b), (c)). -/
def writeArray (s : State) (off : Nat) (v : Word) : State :=
  if 0x040 ≤ off ∧ off < 0x050 then
    { s with cfg := { s.cfg with planeBase := s.cfg.planeBase.set ((off - 0x040) / 4) v } }
  else if 0x050 ≤ off ∧ off < 0x060 then
    { s with cfg := { s.cfg with planeStride := s.cfg.planeStride.set ((off - 0x050) / 4) v } }
  else if 0x060 ≤ off ∧ off < 0x070 then
    { s with cfg := { s.cfg with uplaneBase := s.cfg.uplaneBase.set ((off - 0x060) / 4) v } }
  else if 0x070 ≤ off ∧ off < 0x080 then
    { s with cfg := { s.cfg with uplaneStride := s.cfg.uplaneStride.set ((off - 0x070) / 4) v } }
  else s

/-- A write of the registers that are RW while idle (R25, R28–R36). -/
def writeIdle (s : State) (off : Nat) (v : Word) : State :=
  if off = 0x018 then { s with proc := { s.proc with cqPtr := v &&& 0xFFFFFFFC#32 } }
  else if off = 0x020 then { s with cfg := { s.cfg with srcBase := v } }
  else if off = 0x024 then { s with cfg := { s.cfg with srcLen := v } }
  else if off = 0x028 then setCursor v s
  else if off = 0x02C then
    { s with
      dec := { s.dec with info := { jfif := wbit v 0, adobe := wbit v 1, adobeXform := v.extractLsb' 8 2 } } }
  else if off = 0x030 then { s with cfg := { s.cfg with coefBase := v } }
  else if off = 0x034 then { s with cfg := { s.cfg with coefSize := v } }
  else if off = 0x080 then { s with cfg := { s.cfg with dstBase := v } }
  else if off = 0x084 then { s with cfg := { s.cfg with dstStride := v } }
  else if off = 0x088 then
    { s with
      cfg :=
        { s.cfg with
          dstCs := v.extractLsb' 0 4, dstNch := v.extractLsb' 4 3, dst422 := wbit v 8, dstPrec16 := wbit v 12 } }
  else writeArray s off v

/-- An aligned 32-bit write of the window (R21 (b)–(d)). -/
def csrWrite (s : State) (off : Nat) (v : Word) : State :=
  if off = 0x004 then writeCtrl s v
  else if off = 0x008 then writeStatus s v
  else if s.proc.busy then s
  else writeIdle s off v

/-! ### Host loads and stores -/

/-- Whether an access touches the CSR window (R20). -/
def touchesWindow (p : Params) (a : Word) (w : Width) : Bool :=
  (List.range w.bytes).any fun i => p.inWindow (a + BitVec.ofNat 32 i).toNat

/-- A naturally aligned 32-bit access (R21 (a)). -/
def alignedWord (a : Word) (w : Width) : Bool := w == .w32 && a.toNat % 4 == 0

/-- The offset of an address in the window (R20). -/
def csrOffset (p : Params) (a : Word) : Nat := a.toNat - p.jrbBase.toNat

/-- A load of a register that returns any value (I2). -/
def recordFree (a : Word) (s : State) : State :=
  { recordLoad a .w32 (Config.freeWord s.free) s with free := s.free + 1 }

/-- A host load (R21, R80). While BUSY = 1 a register other than STATUS reads any value (R21 (e)), and a byte of system
memory that the run touches too (R97 (c)). -/
def hostLoad (a : Word) (w : Width) (s : State) : Answer :=
  if touchesWindow s.params a w then
    if alignedWord a w then
      let off := csrOffset s.params a
      if s.proc.busy && off != 0x008 then .next (recordFree a s) else .next (recordLoad a w (csrRead s off) s)
    else .refused (.csrAccessNotWord a)
  else if s.proc.busy then .next (racedLoad a w s)
  else .next (recordLoad a w (BitVec.ofNat 32 (loadMem s.mem w.bytes a)) s)

/-- A host store (R21, R80). While BUSY = 1 a store to system memory may race with the run (R97 (c)). -/
def hostStore (a : Word) (w : Width) (v : Word) (s : State) : Answer :=
  if touchesWindow s.params a w then
    if alignedWord a w then .next (csrWrite s (csrOffset s.params a) v) else .refused (.csrAccessNotWord a)
  else if s.proc.busy then .next (racedStore a w v s)
  else .next { s with mem := storeMem s.mem w.bytes a v.toNat }

/-! ### A reset during a command -/

/-- Memory after an abandoned command (I3): where the command would have changed a byte, either value. -/
def mixMemory (free : Nat) (old new : Memory) : Memory :=
  (old.map Prod.fst ++ new.map Prod.fst).foldl
    (fun m a => if old.read a = new.read a ∨ Config.freeBit free a = false then m else m.write a (new.read a)) old

/-- A reset that abandons the command whose completed effect is `t` (R380, I3). -/
def abandon (s t : State) : State :=
  hardReset { s with mem := mixMemory s.free s.mem t.mem, loads := t.loads, free := max t.free (s.free + 1) }

end Sys2Proof.Machine
end

