-- ==== Sys2Proof/Machine/Step.lean ====
section
/-! DEFINITION. One step: the host's or the platform's next event, or one command of the run (R320). -/
namespace Sys2Proof.Machine

/-- One step of the block: while BUSY = 1 it fetches and executes one command (R320); while idle it does nothing (R358). -/
def blockStep (s : State) : Host.Outcome State Fault Refusal :=
  if s.proc.busy then runStep s else .next s

/-- A reset that arrives during the command the block is at (R380); while idle it is a reset. -/
def resetDuring (s : State) : Host.Outcome State Fault Refusal :=
  match blockStep s with
  | .next t => .next (abandon s t)
  | .fault r => .fault r
  | .refused r => .refused r

/-- One step of the machine: the first event if there is one, else a step of the block. -/
def step (s : State) : Host.Outcome State Fault Refusal :=
  match s.events with
  | [] => blockStep s
  | .run :: rest => blockStep { s with events := rest }
  | .load a w :: rest => hostLoad a w { s with events := rest }
  | .store a w v :: rest => hostStore a w v { s with events := rest }
  | .resetPin :: rest => .next (hardReset { s with events := rest })
  | .resetDuringCommand :: rest => resetDuring { s with events := rest }

/-- The state with an instruction stored where the next step fetches it: a run has just begun, no event is ahead of it, and
its words (the lowest `nbits` bits of `w`, zeros above) stand at CQ_PTR. -/
def State.withFetchWord (s : State) (nbits w : Nat) : State :=
  let m := Memory.writeBytes s.mem s.proc.cqPtr (tableBytes nbits w)
  { s with
    proc := { s.proc with busy := true, done := false, err := false }
    mem := m
    events := []
    race := ({ s with mem := m } : State).runStart.race }

end Sys2Proof.Machine
end

