-- ==== Sys2Proof/Safety.lean ====
section
/-! DEFINITION. What a safe state is: the invariants of the machine, each a check on the state, in the terms the
statements use. Every one holds at reset and every step keeps it (Certificates/Slice0/Obligations.lean states so). -/
namespace Sys2Proof.Machine

/-- System memory and LLPREV are in canonical form, and what the model keeps of them from the run's beginning. -/
def State.memCanonical (s : State) : Bool :=
  s.mem.wf && s.dec.ent.llprev.wf && s.race.start.mem.wf && s.race.start.dec.ent.llprev.wf

/-- The errors R340 names, by code. -/
def ErrName.all : List ErrName :=
  [.bufferTooSmall, .badSegmentLength, .badQuantSegment, .badHuffTbl, .badFrameSegment, .badScanSegment,
   .badComponentId, .notImplemented, .outOfMemory, .internalError, .illegalCommand, .busError, .badState]

/-- ERRINFO is empty, or holds the code and the class of a named error (R340, R342). -/
def Proc.recordLegal (p : Proc) : Bool :=
  (p.errCode == 0 && p.errClass == 0) || ErrName.all.any fun e => p.errCode == e.code && p.errClass == e.cls

/-- The processor is in one of R322's states: CQ_PTR aligned (R25), not BUSY and ERR, not BUSY and DONE. -/
def State.procLegal (s : State) : Bool :=
  s.proc.cqPtr.toNat % 4 == 0 && !(s.proc.busy && s.proc.err) && !(s.proc.busy && s.proc.done) && s.proc.recordLegal

/-- BITRD.BL is 0..8 (R48) and EOBRUN is 0..32767 (R47). -/
def State.entropyLegal (s : State) : Bool :=
  decide (s.dec.ent.bl.toNat ≤ 8) && decide (s.dec.ent.eobrun.toNat ≤ 32767)

/-- One Huffman table's HCODE follows from its BITS and HUFFVAL (R54, R161), with as many values as codes. -/
def HuffTab.derived (h : HuffTab) : Bool :=
  buildHuff (h.bits.toList.map BitVec.toNat) h.vals == some h.hcode
    && h.vals.length == (h.bits.toList.map BitVec.toNat).sum

/-- Every Huffman table's HCODE is derived (R54). -/
def State.huffDerived (s : State) : Bool :=
  (List.range 4).all fun i => (s.dec.tab.dc.get i).derived && (s.dec.tab.ac.get i).derived

/-- The frame header that a frame's registers hold (R37, R38, R41). -/
def Frame.header (f : Frame) : FrameHdr :=
  { p := f.p, y := f.y.toNat, x := f.x.toNat, pos := 0
    comps :=
      (List.range f.ncomp.toNat).map fun c =>
        { id := (f.comp.get c).id, h := (f.comp.get c).h.toNat, v := (f.comp.get c).v.toNat
          tq := (f.comp.get c).tq.toNat } }

/-- The frame registers that R170 and R171 derive from the header's fields: LAYOUT, HMAX, VMAX, GEOM, UPH, UPV, COMPGEO.
COEF_NEED stays, since a SETFRM that fails with OutOfMemory writes it (R40). -/
def Frame.derived (f : Frame) : Frame :=
  { frameOf f.mode f.header (geometry f.mode f.header) with coefNeed := f.coefNeed }

/-- The sample precision a coding mode takes (R170). -/
def precisionLegal (m : Mode) (p : Byte) : Bool :=
  if m = .sof3 then decide (2 ≤ p.toNat) && decide (p.toNat ≤ 16) else p == 8

/-- The frame registers are those of a committed frame, its geometry derived from its header (R37 to R41, R55, R170,
R171), or no frame is there (R59). -/
def Frame.legal (f : Frame) : Bool :=
  if f.hdrValid then
    decide (1 ≤ f.ncomp.toNat) && decide (f.ncomp.toNat ≤ 4) && decide (1 ≤ f.x.toNat) && decide (1 ≤ f.y.toNat)
      && f.mode != .none && (f.mode != .sof3 || f.ncomp == 1) && precisionLegal f.mode f.p
      && ((List.range f.ncomp.toNat).all fun c =>
        decide (1 ≤ (f.comp.get c).h.toNat) && decide (1 ≤ (f.comp.get c).v.toNat))
      && f == f.derived
  else { f with coefNeed := 0 } == Frame.reset

/-- The scan header that a scan's registers hold (R43, R44). -/
def Scan.header (s : Scan) : ScanHdr :=
  { ss := s.ss, se := s.se, ah := s.ah, al := s.al, kind := s.smode, pos := 0
    comps :=
      (List.range s.ns.toNat).map fun j =>
        { c := (s.cidx.get j).toNat, td := (s.td.get j).toNat, ta := (s.ta.get j).toNat } }

/-- The colour spaces R182 resolves for a component count. -/
def spacesOf (n : Nat) : List CSpace :=
  if n = 1 then [.gray] else if n = 3 then [.ycbcr, .rgb] else if n = 4 then [.cmyk, .ycck, .unknown] else [.unknown]

/-- The scan registers are those of a committed scan of the frame (R43 to R45, R180, R181, R184): different components of
the frame, all of them or one in a sequential frame, 0 past the last (TD and TA by log entry 16); the kind and the extent
derived from the header. -/
def Scan.legal (f : Frame) (s : Scan) : Bool :=
  decide (1 ≤ s.ns.toNat) && decide (s.ns.toNat ≤ f.ncomp.toNat) && decide (s.comps.Nodup)
    && (s.comps.all fun c => decide (c < f.ncomp.toNat))
    && ((List.range 4).all fun j =>
      decide (j < s.ns.toNat) || (s.cidx.get j == 0 && s.td.get j == 0 && s.ta.get j == 0))
    && (!f.mode.isSeq || s.ns == f.ncomp || s.ns == 1)
    && scanKind f s.ns.toNat s.ss s.se s.ah s.al == some s.smode
    && s.srows.toNat == (scanSize f s.header).1 && s.scols.toNat == (scanSize f s.header).2
    && (spacesOf f.ncomp.toNat).contains s.cs

/-- The scan registers are those of a committed scan, which is only with a frame, or clear; SROW does not pass SROWS
(R45); ACMASK bit 0 is never set (R50). -/
def Dec.scanLegal (d : Dec) : Bool :=
  (if d.scn.csValid then d.frm.hdrValid && d.scn.legal d.frm else d.scn == Scan.reset)
    && decide (d.ent.srow.toNat ≤ d.scn.srows.toNat)
    && (List.range 4).all fun c => !(d.prog.acmask.get c).getLsbD 0

/-- The frame and scan registers are legal together. -/
def State.headersLegal (s : State) : Bool := s.dec.frm.legal && s.dec.scanLegal

/-- Every invariant of the machine. -/
def State.inv (s : State) : Bool :=
  s.memCanonical && s.procLegal && s.entropyLegal && s.huffDerived && s.headersLegal

/-- A step that goes on: neither a fault nor a refusal. -/
def goesOn (s : State) : Prop := ∃ t, step s = .next t

end Sys2Proof.Machine
end

