-- ==== Sys2Proof/Certificates/Slice0/Obligations.lean ====
section
/-! DEFINITION. The statements for the provers, from the numbered rules of the spec, and the words they are written in. -/
namespace Sys2Proof.Cert
open Sys2Proof.Machine

/-! ### Bytes, streams and memory -/

/-- A two-byte big-endian field (R83 (b)). -/
def be16Bytes (v : Nat) : List Byte := [BitVec.ofNat 8 (v / 256), BitVec.ofNat 8 v]

/-- A byte of two nibbles (R86). -/
def nibbles (hi lo : Nat) : Byte := BitVec.ofNat 8 (16 * hi + lo)

/-- The source stream, in a given memory, holds these bytes from offset `pos` on: each below SRC_LEN and accessible
(R85). -/
abbrev srcIs (p : Params) (c : Cfg) (m : Memory) (pos : Nat) (bs : List Byte) : Prop :=
  ∀ i, i < bs.length →
    pos + i < c.srcLen.toNat ∧ p.memOk (c.srcBase + BitVec.ofNat 32 (pos + i)).toNat = true
      ∧ m.read (c.srcBase + BitVec.ofNat 32 (pos + i)).toNat = bs.getD i 0

/-- The source stream holds these bytes from offset `pos` on (R85). -/
abbrev srcHolds (s : State) (pos : Nat) (bs : List Byte) : Prop := srcIs s.params s.cfg s.mem pos bs

/-- Why the source byte at offset `pos` cannot be read (R85): the stream ends before it, or its address is not accessible. -/
abbrev noByteAt (p : Params) (c : Cfg) (pos : Nat) (r : Raise) : Prop :=
  (c.srcLen.toNat ≤ pos ∧ r = .at .bufferTooSmall pos) ∨
  (pos < c.srcLen.toNat ∧ p.memOk (c.srcBase + BitVec.ofNat 32 pos).toNat = false ∧
    r = ⟨.busError, c.srcBase + BitVec.ofNat 32 pos⟩)

/-- Why the source byte at offset `pos` cannot be read (R85). -/
abbrev srcStops (s : State) (pos : Nat) (r : Raise) : Prop := noByteAt s.params s.cfg pos r

/-- Byte `k` after an address is accessible to the block (R81). -/
abbrev okAt (p : Params) (a : Word) (k : Nat) : Prop := p.memOk (a + BitVec.ofNat 32 k).toNat = true

/-- The byte `k` after an address. -/
abbrev byteAt (m : Memory) (a : Word) (k : Nat) : Byte := m.read (a + BitVec.ofNat 32 k).toNat

/-- System memory holds these bytes from an address on, each accessible to the block. -/
abbrev memHolds (s : State) (a : Word) (bs : List Byte) : Prop :=
  ∀ i, i < bs.length → okAt s.params a i ∧ byteAt s.mem a i = bs.getD i 0

/-- The state after a command of `n` bytes that changes nothing else: CQ_PTR has moved past it (R320). -/
def ranPast (n : Nat) (s : State) : State :=
  { s with proc := { s.proc with cqPtr := s.proc.cqPtr + BitVec.ofNat 32 n } }

/-- The state with a command's accesses noted beside those the run has made before (R97; log entry 7). -/
def noted (new : Access) (s t : State) : State := { t with race := { s.race with log := new :: s.race.log } }

/-- No byte of a command's own words (`n` bytes at CQ_PTR) is at this address. -/
abbrev notCommand (s : State) (n : Nat) (a : Word) : Prop := ∀ j, j < n → a ≠ s.proc.cqPtr + BitVec.ofNat 32 j

/-! ### Encoding -/

/-- The opcode map: opcode, words, reserved bits of word 0 (R113, R114). -/
def opRows : List (Nat × Nat × Nat) :=
  [(0x01, 1, 0x00FFFFFF), (0x02, 1, 0x00FFFFFF), (0x03, 1, 0x00FFFFFF), (0x04, 2, 0x00FFFFFF)] ++
  [(0x10, 1, 0x00FFFFFF), (0x11, 1, 0x00FFFFFF), (0x12, 1, 0x00FFFFFC), (0x13, 1, 0x00FFFFFF)] ++
  [(0x14, 1, 0x00FFFFFF), (0x20, 1, 0x00FF0000), (0x30, 4, 0x00FFFFFC), (0x31, 2, 0x00FFFFFF)] ++
  [(0x32, 2, 0x00FFFFFF), (0x33, 2, 0x00FFFFFF), (0x34, 2, 0x00FFFFFF)]

end Sys2Proof.Cert

section
open Sys2Proof Sys2Proof.Machine Sys2Proof.Cert

/-! ## Encoding -/

/-- Decoding the encoded words of a well-formed command gives it back and leaves the bytes after it (R110 to R113,
R116). -/
def Obligations.DecodeInvertsEncode : Prop :=
  ∀ (i : Instr) (rest : List Byte), i.wf = true → decode (encodeBytes i ++ rest) = .ok (i, rest)

/-- Whatever decodes is a well-formed command, and its bytes are the command's own encoding: each word has one
meaning. -/
def Obligations.DecodedBytesAreTheEncoding : Prop :=
  ∀ (bs : List Byte) (i : Instr) (rest : List Byte),
    decode bs = .ok (i, rest) → i.wf = true ∧ bs = encodeBytes i ++ rest

/-- R114, and R344's first phases: word 0 alone decides the opcode, the length and whether the command is legal. The
phases before a command runs raise in order: word 0's fetch, its decoding, then the extension words' fetch, each at the
first byte that is not accessible; so an illegal word 0 raises IllegalCommand(w0) whatever stands after it. What a fetch
reads is noted, and where the host has raced with the run, memory is what the race leaves to be seen (log entry 7). -/
def Obligations.WordZeroDecidesTheCommand : Prop :=
  (∀ w0 : Word,
    (decodeWord0 w0).map (fun r => (r.code.toNat, r.format.words)) =
      (opRows.find? fun r => r.1 == w0.toNat / 2 ^ 24 && (w0.toNat &&& r.2.2) == 0).map fun r => (r.1, r.2.1)) ∧
  ∀ s : State, s.events = [] → s.proc.busy = true →
    let phases := fun (u : State) (raises : Raise → Nat → Prop) =>
      (∀ k, k < 4 → (∀ j, j < k → okAt u.params u.proc.cqPtr j) → ¬okAt u.params u.proc.cqPtr k →
        raises ⟨.busError, u.proc.cqPtr + BitVec.ofNat 32 k⟩ k) ∧
      (∀ w0, memHolds u u.proc.cqPtr (wordBytes w0) → decodeWord0 w0 = none → raises ⟨.illegalCommand, w0⟩ 4) ∧
      ∀ w0 r k, memHolds u u.proc.cqPtr (wordBytes w0) → decodeWord0 w0 = some r → 4 ≤ k → k < 4 * r.format.words →
        (∀ j, j < k → okAt u.params u.proc.cqPtr j) → ¬okAt u.params u.proc.cqPtr k →
        raises ⟨.busError, u.proc.cqPtr + BitVec.ofNat 32 k⟩ k
    (s.race.quiet = true →
      phases s fun r n => step s = .next (noted (wordAccess n s) s (errorEntry r s))) ∧
    (s.race.quiet = false →
      phases s.seen fun r n => step s = .next (s.afterRace (wordAccess n s.seen) (errorEntry r s.seen)))

/-- R118: the example words decode to the commands they stand for, and the two illegal words raise IllegalCommand. -/
def Obligations.ExampleWordsDecode : Prop :=
  decode (wordBytes 0x04000000#32 ++ wordBytes 0x00000049#32) = .ok (.seek 73#32, []) ∧
  decode (wordBytes 0x12000002#32) = .ok (.setfrm .sof2, []) ∧
  decode (wordBytes 0x20000003#32) = .ok (.decrow 3, []) ∧
  decode (wordBytes 0x30000001#32 ++ wordBytes 0x00002000#32 ++ wordBytes 0x00003000#32 ++ wordBytes 0x00000008#32) =
    .ok (.idctblk 1 0x2000#32 0x3000#32 8#32, []) ∧
  decode (wordBytes 0x34000000#32 ++ wordBytes 0x00010002#32) = .ok (.recrow 2 1, []) ∧
  decode (wordBytes 0x34000000#32 ++ wordBytes 0x00000000#32) = .ok (.recrow 0 0, []) ∧
  (∃ t, step (State.reset.withFetchWord 32 0x12000004) = .next t ∧ csrRead t 0x00C = 0x0000000B#32 ∧
    csrRead t 0x014 = 0x12000004#32) ∧
  ∃ t, step (State.reset.withFetchWord 32 0x05000000) = .next t ∧ csrRead t 0x00C = 0x0000000B#32

/-! ## The command processor -/

/-- While BUSY, a step with no event ahead of it runs the command that the bytes at CQ_PTR decode to; so does the block's
turn among the host's events (R320). Beside the command's own meaning it notes what the command has accessed, its own words
among it; and where the host has raced with the run, the command is fetched from memory as the race leaves it to be seen,
runs on memory as it is seen again, with the host's stores beside it, and the values the race leaves open follow (R97 (c);
log entry 7). -/
def Obligations.StepRunsTheDecodedCommand : Prop :=
  ∀ (s : State) (bs rest : List Byte) (i : Instr), s.proc.busy = true → decode bs = .ok (i, rest) →
    let runs := fun (u : State) =>
      (u.race.quiet = true → memHolds u u.proc.cqPtr bs →
        ∃ t, exec i u = .next t ∧ step s = .next (noted (accessOf .none i u) u t)) ∧
      (u.race.quiet = false → memHolds u.seen u.proc.cqPtr bs →
        ∃ t, execBeside u.stores i u.seen.seen = .next t ∧
          step s = .next (u.afterRace (accessOf u.stores i u.seen.seen) t))
    (s.events = [] → runs s) ∧ ∀ es, s.events = .run :: es → runs { s with events := es }

/-- R358: while idle the block does nothing, and all state is retained. -/
def Obligations.IdleBlockDoesNothing : Prop :=
  ∀ s : State, s.proc.busy = false →
    (s.events = [] → step s = .next s) ∧ ∀ es, s.events = .run :: es → step s = .next { s with events := es }

/-- Every command, in every state, either completes, moving CQ_PTR past its own words and nowhere else, or enters the
error state with CQ_PTR at itself; only END changes BUSY and DONE on completing; no command changes the host's registers
or the parameters (R25, R320, R326, R341). -/
def Obligations.EveryCommandCompletesOrHalts : Prop :=
  ∀ (i : Instr) (s : State), ∃ t, exec i s = .next t ∧
    t.params = s.params ∧ t.cfg = s.cfg ∧ t.events = s.events ∧ t.loads = s.loads ∧ t.race = s.race ∧
    (t.proc =
        { s.proc with
          cqPtr := s.proc.cqPtr + BitVec.ofNat 32 (4 * (encode i).length)
          busy := s.proc.busy && i != .endList
          done := s.proc.done || i == .endList } ∨
      ∃ r : Raise, t.proc = (errorEntry r s).proc)

/-- R323, R324: NOP leaves every state unchanged except CQ_PTR, which advances by 4, and is illegal with a reserved bit
set. END moves past itself, clears BUSY and sets DONE, and changes nothing else, so that a later GO continues from the word
after it with all decoder state intact. -/
def Obligations.NopAndEndOnlyMoveOn : Prop :=
  ((∀ s : State, exec .nop s = .next (ranPast 4 s)) ∧
    encode .nop = [0x01000000#32] ∧
    ∀ w0 : Word, w0.toNat / 2 ^ 24 = 1 → w0 ≠ 0x01000000#32 → decodeWord0 w0 = none) ∧
  encode .endList = [0x02000000#32] ∧
  ∀ s : State,
    exec .endList s =
      .next { s with proc := { s.proc with cqPtr := s.proc.cqPtr + 4, busy := false, done := true } } ∧
    ∀ (t : State) (v : Word), exec .endList s = .next t → v.getLsbD 0 = true → v.getLsbD 1 = false → s.proc.err = false →
      (csrWrite t 0x004 v).proc = { s.proc with cqPtr := s.proc.cqPtr + 4, busy := true, done := false } ∧
      (csrWrite t 0x004 v).dec = s.dec ∧ (csrWrite t 0x004 v).srcPos = s.srcPos

end

namespace Sys2Proof.Cert
open Sys2Proof.Machine

/-! ### Reset -/

/-- The offsets of the registers and table memories that the RESET command clears (R382, fourth column). -/
def resetClears (off : Nat) : Bool :=
  [0x01C, 0x02C, 0x090, 0x094, 0x098, 0x09C, 0x0C0, 0x0C4].contains off
    || [0x0C8, 0x0CC, 0x0D0, 0x0D4, 0x0D8, 0x0DC, 0x0E0, 0x0E4].contains off
    || (0x0A0 ≤ off && off < 0x0C0) || (0x100 ≤ off && off < 0x120) || (0x400 ≤ off && off < 0x600)
    || (0x1000 ≤ off && off < 0x2000)

/-- The state that is not readable is cleared: HCODE, COMPGEO, LLPREV and LLFIRST (R54 to R56, R382). -/
def hiddenCleared (s : State) : Prop :=
  (∀ h, h < 8 → (s.dec.tab.huff h).hcode = []) ∧
  (∀ c, c < 4 → s.dec.frm.geo.get c = { bw := 0, bh := 0, cw := 0, ch := 0, coff := 0 }) ∧
  (∀ x, s.dec.ent.llprev.read x = 0) ∧ s.dec.ent.llfirst = true

/-- Every register and table memory reads 0 but ID (R60, R382). -/
def csrCleared (s : State) : Prop := ∀ off, csrRead s off = if off = 0 then 0x4A524201#32 else 0

/-- The CTRL enables as a write sets them (R23). -/
def withEnables (v : Word) (s : State) : State :=
  { s with cfg := { s.cfg with ieDone := v.getLsbD 4, ieErr := v.getLsbD 5, ieWarn := v.getLsbD 6 } }

/-! ### The CSR window -/

/-- The writable bits of the registers that are RW while idle (R25, R28, R29, R31 to R36). -/
def rwMask (off : Nat) : Word :=
  if off = 0x018 then 0xFFFFFFFC#32
  else if off = 0x02C then 0x00000303#32
  else if off = 0x088 then 0x0000117F#32
  else if [0x020, 0x024, 0x028, 0x030, 0x034, 0x080, 0x084].contains off then 0xFFFFFFFF#32
  else if 0x040 ≤ off ∧ off < 0x080 then 0xFFFFFFFF#32
  else 0

/-- The reserved offsets of the window (R20, R53). -/
def reservedOffset (off : Nat) : Bool :=
  off == 0x038 || off == 0x03C || off == 0x08C || (0x0E8 ≤ off && off < 0x100) || (0x120 ≤ off && off < 0x400)
    || (0x600 ≤ off && off < 0x1000) || (0x1000 ≤ off && off < 0x2000 && 0x010 ≤ off % 0x200 && off % 0x200 < 0x100)

/-- The physical address of a CSR. -/
def csrAddr (s : State) (off : Nat) : Word := s.params.jrbBase + BitVec.ofNat 32 off

/-- The state with a host's load recorded, and counted if it lands in a run; nothing else changes (log entry 2). -/
def withLoad (a : Word) (w : Width) (v : Word) (s : State) : State :=
  { s with
    loads := { addr := a, width := w, value := v } :: s.loads
    race := if s.proc.busy then { s.race with loads := s.race.loads + 1 } else s.race }

/-- The host's stores do not leave a byte open (R97 (c), I5; log entry 7): the run of a log has touched no byte stored to; or
the byte is one stored to, and the run does not write it whatever its commands meet in the bytes stored to; or it is another,
and the run leaves it the same whatever they meet there. -/
def keptBeside (s : State) (stored : List Word) (log : List Access) (b : Word) : Prop :=
  (∀ a ∈ stored, touchedByte log a = false) ∨
  (b ∈ stored ∧ wroteByte log b = false ∧ ∀ f : Others, s.writesBeside stored f log.length b = false) ∨
  (b ∉ stored ∧
    ∀ f g : Others, s.outputBeside stored f log.length b = s.outputBeside stored g log.length b)

/-- The error codes and classes by name (R340, R342). -/
def errorCodes : List (ErrName × Nat × Nat) :=
  [(.bufferTooSmall, 1, 1), (.badSegmentLength, 2, 1), (.badQuantSegment, 3, 1), (.badHuffTbl, 4, 1)] ++
  [(.badFrameSegment, 5, 1), (.badScanSegment, 6, 1), (.badComponentId, 7, 1), (.notImplemented, 8, 2)] ++
  [(.outOfMemory, 9, 3), (.internalError, 10, 1), (.illegalCommand, 11, 0), (.busError, 12, 0), (.badState, 13, 0)]

end Sys2Proof.Cert

section
open Sys2Proof Sys2Proof.Machine Sys2Proof.Cert

/-! ## Reset, the host's side, errors -/

/-- R382: the reset table. A hardware reset leaves every register and table memory reading 0 but ID and the hidden state
cleared; the RESET command clears the fourth column's state and changes nothing else but CQ_PTR. Neither changes system
memory. -/
def Obligations.ResetTableHolds : Prop :=
  ∀ s : State,
    (csrCleared (hardReset s) ∧ hiddenCleared (hardReset s) ∧ (hardReset s).mem = s.mem
      ∧ (hardReset s).params = s.params) ∧
    csrRead s 0x000 = 0x4A524201#32 ∧ (csrRead s 0x004).getLsbD 0 = false ∧ (csrRead s 0x004).getLsbD 1 = false ∧
    ∃ t, exec .reset s = .next t ∧ { t with dec := s.dec } = ranPast 4 s ∧ hiddenCleared t ∧
      ∀ off,
        csrRead t off =
          if resetClears off then 0
          else if off = 0x008 then
            (csrRead s 0x008 &&& 7#32) ||| (if s.proc.done && s.cfg.ieDone || s.proc.err && s.cfg.ieErr then 0x2000#32 else 0)
          else if off = 0x018 then s.proc.cqPtr + 4
          else csrRead s off

/-- R321: a write of CTRL. SRST resets and does nothing else; otherwise the enables are written, and GO clears DONE and
sets BUSY unless BUSY or ERR is set, and begins the model's own record of the run and of the host's accesses beside it (log
entry 7). A host's store is that write. -/
def Obligations.GoStartsTheRun : Prop :=
  ∀ (s : State) (v : Word),
    (v.getLsbD 1 = true → csrWrite s 0x004 v = hardReset s) ∧
    (v.getLsbD 1 = false → (v.getLsbD 0 = false ∨ s.proc.busy = true ∨ s.proc.err = true) →
      csrWrite s 0x004 v = withEnables v s) ∧
    (v.getLsbD 1 = false → v.getLsbD 0 = true → s.proc.busy = false → s.proc.err = false →
      csrWrite s 0x004 v =
        { withEnables v s with proc := { s.proc with busy := true, done := false }, race := s.runStart.race }) ∧
    ∀ es, s.events = .store (csrAddr s 0x004) .w32 v :: es → step s = .next (csrWrite { s with events := es } 0x004 v)

/-- While idle, every register that is RW while idle reads back what was written to its bits, and every other register
keeps its value, but for the reset of the bit reader by a write of SRC_POS (R25, R28 to R36). CQ_PTR is aligned, as it is
in every state a run reaches (StepKeepsRegistersLegal). -/
def Obligations.CsrWritesReadBack : Prop :=
  ∀ (s : State) (off : Nat) (v : Word), s.procLegal = true → s.proc.busy = false → off % 4 = 0 → off ≠ 0x004 →
    off ≠ 0x008 →
    csrRead (csrWrite s off v) off = (csrRead s off &&& ~~~rwMask off) ||| (v &&& rwMask off) ∧
    (∀ off', off' % 4 = 0 → off' ≠ off →
      csrRead (csrWrite s off v) off' =
        if off = 0x028 ∧ off' = 0x0D8 then csrRead s off' &&& 0x000000FF#32
        else if off = 0x028 ∧ off' = 0x008 then csrRead s off' &&& ~~~0x00000800#32
        else csrRead s off') ∧
    (csrWrite s off v).mem = s.mem ∧ (csrWrite s off v).params = s.params ∧
      (csrWrite s off v).dec.tab = s.dec.tab ∧ (csrWrite s off v).dec.frm = s.dec.frm ∧
      (csrWrite s off v).dec.ent.llprev = s.dec.ent.llprev ∧ (csrWrite s off v).dec.ent.llfirst = s.dec.ent.llfirst

/-- The host's access rules, clause by clause (R21). Clause (a) refuses an access that lies partly in the window too, which
is the model's choice (log entry 8), and what a load while BUSY records is log entries 2 and 5. -/
def Obligations.HostAccessRules : Prop :=
  ∀ s : State,
    -- (a) an access to the window that is no aligned 32-bit access is refused
    (∀ (a : Word) (w : Width) (v : Word), (∃ k, k < w.bytes ∧ s.params.inWindow (a + BitVec.ofNat 32 k).toNat = true) →
      (w ≠ .w32 ∨ a.toNat % 4 ≠ 0) →
      hostLoad a w s = .refused (.csrAccessNotWord a) ∧ hostStore a w v s = .refused (.csrAccessNotWord a)) ∧
    -- (b), (c) reserved offsets read 0; writes to them, and to read-only registers, are ignored
    (∀ off, off % 4 = 0 → off < 0x2000 → reservedOffset off = true → csrRead s off = 0) ∧
    (∀ off v, off % 4 = 0 → off < 0x2000 → rwMask off = 0 → off ≠ 0x004 → off ≠ 0x008 → csrWrite s off v = s) ∧
    -- (d) while BUSY only CTRL and STATUS take a write, and GO is ignored; the W1C bits work at any time
    (s.proc.busy = true → ∀ off v, off ≠ 0x004 → off ≠ 0x008 → csrWrite s off v = s) ∧
    (s.proc.busy = true → ∀ v : Word, csrWrite s 0x004 v = if v.getLsbD 1 then hardReset s else withEnables v s) ∧
    (∀ v : Word,
      csrWrite s 0x008 v =
        { s with
          proc := { s.proc with done := s.proc.done && !v.getLsbD 1, err := s.proc.err && !v.getLsbD 2 }
          dec :=
            { s.dec with
              warn :=
                { s.dec.warn with
                  rst := s.dec.warn.rst && !v.getLsbD 3, ent := s.dec.warn.ent && !v.getLsbD 4 } } }) ∧
    -- (e) while BUSY a read returns STATUS, or any value
    (s.proc.busy = true → (csrRead s 0x008).getLsbD 0 = true ∧
      hostLoad (csrAddr s 0x008) .w32 s = .next (withLoad (csrAddr s 0x008) .w32 (csrRead s 0x008) s) ∧
      ∀ off, off < 0x2000 → off % 4 = 0 → off ≠ 0x008 →
        ∃ v, hostLoad (csrAddr s off) .w32 s =
          .next { withLoad (csrAddr s off) .w32 v s with free := s.free + 1 }) ∧
    -- (f), (g) while idle a read returns the register and changes nothing
    (s.proc.busy = false → ∀ off, off < 0x2000 → off % 4 = 0 →
      hostLoad (csrAddr s off) .w32 s = .next (withLoad (csrAddr s off) .w32 (csrRead s off) s)) ∧
    ∀ off v, off < 0x2000 → off % 4 = 0 → hostStore (csrAddr s off) .w32 v s = .next (csrWrite s off v)

/-- R217, R352: RECON_READY and the interrupt line are computed from the completion flags, the status bits and the
enables; STATUS holds them beside the flags, and its reserved bits read 0 (R24). -/
def Obligations.StatusReadsTheFlags : Prop :=
  ∀ s : State,
    ((csrRead s 0x008).getLsbD 12 = true ↔
      ((s.dec.frm.mode = .sof0 ∨ s.dec.frm.mode = .sof1 ∨ s.dec.frm.mode = .sof3) ∧
          ∀ c, c < s.dec.frm.ncomp.toNat → s.dec.prog.seqDone.get c = true) ∨
        (s.dec.frm.mode = .sof2 ∧ ∀ c, c < s.dec.frm.ncomp.toNat →
          s.dec.prog.dcDone.get c = true ∧ ∀ k, 1 ≤ k → k ≤ 63 → (s.dec.prog.acmask.get c).getLsbD k = true)) ∧
    ((csrRead s 0x008).getLsbD 13 = true ↔
      (s.proc.done = true ∧ s.cfg.ieDone = true) ∨ (s.proc.err = true ∧ s.cfg.ieErr = true) ∨
        ((s.dec.warn.rst = true ∨ s.dec.warn.ent = true) ∧ s.cfg.ieWarn = true)) ∧
    (csrRead s 0x008).getLsbD 0 = s.proc.busy ∧ (csrRead s 0x008).getLsbD 1 = s.proc.done ∧
    (csrRead s 0x008).getLsbD 2 = s.proc.err ∧ (csrRead s 0x008).getLsbD 3 = s.dec.warn.rst ∧
    (csrRead s 0x008).getLsbD 4 = s.dec.warn.ent ∧ (csrRead s 0x008).getLsbD 8 = s.dec.frm.hdrValid ∧
    (csrRead s 0x008).getLsbD 9 = s.dec.scn.csValid ∧ (csrRead s 0x008).getLsbD 10 = s.dec.scn.active ∧
    (csrRead s 0x008).getLsbD 11 = s.dec.ent.markerHit ∧
    csrRead s 0x008 &&& 0xFFFFC0E0#32 = 0

/-- R342, with the entry of R341 and the return of R345: the record of an error. Its code and class are those of its name,
ERR_CP and CQ_PTR hold the failing command's address, ERR_DATA the raise's value, BUSY is cleared and ERR set, and nothing
else changes. GO is then ignored until the host has cleared ERR; it starts the run again at the failing command, whose
record stays readable (and begins the model's own record of the run, log entry 7). -/
def Obligations.ErrorEntryRecordsTheRaise : Prop :=
  (∀ (e : ErrName) (data : Word) (s : State), ∃ code cls, (e, code, cls) ∈ errorCodes ∧
    csrRead (errorEntry ⟨e, data⟩ s) 0x00C = BitVec.ofNat 32 (256 * cls + code) ∧
    csrRead (errorEntry ⟨e, data⟩ s) 0x010 = s.proc.cqPtr ∧ csrRead (errorEntry ⟨e, data⟩ s) 0x014 = data ∧
    errorEntry ⟨e, data⟩ s =
      { s with
        proc :=
          { s.proc with
            errCode := BitVec.ofNat 8 code, errClass := BitVec.ofNat 2 cls, errCp := s.proc.cqPtr, errData := data
            busy := false, err := true } }) ∧
  ∀ (r : Raise) (s : State) (v : Word), v.getLsbD 1 = false → v.getLsbD 0 = true →
    (csrWrite (errorEntry r s) 0x004 v).proc = (errorEntry r s).proc ∧
    csrWrite (csrWrite (errorEntry r s) 0x008 0x00000004#32) 0x004 v =
      withEnables v
        { s with
          proc :=
            { s.proc with
              errCode := r.name.code, errClass := r.name.cls, errCp := s.proc.cqPtr, errData := r.data
              err := false, busy := true, done := false }
          race := s.runStart.race }

/-- R380: a reset takes effect whatever the block is doing. Between commands it resets at once, by SRST or by the reset
input; during a command each byte the command would have changed holds its old or its new value, and every other byte
its old one. -/
def Obligations.ResetTakesEffectAtAnyTime : Prop :=
  ∀ s : State, s.memCanonical = true →
    (∀ es, s.events = .resetPin :: es → step s = .next (hardReset { s with events := es })) ∧
    (∀ es v, s.events = .store (csrAddr s 0x004) .w32 v :: es → v.getLsbD 1 = true →
      step s = .next (hardReset { s with events := es })) ∧
    ∀ es, s.events = .resetDuringCommand :: es →
      ∃ t u, step s = .next t ∧ blockStep { s with events := es } = .next u ∧ csrCleared t ∧ hiddenCleared t ∧
        t.params = s.params ∧ t.events = es ∧
        ∀ a, t.mem.read a = s.mem.read a ∨ t.mem.read a = u.mem.read a

end

namespace Sys2Proof.Cert
open Sys2Proof.Machine

/-! ### Segment bodies (R142) -/

/-- One quantisation table of a DQT body (R142). -/
structure DqtTable where
  pq : Nat
  tq : Nat
  vals : List Nat
deriving DecidableEq, Repr

/-- A table LDQT accepts: precision 0 or 1, an id 0..3, and 64 values of that precision. -/
abbrev DqtTable.ok (t : DqtTable) : Prop :=
  t.pq ≤ 1 ∧ t.tq ≤ 3 ∧ t.vals.length = 64 ∧ ∀ v ∈ t.vals, v < 256 ^ (t.pq + 1)

/-- The bytes of one table. -/
def DqtTable.bytes (t : DqtTable) : List Byte :=
  nibbles t.pq t.tq :: t.vals.flatMap fun v => if t.pq = 0 then [BitVec.ofNat 8 v] else be16Bytes v

/-- The bytes of the tables of a DQT body. -/
def dqtBytes (ts : List DqtTable) : List Byte := ts.flatMap DqtTable.bytes

/-- The last table of a body with an id. -/
def lastQuant (ts : List DqtTable) (id : Nat) : Option DqtTable := ts.reverse.find? fun t => t.tq == id

/-- The tables after those of a DQT body have been loaded, the last with an id winning; the Huffman tables stay. -/
def quantLoaded (ts : List DqtTable) (old new : Tables) : Prop :=
  (∀ id, id < 4 →
    (∀ k, k < 64 →
      (new.qt.get id).toList.getD (zz k) 0 =
        match lastQuant ts id with
        | some t => BitVec.ofNat 16 (t.vals.getD k 0)
        | none => (old.qt.get id).toList.getD (zz k) 0) ∧
    new.qtv.get id = (old.qtv.get id || (lastQuant ts id).isSome) ∧
    new.qtp.get id =
      match lastQuant ts id with
      | some t => t.pq == 1
      | none => old.qtp.get id) ∧
  { new with qt := old.qt, qtv := old.qtv, qtp := old.qtp } = old

/-- One Huffman table of a DHT body (R142): class, id, BITS[1..16], HUFFVAL. -/
structure DhtTable where
  tc : Nat
  th : Nat
  counts : List Nat
  vals : List Byte
deriving DecidableEq, Repr

/-- The first code of length `L + 1` (R161). -/
def firstCode (counts : List Nat) : Nat → Nat
  | 0 => 0
  | L + 1 => 2 * (firstCode counts L + counts.getD L 0)

/-- No code runs past its length (R161). -/
abbrev codesFit (counts : List Nat) : Prop :=
  ∀ L, L < 16 → counts.getD L 0 = 0 ∨ firstCode counts L + counts.getD L 0 ≤ 2 ^ (L + 1)

/-- How many codes are shorter than length `L + 1`. -/
def codesBefore (counts : List Nat) (L : Nat) : Nat := (counts.take L).sum

/-- The canonical codes (R161): the `j`-th code of length `L + 1` has the next value of that length, and the next
symbol. -/
def canonicalCodes (counts : List Nat) (vals : List Byte) : List HEntry :=
  (List.range 16).flatMap fun L =>
    (List.range (counts.getD L 0)).map fun j =>
      { len := L + 1, code := firstCode counts L + j, sym := vals.getD (codesBefore counts L + j) 0 }

/-- A table LDHT accepts. -/
abbrev DhtTable.ok (t : DhtTable) : Prop :=
  t.tc ≤ 1 ∧ t.th ≤ 3 ∧ t.counts.length = 16 ∧ (∀ n ∈ t.counts, n < 256) ∧ t.counts.sum = t.vals.length
    ∧ t.vals.length ≤ 256 ∧ codesFit t.counts

/-- The bytes of one table up to its values. -/
def DhtTable.head (t : DhtTable) : List Byte := nibbles t.tc t.th :: t.counts.map fun n => BitVec.ofNat 8 n

/-- The bytes of one table. -/
def DhtTable.bytes (t : DhtTable) : List Byte := t.head ++ t.vals

/-- The bytes of the tables of a DHT body. -/
def dhtBytes (ts : List DhtTable) : List Byte := ts.flatMap DhtTable.bytes

/-- The last table of a body with a class and an id. -/
def lastHuff (ts : List DhtTable) (tc th : Nat) : Option DhtTable := ts.reverse.find? fun t => t.tc == tc && t.th == th

/-- What a table reads as once loaded (R53, R54). -/
def DhtTable.is (t : DhtTable) (h : HuffTab) : Prop :=
  (∀ L, L < 16 → h.bits.toList.getD L 0 = BitVec.ofNat 8 (t.counts.getD L 0)) ∧
  (∀ i, i < 256 → h.vals.getD i 0 = t.vals.getD i 0) ∧ h.hcode = canonicalCodes t.counts t.vals

/-- The tables after those of a DHT body have been loaded, the last with a class and an id winning; the quantisation
tables stay. -/
def huffLoaded (ts : List DhtTable) (old new : Tables) : Prop :=
  (∀ id, id < 4 →
    (match lastHuff ts 0 id with
      | some t => t.is (new.dc.get id) ∧ new.dcv.get id = true
      | none => new.dc.get id = old.dc.get id ∧ new.dcv.get id = old.dcv.get id) ∧
    match lastHuff ts 1 id with
      | some t => t.is (new.ac.get id) ∧ new.acv.get id = true
      | none => new.ac.get id = old.ac.get id ∧ new.acv.get id = old.acv.get id) ∧
  { new with dc := old.dc, ac := old.ac, dcv := old.dcv, acv := old.acv } = old

/-- A state with other tables. -/
def withTables (t : Tables) (s : State) : State := { s with dec := { s.dec with tab := t } }

end Sys2Proof.Cert

section
open Sys2Proof Sys2Proof.Machine Sys2Proof.Cert

/-! ## SEEK, SETRI, LDQT, LDHT -/

/-- R140: SEEK to an offset up to SRC_LEN sets SRC_POS, empties the bit buffer and clears MARKER_HIT, and changes nothing
else; past SRC_LEN it raises IllegalCommand(OFFSET). -/
def Obligations.SeekSetsTheCursor : Prop :=
  ∀ (s : State) (offset : Word),
    (offset.toNat ≤ s.cfg.srcLen.toNat →
      exec (.seek offset) s =
        .next
          { ranPast 8 s with
            srcPos := offset, dec := { s.dec with ent := { s.dec.ent with bl := 0, markerHit := false } } }) ∧
    (s.cfg.srcLen.toNat < offset.toNat → exec (.seek offset) s = .next (errorEntry ⟨.illegalCommand, offset⟩ s))

/-- R165: SETRI on a DRI body of length 4 sets RI and RTG and moves SRC_POS past it; another length raises
BadSegmentLength(s+4); a byte of the four that cannot be read raises BufferTooSmall or BusError (R85). Nothing else
changes. -/
def Obligations.SetriLoadsTheInterval : Prop :=
  ∀ s : State,
    (∀ ri, ri < 65536 → srcHolds s s.srcPos.toNat (be16Bytes 4 ++ be16Bytes ri) →
      exec .setri s =
        .next
          { ranPast 4 s with
            srcPos := s.srcPos + 4
            dec :=
              { s.dec with
                ri := BitVec.ofNat 16 ri, ent := { s.dec.ent with rtg := BitVec.ofNat 16 ri } } }) ∧
    (∀ L ri, L < 65536 → L ≠ 4 → srcHolds s s.srcPos.toNat (be16Bytes L ++ be16Bytes ri) →
      exec .setri s = .next (errorEntry (.at .badSegmentLength (s.srcPos.toNat + 4)) s)) ∧
    ∀ (bs : List Byte) (r : Raise), bs.length < 4 → srcHolds s s.srcPos.toNat bs →
      srcStops s (s.srcPos.toNat + bs.length) r → exec .setri s = .next (errorEntry r s)

/-- LDQT on a DQT body loads every table in it, 8-bit or 16-bit, at its natural places, the last with an id winning,
marks the tables loaded with their precision, moves SRC_POS past the body, and changes nothing else (R150; R141). A body
of length 2 loads nothing. -/
def Obligations.LdqtLoadsEveryTable : Prop :=
  ∀ (s : State) (ts : List DqtTable), (∀ t ∈ ts, t.ok) → 2 + (dqtBytes ts).length < 65536 →
    srcHolds s s.srcPos.toNat (be16Bytes (2 + (dqtBytes ts).length) ++ dqtBytes ts) →
    ∃ tab, quantLoaded ts s.dec.tab tab ∧
      exec .ldqt s =
        .next { withTables tab (ranPast 4 s) with srcPos := s.srcPos + BitVec.ofNat 32 (2 + (dqtBytes ts).length) }

/-- A failing LDQT raises at the first failing check: a length below 2, an id or a precision out of range, too few bytes
left for a table, or a byte that cannot be read (R85); the tables before it stay loaded, the one it failed in is not, and
SRC_POS stays (R150, R141, R343). -/
def Obligations.LdqtErrorsKeepEarlierTables : Prop :=
  ∀ (s : State) (ts : List DqtTable) (L : Nat), (∀ t ∈ ts, t.ok) → L < 65536 →
    let pos := s.srcPos.toNat
    let used := 2 + (dqtBytes ts).length
    let pre := be16Bytes L ++ dqtBytes ts
    let raises := fun (r : Raise) =>
      ∃ tab, quantLoaded ts s.dec.tab tab ∧ exec .ldqt s = .next (errorEntry r (withTables tab s))
    let fails := fun (e : ErrName) (p : Nat) => raises (.at e p)
    (L < 2 → srcHolds s pos (be16Bytes L) → exec .ldqt s = .next (errorEntry (.at .badSegmentLength (pos + 2)) s)) ∧
    (∀ pq tq, pq < 16 → tq < 16 → (1 < pq ∨ 3 < tq) → used < L → srcHolds s pos (pre ++ [nibbles pq tq]) →
      fails .badQuantSegment (pos + used + 1)) ∧
    (∀ pq tq, pq ≤ 1 → tq ≤ 3 → used < L → L < used + 1 + 64 * (pq + 1) → srcHolds s pos (pre ++ [nibbles pq tq]) →
      fails .badSegmentLength (pos + used + 1)) ∧
    (∀ pq tq part r, pq ≤ 1 → tq ≤ 3 → used + 1 + 64 * (pq + 1) ≤ L → part.length < 64 * (pq + 1) →
      srcHolds s pos (pre ++ nibbles pq tq :: part) → srcStops s (pos + used + 1 + part.length) r → raises r) ∧
    (∀ r, used < L → srcHolds s pos pre → srcStops s (pos + used) r → raises r) ∧
    ∀ (bs : List Byte) (r : Raise), bs.length < 2 → srcHolds s pos bs → srcStops s (pos + bs.length) r →
      exec .ldqt s = .next (errorEntry r s)

/-- R161: table construction assigns the canonical codes, and fails exactly when a code would run past its length; the
codes fit their lengths and none is a prefix of another. The example is the standard luminance DC table. -/
def Obligations.CanonicalCodesAreBuilt : Prop :=
  (∀ (counts : List Nat) (vals : List Byte), counts.length = 16 →
    buildHuff counts vals = if codesFit counts then some (canonicalCodes counts vals) else none) ∧
  (∀ (counts : List Nat) (vals : List Byte), counts.length = 16 → codesFit counts →
    (∀ x ∈ canonicalCodes counts vals, 1 ≤ x.len ∧ x.len ≤ 16 ∧ x.code < 2 ^ x.len) ∧
    ∀ x ∈ canonicalCodes counts vals, ∀ y ∈ canonicalCodes counts vals, x ≠ y → x.len ≤ y.len →
      y.code / 2 ^ (y.len - x.len) ≠ x.code) ∧
  (buildHuff [0, 1, 5, 1, 1, 1, 1, 1, 1, 0, 0, 0, 0, 0, 0, 0] [0, 1, 2, 3, 4, 5, 6, 7, 8, 9, 10, 11]).map
      (fun hc => hc.map fun x => (x.len, x.code, x.sym.toNat)) =
    some [(2, 0b00, 0), (3, 0b010, 1), (3, 0b011, 2), (3, 0b100, 3), (3, 0b101, 4), (3, 0b110, 5), (4, 0b1110, 6),
      (5, 0b11110, 7), (6, 0b111110, 8), (7, 0b1111110, 9), (8, 0b11111110, 10), (9, 0b111111110, 11)]

/-- LDHT on a DHT body loads every table in it with its canonical codes, the last with a class and an id winning, marks
the tables loaded, moves SRC_POS past the body, and changes nothing else (R160, R141). -/
def Obligations.LdhtLoadsEveryTable : Prop :=
  ∀ (s : State) (ts : List DhtTable), (∀ t ∈ ts, t.ok) → 2 + (dhtBytes ts).length < 65536 →
    srcHolds s s.srcPos.toNat (be16Bytes (2 + (dhtBytes ts).length) ++ dhtBytes ts) →
    ∃ tab, huffLoaded ts s.dec.tab tab ∧
      exec .ldht s =
        .next { withTables tab (ranPast 4 s) with srcPos := s.srcPos + BitVec.ofNat 32 (2 + (dhtBytes ts).length) }

/-- A failing LDHT raises at the first failing check: a length below 2, too many values, a class or an id out of range
(after the values have been read), a code that runs past its length, left-over bytes, or a byte that cannot be read (R85);
the tables before it stay loaded, the one it failed in is not, and SRC_POS stays (R160, R141, R343). -/
def Obligations.LdhtErrorsKeepEarlierTables : Prop :=
  ∀ (s : State) (ts : List DhtTable) (L : Nat), (∀ t ∈ ts, t.ok) → L < 65536 →
    let pos := s.srcPos.toNat
    let used := 2 + (dhtBytes ts).length
    let pre := be16Bytes L ++ dhtBytes ts
    let raises := fun (r : Raise) =>
      ∃ tab, huffLoaded ts s.dec.tab tab ∧ exec .ldht s = .next (errorEntry r (withTables tab s))
    let fails := fun (e : ErrName) (p : Nat) => raises (.at e p)
    (L < 2 → srcHolds s pos (be16Bytes L) → exec .ldht s = .next (errorEntry (.at .badSegmentLength (pos + 2)) s)) ∧
    (∀ t : DhtTable, t.tc < 16 → t.th < 16 → t.counts.length = 16 → (∀ n ∈ t.counts, n < 256) → used + 17 ≤ L →
      (256 < t.counts.sum ∨ L < used + 17 + t.counts.sum) → srcHolds s pos (pre ++ t.head) →
      fails .badHuffTbl (pos + used + 17)) ∧
    (∀ t : DhtTable, t.tc < 16 → t.th < 16 → t.counts.length = 16 → (∀ n ∈ t.counts, n < 256) →
      t.counts.sum = t.vals.length → t.vals.length ≤ 256 → used + t.bytes.length ≤ L → srcHolds s pos (pre ++ t.bytes) →
      ((1 < t.tc ∨ 3 < t.th) → fails .badHuffTbl (pos + used + t.bytes.length)) ∧
      (t.tc ≤ 1 → t.th ≤ 3 → ¬codesFit t.counts → fails .internalError (pos + used + t.bytes.length))) ∧
    (used < L → L ≤ used + 16 → srcHolds s pos pre → fails .badSegmentLength (pos + used)) ∧
    (∀ (part : List Byte) (r : Raise), part.length < 17 → used + 17 ≤ L → srcHolds s pos (pre ++ part) →
      srcStops s (pos + used + part.length) r → raises r) ∧
    (∀ (t : DhtTable) (part : List Byte) (r : Raise), t.tc < 16 → t.th < 16 → t.counts.length = 16 →
      (∀ n ∈ t.counts, n < 256) → t.counts.sum ≤ 256 → used + 17 + t.counts.sum ≤ L → part.length < t.counts.sum →
      srcHolds s pos (pre ++ t.head ++ part) → srcStops s (pos + used + 17 + part.length) r → raises r) ∧
    ∀ (bs : List Byte) (r : Raise), bs.length < 2 → srcHolds s pos bs → srcStops s (pos + bs.length) r →
      exec .ldht s = .next (errorEntry r s)

end

namespace Sys2Proof.Cert
open Sys2Proof.Machine

/-! ### Frames (R142, R163, R170, R171) -/

/-- A component the frame header accepts. -/
abbrev compOk (c : CompHdr) : Prop := 1 ≤ c.h ∧ c.h ≤ 15 ∧ 1 ≤ c.v ∧ c.v ≤ 15 ∧ c.tq ≤ 3

/-- The bytes of a frame header's components. -/
def compBytes (cs : List CompHdr) : List Byte :=
  cs.flatMap fun c => [c.id, nibbles c.h c.v, BitVec.ofNat 8 c.tq]

/-- The first eight bytes of an SOF body. -/
def sofHead (L p y x nf : Nat) : List Byte :=
  be16Bytes L ++ [BitVec.ofNat 8 p] ++ be16Bytes y ++ be16Bytes x ++ [BitVec.ofNat 8 nf]

/-- The bytes of an SOF body whose length field says `L`. -/
def sofBytes (L p y x : Nat) (cs : List CompHdr) : List Byte := sofHead L p y x cs.length ++ compBytes cs

/-- FRAME1.MODE's code: SOFN + 1 (R170). -/
def modeNum : SofKind → Nat
  | .sof0 => 1
  | .sof1 => 2
  | .sof2 => 3
  | .sof3 => 4

/-- HMAX (R171). -/
def hMax (cs : List CompHdr) : Nat := (cs.map CompHdr.h).foldr max 0

/-- VMAX (R171). -/
def vMax (cs : List CompHdr) : Nat := (cs.map CompHdr.v).foldr max 0

/-- `a` divided by `b`, rounded up. -/
def upDiv (a b : Nat) : Nat := if a % b = 0 then a / b else a / b + 1

/-- MCUX (R171). -/
def mcuX (k : SofKind) (x : Nat) (cs : List CompHdr) : Nat := if k = .sof3 then x else upDiv x (8 * hMax cs)

/-- MCUY (R171). -/
def mcuY (k : SofKind) (y : Nat) (cs : List CompHdr) : Nat := if k = .sof3 then y else upDiv y (8 * vMax cs)

/-- The bytes of the coefficients of the components of a list (R171). -/
def needOf (k : SofKind) (x y : Nat) (all cs : List CompHdr) : Nat :=
  if k = .sof3 then 0 else (cs.map fun c => mcuX k x all * c.h * (mcuY k y all * c.v) * 128).sum

/-- LAYOUT's code from the components' sampling factors (R163, R59). -/
def layoutNum (cs : List CompHdr) : Nat :=
  let f := cs.map fun c => (c.h, c.v)
  if f = [(1, 1)] then 0
  else if f = [(1, 1), (1, 1), (1, 1)] ∨ f = [(1, 1), (1, 1), (1, 1), (1, 1)] then 0
  else if f = [(2, 1), (1, 1), (1, 1)] ∨ f = [(2, 1), (1, 1), (1, 1), (2, 1)] then 1
  else if f = [(1, 2), (1, 1), (1, 1)] ∨ f = [(1, 2), (1, 1), (1, 1), (1, 2)] then 2
  else if f = [(2, 2), (1, 1), (1, 1)] ∨ f = [(2, 2), (1, 1), (1, 1), (2, 2)] then 3
  else 7

/-- SETFRM's checks once the components have been read, in order (R170): the error, if any. -/
def frameError (k : SofKind) (L p y x : Nat) (cs : List CompHdr) : Option ErrName :=
  if L ≠ 8 + 3 * cs.length then some .badSegmentLength
  else if k ≠ .sof3 ∧ p ≠ 8 then some .notImplemented
  else if k = .sof3 ∧ cs.length ≠ 1 then some .notImplemented
  else if k = .sof3 ∧ (p < 2 ∨ 16 < p) then some .badFrameSegment
  else if x = 0 then some .badFrameSegment
  else if y = 0 then some .notImplemented
  else none

/-- A frame header's fields as they stand in its bytes: one to four components that the frame header accepts. -/
abbrev frameFields (L p y x : Nat) (cs : List CompHdr) : Prop :=
  L < 65536 ∧ p < 256 ∧ y < 65536 ∧ x < 65536 ∧ 1 ≤ cs.length ∧ cs.length ≤ 4 ∧ ∀ c ∈ cs, compOk c

/-- Byte `a` of the coefficient buffer. -/
def coefByteAddr (s : State) (a : Nat) : Word := s.cfg.coefBase + BitVec.ofNat 32 a

/-- The coefficient region's first `n` bytes are accessible and hold none of SETFRM's own word nor of the header. -/
abbrev fillable (s : State) (n len : Nat) : Prop :=
  ∀ a, a < n → s.params.memOk (coefByteAddr s a).toNat = true ∧ notCommand s 4 (coefByteAddr s a) ∧
    ∀ j, j < len → coefByteAddr s a ≠ s.cfg.srcBase + BitVec.ofNat 32 (s.srcPos.toNat + j)

/-- Memory with the first `n` bytes of the coefficient region zero and every other byte unchanged. -/
def zeroedTo (s : State) (n : Nat) (m : Memory) : Prop :=
  (∀ a, a < n → m.read (coefByteAddr s a).toNat = 0) ∧
  ∀ b : Word, (∀ a, a < n → b ≠ coefByteAddr s a) → m.read b.toNat = s.mem.read b.toNat

/-! ### Scans (R142, R180 to R184) -/

/-- One component of a scan: its frame component and its table ids. -/
abbrev scanCompOk (s : State) (c : ScanComp) : Prop :=
  c.c < s.dec.frm.ncomp.toNat ∧ c.td ≤ 3 ∧ c.ta ≤ 3
    ∧ ∀ c', c' < c.c → (s.dec.frm.comp.get c').id ≠ (s.dec.frm.comp.get c.c).id

/-- The bytes of a scan header's components. -/
def scanCompBytes (s : State) (cs : List ScanComp) : List Byte :=
  cs.flatMap fun c => [(s.dec.frm.comp.get c.c).id, nibbles c.td c.ta]

/-- The bytes of an SOS body whose length field says `L`. -/
def sosBytes (s : State) (L : Nat) (cs : List ScanComp) (ss se ah al : Nat) : List Byte :=
  be16Bytes L ++ [BitVec.ofNat 8 cs.length] ++ scanCompBytes s cs
    ++ [BitVec.ofNat 8 ss, BitVec.ofNat 8 se, nibbles ah al]

/-- SMODE's code by R184; none is BadScanSegment. -/
def scanKindNum (mode : Mode) (p ns ss se ah al : Nat) : Option ScanKind :=
  match mode with
  | .none => none
  | .sof0 => some .seq
  | .sof1 => some .seq
  | .sof2 =>
    if ss ≤ se ∧ se ≤ 63 ∧ (ss = 0 → se = 0) ∧ (0 < ss → ns = 1) ∧ (ah = 0 ∨ ah = al + 1) ∧ al ≤ 13 then
      if ss = 0 then (if ah = 0 then some .dcFirst else some .dcRefine)
      else (if ah = 0 then some .acFirst else some .acRefine)
    else none
  | .sof3 => if 1 ≤ ss ∧ ss ≤ 7 ∧ al < p then some .lossless else none

/-- A scan kind uses a component's tables only where they are loaded (R180). -/
abbrev scanTables (t : Tables) (k : ScanKind) (cs : List ScanComp) : Prop :=
  ∀ c ∈ cs, ((k = .seq ∨ k = .dcFirst ∨ k = .lossless) → t.dcv.get c.td = true) ∧
    ((k = .seq ∨ k = .acFirst ∨ k = .acRefine) → t.acv.get c.ta = true)

/-- SETSCN's checks once the header has been read, in order (R180): the error, or the scan kind. -/
def scanChecks (s : State) (L : Nat) (cs : List ScanComp) (ss se ah al : Nat) : ErrName ⊕ ScanKind :=
  if L ≠ 6 + 2 * cs.length then .inl .badSegmentLength
  else
    match scanKindNum s.dec.frm.mode s.dec.frm.p.toNat cs.length ss se ah al with
    | none => .inl .badScanSegment
    | some k =>
      if ¬scanTables s.dec.tab k cs then .inl .badHuffTbl
      else if k = .lossless ∧ s.dec.ri.toNat % s.dec.frm.x.toNat ≠ 0 then .inl .notImplemented
      else .inr k

/-- A scan header's fields as they stand in its bytes: one to four different components of the frame, all of them or one
in a sequential frame. -/
abbrev scanFields (s : State) (L : Nat) (cs : List ScanComp) (ss se ah al : Nat) : Prop :=
  L < 65536 ∧ ss < 256 ∧ se < 256 ∧ ah < 16 ∧ al < 16 ∧ 1 ≤ cs.length ∧ cs.length ≤ 4
    ∧ (cs.map ScanComp.c).Nodup ∧ (∀ c ∈ cs, scanCompOk s c)
    ∧ ((s.dec.frm.mode = .sof0 ∨ s.dec.frm.mode = .sof1) → cs.length = s.dec.frm.ncomp.toNat ∨ cs.length = 1)

/-- The colour space by the priority chain of R182. -/
def colourSpace (jfif adobe : Bool) (xform n : Nat) : CSpace :=
  if jfif && n == 1 then .gray
  else if jfif && n == 3 then .ycbcr
  else if adobe && n == 1 then .gray
  else if adobe && n == 3 && xform == 0 then .rgb
  else if adobe && n == 3 && xform == 1 then .ycbcr
  else if adobe && n == 4 && xform == 0 then .cmyk
  else if adobe && n == 4 && xform == 2 then .ycck
  else if n == 1 then .gray
  else if n == 3 then .ycbcr
  else .unknown

/-- SCAN1.SMODE's code (R59). -/
def kindNum : ScanKind → Nat
  | .none => 0
  | .seq => 1
  | .dcFirst => 2
  | .dcRefine => 3
  | .acFirst => 4
  | .acRefine => 5
  | .lossless => 6

/-- FRAME1.CS's code (R59). -/
def spaceNum : CSpace → Nat
  | .unknown => 0
  | .gray => 1
  | .rgb => 2
  | .bgr => 3
  | .ycbcr => 4
  | .cmyk => 5
  | .ycck => 6

/-- Two-bit values as one number, the first lowest. -/
def packed2 (l : List Nat) : Nat := l.foldr (fun a n => a + 4 * n) 0

/-- SCOLS and SROWS (R181). -/
def scanExtent (f : Frame) (k : ScanKind) (cs : List ScanComp) : Nat × Nat :=
  match k, cs with
  | .lossless, _ => (f.x.toNat, f.y.toNat)
  | _, [c] => (upDiv (f.geo.get c.c).cw 8, upDiv (f.geo.get c.c).ch 8)
  | _, _ => (f.mcux.toNat, f.mcuy.toNat)

end Sys2Proof.Cert

section
open Sys2Proof Sys2Proof.Machine Sys2Proof.Cert

/-! ## SETFRM, SETSCN -/

/-- SETFRM on an SOF body that passes every check commits the frame (R170, R163, R171): the frame registers hold the
header's fields and the geometry, the coefficient region is zero, the scan, the completion flags, the predictors and
EOBRUN are cleared, SRC_POS is after the body, and nothing else changes. -/
def Obligations.SetfrmCommitsTheFrame : Prop :=
  ∀ (s : State) (k : SofKind) (L p y x : Nat) (cs : List CompHdr), s.memCanonical = true → frameFields L p y x cs →
    srcHolds s s.srcPos.toNat (sofBytes L p y x cs) → frameError k L p y x cs = none →
    needOf k x y cs cs ≤ s.cfg.coefSize.toNat → fillable s (needOf k x y cs cs) (8 + 3 * cs.length) →
    ∃ t, exec (.setfrm k) s = .next t ∧
      csrRead t 0x090 = BitVec.ofNat 32 (65536 * y + x) ∧
      csrRead t 0x094 =
        BitVec.ofNat 32 (p + 2 ^ 8 * cs.length + 2 ^ 12 * modeNum k + 2 ^ 16 * layoutNum cs + 2 ^ 20 * hMax cs
          + 2 ^ 24 * vMax cs) ∧
      csrRead t 0x098 = BitVec.ofNat 32 (65536 * mcuY k y cs + mcuX k x cs) ∧
      csrRead t 0x09C = BitVec.ofNat 32 (needOf k x y cs cs) ∧
      (∀ c, c < 4 →
        csrRead t (0x0A0 + 4 * c) =
          match cs[c]? with
          | none => 0
          | some d =>
            BitVec.ofNat 32 (d.id.toNat + 2 ^ 8 * d.h + 2 ^ 12 * d.v + 2 ^ 16 * d.tq + 2 ^ 20 * (hMax cs / d.h)
              + 2 ^ 24 * (vMax cs / d.v))) ∧
      (∀ c, c < 4 →
        match cs[c]? with
        | none => t.dec.frm.geo.get c = { bw := 0, bh := 0, cw := 0, ch := 0, coff := 0 }
        | some d =>
          (t.dec.frm.geo.get c).cw = upDiv (x * d.h) (hMax cs) ∧ (t.dec.frm.geo.get c).ch = upDiv (y * d.v) (vMax cs) ∧
          (t.dec.frm.geo.get c).bw = mcuX k x cs * d.h ∧ (t.dec.frm.geo.get c).bh = mcuY k y cs * d.v ∧
          (t.dec.frm.geo.get c).coff = needOf k x y cs (cs.take c)) ∧
      (csrRead t 0x008).extractLsb' 8 3 = 1#3 ∧
      (∀ off ∈ [0x0C0, 0x0C4, 0x0C8, 0x0DC, 0x0D4, 0x0B0, 0x0B4, 0x0B8, 0x0BC, 0x0E0], csrRead t off = 0) ∧
      (∀ off, 0x100 ≤ off → off < 0x120 → csrRead t off = 0) ∧
      zeroedTo s (needOf k x y cs cs) t.mem ∧
      t =
        { ranPast 4 s with
          srcPos := s.srcPos + BitVec.ofNat 32 (8 + 3 * cs.length)
          mem := t.mem
          dec :=
            { s.dec with
              frm := t.dec.frm, scn := t.dec.scn, prog := t.dec.prog
              ent :=
                { s.dec.ent with
                  dcpred := t.dec.ent.dcpred, eobrun := t.dec.ent.eobrun, srow := t.dec.ent.srow } } }

/-- A failing SETFRM raises at the first failing check, or at the first byte that cannot be read (R85), and commits nothing
(R170, R343): COEF_NEED alone changes, and only on OutOfMemory; a BusError in the zero fill leaves the bytes already
zeroed. -/
def Obligations.SetfrmErrorsCommitNothing : Prop :=
  ∀ (s : State) (k : SofKind) (L p y x : Nat) (cs : List CompHdr), L < 65536 → p < 256 → y < 65536 → x < 65536 →
    cs.length ≤ 4 → (∀ c ∈ cs, compOk c) →
    let pos := s.srcPos.toNat
    (∀ nf, nf < 256 → (nf < 1 ∨ 4 < nf) → srcHolds s pos (sofHead L p y x nf) →
      exec (.setfrm k) s = .next (errorEntry (.at .badFrameSegment (pos + 8)) s)) ∧
    (∀ nf (id : Byte) h v tq, nf ≤ 4 → cs.length < nf → h < 16 → v < 16 → tq < 256 → (h = 0 ∨ v = 0 ∨ 3 < tq) →
      srcHolds s pos (sofHead L p y x nf ++ compBytes cs ++ [id, nibbles h v, BitVec.ofNat 8 tq]) →
      exec (.setfrm k) s = .next (errorEntry (.at .badFrameSegment (pos + 8 + 3 * (cs.length + 1))) s)) ∧
    (∀ e, 1 ≤ cs.length → frameError k L p y x cs = some e → srcHolds s pos (sofBytes L p y x cs) →
      exec (.setfrm k) s = .next (errorEntry (.at e (pos + 8 + 3 * cs.length)) s)) ∧
    (1 ≤ cs.length → frameError k L p y x cs = none → srcHolds s pos (sofBytes L p y x cs) →
      s.cfg.coefSize.toNat < needOf k x y cs cs →
      exec (.setfrm k) s =
        .next
          (errorEntry (.at .outOfMemory (pos + 8 + 3 * cs.length))
            { s with
              dec :=
                { s.dec with
                  frm :=
                    { s.dec.frm with coefNeed := BitVec.ofNat 32 (min (needOf k x y cs cs) (2 ^ 32 - 1)) } } })) ∧
    (∀ n, s.memCanonical = true → 1 ≤ cs.length → frameError k L p y x cs = none →
      srcHolds s pos (sofBytes L p y x cs) → needOf k x y cs cs ≤ s.cfg.coefSize.toNat → n < needOf k x y cs cs →
      fillable s n (8 + 3 * cs.length) → ¬s.params.memOk (coefByteAddr s n).toNat = true →
      ∃ m, zeroedTo s n m ∧
        exec (.setfrm k) s = .next (errorEntry ⟨.busError, coefByteAddr s n⟩ { s with mem := m })) ∧
    (∀ (bs : List Byte) (r : Raise), bs.length < 8 → srcHolds s pos bs → srcStops s (pos + bs.length) r →
      exec (.setfrm k) s = .next (errorEntry r s)) ∧
    ∀ nf (part : List Byte) (r : Raise), nf ≤ 4 → cs.length < nf → part.length < 3 →
      srcHolds s pos (sofHead L p y x nf ++ compBytes cs ++ part) →
      srcStops s (pos + 8 + 3 * cs.length + part.length) r → exec (.setfrm k) s = .next (errorEntry r s)

/-- SETSCN on an SOS body that passes every check starts the scan (R180, R181, R182, R184): the scan registers hold the
header's fields, the kind, the extent and the colour space; the scan's predictors, the restart bookkeeping, EOBRUN, the
bit reader and the lossless predictor are reset; SRC_POS is after the body; and nothing else changes. That TD[j] and TA[j]
are 0 for j ≥ NS is the model's choice (log entry 16). -/
def Obligations.SetscnStartsTheScan : Prop :=
  ∀ (s : State) (L : Nat) (cs : List ScanComp) (ss se ah al : Nat) (k : ScanKind), s.headersLegal = true →
    s.dec.frm.hdrValid = true → scanFields s L cs ss se ah al →
    srcHolds s s.srcPos.toNat (sosBytes s L cs ss se ah al) → scanChecks s L cs ss se ah al = .inr k →
    ∃ t, exec .setscn s = .next t ∧
      csrRead t 0x0C0 =
        BitVec.ofNat 32 (cs.length + 2 ^ 8 * packed2 (cs.map ScanComp.c) + 2 ^ 16 * ss + 2 ^ 24 * se) ∧
      csrRead t 0x0C4 =
        BitVec.ofNat 32 (ah + 2 ^ 4 * al + 2 ^ 8 * packed2 (cs.map ScanComp.td) + 2 ^ 16 * packed2 (cs.map ScanComp.ta)
          + 2 ^ 24 * kindNum k) ∧
      (csrRead t 0x094).extractLsb' 28 4 =
        BitVec.ofNat 4 (spaceNum (colourSpace s.dec.info.jfif s.dec.info.adobe s.dec.info.adobeXform.toNat
          s.dec.frm.ncomp.toNat)) ∧
      csrRead t 0x0C8 = BitVec.ofNat 16 (scanExtent s.dec.frm k cs).2 ++ 0#16 ∧
      csrRead t 0x0DC = 0#16 ++ BitVec.ofNat 16 (scanExtent s.dec.frm k cs).1 ∧
      (∀ c, c < 4 →
        t.dec.ent.dcpred.get c = if c ∈ cs.map ScanComp.c then 0 else s.dec.ent.dcpred.get c) ∧
      (∀ x, t.dec.ent.llprev.read x = 0) ∧
      t =
        { ranPast 4 s with
          srcPos := s.srcPos + BitVec.ofNat 32 (6 + 2 * cs.length)
          dec :=
            { s.dec with
              scn := { t.dec.scn with csValid := true, active := true }
              ent :=
                { s.dec.ent with
                  srow := 0, dcpred := t.dec.ent.dcpred, rtg := s.dec.ri, nextRst := 0, eobrun := 0, bl := 0
                  markerHit := false, llfirst := true, llprev := t.dec.ent.llprev } } }

/-- A failing SETSCN raises at the first failing check, or at the first byte that cannot be read (R85), and changes nothing,
the previous scan included (R180, R343). -/
def Obligations.SetscnErrorsCommitNothing : Prop :=
  ∀ (s : State) (L : Nat) (cs : List ScanComp) (ss se ah al : Nat), s.headersLegal = true → L < 65536 → ss < 256 →
    se < 256 → ah < 16 → al < 16 → cs.length ≤ 4 → (cs.map ScanComp.c).Nodup → (∀ c ∈ cs, scanCompOk s c) →
    let pos := s.srcPos.toNat
    let seqFrame := s.dec.frm.mode = .sof0 ∨ s.dec.frm.mode = .sof1
    let head := fun ns => be16Bytes L ++ [BitVec.ofNat 8 ns] ++ scanCompBytes s cs
    let raises := fun (r : Raise) => exec .setscn s = .next (errorEntry r s)
    let fails := fun (e : ErrName) (p : Nat) => raises (.at e p)
    (s.dec.frm.hdrValid = false → fails .badState 0) ∧
    (s.dec.frm.hdrValid = true →
      (∀ ns, ns < 256 → (ns < 1 ∨ 4 < ns) → srcHolds s pos (be16Bytes L ++ [BitVec.ofNat 8 ns]) →
        fails .badScanSegment (pos + 3)) ∧
      (∀ ns, 1 ≤ ns → ns ≤ 4 → seqFrame → ns ≠ s.dec.frm.ncomp.toNat → ns ≠ 1 →
        srcHolds s pos (be16Bytes L ++ [BitVec.ofNat 8 ns]) → fails .notImplemented (pos + 3)) ∧
      (∀ ns (id b : Byte), cs.length < ns → ns ≤ 4 → (seqFrame → ns = s.dec.frm.ncomp.toNat ∨ ns = 1) →
        srcHolds s pos (head ns ++ [id, b]) →
        ((∀ c, c < s.dec.frm.ncomp.toNat → (s.dec.frm.comp.get c).id ≠ id) →
          fails .badComponentId (pos + 3 + 2 * (cs.length + 1))) ∧
        ((∃ c ∈ cs, (s.dec.frm.comp.get c.c).id = id) → fails .badScanSegment (pos + 3 + 2 * (cs.length + 1))) ∧
        ((∃ c, c < s.dec.frm.ncomp.toNat ∧ (s.dec.frm.comp.get c).id = id) → (3 < b.toNat / 16 ∨ 3 < b.toNat % 16) →
          fails .badScanSegment (pos + 3 + 2 * (cs.length + 1)))) ∧
      (∀ e, scanFields s L cs ss se ah al → scanChecks s L cs ss se ah al = .inl e →
        srcHolds s pos (sosBytes s L cs ss se ah al) → fails e (pos + 6 + 2 * cs.length)) ∧
      (∀ (bs : List Byte) (r : Raise), bs.length < 3 → srcHolds s pos bs → srcStops s (pos + bs.length) r → raises r) ∧
      (∀ ns (part : List Byte) (r : Raise), cs.length < ns → ns ≤ 4 →
        (seqFrame → ns = s.dec.frm.ncomp.toNat ∨ ns = 1) → part.length < 2 → srcHolds s pos (head ns ++ part) →
        srcStops s (pos + 3 + 2 * cs.length + part.length) r → raises r) ∧
      ∀ (part : List Byte) (r : Raise), 1 ≤ cs.length →
        (seqFrame → cs.length = s.dec.frm.ncomp.toNat ∨ cs.length = 1) → part.length < 3 →
        srcHolds s pos (head cs.length ++ part) → srcStops s (pos + 3 + 2 * cs.length + part.length) r → raises r)

/-- R182: colour-space resolution follows the priority chain for every META and component count; META = 0x003 with four
components gives CMYK, and two components always give UNKNOWN. -/
def Obligations.ColourSpaceFollowsThePriorityChain : Prop :=
  (∀ (m : Meta) (n : Nat), resolveCs m n = colourSpace m.jfif m.adobe m.adobeXform.toNat n) ∧
  resolveCs { jfif := true, adobe := true, adobeXform := 0 } 4 = .cmyk ∧ ∀ m : Meta, resolveCs m 2 = .unknown

/-- Header idempotence (R328): what SETFRM commits depends only on the frame type and the 8 + 3·Nf bytes of its body;
what SETSCN commits, and whether it raises, only on the 6 + 2·Ns bytes of its body, the frame, META, RI and the tables
loaded. Parsing the same body again gives the same registers. -/
def Obligations.HeadersDependOnlyOnTheirBody : Prop :=
  (∀ (s s' t t' : State) (k : SofKind), s.srcPos = s'.srcPos → s.cfg.coefSize = s'.cfg.coefSize →
    (∀ i, i < 8 → s.src (s.srcPos.toNat + i) = s'.src (s.srcPos.toNat + i)) →
    (∀ nf, s.src (s.srcPos.toNat + 7) = .ok nf → ∀ i, i < 8 + 3 * nf.toNat →
      s.src (s.srcPos.toNat + i) = s'.src (s.srcPos.toNat + i)) →
    exec (.setfrm k) s = .next t → exec (.setfrm k) s' = .next t' →
    s.proc.err = false → s'.proc.err = false → t.proc.err = false → t'.proc.err = false →
    t.dec.frm = t'.dec.frm ∧ t.dec.scn = t'.dec.scn ∧ t.srcPos = t'.srcPos) ∧
  ∀ (s s' t t' : State), s.srcPos = s'.srcPos →
    (∀ i, i < 3 → s.src (s.srcPos.toNat + i) = s'.src (s.srcPos.toNat + i)) →
    (∀ ns, s.src (s.srcPos.toNat + 2) = .ok ns → ∀ i, i < 6 + 2 * ns.toNat →
      s.src (s.srcPos.toNat + i) = s'.src (s.srcPos.toNat + i)) →
    s.dec.frm = s'.dec.frm → s.dec.info = s'.dec.info → s.dec.ri = s'.dec.ri → s.dec.tab.dcv = s'.dec.tab.dcv →
    s.dec.tab.acv = s'.dec.tab.acv → exec .setscn s = .next t → exec .setscn s' = .next t' →
    s.proc.err = false → s'.proc.err = false →
    (t.proc.err = t'.proc.err ∧ (t.proc.err = false → t.dec.scn = t'.dec.scn ∧ t.srcPos = t'.srcPos))

end

namespace Sys2Proof.Cert
open Sys2Proof.Machine

/-! ### Entropy decoding -/

/-- The source stream of a running DECROW holds these bytes from an offset on, and the host stores nothing beside it. -/
abbrev streamHolds (e : Env) (w : DecW) (pos : Nat) (bs : List Byte) : Prop :=
  srcIs e.params e.cfg w.mw.mem pos bs ∧ w.mw.host = .none

/-- Reading logs addresses and changes nothing else: the state with another access log of reads. -/
def withReads (r : List Span) (w : DecW) : DecW := { w with mw := { w.mw with reads := r } }

/-- A warning counter, one up, saturating at 0xFFFF (R27). -/
def countUp (v : Half) : Half := BitVec.ofNat 16 (min (v.toNat + 1) 0xFFFF)

/-- The warnings after `warn ENT` (R350). -/
def warnedEnt (w : Warn) : Warn := { w with ent := true, cntEnt := countUp w.cntEnt }

/-- The warnings after `warn RST` (R350). -/
def warnedRst (w : Warn) : Warn := { w with rst := true, cntRst := countUp w.cntRst }

/-- The bit reader after a zero byte supplied at a marker (R87). -/
def zeroByte (hit : Bool) (w : DecW) : DecW :=
  { w with warn := warnedEnt w.warn, ent := { w.ent with bb := 0, bl := 8, markerHit := hit } }

/-- The bit reader after a data byte, SRC_POS at `pos` (R87). -/
def dataByte (pos : Nat) (b : Byte) (w : DecW) : DecW :=
  { w with pos := BitVec.ofNat 32 pos, ent := { w.ent with bb := b, bl := 8 } }

/-- The state after a restart whose marker bytes end at offset `pos` (R208). -/
def afterRestart (ri : Half) (pos : Nat) (warn : Warn) (w : DecW) : DecW :=
  { w with
    pos := BitVec.ofNat 32 pos, warn := warn
    ent :=
      { w.ent with
        bl := 0, markerHit := false, nextRst := w.ent.nextRst + 1, dcpred := .all 0, eobrun := 0, rtg := ri
        llfirst := true } }

/-- An AC token: the run, the size and the value bits (R209). -/
abbrev Token := Nat × Nat × Nat

/-- Reading a list of AC tokens with a table, each by DECODE and RECEIVE. -/
inductive ReadsTokens (e : Env) (h : HuffTab) : DecW → List Token → DecW → Prop
  | nil (w : DecW) : ReadsTokens e h w [] w
  | cons (w w1 w2 w3 : DecW) (rs : Byte) (v : Nat) (ts : List Token) :
    decodeSym e h w = .ok rs w1 → receive e (rs.toNat % 16) w1 = .ok v w2 → ReadsTokens e h w2 ts w3 →
      ReadsTokens e h w ((rs.toNat / 16, rs.toNat % 16, v) :: ts) w3

/-- The size category of a value: the number of bits of its magnitude. -/
def categoryOf (c : Int) : Nat := Nat.size c.natAbs

/-- The value bits of a value in its category: EXTEND undoes this (R201). -/
def bitsOf (c : Int) : Nat := if 0 ≤ c then c.toNat else (c + 2 ^ categoryOf c - 1).toNat

/-- The tokens of a run of values in zigzag order, `run` zeros already passed: ZRL for sixteen zeros before a value, EOB
for the zeros at the end (R209). -/
def tokensOf : Nat → List Int → List Token
  | run, [] => if run = 0 then [] else [(0, 0, 0)]
  | run, c :: cs =>
    if c = 0 then tokensOf (run + 1) cs
    else List.replicate (run / 16) (15, 0, 0) ++ (run % 16, categoryOf c, bitsOf c) :: tokensOf 0 cs

/-- What an AC pass reads, in order: a symbol, a number of `n` bits, or nothing but a warning's cause (R213). -/
inductive Item where
  | sym (v : Byte)
  | bits (n v : Nat)
  | warn

/-- Reading a list of items with a table, by DECODE and RECEIVE; a warning's cause warns ENT (R350). -/
inductive ReadsItems (e : Env) (h : HuffTab) : DecW → List Item → DecW → Prop
  | nil (w : DecW) : ReadsItems e h w [] w
  | sym (w w1 w2 : DecW) (v : Byte) (is : List Item) :
    decodeSym e h w = .ok v w1 → ReadsItems e h w1 is w2 → ReadsItems e h w (.sym v :: is) w2
  | bits (w w1 w2 : DecW) (n v : Nat) (is : List Item) :
    receive e n w = .ok v w1 → ReadsItems e h w1 is w2 → ReadsItems e h w (.bits n v :: is) w2
  | warn (w w2 : DecW) (is : List Item) :
    ReadsItems e h { w with warn := warnedEnt w.warn } is w2 → ReadsItems e h w (.warn :: is) w2

/-- What a refinement pass does to one coefficient of the band (R213): leaves a zero one; corrects a non-zero one by a bit;
or makes a zero one significant, positive or negative, by a symbol of a size that should be 1. -/
inductive Mark where
  | zero
  | corr (bit : Bool)
  | fresh (size : Nat) (pos : Bool)

/-- A mark may stand for a coefficient. -/
def Mark.fits (c : Half) : Mark → Prop
  | .zero => c = 0
  | .corr _ => c ≠ 0
  | .fresh size _ => c = 0 ∧ 1 ≤ size ∧ size ≤ 15

/-- The coefficient a mark leaves: a correction bit 1 moves it away from zero by 2^AL unless bit AL is set already, a new
one is 2^AL or −2^AL (R213). -/
def Mark.value (al : Nat) (c : Half) : Mark → Half
  | .zero => c
  | .corr bit =>
    if bit = true ∧ c.getLsbD al = false then wrap16 (c.toInt + if 0 ≤ c.toInt then (2 ^ al : Int) else -(2 ^ al))
    else c
  | .fresh _ pos => wrap16 (if pos then (2 ^ al : Int) else -(2 ^ al))

/-- Correction bits as they are read. -/
def corrItems (bs : List Bool) : List Item := bs.map fun b => .bits 1 b.toNat

/-- The warning of a symbol's size other than 1 (R213). -/
def sizeItems (size : Nat) : List Item := if size = 1 then [] else [.warn]

/-- What a refinement pass reads for marks that end with a new coefficient or with ZRL's sixteenth zero, `run` zeros and the
corrections `cs` already passed (R213): a symbol stands before the correction bits of the coefficients it passes. None for
other marks, which an EOBr has to end. -/
def refineItems : Nat → List Bool → List Mark → Option (List Item)
  | run, cs, [] => if run = 0 ∧ cs = [] then some [] else none
  | run, cs, .corr b :: ms => refineItems run (cs ++ [b]) ms
  | run, cs, .zero :: ms =>
    if run = 15 then (refineItems 0 [] ms).map fun is => .sym 0xF0#8 :: corrItems cs ++ is
    else refineItems (run + 1) cs ms
  | run, cs, .fresh size pos :: ms =>
    (refineItems 0 [] ms).map fun is =>
      .sym (nibbles run size) :: sizeItems size ++ .bits 1 pos.toNat :: corrItems cs ++ is

/-- The corrections among marks. -/
def corrections (ms : List Mark) : List Bool :=
  ms.filterMap fun m => match m with
    | .corr b => some b
    | _ => none

/-- How many coefficients of a rest of a band, with nothing new in it, are zero. -/
def zerosOf (ms : List Mark) : Nat := ms.length - (corrections ms).length

/-- A block that differs from `old` in the band's first coefficients only, which hold the values of a list in zigzag order
times 2^AL; a value 0 leaves the coefficient as it was (R212). -/
def bandFilled (e : Env) (cs : List Int) (old new : Block) : Prop :=
  ∀ k, k < 64 →
    new.at (zz k) =
      if e.scn.ss.toNat ≤ k ∧ cs.getD (k - e.scn.ss.toNat) 0 ≠ 0 then
        wrap16 (cs.getD (k - e.scn.ss.toNat) 0 * 2 ^ e.scn.al.toNat)
      else old.at (zz k)

/-- A block that differs from `old` in the band only, each of whose coefficients is the one its mark leaves (R213). -/
def bandRefined (e : Env) (ms : List Mark) (old new : Block) : Prop :=
  ∀ k, k < 64 →
    new.at (zz k) =
      if e.scn.ss.toNat ≤ k ∧ k - e.scn.ss.toNat < ms.length then
        (ms.getD (k - e.scn.ss.toNat) .zero).value e.scn.al.toNat (old.at (zz k))
      else old.at (zz k)

/-- The state with EOBRUN at `n`. -/
def withEobrun (n : Nat) (w : DecW) : DecW := { w with ent := { w.ent with eobrun := BitVec.ofNat 16 n } }

/-- A byte of the coefficient block at `a` that holds a coefficient of the band SS..SE. -/
def inBand (e : Env) (a addr : Word) : Prop :=
  ∃ k, e.scn.ss.toNat ≤ k ∧ k ≤ e.scn.se.toNat ∧
    (addr = a + BitVec.ofNat 32 (2 * zz k) ∨ addr = a + BitVec.ofNat 32 (2 * zz k + 1))

/-- Every byte of the block at `a` is accessible. -/
abbrev blockOk (p : Params) (a : Word) : Prop := ∀ k, k < 128 → okAt p a k

/-- The 16-bit coefficient `n` of the block at `a` in a memory (R90). -/
def coefIn (m : Memory) (a : Word) (n : Nat) : Half := byteAt m a (2 * n + 1) ++ byteAt m a (2 * n)

/-- The rows DECROW covers (R205): all that are left for 0, at most those. -/
def rowsOf (s : State) (n : Nat) : Nat :=
  if n = 0 then s.dec.scn.srows.toNat - s.dec.ent.srow.toNat
  else min n (s.dec.scn.srows.toNat - s.dec.ent.srow.toNat)

/-- A component takes part in the scan (R43). -/
def inScan (s : Scan) (c : Nat) : Prop := ∃ j, j < s.ns.toNat ∧ (s.cidx.get j).toNat = c

/-- The bytes DECROW may store in MCU row `my` (R205, R206, R214): the blocks of the row's MCUs, or the samples of the
line. -/
def rowStores (e : Env) (my : Nat) (addr : Word) : Prop :=
  (e.scn.smode ≠ .lossless ∧ e.scn.ns.toNat ≤ 1 ∧
    ∃ mx k, mx < e.scn.scols.toNat ∧ k < 128 ∧
      addr = coefAddr e (e.scn.cidx.get 0).toNat mx my + BitVec.ofNat 32 k) ∨
  (e.scn.smode ≠ .lossless ∧ 1 < e.scn.ns.toNat ∧
    ∃ mx j h v k, mx < e.scn.scols.toNat ∧ j < e.scn.ns.toNat ∧ k < 128 ∧
      h < (e.frm.comp.get (e.scn.cidx.get j).toNat).h.toNat ∧ v < (e.frm.comp.get (e.scn.cidx.get j).toNat).v.toNat ∧
      addr =
        coefAddr e (e.scn.cidx.get j).toNat (mx * (e.frm.comp.get (e.scn.cidx.get j).toNat).h.toNat + h)
            (my * (e.frm.comp.get (e.scn.cidx.get j).toNat).v.toNat + v) + BitVec.ofNat 32 k) ∨
  (e.scn.smode = .lossless ∧
    ∃ x k, x < e.frm.x.toNat ∧ k < planeBps e ∧ addr = planeAddr e 0 x my + BitVec.ofNat 32 k)

/-- A sequential scan of one component that has met a marker with an empty bit buffer, without restarts, whose tables give
symbol 0 to the code 0: from here on every block is one DC difference 0 and an end of block. -/
abbrev zeroScan (s : State) : Prop :=
  s.dec.scn.active = true ∧ s.dec.scn.smode = .seq ∧ s.dec.scn.ns = 1 ∧ s.dec.ent.markerHit = true ∧
    s.dec.ent.bl = 0 ∧ s.dec.ri = 0 ∧
    (s.dec.tab.dc.get (s.dec.scn.td.get 0).toNat).find 1 0 = some 0 ∧
    (s.dec.tab.ac.get (s.dec.scn.ta.get 0).toNat).find 1 0 = some 0

/-- The component of a one-component scan. -/
abbrev scanComp (s : State) : Nat := (s.dec.scn.cidx.get 0).toNat

/-- Prediction of sample `x` from the line so far and the line before (R214, R215). -/
def predicted (e : Env) (first : Bool) (prev : Nat → Int) (cur : Nat → Int) (x : Nat) : Int :=
  if first then (if x = 0 then 2 ^ (e.frm.p.toNat - e.scn.al.toNat - 1) else cur (x - 1))
  else if x = 0 then prev 0
  else
    let ra := cur (x - 1)
    let rb := prev x
    let rc := prev (x - 1)
    if e.scn.ss = 1 then ra
    else if e.scn.ss = 2 then rb
    else if e.scn.ss = 3 then rc
    else if e.scn.ss = 4 then ra + rb - rc
    else if e.scn.ss = 5 then ra + (rb - rc) / 2
    else if e.scn.ss = 6 then rb + (ra - rc) / 2
    else (ra + rb) / 2

/-- Reading one residual (R214): category 16 is 32768, a category up to 15 is EXTEND of that many bits. -/
def readsResidual (e : Env) (w : DecW) (d : Int) (w' : DecW) : Prop :=
  ∃ s w1, decodeSym e (e.dcTab 0) w = .ok s w1 ∧
    ((s = 16#8 ∧ d = 32768 ∧ w' = w1) ∨
      (s.toNat ≤ 15 ∧ ∃ v, receive e s.toNat w1 = .ok v w' ∧ d = extend v s.toNat))

/-- Decoding samples of line `y` from sample `x` on, whose values are `cur` (R214): a restart where one is due, a residual,
the sample stored. The list holds, for each, whether LLFIRST was set and the residual. -/
inductive ReadsSamples (e : Env) (y : Nat) (cur : Nat → Half) : Nat → DecW → List (Bool × Int) → DecW → Prop
  | nil (x : Nat) (w : DecW) : ReadsSamples e y cur x w [] w
  | cons (x : Nat) (w w0 w1 w2 w3 : DecW) (d : Int) (rs : List (Bool × Int)) :
    beforeMcu e w = .ok () w0 → readsResidual e w0 d w1 →
      liftMem (memWrite e.params (.plane 0) (planeBps e) (planeAddr e 0 x y)
        ((cur x).toNat * 2 ^ e.scn.al.toNat % 65536 : Nat)) w1 = .ok () w2 →
      ReadsSamples e y cur (x + 1) w2 rs w3 → ReadsSamples e y cur x w ((w0.ent.llfirst, d) :: rs) w3

end Sys2Proof.Cert

section
open Sys2Proof Sys2Proof.Machine Sys2Proof.Cert

/-! ## DECROW -/

/-- R200, R201, R215. The zigzag table is the diagonal traversal of the 8 × 8 block: it starts at 0, each step goes to the
next place of the diagonal or turns at the block's edge, and every place is met. EXTEND lies in its category's range, is
never 0 for t ≥ 1 and gives the rule's examples; the seven predictors give their formulas and the rule's example. -/
def Obligations.ZigzagExtendAndPredict : Prop :=
  (zz 0 = 0 ∧ (∀ n, n < 64 → ∃ k, k < 64 ∧ zz k = n) ∧
  ∀ k, k < 63 →
    zz (k + 1) =
      if (zz k % 8 + zz k / 8) % 2 = 0 then
        (if zz k % 8 = 7 then zz k + 8 else if zz k / 8 = 0 then zz k + 1 else zz k + 1 - 8)
      else (if zz k / 8 = 7 then zz k + 1 else if zz k % 8 = 0 then zz k + 8 else zz k + 8 - 1)) ∧
  (∀ v t, t ≤ 15 → v < 2 ^ t →
    extend v t = (if t = 0 then 0 else if v < 2 ^ (t - 1) then (v : Int) - 2 ^ t + 1 else v) ∧
    -(2 ^ t - 1) ≤ extend v t ∧ extend v t ≤ 2 ^ t - 1 ∧ (1 ≤ t → extend v t ≠ 0)) ∧
  extend 0 1 = -1 ∧ extend 1 1 = 1 ∧ extend 3 5 = -28 ∧ extend 16384 15 = 16384 ∧
  (∀ ra rb rc : Int,
    predict 1 ra rb rc = ra ∧ predict 2 ra rb rc = rb ∧ predict 3 ra rb rc = rc ∧ predict 4 ra rb rc = ra + rb - rc ∧
    predict 5 ra rb rc = ra + (rb - rc) / 2 ∧ predict 6 ra rb rc = rb + (ra - rc) / 2 ∧
    predict 7 ra rb rc = (ra + rb) / 2) ∧
  [1, 2, 3, 4, 5, 6, 7].map (fun sel => predict sel 7 2 4) = [7, 2, 4, 5, 6, 3, 4]

/-- R87: FillByte takes a data byte; takes 0xFF from 0xFF 0x00 with any fill bytes between; stops at a marker, leaving
SRC_POS, setting MARKER_HIT and supplying a zero byte with a warning; supplies another once MARKER_HIT is set; and raises
where a byte cannot be read. SrcByte raises BufferTooSmall past SRC_LEN, and is else MemRead of the one byte at SRC_BASE + i,
with its BusError (R85). -/
def Obligations.FillByteTakesEveryForm : Prop :=
  (∀ (e : Env) (i : Nat) (m : MemW),
    (e.cfg.srcLen.toNat ≤ i → srcByte e i m = .error (.at .bufferTooSmall i) m) ∧
    (i < e.cfg.srcLen.toNat →
      (srcByte e i >>= fun b => pure b.toNat) m = memRead e.params .src 1 (e.cfg.srcBase + BitVec.ofNat 32 i) m)) ∧
  ∀ (e : Env) (w : DecW),
    (w.ent.markerHit = true → fillByte e w = .ok () (zeroByte true w)) ∧
    (w.ent.markerHit = false →
      (∀ b, b ≠ 0xFF#8 → streamHolds e w w.pos.toNat [b] →
        ∃ r, fillByte e w = .ok () (withReads r (dataByte (w.pos.toNat + 1) b w))) ∧
      (∀ n, streamHolds e w w.pos.toNat (List.replicate (n + 1) 0xFF#8 ++ [0]) →
        ∃ r, fillByte e w = .ok () (withReads r (dataByte (w.pos.toNat + n + 2) 0xFF#8 w))) ∧
      (∀ n b, b ≠ 0 → b ≠ 0xFF#8 → streamHolds e w w.pos.toNat (List.replicate (n + 1) 0xFF#8 ++ [b]) →
        ∃ r, fillByte e w = .ok () (withReads r (zeroByte true w))) ∧
      ∀ n x, streamHolds e w w.pos.toNat (List.replicate n 0xFF#8) → noByteAt e.params e.cfg (w.pos.toNat + n) x →
        ∃ r, fillByte e w = .error x (withReads r w))

/-- Bits come most significant first: bits of the buffer byte, in order; further bits after the next byte has been
loaded; and a number of m + n bits is the first m bits followed by the next n (R88, R202). -/
def Obligations.BitsComeMostSignificantFirst : Prop :=
  ∀ (e : Env) (w : DecW), w.ent.bl.toNat ≤ 8 →
    (∀ n, n ≤ w.ent.bl.toNat →
      receive e n w =
        .ok (w.ent.bb.toNat % 2 ^ w.ent.bl.toNat / 2 ^ (w.ent.bl.toNat - n))
          { w with ent := { w.ent with bl := w.ent.bl - BitVec.ofNat 4 n } }) ∧
    (∀ n, w.ent.bl = 0 → receive e (n + 1) w = (fillByte e >>= fun _ => receive e (n + 1)) w) ∧
    ∀ m n, receive e (m + n) w = (receive e m >>= fun a => receive e n >>= fun b => pure (a * 2 ^ n + b)) w

/-- Huffman round trip (R203, R161): for a table LDHT has built, reading the bits of a code decodes to its symbol; a
decoded symbol is that of the code whose bits were read; and sixteen bits that begin with no code raise InternalError
with SRC_POS. -/
def Obligations.HuffmanDecodeInvertsTheCode : Prop :=
  ∀ (e : Env) (h : HuffTab) (counts : List Nat) (vals : List Byte), counts.length = 16 →
    buildHuff counts vals = some h.hcode →
    (∀ w w' x, x ∈ h.hcode → receive e x.len w = .ok x.code w' → decodeSym e h w = .ok x.sym w') ∧
    (∀ w w' v, decodeSym e h w = .ok v w' → ∃ x ∈ h.hcode, x.sym = v ∧ receive e x.len w = .ok x.code w') ∧
    ∀ w w' v, receive e 16 w = .ok v w' → (∀ x ∈ h.hcode, v / 2 ^ (16 - x.len) ≠ x.code) →
      decodeSym e h w = .error ⟨.internalError, w'.pos⟩ w'

/-- R207, R208: before each MCU a restart interval is counted; at its end the fill bytes are skipped, the two marker bytes
are consumed whether or not they are the expected RSTn, with a warning if not, and the bit reader, the predictors, EOBRUN,
RTG and LLFIRST start again. Both marker bytes are taken to be readable: what is read after a first byte that is not 0xFF
is the model's (log entry 10). -/
def Obligations.RestartConsumesTwoBytes : Prop :=
  ∀ (e : Env) (w : DecW),
    (∀ n b0 b1, streamHolds e w w.pos.toNat (List.replicate n 0xFF#8 ++ [b0, b1]) → ¬(b0 = 0xFF#8 ∧ b1 = 0xFF#8) →
      (n = 0 ∨ b0 = 0xFF#8) →
      ∃ r, processRestart e w =
        .ok ()
          (withReads r
            (afterRestart e.ri (w.pos.toNat + n + 2)
              (if b0.toNat = 0xFF ∧ b1.toNat = 0xD0 + w.ent.nextRst.toNat then w.warn else warnedRst w.warn) w))) ∧
    (e.ri = 0 → beforeMcu e w = .ok () w) ∧
    (e.ri ≠ 0 → w.ent.rtg ≠ 0 → beforeMcu e w = .ok () { w with ent := { w.ent with rtg := w.ent.rtg - 1 } }) ∧
    ∀ w', e.ri ≠ 0 → w.ent.rtg = 0 → processRestart e w = .ok () w' →
      beforeMcu e w = .ok () { w' with ent := { w'.ent with rtg := e.ri - 1 } }

/-- Sequential decoding inverts run-length coding (R209, R204): a DC difference of category s updates the predictor, and if
the AC tokens read are those of values in zigzag order, with ZRL for sixteen zeros, the block written holds the predictor
and those values, each at its natural place, and zeros after them. Fewer than 63 values are ended by EOB or by a ZRL past
index 63; a run past it raises InternalError, as a DC category above 15 does. -/
def Obligations.SeqBlockInvertsRunLengthCoding : Prop :=
  ∀ (e : Env) (j : Nat) (a : Word) (w w1 w2 w3 : DecW) (s : Byte) (v : Nat) (cs : List Int) (b : Block),
    decodeSym e (e.dcTab j) w = .ok s w1 →
    (15 < s.toNat → seqBlock e j a w = .error ⟨.internalError, w1.pos⟩ w1) ∧
    (s.toNat ≤ 15 → receive e s.toNat w1 = .ok v w2 →
      let dc := wrap16 ((w2.ent.dcpred.get (e.comp j)).toInt + extend v s.toNat)
      cs.length ≤ 63 → cs.getLast? ≠ some 0 → (∀ c ∈ cs, c.natAbs ≤ 32767) →
      ReadsTokens e (e.acTab j) { w2 with ent := { w2.ent with dcpred := w2.ent.dcpred.set (e.comp j) dc } }
        (tokensOf 0 cs) w3 →
      b.at 0 = dc → (∀ k, k < 63 → b.at (zz (k + 1)) = wrap16 (cs.getD k 0)) →
      let stores := fun (u : DecW) => seqBlock e j a w = liftMem (writeBlock e.params .coef a b) u
      (cs.length = 63 → stores w3) ∧
      (cs.length < 63 → ∀ rs w4, decodeSym e (e.acTab j) w3 = .ok rs w4 →
        (rs.toNat % 16 = 0 → rs.toNat / 16 < 15 → stores w4) ∧
        (rs = 0xF0#8 → 63 < 1 + cs.length + 16 → stores w4) ∧
        (rs.toNat % 16 ≠ 0 → 63 < 1 + cs.length + rs.toNat / 16 →
          seqBlock e j a w = .error ⟨.internalError, w4.pos⟩ w4)))

/-- R210, R211: the DC passes change coefficient 0 only. The first pass stores the updated predictor shifted left by AL,
or raises InternalError for a category above 15; the refinement pass sets bit AL if its one correction bit is 1. -/
def Obligations.DcPassesChangeCoefficientZero : Prop :=
  ∀ (e : Env) (j : Nat) (a : Word) (w w' : DecW), w.mw.mem.wf = true → w.mw.host = .none → blockOk e.params a →
    (∀ b0 b0' w0 w1, readBlock e.params .coef a w.mw = .ok b0 b0' → w0 = { w with mw := b0' } →
      ∀ s : Byte, decodeSym e (e.dcTab j) w0 = .ok s w1 →
        (15 < s.toNat → dcFirstBlock e j a w = .error ⟨.internalError, w1.pos⟩ w1) ∧
        ∀ v w2, s.toNat ≤ 15 → receive e s.toNat w1 = .ok v w2 →
          let dc := wrap16 ((w2.ent.dcpred.get (e.comp j)).toInt + extend v s.toNat)
          ∃ mw, dcFirstBlock e j a w =
              .ok () { w2 with ent := { w2.ent with dcpred := w2.ent.dcpred.set (e.comp j) dc }, mw := mw } ∧
            coefIn mw.mem a 0 = wrap16 (dc.toInt * 2 ^ e.scn.al.toNat)) ∧
    (∀ b0 b0' w0, readBlock e.params .coef a w.mw = .ok b0 b0' → w0 = { w with mw := b0' } →
      ∀ v w1, receive e 1 w0 = .ok v w1 →
        ∃ mw, dcRefineBlock e a w = .ok () { w1 with mw := mw } ∧
          coefIn mw.mem a 0 =
            if v = 1 then coefIn w.mw.mem a 0 ||| BitVec.ofNat 16 (2 ^ e.scn.al.toNat) else coefIn w.mw.mem a 0) ∧
    ((dcFirstBlock e j a w = .ok () w' ∨ dcRefineBlock e a w = .ok () w') →
      ∀ addr : Word, addr ≠ a → addr ≠ a + 1 → w'.mw.mem.read addr.toNat = w.mw.mem.read addr.toNat)

/-- The AC passes (R212, R213). Whatever the data, a block that completes changes no byte of memory but those of its
coefficients SS..SE. A first pass whose tokens are those of values in zigzag order, with ZRL for sixteen zeros, stores each
value that is not 0 times 2^AL; a refinement pass that reads what its marks say stores each corrected and each new
coefficient, a size other than 1 warning. The rest of the band is ended by EOBr, which leaves EOBRUN = 2^r + bits − 1, or by
a ZRL past the band, a refinement correcting the non-zero coefficients in it; a run past the band raises InternalError. In
an end-of-band run EOBRUN counts down: a first pass reads and changes nothing, a refinement pass reads a correction bit for
each non-zero coefficient of the band and nothing else. -/
def Obligations.AcPassesStayInTheirBand : Prop :=
  (∀ (e : Env) (j : Nat) (a : Word) (w w' : DecW), w.mw.mem.wf = true → w.mw.host = .none → e.scn.se.toNat ≤ 63 →
    (acFirstBlock e j a w = .ok () w' ∨ acRefineBlock e j a w = .ok () w') →
    ∀ addr : Word, ¬inBand e a addr → w'.mw.mem.read addr.toNat = w.mw.mem.read addr.toNat) ∧
  (∀ (e : Env) (j : Nat) (a : Word) (w : DecW), w.mw.mem.wf = true → w.mw.host = .none → blockOk e.params a →
    w.ent.eobrun ≠ 0 →
    (∃ mw, acFirstBlock e j a w = .ok () { w with ent := { w.ent with eobrun := w.ent.eobrun - 1 }, mw := mw } ∧
      mw.mem = w.mw.mem) ∧
    ((∀ k, e.scn.ss.toNat ≤ k → k ≤ e.scn.se.toNat → coefIn w.mw.mem a (zz k) = 0) → e.scn.se.toNat ≤ 63 →
      ∃ mw, acRefineBlock e j a w = .ok () { w with ent := { w.ent with eobrun := w.ent.eobrun - 1 }, mw := mw } ∧
        mw.mem = w.mw.mem)) ∧
  ∀ (e : Env) (j : Nat) (a : Word) (w w0 w1 : DecW) (old new : Block) (mw : MemW), e.scn.se.toNat ≤ 63 →
    readBlock e.params .coef a w.mw = .ok old mw → w0 = { w with mw := mw } →
    (∀ cs : List Int, w.ent.eobrun = 0 → e.scn.ss.toNat + cs.length ≤ e.scn.se.toNat + 1 → cs.getLast? ≠ some 0 →
      (∀ c ∈ cs, c.natAbs ≤ 32767) → ReadsTokens e (e.acTab j) w0 (tokensOf 0 cs) w1 → bandFilled e cs old new →
      let stores := fun (u : DecW) => acFirstBlock e j a w = liftMem (writeBlock e.params .coef a new) u
      (e.scn.ss.toNat + cs.length = e.scn.se.toNat + 1 → stores w1) ∧
      (e.scn.ss.toNat + cs.length ≤ e.scn.se.toNat → ∀ rs w2, decodeSym e (e.acTab j) w1 = .ok rs w2 →
        (∀ v w3, rs.toNat % 16 = 0 → rs.toNat / 16 < 15 → receive e (rs.toNat / 16) w2 = .ok v w3 →
          stores (withEobrun (2 ^ (rs.toNat / 16) + v - 1) w3)) ∧
        (rs = 0xF0#8 → e.scn.se.toNat < e.scn.ss.toNat + cs.length + 16 → stores w2) ∧
        (rs.toNat % 16 ≠ 0 → e.scn.se.toNat < e.scn.ss.toNat + cs.length + rs.toNat / 16 →
          acFirstBlock e j a w = .error ⟨.internalError, w2.pos⟩ w2))) ∧
    ∀ ms rest : List Mark, e.scn.al.toNat ≤ 13 → e.scn.ss.toNat + (ms ++ rest).length = e.scn.se.toNat + 1 →
      (∀ k, k < (ms ++ rest).length → ((ms ++ rest).getD k .zero).fits (old.at (zz (e.scn.ss.toNat + k)))) →
      (∀ m ∈ rest, ∀ size pos, m ≠ .fresh size pos) → bandRefined e (ms ++ rest) old new →
      let stores := fun (u : DecW) => acRefineBlock e j a w = liftMem (writeBlock e.params .coef a new) u
      let corrs := corrItems (corrections rest)
      (∀ is, w.ent.eobrun = 0 → refineItems 0 [] ms = some is → ReadsItems e (e.acTab j) w0 is w1 →
        (rest = [] → stores w1) ∧
        (rest ≠ [] →
          (∀ r v w2, r ≤ 14 → ReadsItems e (e.acTab j) w1 (.sym (nibbles r 0) :: .bits r v :: corrs) w2 →
            stores (withEobrun (2 ^ r + v - 1) w2)) ∧
          (∀ w2, zerosOf rest ≤ 15 → ReadsItems e (e.acTab j) w1 (.sym 0xF0#8 :: corrs) w2 → stores w2) ∧
          ∀ run size b w2, run ≤ 15 → 1 ≤ size → size ≤ 15 → zerosOf rest ≤ run →
            ReadsItems e (e.acTab j) w1 (.sym (nibbles run size) :: sizeItems size ++ .bits 1 b :: corrs) w2 →
            acRefineBlock e j a w = .error ⟨.internalError, w2.pos⟩ w2)) ∧
      (w.ent.eobrun ≠ 0 → ms = [] → ReadsItems e (e.acTab j) w0 corrs w1 →
        stores (withEobrun (w.ent.eobrun.toNat - 1) w1))

/-- A lossless line (R214, R215, R91): each sample is its prediction plus its residual, modulo 2^16, the plane holds the
samples shifted left by the point transform, the line becomes the previous line, and LLFIRST is cleared; a category above
16 raises InternalError and leaves the previous line. A line is there for every state that has met a marker and whose table
gives symbol 0 to the code 0: all its residuals are 0. -/
def Obligations.LosslessLineFollowsThePredictor : Prop :=
  (∀ (e : Env) (y : Nat) (w w' : DecW) (cur : Nat → Half) (rs : List (Bool × Int)), w.mw.mem.wf = true →
    w.ent.llprev.wf = true → rs.length ≤ e.frm.x.toNat → ReadsSamples e y cur 0 w rs w' →
    (∀ x, x < rs.length →
      cur x =
        wrap16
          (predicted e (rs.getD x (false, 0)).1 (fun i => ((w.ent.llprev.read i).toNat : Int))
            (fun i => ((cur i).toNat : Int)) x + (rs.getD x (false, 0)).2)) →
    (∀ x k, x < rs.length → k < planeBps e →
      byteAt w'.mw.mem (planeAddr e 0 x y) k =
        BitVec.ofNat 8 ((cur x).toNat * 2 ^ e.scn.al.toNat % 65536 / 256 ^ k)) ∧
    (rs.length = e.frm.x.toNat →
      ∃ prev, losslessLine e y w = .ok () { w' with ent := { w'.ent with llprev := prev, llfirst := false } } ∧
        ∀ x, prev.read x = if x < e.frm.x.toNat then cur x else w.ent.llprev.read x) ∧
    (rs.length < e.frm.x.toNat → ∀ w0 w1 s, beforeMcu e w' = .ok () w0 → decodeSym e (e.dcTab 0) w0 = .ok s w1 →
      16 < s.toNat → losslessLine e y w = .error ⟨.internalError, w1.pos⟩ w1)) ∧
  ∀ (e : Env) (y : Nat) (w : DecW), w.mw.mem.wf = true → w.ent.markerHit = true → w.ent.bl = 0 → e.ri = 0 →
    (e.dcTab 0).find 1 0 = some 0 → 1 ≤ e.frm.x.toNat → w.ent.llprev.wf = true →
    (∀ x k, x < e.frm.x.toNat → k < planeBps e → okAt e.params (planeAddr e 0 x y) k) →
    ∃ w', losslessLine e y w = .ok () w' ∧ w'.pos = w.pos ∧ w'.ent.llfirst = false ∧
      (∀ x, x < e.frm.x.toNat →
        w'.ent.llprev.read x =
          wrap16 (predicted e w.ent.llfirst (fun i => ((w.ent.llprev.read i).toNat : Int))
            (fun i => ((w'.ent.llprev.read i).toNat : Int)) x) ∧
        ∀ k, k < planeBps e →
          byteAt w'.mw.mem (planeAddr e 0 x y) k =
            BitVec.ofNat 8 ((w'.ent.llprev.read x).toNat * 2 ^ e.scn.al.toNat % 65536 / 256 ^ k)) ∧
      (∀ x, e.frm.x.toNat ≤ x → w'.ent.llprev.read x = w.ent.llprev.read x)

/-- DECROW decodes the rows asked for, clipped to those left, and completes the scan after its last row (R205, R216): it
then clears SCAN_ACTIVE and sets the completion flags of the scan's components by its kind. Without an active scan it
raises BadState; if a row raises, it keeps what the rows did and marks nothing complete. -/
def Obligations.DecrowCompletesTheScan : Prop :=
  ∀ (s : State) (n : Nat),
    (s.dec.scn.active = false → exec (.decrow n) s = .next (errorEntry ⟨.badState, 0⟩ s)) ∧
    (s.dec.scn.active = true →
      (∀ w, decodeRows s.env (rowsOf s n) (DecW.start s) = .ok () w →
        ∃ t, exec (.decrow n) s = .next t ∧ t.srcPos = w.pos ∧ t.dec.ent = w.ent ∧ t.dec.warn = w.warn ∧
          t.dec.ent.srow = s.dec.ent.srow + BitVec.ofNat 16 (rowsOf s n) ∧ t.mem = (s.settle w.mw).mem ∧
          (∀ c, c < 4 →
            (t.dec.prog.seqDone.get c = true ↔
              s.dec.prog.seqDone.get c = true ∨
                (t.dec.ent.srow = s.dec.scn.srows ∧ (s.dec.scn.smode = .seq ∨ s.dec.scn.smode = .lossless) ∧
                  inScan s.dec.scn c)) ∧
            (t.dec.prog.dcDone.get c = true ↔
              s.dec.prog.dcDone.get c = true ∨
                (t.dec.ent.srow = s.dec.scn.srows ∧ s.dec.scn.smode = .dcFirst ∧ inScan s.dec.scn c)) ∧
            ∀ k, k < 64 →
              ((t.dec.prog.acmask.get c).getLsbD k = true ↔
                (s.dec.prog.acmask.get c).getLsbD k = true ∨
                  (t.dec.ent.srow = s.dec.scn.srows ∧ s.dec.scn.smode = .acFirst ∧ inScan s.dec.scn c ∧
                    s.dec.scn.ss.toNat ≤ k ∧ k ≤ s.dec.scn.se.toNat))) ∧
          t =
            { ranPast 4 s with
              srcPos := t.srcPos, mem := t.mem, free := t.free
              dec :=
                { s.dec with
                  ent := t.dec.ent, warn := t.dec.warn, prog := t.dec.prog
                  scn := { s.dec.scn with active := t.dec.ent.srow != s.dec.scn.srows } } }) ∧
      ∀ r w, decodeRows s.env (rowsOf s n) (DecW.start s) = .error r w →
        exec (.decrow n) s =
          .next
            (errorEntry r
              { s.settle w.mw with srcPos := w.pos, dec := { s.dec with ent := w.ent, warn := w.warn } }))

/-- DECROW after a marker (R87, R205, R206, R209): from a state whose scan meets a marker, DECROW completes; it reads no
more of the stream, and each block of the rows holds the predictor as its DC coefficient and zeros, every other byte of
memory being unchanged. -/
def Obligations.DecrowFillsOutAfterAMarker : Prop :=
  ∀ (s : State) (n : Nat), s.memCanonical = true → zeroScan s →
    (∀ y x k, y < rowsOf s n → x < s.dec.scn.scols.toNat → k < 128 →
      okAt s.params (coefAddr s.env (scanComp s) x (s.dec.ent.srow.toNat + y)) k ∧
        notCommand s 4 (coefAddr s.env (scanComp s) x (s.dec.ent.srow.toNat + y) + BitVec.ofNat 32 k)) →
    ∃ t, exec (.decrow n) s = .next t ∧ t.proc = (ranPast 4 s).proc ∧ t.srcPos = s.srcPos ∧ t.free = s.free ∧
      t.dec.ent.srow = s.dec.ent.srow + BitVec.ofNat 16 (rowsOf s n) ∧ t.dec.ent.dcpred = s.dec.ent.dcpred ∧
      t.dec.ent.markerHit = true ∧
      (∀ y x k, y < rowsOf s n → x < s.dec.scn.scols.toNat → k < 64 →
        coefIn t.mem (coefAddr s.env (scanComp s) x (s.dec.ent.srow.toNat + y)) k =
          if k = 0 then s.dec.ent.dcpred.get (scanComp s) else 0) ∧
      ∀ addr : Word,
        (∀ y x k, y < rowsOf s n → x < s.dec.scn.scols.toNat → k < 128 →
          addr ≠ coefAddr s.env (scanComp s) x (s.dec.ent.srow.toNat + y) + BitVec.ofNat 32 k) →
        t.mem.read addr.toNat = s.mem.read addr.toNat

/-- The frame of DECROW (R100, R205): completed or not, it changes no byte of memory but those of the blocks or samples of
the rows it covers, and no table, header, frame register, host register or parameter; of the scan registers only
SCAN_ACTIVE. -/
def Obligations.DecrowLeavesTheRestAlone : Prop :=
  ∀ (s t : State) (n : Nat), exec (.decrow n) s = .next t →
    (∀ addr : Word, (∀ y, y < rowsOf s n → ¬rowStores s.env (s.dec.ent.srow.toNat + y) addr) →
      t.mem.read addr.toNat = s.mem.read addr.toNat) ∧
    t.params = s.params ∧ t.cfg = s.cfg ∧ t.dec.tab = s.dec.tab ∧ t.dec.frm = s.dec.frm ∧ t.dec.info = s.dec.info ∧
    t.dec.ri = s.dec.ri ∧ { t.dec.scn with active := s.dec.scn.active } = s.dec.scn

end

namespace Sys2Proof.Cert
open Sys2Proof.Machine

/-! ### The inverse transform (R260 to R264) -/

/-- The dequantised coefficients of the block at an address (R260). -/
def dequantAt (s : State) (m : Memory) (t : Nat) (a : Word) : List Int :=
  (List.range 64).map fun n => (coefIn m a n).toInt * (((s.dec.tab.qt.get t).toList.getD n 0).toNat : Int)

/-- IDCT_REF (R261), on reals, at column `x` and row `y`. -/
noncomputable def idctRef (f : List Int) (x y : Nat) : ℝ :=
  1 / 4 * ∑ n ∈ Finset.range 64,
    (if n % 8 = 0 then 1 / Real.sqrt 2 else 1) * (if n / 8 = 0 then 1 / Real.sqrt 2 else 1) * (f.getD n 0 : ℝ)
      * Real.cos ((2 * x + 1) * (n % 8 : Nat) * Real.pi / 16) * Real.cos ((2 * y + 1) * (n / 8 : Nat) * Real.pi / 16)

/-- Where IDCTBLK writes sample `n` = 8y + x (R265). -/
def blkTarget (dst stride : Word) (n : Nat) : Word := dst + BitVec.ofNat 32 (n / 8) * stride + BitVec.ofNat 32 (n % 8)

/-! ### Bands (R270, R271) -/

/-- The row commands. -/
def rowCommands : List (Nat → Nat → Instr) := [.idctrow, .upsrow, .ccvrow, .recrow]

/-- NBANDS (R270). -/
def bandsIn (s : State) : Nat := if s.dec.frm.mode = .sof3 then s.dec.frm.y.toNat else s.dec.frm.mcuy.toNat

/-- The number of bands a row command covers (R271). -/
def bandCount (s : State) (row n : Nat) : Nat := if n = 0 then bandsIn s - row else n

/-- The row arguments are legal (R271). -/
abbrev rowOk (s : State) (row n : Nat) : Prop :=
  s.dec.frm.hdrValid = true ∧ row < bandsIn s ∧ row + bandCount s row n ≤ bandsIn s

/-- A component's factors and geometry. -/
abbrev vOf (e : Env) (c : Nat) : Nat := (e.frm.comp.get c).v.toNat

/-- The blocks of a component's row. -/
abbrev bwOf (e : Env) (c : Nat) : Nat := (e.frm.geo.get c).bw

/-- The image rows of band `b` (R281). -/
abbrev imageRow (e : Env) (b y : Nat) : Prop := b * bandHeight e ≤ y ∧ y < (b + 1) * bandHeight e ∧ y < e.frm.y.toNat

/-- Where the colour converter reads component `c` (R280). -/
def inputAddr (e : Env) (c x y : Nat) : Word :=
  if e.frm.mode = .sof3 ∨ fullRes e c = true then planeAddr e c x y else uplaneAddr e c x y

/-- How many bytes it reads there. -/
def inputBytes (e : Env) (c : Nat) : Nat := if e.frm.mode = .sof3 ∨ fullRes e c = true then planeBps e else 1

/-- Where packed output writes byte `j` of pair `pr` (R282). -/
def packedAddr (e : Env) (y pr j : Nat) : Word :=
  e.cfg.dstBase + BitVec.ofNat 32 y * e.cfg.dstStride + BitVec.ofNat 32 (4 * pr + j)

/-- The plane sample a byte of packed output copies (R282). -/
def packedFrom (e : Env) (y pr j : Nat) : Word :=
  if j = 0 then planeAddr e 0 (2 * pr) y
  else if j = 1 then planeAddr e 1 pr y
  else if j = 2 then planeAddr e 0 (2 * pr + 1) y
  else planeAddr e 2 pr y

/-! ### What a stage of a band needs, and what it writes -/

/-- IdctBand(b) needs each component's table loaded, and its blocks and plane samples accessible (R272). -/
abbrev idctReady (s : State) (b : Nat) : Prop :=
  s.dec.frm.mode ≠ .sof3 → ∀ c, c < s.dec.frm.ncomp.toNat →
    s.dec.tab.qtv.get (s.dec.frm.comp.get c).tq.toNat = true ∧
    ∀ r, r < vOf s.env c → ∀ bx, bx < bwOf s.env c →
      blockOk s.params (coefAddr s.env c bx (b * vOf s.env c + r)) ∧
      ∀ n, n < 64 →
        s.params.memOk (planeAddr s.env c (8 * bx + n % 8) (8 * (b * vOf s.env c + r) + n / 8)).toNat = true

/-- UpsBand(b) needs a supported layout, and the planes' and UPlanes' samples accessible (R273, R277). -/
abbrev upsReady (s : State) (b : Nat) : Prop :=
  s.dec.frm.mode ≠ .sof3 → s.dec.frm.layout ≠ .other ∧
    ∀ c, c < s.dec.frm.ncomp.toNat → fullRes s.env c = false →
      1 ≤ (s.dec.frm.geo.get c).cw ∧ 1 ≤ (s.dec.frm.geo.get c).ch ∧
      (∀ i, i < (s.dec.frm.geo.get c).cw → ∀ j, j < (s.dec.frm.geo.get c).ch →
        s.params.memOk (planeAddr s.env c i j).toNat = true) ∧
      ∀ r, r < 8 * s.dec.frm.vmax.toNat → ∀ xo, xo < 8 * s.dec.frm.hmax.toNat * s.dec.frm.mcux.toNat →
        s.params.memOk (uplaneAddr s.env c xo (8 * s.dec.frm.vmax.toNat * b + r)).toNat = true

/-- CcvBand(b) needs a resolved colour space, a supported conversion, and its samples and pixels accessible (R281,
R282). -/
abbrev ccvReady (s : State) (b : Nat) : Prop :=
  s.dec.scn.csValid = true ∧ ccvDispatch s.env ≠ none ∧
    ∀ y, y < s.dec.frm.y.toNat → imageRow s.env b y →
      if ccvDispatch s.env = some .p422 then
        ∀ pr, pr < upDiv s.dec.frm.x.toNat 2 → ∀ j, j < 4 →
          s.params.memOk (packedFrom s.env y pr j).toNat = true ∧ s.params.memOk (packedAddr s.env y pr j).toNat = true
      else
        ∀ x, x < s.dec.frm.x.toNat →
          (∀ c, c < s.dec.frm.ncomp.toNat → ∀ k, k < inputBytes s.env c → okAt s.params (inputAddr s.env c x y) k) ∧
          ∀ ch, ch < s.cfg.dstNch.toNat → ∀ k, k < dstBps s.env → okAt s.params (dstAddr s.env x y ch) k

/-- What RECROW needs at band `b` (R283). -/
abbrev recReady (s : State) (b : Nat) : Prop :=
  if s.dec.frm.mode = .sof3 then ccvReady s b
  else
    idctReady s b ∧ (1 ≤ b → upsReady s (b - 1) ∧ ccvReady s (b - 1)) ∧
      (b + 1 = bandsIn s → upsReady s b ∧ ccvReady s b)

/-- A byte IdctBand(b) may write (R272). -/
def idctStores (e : Env) (b : Nat) (addr : Word) : Prop :=
  e.frm.mode ≠ .sof3 ∧ ∃ c r bx n, c < e.frm.ncomp.toNat ∧ r < vOf e c ∧ bx < bwOf e c ∧ n < 64 ∧
    addr = planeAddr e c (8 * bx + n % 8) (8 * (b * vOf e c + r) + n / 8)

/-- A byte UpsBand(b) may write (R277). -/
def upsStores (e : Env) (b : Nat) (addr : Word) : Prop :=
  e.frm.mode ≠ .sof3 ∧ ∃ c r xo, c < e.frm.ncomp.toNat ∧ fullRes e c = false ∧ r < 8 * e.frm.vmax.toNat ∧
    xo < 8 * e.frm.hmax.toNat * e.frm.mcux.toNat ∧ addr = uplaneAddr e c xo (8 * e.frm.vmax.toNat * b + r)

/-- A byte CcvBand(b) may write (R281, R282). -/
def ccvStores (e : Env) (b : Nat) (addr : Word) : Prop :=
  ∃ y, imageRow e b y ∧
    ((ccvDispatch e = some .p422 ∧ ∃ pr j, pr < upDiv e.frm.x.toNat 2 ∧ j < 4 ∧ addr = packedAddr e y pr j) ∨
      (ccvDispatch e ≠ some .p422 ∧ ∃ x ch k, x < e.frm.x.toNat ∧ ch < e.cfg.dstNch.toNat ∧ k < dstBps e ∧
        addr = dstAddr e x y ch + BitVec.ofNat 32 k))

/-- A byte RECROW may write at band `b` (R283). -/
def recStores (s : State) (b : Nat) (addr : Word) : Prop :=
  idctStores s.env b addr ∨ ccvStores s.env b addr ∧ (s.dec.frm.mode = .sof3 ∨ b + 1 = bandsIn s) ∨
    (upsStores s.env b addr ∧ b + 1 = bandsIn s) ∨
    (1 ≤ b ∧ s.dec.frm.mode ≠ .sof3 ∧ (upsStores s.env (b - 1) addr ∨ ccvStores s.env (b - 1) addr))

/-! ### The values the stages write -/

/-- The plane sample at column `i` and row `j`, clamped into the component (R273). -/
def planeClamped (s : State) (c : Nat) (i j : Int) : Nat :=
  (s.mem.read (planeAddr s.env c (min (max i 0) ((s.dec.frm.geo.get c).cw - 1)).toNat
    (min (max j 0) ((s.dec.frm.geo.get c).ch - 1)).toNat).toNat).toNat

/-- The upsampled sample of a component at (xo, yo), by its factors (R274 to R276). -/
def upValue (s : State) (c xo yo : Nat) : Nat :=
  let S := planeClamped s c
  let i : Int := (xo / 2 : Nat)
  let j : Int := (yo / 2 : Nat)
  let i' : Int := if xo % 2 = 0 then i - 1 else i + 1
  let j' : Int := if yo % 2 = 0 then j - 1 else j + 1
  if (s.dec.frm.comp.get c).uph = 2 ∧ (s.dec.frm.comp.get c).upv = 1 then
    (3 * S i yo + S i' yo + (if xo % 2 = 0 then 1 else 2)) / 4
  else if (s.dec.frm.comp.get c).uph = 1 ∧ (s.dec.frm.comp.get c).upv = 2 then S xo j
  else
    (3 * (3 * S i j + S i j') + (3 * S i' j + S i' j') + (if xo % 2 = 0 then 8 else 7)) / 16

/-- The factors of a subsampled component in a supported layout (R277). -/
abbrev factorsOk (s : State) (c : Nat) : Prop :=
  ((s.dec.frm.comp.get c).uph = 2 ∧ (s.dec.frm.comp.get c).upv = 1) ∨
    ((s.dec.frm.comp.get c).uph = 1 ∧ (s.dec.frm.comp.get c).upv = 2) ∨
    ((s.dec.frm.comp.get c).uph = 2 ∧ (s.dec.frm.comp.get c).upv = 2)

/-- The input sample of component `c` at a pixel (R280). -/
def inputValue (s : State) (c x y : Nat) : Nat :=
  (s.mem.read (inputAddr s.env c x y).toNat).toNat +
    if inputBytes s.env c = 2 then 256 * (byteAt s.mem (inputAddr s.env c x y) 1).toNat else 0

/-- A number held between 0 and 255. -/
def to255 (v : Int) : Int := if v < 0 then 0 else if 255 < v then 255 else v

/-- Red, green and blue of a full-range YCbCr triple (R278). -/
def redOf (y cr : Int) : Int := to255 (y + (91881 * (cr - 128) + 32768) / 65536)

/-- Green (R278). -/
def greenOf (y cb cr : Int) : Int := to255 (y + (-22554 * (cb - 128) - 46802 * (cr - 128) + 32768) / 65536)

/-- Blue (R278). -/
def blueOf (y cb : Int) : Int := to255 (y + (116130 * (cb - 128) + 32768) / 65536)

/-- Channel `ch` of an output pixel, by the kind of conversion and the target colour space's code (R279 to R281). -/
def channelOf (k : CcvKind) (dcs : Nat) (v : Nat → Int) (ch : Nat) : Int :=
  let rgb := fun i => if i = 0 then redOf (v 0) (v 2) else if i = 1 then greenOf (v 0) (v 1) (v 2) else blueOf (v 0) (v 1)
  match k with
  | .copy => v ch
  | .rgb => if dcs = 2 then rgb ch else rgb (2 - ch)
  | .cmyk => if ch = 3 then v 3 else 255 - rgb ch
  | .p422 => 0

end Sys2Proof.Cert

section
open Sys2Proof Sys2Proof.Machine Sys2Proof.Cert

/-! ## Memory, and the reconstruction commands -/

/-- R82: MemRead and MemWrite move up to four bytes in ascending order, little-endian; where byte i is not accessible they
raise BusError with its address, and a MemWrite has then written bytes 0..i−1. So a block read after it has been written is
the block: 64 coefficients, 16-bit two's complement, little-endian, coefficient n at offset 2n (R90). -/
def Obligations.MemoryPrimitivesAreLittleEndian : Prop :=
  (∀ (p : Params) (b : Buf) (n : Nat) (a : Word) (v : Int) (w : MemW), n ≤ 4 → w.mem.wf = true → w.host = .none →
    ((∀ k, k < n → okAt p a k) →
      (∃ w', memRead p b n a w = .ok (((List.range n).map fun k => (byteAt w.mem a k).toNat * 256 ^ k).sum) w' ∧
        w'.mem = w.mem) ∧
      ∃ w', memWrite p b n a v w = .ok () w' ∧
        (∀ k, k < n → byteAt w'.mem a k = BitVec.ofInt 8 (v / 256 ^ k)) ∧
        ∀ addr : Word, (∀ k, k < n → addr ≠ a + BitVec.ofNat 32 k) → w'.mem.read addr.toNat = w.mem.read addr.toNat) ∧
    ∀ i, i < n → (∀ k, k < i → okAt p a k) → ¬okAt p a i →
      (∃ w', memRead p b n a w = .error ⟨.busError, a + BitVec.ofNat 32 i⟩ w' ∧ w'.mem = w.mem) ∧
      ∃ w', memWrite p b n a v w = .error ⟨.busError, a + BitVec.ofNat 32 i⟩ w' ∧
        (∀ k, k < i → byteAt w'.mem a k = BitVec.ofInt 8 (v / 256 ^ k)) ∧
        ∀ addr : Word, (∀ k, k < i → addr ≠ a + BitVec.ofNat 32 k) → w'.mem.read addr.toNat = w.mem.read addr.toNat) ∧
  ∀ (p : Params) (b b' : Buf) (a : Word) (blk : Block) (w : MemW), w.mem.wf = true → w.host = .none → blockOk p a →
    ∃ w', writeBlock p b a blk w = .ok () w' ∧ (∀ n, n < 64 → coefIn w'.mem a n = blk.at n) ∧
      ∃ w'', readBlock p b' a w' = .ok blk w'' ∧ w''.mem = w'.mem

/-- R263 (2, 3), R264: the transform gives a DC-only block clamp(floor(F[0]/8 + 1/2) + 128) at every sample exactly, with
R264's examples, and any other block a sample in 0..255 and within 1 of refSample, whatever the parameter. That refSample
is LevelShift(IDCT_REF(F)) is the model's inference (log entry 11); ReferenceTransformIsAccurate states how near it is. -/
def Obligations.TransformMeetsItsBounds : Prop :=
  ∀ (p : Params) (f : List Int) (x y : Nat), f.length = 64 → x < 8 → y < 8 →
    ((∀ n, 1 ≤ n → f.getD n 0 = 0) → idctSample p f x y = clamp (⌊(f.getD 0 0 : ℚ) / 8 + 1 / 2⌋ + 128) 0 255) ∧
    ((∀ n, 1 ≤ n → f.getD n 0 = 0) →
      (f.getD 0 0 = 4 → idctSample p f x y = 129) ∧ (f.getD 0 0 = -4 → idctSample p f x y = 128) ∧
      (f.getD 0 0 = 1200 → idctSample p f x y = 255)) ∧
    |idctSample p f x y - refSample (nonZeros 0 f) x y| ≤ 1 ∧ 0 ≤ idctSample p f x y ∧ idctSample p f x y ≤ 255

/-- The fixed-point sum behind IDCT_REF lies within 2^-310 of the real transform (R261), and its level shift is R264's.
That no rounding lies closer than that is the model's inference (log entry 11) and not stated here. -/
def Obligations.ReferenceTransformIsAccurate : Prop :=
  ∀ (f : List Int) (x y : Nat), f.length = 64 → (∀ v ∈ f, |v| ≤ 2 ^ 31) → x < 8 → y < 8 →
    |(idctSum (nonZeros 0 f) x y : ℝ) / (8 * 2 ^ 352) - idctRef f x y| ≤ 1 / 2 ^ 310 ∧
    refSample (nonZeros 0 f) x y =
      clamp (⌊(idctSum (nonZeros 0 f) x y : ℝ) / (8 * 2 ^ 352) + 1 / 2⌋ + 128) 0 255

/-- IDCTBLK (R265, R260, R95): with the table loaded and every byte accessible it completes and writes each of the 64
samples of the transformed block at DST + y·STRIDE + x, a later sample winning where rows overlap; a sample's byte is
unspecified only where it lies in the source block or the command's own words; no other byte changes. With the table not
loaded it raises BadQuantSegment(0), and at the first source byte that is not accessible BusError; both change no memory.
At the first sample whose byte is not accessible it raises BusError with that address, the samples before it written (R82). -/
def Obligations.IdctblkWritesTheBlock : Prop :=
  ∀ (s : State) (tq : Nat) (src dst stride : Word), s.memCanonical = true → tq < 4 →
    (s.dec.tab.qtv.get tq = false →
      exec (.idctblk tq src dst stride) s = .next (errorEntry ⟨.badQuantSegment, 0⟩ s)) ∧
    (∀ k, s.dec.tab.qtv.get tq = true → k < 128 → (∀ j, j < k → okAt s.params src j) → ¬okAt s.params src k →
      exec (.idctblk tq src dst stride) s = .next (errorEntry ⟨.busError, src + BitVec.ofNat 32 k⟩ s)) ∧
    (s.dec.tab.qtv.get tq = true → blockOk s.params src →
      (∀ n, n < 64 → s.params.memOk (blkTarget dst stride n).toNat = true) →
      ∃ t, exec (.idctblk tq src dst stride) s = .next t ∧
        (∀ n, n < 64 → (∀ m, n < m → m < 64 → blkTarget dst stride m ≠ blkTarget dst stride n) →
          (∀ k, k < 128 → blkTarget dst stride n ≠ src + BitVec.ofNat 32 k) → notCommand s 16 (blkTarget dst stride n) →
          t.mem.read (blkTarget dst stride n).toNat =
            BitVec.ofInt 8 (idctSample s.params (dequantAt s s.mem tq src) (n % 8) (n / 8))) ∧
        (∀ addr : Word, (∀ n, n < 64 → addr ≠ blkTarget dst stride n) →
          t.mem.read addr.toNat = s.mem.read addr.toNat) ∧
        t = { ranPast 16 s with mem := t.mem, free := t.free }) ∧
    ∀ i, s.dec.tab.qtv.get tq = true → blockOk s.params src → i < 64 →
      (∀ n, n < i → s.params.memOk (blkTarget dst stride n).toNat = true) →
      ¬s.params.memOk (blkTarget dst stride i).toNat = true →
      ∃ t, exec (.idctblk tq src dst stride) s = .next (errorEntry ⟨.busError, blkTarget dst stride i⟩ t) ∧
        (∀ n, n < i → (∀ m, n < m → m < i → blkTarget dst stride m ≠ blkTarget dst stride n) →
          (∀ k, k < 128 → blkTarget dst stride n ≠ src + BitVec.ofNat 32 k) → notCommand s 16 (blkTarget dst stride n) →
          t.mem.read (blkTarget dst stride n).toNat =
            BitVec.ofInt 8 (idctSample s.params (dequantAt s s.mem tq src) (n % 8) (n / 8))) ∧
        (∀ addr : Word, (∀ n, n < i → addr ≠ blkTarget dst stride n) →
          t.mem.read addr.toNat = s.mem.read addr.toNat) ∧
        t = { s with mem := t.mem, free := t.free }

/-- Row arguments (R271): without a frame every row command raises BadState(0); with a first band past the last, or more
bands than there are, IllegalCommand with word 1. Nothing else changes. -/
def Obligations.RowArgumentsAreChecked : Prop :=
  ∀ (s : State) (mk : Nat → Nat → Instr) (row n : Nat), mk ∈ rowCommands → (mk row n).wf = true →
    (s.dec.frm.hdrValid = false → exec (mk row n) s = .next (errorEntry ⟨.badState, 0⟩ s)) ∧
    (s.dec.frm.hdrValid = true → (bandsIn s ≤ row ∨ bandsIn s < row + n) →
      exec (mk row n) s = .next (errorEntry (.at .illegalCommand (n * 65536 + row)) s))

/-- Each row command completes on legal arguments when what its stages need at its bands is there (R272, R277, R281,
R283), whatever the layout and the conversion, and changes nothing but memory; RECROW needs at each band the transform of
that band and the other stages of the band before it, and at the last band its own. -/
def Obligations.RowCommandsComplete : Prop :=
  ∀ (s : State) (row n : Nat), rowOk s row n →
    let all := fun (ready : Nat → Prop) => ∀ b, row ≤ b → b < row + bandCount s row n → ready b
    let completes := fun (i : Instr) => ∃ m k, exec i s = .next { ranPast 8 s with mem := m, free := k }
    (all (idctReady s) → completes (.idctrow row n)) ∧ (all (upsReady s) → completes (.upsrow row n)) ∧
    (all (ccvReady s) → completes (.ccvrow row n)) ∧ (all (recReady s) → completes (.recrow row n))

/-- The frame of the row commands (R100, R272, R277, R281, R283): completed or not, a row command changes no register but
those of the command processor, and no byte of memory but the plane samples, UPlane samples and destination pixels of the
stages and bands it covers. -/
def Obligations.RowCommandsLeaveTheRestAlone : Prop :=
  ∀ (s t : State) (row n : Nat),
    let covers := fun (stores : Nat → Word → Prop) (addr : Word) =>
      ∃ b, row ≤ b ∧ b < row + bandCount s row n ∧ stores b addr
    let leaves := fun (stores : Nat → Word → Prop) =>
      t = { s with proc := t.proc, mem := t.mem, free := t.free } ∧
      ∀ addr : Word, ¬covers stores addr → t.mem.read addr.toNat = s.mem.read addr.toNat
    (exec (.idctrow row n) s = .next t → leaves (idctStores s.env)) ∧
    (exec (.upsrow row n) s = .next t → leaves (upsStores s.env)) ∧
    (exec (.ccvrow row n) s = .next t → leaves (ccvStores s.env)) ∧
    (exec (.recrow row n) s = .next t → leaves (recStores s))

/-- IDCTROW (R272) fills the planes of its bands: where the plane samples are different bytes from each other, from the
blocks and from the command's words, each holds the sample of its block's transform with its component's table, and no
other byte changes. -/
def Obligations.IdctrowFillsThePlanes : Prop :=
  ∀ (s : State) (row n : Nat), s.memCanonical = true → rowOk s row n → s.dec.frm.mode ≠ .sof3 →
    let covered := fun (c by' bx m : Nat) =>
      c < s.dec.frm.ncomp.toNat ∧ bx < bwOf s.env c ∧ m < 64 ∧ row * vOf s.env c ≤ by' ∧
        by' < (row + bandCount s row n) * vOf s.env c
    let sample := fun (c by' bx m : Nat) => planeAddr s.env c (8 * bx + m % 8) (8 * by' + m / 8)
    (∀ b, row ≤ b → b < row + bandCount s row n → idctReady s b) →
    (∀ c r bx m, covered c r bx m →
      notCommand s 8 (sample c r bx m) ∧
      (∀ c' r' bx' m', covered c' r' bx' m' → sample c r bx m = sample c' r' bx' m' →
        c = c' ∧ r = r' ∧ bx = bx' ∧ m = m') ∧
      ∀ c' r' bx' k, covered c' r' bx' 0 → k < 128 →
        sample c r bx m ≠ coefAddr s.env c' bx' r' + BitVec.ofNat 32 k) →
    ∃ t, exec (.idctrow row n) s = .next { ranPast 8 s with mem := t } ∧
      (∀ c r bx m, covered c r bx m →
        t.read (sample c r bx m).toNat =
          BitVec.ofInt 8
            (idctSample s.params (dequantAt s s.mem (s.dec.frm.comp.get c).tq.toNat (coefAddr s.env c bx r)) (m % 8)
              (m / 8))) ∧
      ∀ addr : Word, (∀ c r bx m, covered c r bx m → addr ≠ sample c r bx m) →
        t.read addr.toNat = s.mem.read addr.toNat

/-- UPSROW (R273 to R277): layout OTHER raises NotImplemented(0); otherwise it fills the UPlanes of its bands: where the
UPlane samples are different bytes from each other, from the planes read and from the command's words, each holds its
component's filter value, padding included, and no other byte changes. -/
def Obligations.UpsrowFillsTheUplanes : Prop :=
  ∀ (s : State) (row n : Nat), s.memCanonical = true → rowOk s row n → s.dec.frm.mode ≠ .sof3 →
    (s.dec.frm.layout = .other → exec (.upsrow row n) s = .next (errorEntry ⟨.notImplemented, 0⟩ s)) ∧
    (
      let covered := fun (c xo yo : Nat) =>
        c < s.dec.frm.ncomp.toNat ∧ fullRes s.env c = false ∧ xo < 8 * s.dec.frm.hmax.toNat * s.dec.frm.mcux.toNat ∧
          8 * s.dec.frm.vmax.toNat * row ≤ yo ∧ yo < 8 * s.dec.frm.vmax.toNat * (row + bandCount s row n)
      (∀ b, row ≤ b → b < row + bandCount s row n → upsReady s b) →
      (∀ c xo yo, covered c xo yo →
        factorsOk s c ∧ notCommand s 8 (uplaneAddr s.env c xo yo) ∧
        (∀ c' xo' yo', covered c' xo' yo' → uplaneAddr s.env c xo yo = uplaneAddr s.env c' xo' yo' →
          c = c' ∧ xo = xo' ∧ yo = yo') ∧
        ∀ c' i j, c' < s.dec.frm.ncomp.toNat → fullRes s.env c' = false → i < (s.dec.frm.geo.get c').cw →
          j < (s.dec.frm.geo.get c').ch → uplaneAddr s.env c xo yo ≠ planeAddr s.env c' i j) →
      ∃ t, exec (.upsrow row n) s = .next { ranPast 8 s with mem := t } ∧
        (∀ c xo yo, covered c xo yo →
          t.read (uplaneAddr s.env c xo yo).toNat = BitVec.ofNat 8 (upValue s c xo yo)) ∧
        ∀ addr : Word, (∀ c xo yo, covered c xo yo → addr ≠ uplaneAddr s.env c xo yo) →
          t.read addr.toNat = s.mem.read addr.toNat)

/-- CCVROW (R278 to R282): without a resolved colour space it raises BadState(0), without a matching conversion
NotImplemented(0); otherwise it writes the pixels of its bands: where the destination bytes are different from each other,
from the samples read and from the command's words, each pixel's channels hold the converted samples, or each packed pair
its four samples in the order Y0 Cb Y1 Cr, and no other byte changes. -/
def Obligations.CcvrowConvertsThePixels : Prop :=
  ∀ (s : State) (row n : Nat), s.memCanonical = true → rowOk s row n →
    (s.dec.scn.csValid = false → exec (.ccvrow row n) s = .next (errorEntry ⟨.badState, 0⟩ s)) ∧
    (s.dec.scn.csValid = true → ccvDispatch s.env = none →
      exec (.ccvrow row n) s = .next (errorEntry ⟨.notImplemented, 0⟩ s)) ∧
    (
      let line := fun (y : Nat) => ∃ b, row ≤ b ∧ b < row + bandCount s row n ∧ imageRow s.env b y
      (∀ b, row ≤ b → b < row + bandCount s row n → ccvReady s b) →
      (ccvDispatch s.env = some .p422 →
        (
          let covered := fun (y pr j : Nat) => line y ∧ pr < upDiv s.dec.frm.x.toNat 2 ∧ j < 4
          (∀ y pr j, covered y pr j →
            notCommand s 8 (packedAddr s.env y pr j) ∧
            (∀ y' pr' j', covered y' pr' j' → packedAddr s.env y pr j = packedAddr s.env y' pr' j' →
              y = y' ∧ pr = pr' ∧ j = j') ∧
            ∀ y' pr' j', covered y' pr' j' → packedAddr s.env y pr j ≠ packedFrom s.env y' pr' j') →
          ∃ t, exec (.ccvrow row n) s = .next { ranPast 8 s with mem := t } ∧
            (∀ y pr j, covered y pr j →
              t.read (packedAddr s.env y pr j).toNat = s.mem.read (packedFrom s.env y pr j).toNat) ∧
            ∀ addr : Word, (∀ y pr j, covered y pr j → addr ≠ packedAddr s.env y pr j) →
              t.read addr.toNat = s.mem.read addr.toNat)) ∧
      ∀ k, ccvDispatch s.env = some k → k ≠ .p422 →
        (
          let covered := fun (y x ch i : Nat) =>
            line y ∧ x < s.dec.frm.x.toNat ∧ ch < s.cfg.dstNch.toNat ∧ i < dstBps s.env
          let pixel := fun (y x ch i : Nat) => dstAddr s.env x y ch + BitVec.ofNat 32 i
          (∀ y x ch i, covered y x ch i →
            notCommand s 8 (pixel y x ch i) ∧
            (∀ y' x' ch' i', covered y' x' ch' i' → pixel y x ch i = pixel y' x' ch' i' →
              y = y' ∧ x = x' ∧ ch = ch' ∧ i = i') ∧
            ∀ y' x' c j, line y' → x' < s.dec.frm.x.toNat → c < s.dec.frm.ncomp.toNat → j < inputBytes s.env c →
              pixel y x ch i ≠ inputAddr s.env c x' y' + BitVec.ofNat 32 j) →
          ∃ t, exec (.ccvrow row n) s = .next { ranPast 8 s with mem := t } ∧
            (∀ y x ch i, covered y x ch i →
              t.read (pixel y x ch i).toNat =
                BitVec.ofInt 8
                  (channelOf k s.cfg.dstCs.toNat (fun c => (inputValue s c x y : Int)) ch / 256 ^ i)) ∧
            ∀ addr : Word, (∀ y x ch i, covered y x ch i → addr ≠ pixel y x ch i) →
              t.read addr.toNat = s.mem.read addr.toNat))

/-- R278, R279, and the table of R280: the colour transforms give the rules' formulas and examples, and a neutral chroma
gives the luma in every channel; and which source space, target space, channel count, layout and precision give which kind
of conversion, every other combination giving none. -/
def Obligations.ConversionsFollowTheTables : Prop :=
  ((∀ y cb cr : Int, ycc2rgb y cb cr = (redOf y cr, greenOf y cb cr, blueOf y cb)) ∧
  (∀ y cb cr k : Int,
    ycck2cmyk y cb cr k = (255 - redOf y cr, 255 - greenOf y cb cr, 255 - blueOf y cb, k)) ∧
  (∀ y : Int, 0 ≤ y → y ≤ 255 → ycc2rgb y 128 128 = (y, y, y)) ∧
  ycc2rgb 200 112 148 = (228, 191, 172) ∧ ycc2rgb 100 200 50 = (0, 131, 228) ∧
  ycck2cmyk 128 128 128 40 = (127, 127, 127, 40)) ∧
  ∀ e : Env,
    let usable := e.cfg.dstPrec16 = decide (8 < e.frm.p.toNat) ∧ e.frm.layout ≠ .other
    (ccvDispatch e = some .copy ↔
      usable ∧ e.cfg.dst422 = false ∧ e.cfg.dstCs.toNat = spaceNum e.scn.cs ∧ e.cfg.dstNch = e.frm.ncomp) ∧
    (ccvDispatch e = some .rgb ↔
      usable ∧ e.cfg.dst422 = false ∧ e.scn.cs = .ycbcr ∧ e.frm.ncomp = 3 ∧
        (e.cfg.dstCs = 2 ∨ e.cfg.dstCs = 3) ∧ e.cfg.dstNch = 3) ∧
    (ccvDispatch e = some .p422 ↔
      usable ∧ e.cfg.dst422 = true ∧ e.scn.cs = .ycbcr ∧ e.frm.ncomp = 3 ∧ e.frm.layout = .l422 ∧ e.cfg.dstCs = 4 ∧
        e.cfg.dstNch = 2) ∧
    (ccvDispatch e = some .cmyk ↔
      usable ∧ e.cfg.dst422 = false ∧ e.scn.cs = .ycck ∧ e.frm.ncomp = 4 ∧ e.cfg.dstCs = 5 ∧ e.cfg.dstNch = 4)

/-- The lossless path (R284): IDCTROW and UPSROW only check their arguments, RECROW does what CCVROW does, band for line,
and the only conversion of a one-component GRAY frame is the copy to GRAY with one channel, 16-bit exactly when P > 8. -/
def Obligations.LosslessFramesAreOnlyConverted : Prop :=
  ∀ (s : State) (row n : Nat), s.dec.frm.mode = .sof3 →
    (rowOk s row n → exec (.idctrow row n) s = .next (ranPast 8 s) ∧ exec (.upsrow row n) s = .next (ranPast 8 s)) ∧
    exec (.recrow row n) s = exec (.ccvrow row n) s ∧
    ∀ k, s.dec.frm.ncomp = 1 → s.dec.scn.cs = .gray → ccvDispatch s.env = some k →
      k = .copy ∧ s.cfg.dstCs = 1 ∧ s.cfg.dstNch = 1 ∧ s.cfg.dst422 = false ∧
        s.cfg.dstPrec16 = decide (8 < s.dec.frm.p.toNat)

/-- RECROW over a whole grey frame (R283, R272, R281): where the coefficient buffer, the plane, the destination and the
command's words share no byte, every pixel of the destination holds the sample of its coefficient block's transform, and
every byte outside the plane and the destination is unchanged. -/
def Obligations.RecrowReconstructsAGreyFrame : Prop :=
  ∀ s : State, s.memCanonical = true → rowOk s 0 0 → s.dec.frm.mode ≠ .sof3 → s.dec.frm.ncomp = 1 →
    (s.dec.frm.comp.get 0).v = 1 → fullRes s.env 0 = true → s.dec.frm.vmax = 1 → s.dec.scn.csValid = true →
    ccvDispatch s.env = some .copy → s.cfg.dstPrec16 = false → s.dec.frm.x.toNat ≤ 8 * bwOf s.env 0 → s.dec.frm.y.toNat ≤ 8 * bandsIn s →
    let plane := fun (x y : Nat) => planeAddr s.env 0 x y
    let pixel := fun (x y : Nat) => dstAddr s.env x y 0
    let inPlane := fun (x y : Nat) => x < 8 * bwOf s.env 0 ∧ y < 8 * bandsIn s
    let inImage := fun (x y : Nat) => x < s.dec.frm.x.toNat ∧ y < s.dec.frm.y.toNat
    let coef := fun (bx by' k : Nat) => coefAddr s.env 0 bx by' + BitVec.ofNat 32 k
    (∀ b, b < bandsIn s → recReady s b) →
    (∀ x y x' y', inPlane x y → inPlane x' y' → plane x y = plane x' y' → x = x' ∧ y = y') →
    (∀ x y x' y', inImage x y → inImage x' y' → pixel x y = pixel x' y' → x = x' ∧ y = y') →
    (∀ x y x' y', inPlane x y → inImage x' y' → plane x y ≠ pixel x' y') →
    (∀ x y bx by' k, inPlane x y → bx < bwOf s.env 0 → by' < bandsIn s → k < 128 → plane x y ≠ coef bx by' k) →
    (∀ x y bx by' k, inImage x y → bx < bwOf s.env 0 → by' < bandsIn s → k < 128 → pixel x y ≠ coef bx by' k) →
    (∀ x y, inPlane x y → notCommand s 8 (plane x y)) → (∀ x y, inImage x y → notCommand s 8 (pixel x y)) →
    ∃ t, exec (.recrow 0 0) s = .next { ranPast 8 s with mem := t } ∧
      (∀ x y, inImage x y →
        t.read (pixel x y).toNat =
          BitVec.ofInt 8
            (idctSample s.params
              (dequantAt s s.mem (s.dec.frm.comp.get 0).tq.toNat (coefAddr s.env 0 (x / 8) (y / 8))) (x % 8) (y % 8))) ∧
      ∀ addr : Word, (∀ x y, inPlane x y → addr ≠ plane x y) → (∀ x y, inImage x y → addr ≠ pixel x y) →
        t.read addr.toNat = s.mem.read addr.toNat

/-! ## Invariants and whole-machine rules -/

/-- Every step keeps system memory and LLPREV in canonical form: addresses rising, none listed that reads as an unlisted
one does. -/
def Obligations.StepKeepsMemoryCanonical : Prop :=
  ∀ s t : State, s.memCanonical = true → step s = .next t → t.memCanonical = true

/-- Every step keeps the processor in one of its states (R322): CQ_PTR aligned (R25), not BUSY with ERR or DONE, and the
error record that of a named error or none (R340, R342); and BITRD.BL in 0..8 (R48), EOBRUN in 0..32767 (R47). -/
def Obligations.StepKeepsRegistersLegal : Prop :=
  ∀ s t : State, step s = .next t →
    (s.procLegal = true → t.procLegal = true) ∧ (s.entropyLegal = true → t.entropyLegal = true)

/-- Every step keeps each HCODE the one that follows from its table's BITS and HUFFVAL (R54, R161). -/
def Obligations.StepKeepsCodesDerived : Prop :=
  ∀ s t : State, s.huffDerived = true → step s = .next t → t.huffDerived = true

/-- Every step keeps the frame registers those of a committed frame, with LAYOUT, HMAX, VMAX, GEOM, UPH, UPV and COMPGEO as
R170 and R171 derive them from the header's fields, or clear (R37 to R41, R55, R59); and the scan registers those of a
committed scan of that frame, with SMODE, SROWS and SCOLS as R184 and R181 derive them and CS one R182 gives, or clear (R43
to R45; TD and TA past NS by log entry 16); SROW not past SROWS; ACMASK bit 0 never set (R50). COEF_NEED is free, since a SETFRM that fails writes it (R40). -/
def Obligations.StepKeepsHeadersLegal : Prop :=
  ∀ s t : State, s.headersLegal = true → step s = .next t → t.headersLegal = true

/-- The reset state meets every invariant. -/
def Obligations.ResetMeetsTheInvariants : Prop := State.reset.inv = true

/-- R351: warnings change no decode result. With other WARN_RST, WARN_ENT and WARN_CNT a command gives the same state but
for them; they are cleared by a host's write of 1, by RESET and by reset. -/
def Obligations.WarningsChangeNothingElse : Prop :=
  (∀ (i : Instr) (s : State) (w : Warn), ∃ t w',
    exec i s = .next t ∧
      exec i { s with dec := { s.dec with warn := w } } = .next { t with dec := { t.dec with warn := w' } }) ∧
  ∀ s : State,
    (csrRead (csrWrite s 0x008 0x00000018#32) 0x008).extractLsb' 3 2 = 0#2 ∧
    (∃ t, exec .reset s = .next t ∧ (csrRead t 0x008).extractLsb' 3 2 = 0#2 ∧ csrRead t 0x01C = 0) ∧
    (csrRead (hardReset s) 0x008).extractLsb' 3 2 = 0#2 ∧ csrRead (hardReset s) 0x01C = 0

/-- The host's accesses to system memory. While idle, a store is what a load then returns, and no register changes; the
little-endian order, at any alignment, is the model's choice (log entry 8). Beside a run (R97; log entries 5 and 7) nothing
stops. A store lands, and every other byte stays, but for the bytes left open: those stored to that the run writes or may
write, and those the run may leave different by what its commands meet in the bytes stored to; none where the run has touched
no byte stored to. A load returns the bytes the run has not touched. A step of the run changes no byte that it does not write
and that is not open, so what the host stored there is there for a later run; and where the host has raced with the run, a
byte not stored to and not open is what the command left. -/
def Obligations.HostLoadsWhatItStored : Prop :=
  (∀ (s : State) (a : Word) (w : Width) (v : Word), s.memCanonical = true → touchesWindow s.params a w = false →
    let isByte := fun (addr : Word) => ∃ k, k < w.bytes ∧ addr = a + BitVec.ofNat 32 k
    (s.proc.busy = false →
      ∃ t, hostStore a w v s = .next t ∧ t = { s with mem := t.mem } ∧
        (∀ k, k < w.bytes → byteAt t.mem a k = v.extractLsb' (8 * k) 8) ∧
        (∀ addr : Word, ¬isByte addr → t.mem.read addr.toNat = s.mem.read addr.toNat) ∧
        hostLoad a w t = .next (withLoad a w (BitVec.ofNat 32 (v.toNat % 2 ^ (8 * w.bytes))) t)) ∧
    (s.proc.busy = true →
      (∃ t, hostStore a w v s = .next t ∧
        t = { s with mem := t.mem, race := t.race, free := s.free + 1 } ∧
        t.race = { s.race with stored := accessAddrs a w ++ s.race.stored } ∧
        (∀ k, k < w.bytes → keptBeside s t.race.stored s.race.log (a + BitVec.ofNat 32 k) →
          byteAt t.mem a k = v.extractLsb' (8 * k) 8) ∧
        (∀ addr : Word, ¬isByte addr → keptBeside s t.race.stored s.race.log addr →
          t.mem.read addr.toNat = s.mem.read addr.toNat)) ∧
      ∃ x, hostLoad a w s = .next { withLoad a w x s with free := s.free + 1 } ∧
        ∀ k, k < w.bytes → touchedByte s.race.log (a + BitVec.ofNat 32 k) = false →
          x.extractLsb' (8 * k) 8 = byteAt s.mem a k)) ∧
  ∀ s t : State, s.memCanonical = true → s.proc.busy = true → s.events = [] → step s = .next t →
    (∀ addr : Word, wroteByte t.race.log addr = false → keptBeside s s.race.stored t.race.log addr →
      t.mem.read addr.toNat = s.mem.read addr.toNat) ∧
    (s.race.quiet = false →
      ∃ u, runRaced s = .next u ∧
        ∀ addr : Word, addr ∉ s.race.stored → keptBeside s s.race.stored t.race.log addr →
          t.mem.read addr.toNat = u.mem.read addr.toNat)

end
end

