-- ==== Sys2Proof/Laws/Monad.lean ====
section
/-! SUPPORT. The laws of computations that may raise: sequencing, relations every computation keeps whichever way it
ends, and the loop forRange. -/
namespace Sys2Proof.Machine

variable {ε σ α β : Type}

@[simp] theorem stateAfter_ok (a : α) (s : σ) : stateAfter (.ok a s : EStateM.Result ε σ α) = s := rfl
@[simp] theorem stateAfter_error (e : ε) (s : σ) : stateAfter (.error e s : EStateM.Result ε σ α) = s := rfl

theorem pure_run (a : α) (s : σ) : (pure a : EStateM ε σ α) s = .ok a s := rfl
theorem get_run (s : σ) : (get : EStateM ε σ σ) s = .ok s s := rfl
theorem modify_run (f : σ → σ) (s : σ) : (modify f : EStateM ε σ PUnit) s = .ok ⟨⟩ (f s) := rfl
theorem throw_run (e : ε) (s : σ) : (throw e : EStateM ε σ α) s = .error e s := rfl

/-- Sequencing, case by case. -/
theorem bind_run (m : EStateM ε σ α) (f : α → EStateM ε σ β) (s : σ) :
    (m >>= f) s = match m s with
      | .ok a t => f a t
      | .error e t => .error e t := by
  show EStateM.bind m f s = _
  unfold EStateM.bind
  cases m s <;> rfl

/-- A sequence completes exactly when both parts do. -/
theorem bind_eq_ok {m : EStateM ε σ α} {f : α → EStateM ε σ β} {s u : σ} {b : β} :
    (m >>= f) s = .ok b u ↔ ∃ a t, m s = .ok a t ∧ f a t = .ok b u := by
  rw [bind_run]
  cases h : m s <;> simp

/-- A sequence raises exactly when its first part does, or its second after the first. -/
theorem bind_eq_error {m : EStateM ε σ α} {f : α → EStateM ε σ β} {s u : σ} {e : ε} :
    (m >>= f) s = .error e u ↔ m s = .error e u ∨ ∃ a t, m s = .ok a t ∧ f a t = .error e u := by
  rw [bind_run]
  cases h : m s <;> simp

@[simp] theorem liftX_ok (a : α) (s : σ) : liftX (.ok a : Except Raise α) s = .ok a s := rfl
@[simp] theorem liftX_error (r : Raise) (s : σ) : liftX (.error r : Except Raise α) s = .error r s := rfl

/-- A relation between the states before and after, whichever way the computation ends. -/
def Keeps (P : σ → σ → Prop) (m : EStateM ε σ α) : Prop := ∀ s, P s (stateAfter (m s))

/-- A reflexive and transitive relation. -/
structure Closed (P : σ → σ → Prop) : Prop where
  refl : ∀ s, P s s
  trans : ∀ s t u, P s t → P t u → P s u

theorem Keeps.pure {P : σ → σ → Prop} (hP : Closed P) (a : α) : Keeps P (pure a : EStateM ε σ α) := hP.refl

theorem Keeps.throw {P : σ → σ → Prop} (hP : Closed P) (e : ε) : Keeps P (throw e : EStateM ε σ α) := hP.refl

theorem Keeps.get {P : σ → σ → Prop} (hP : Closed P) : Keeps P (get : EStateM ε σ σ) := hP.refl

theorem Keeps.modify {P : σ → σ → Prop} {f : σ → σ} (h : ∀ s, P s (f s)) :
    Keeps P (modify f : EStateM ε σ PUnit) := h

theorem Keeps.liftX {P : σ → σ → Prop} (hP : Closed P) (x : Except Raise α) : Keeps P (liftX x) := by
  intro s
  cases x <;> exact hP.refl s

theorem Keeps.bind {P : σ → σ → Prop} (hP : Closed P) {m : EStateM ε σ α} {f : α → EStateM ε σ β}
    (hm : Keeps P m) (hf : ∀ a, Keeps P (f a)) : Keeps P (m >>= f) := by
  intro s
  have h := hm s
  rw [bind_run]
  cases e : m s with
  | ok a t =>
    rw [e] at h
    exact hP.trans _ _ _ h (hf a t)
  | error r t =>
    rw [e] at h
    exact h

theorem Keeps.ite {P : σ → σ → Prop} {c : Prop} [Decidable c] {m n : EStateM ε σ α} (hm : Keeps P m)
    (hn : Keeps P n) : Keeps P (if c then m else n) := by
  split
  · exact hm
  · exact hn

theorem Keeps.forRange {P : σ → σ → Prop} (hP : Closed P) {f : Nat → EStateM ε σ Unit} (hf : ∀ i, Keeps P (f i))
    (lo n : Nat) : Keeps P (forRange lo n f) := by
  induction n generalizing lo with
  | zero => exact Keeps.pure hP _
  | succ n ih => exact Keeps.bind hP (hf lo) fun _ => ih (lo + 1)

/-- `Keeps` over the indexes a loop really takes. -/
theorem Keeps.forRange_mem {P : σ → σ → Prop} (hP : Closed P) {f : Nat → EStateM ε σ Unit} (lo n : Nat)
    (hf : ∀ i, lo ≤ i → i < lo + n → Keeps P (f i)) : Keeps P (Sys2Proof.Machine.forRange lo n f) := by
  induction n generalizing lo with
  | zero => exact Keeps.pure hP _
  | succ n ih =>
    refine Keeps.bind hP (hf lo (by omega) (by omega)) fun _ => ih (lo + 1) fun i h1 h2 => hf i (by omega) (by omega)

/-- A loop that keeps completing completes, with an invariant that counts its rounds. -/
theorem forRange_ok {f : Nat → EStateM ε σ Unit} (I : Nat → σ → Prop) (lo n : Nat)
    (hf : ∀ i s, lo ≤ i → i < lo + n → I i s → ∃ t, f i s = .ok () t ∧ I (i + 1) t) :
    ∀ s, I lo s → ∃ t, forRange lo n f s = .ok () t ∧ I (lo + n) t := by
  induction n generalizing lo with
  | zero => exact fun s hs => ⟨s, rfl, hs⟩
  | succ n ih =>
    intro s hs
    obtain ⟨t, ht, hI⟩ := hf lo s (by omega) (by omega) hs
    obtain ⟨u, hu, hJ⟩ := ih (lo + 1) (fun i v h1 h2 => hf i v (by omega) (by omega)) t hI
    refine ⟨u, ?_, by rwa [show lo + (n + 1) = lo + 1 + n by omega]⟩
    exact bind_eq_ok.mpr ⟨(), t, ht, hu⟩

end Sys2Proof.Machine
end

