-- ==== Sys2Proof/Laws/Sparse.lean ====
section
/-! SUPPORT. The laws of sparse data and of system memory: a read after a write, and the canonical form every write
keeps. -/
namespace Sys2Proof.Machine

variable {w : Nat}

theorem Sparse.read_nil (k : Nat) : Sparse.read ([] : Sparse w) k = 0 := rfl

theorem Sparse.read_cons (b : Nat) (v : BitVec w) (m : Sparse w) (k : Nat) :
    Sparse.read ((b, v) :: m) k = if k = b then v else Sparse.read m k := rfl

/-- A key below every listed key reads 0. -/
theorem Sparse.read_below {lo k : Nat} {m : Sparse w} (h : Sparse.sortedFrom lo m = true) (hk : k < lo) :
    Sparse.read m k = 0 := by
  induction m generalizing lo with
  | nil => rfl
  | cons c m ih =>
    obtain ⟨b, v⟩ := c
    simp only [Sparse.sortedFrom, Bool.and_eq_true, decide_eq_true_eq] at h
    rw [Sparse.read_cons, if_neg (by omega)]
    exact ih h.2 (by omega)

theorem Sparse.sortedFrom_mono {lo lo' : Nat} {m : Sparse w} (h : Sparse.sortedFrom lo m = true) (hl : lo' ≤ lo) :
    Sparse.sortedFrom lo' m = true := by
  cases m with
  | nil => rfl
  | cons c m =>
    simp only [Sparse.sortedFrom, Bool.and_eq_true, decide_eq_true_eq] at h ⊢
    exact ⟨⟨by omega, h.1.2⟩, h.2⟩

theorem Sparse.sortedFrom_write {lo k : Nat} {m : Sparse w} (x : BitVec w) (h : Sparse.sortedFrom lo m = true)
    (hk : lo ≤ k) : Sparse.sortedFrom lo (Sparse.write m k x) = true := by
  induction m generalizing lo with
  | nil =>
    unfold Sparse.write
    split
    · rfl
    · simp_all [Sparse.sortedFrom]
  | cons c m ih =>
    obtain ⟨b, v⟩ := c
    have h' := h
    simp only [Sparse.sortedFrom, Bool.and_eq_true, decide_eq_true_eq] at h
    unfold Sparse.write
    split
    · split
      · exact h'
      · simp only [Sparse.sortedFrom, Bool.and_eq_true, decide_eq_true_eq]
        exact ⟨⟨hk, by assumption⟩, ⟨by omega, h.1.2⟩, h.2⟩
    · split
      · split
        · exact Sparse.sortedFrom_mono h.2 (by omega)
        · subst_vars
          simp only [Sparse.sortedFrom, Bool.and_eq_true, decide_eq_true_eq]
          exact ⟨⟨hk, by assumption⟩, h.2⟩
      · simp only [Sparse.sortedFrom, Bool.and_eq_true, decide_eq_true_eq]
        exact ⟨h.1, ih h.2 (by omega)⟩

theorem Sparse.read_write_other {k j : Nat} (hj : j ≠ k) (m : Sparse w) (x : BitVec w) :
    Sparse.read (Sparse.write m k x) j = Sparse.read m j := by
  induction m with
  | nil =>
    unfold Sparse.write
    split
    · rfl
    · simp [Sparse.read_cons, hj]
  | cons c m ih =>
    obtain ⟨b, v⟩ := c
    unfold Sparse.write
    split
    · split
      · rfl
      · rw [Sparse.read_cons, if_neg hj]
    · split
      · subst_vars
        split <;> simp [Sparse.read_cons, hj]
      · rw [Sparse.read_cons, Sparse.read_cons, ih]

theorem Sparse.read_write_same {lo k : Nat} {m : Sparse w} (h : Sparse.sortedFrom lo m = true) (x : BitVec w) :
    Sparse.read (Sparse.write m k x) k = x := by
  induction m generalizing lo with
  | nil =>
    unfold Sparse.write
    split
    · simp_all [Sparse.read_nil]
    · simp [Sparse.read_cons]
  | cons c m ih =>
    obtain ⟨b, v⟩ := c
    have h' := h
    simp only [Sparse.sortedFrom, Bool.and_eq_true, decide_eq_true_eq] at h
    unfold Sparse.write
    split
    · split
      · subst_vars
        rw [Sparse.read_cons, if_neg (by omega)]
        exact Sparse.read_below h.2 (by omega)
      · simp [Sparse.read_cons]
    · split
      · subst_vars
        split
        · subst_vars
          exact Sparse.read_below h.2 (by omega)
        · simp [Sparse.read_cons]
      · rw [Sparse.read_cons, if_neg (by assumption)]
        exact ih h.2

/-- A read after a write. -/
theorem Sparse.read_write {m : Sparse w} (h : m.wf = true) (k j : Nat) (x : BitVec w) :
    Sparse.read (Sparse.write m k x) j = if j = k then x else Sparse.read m j := by
  split
  · subst_vars
    exact Sparse.read_write_same h x
  · exact Sparse.read_write_other (by assumption) m x

theorem Sparse.wf_write {m : Sparse w} (h : m.wf = true) (k : Nat) (x : BitVec w) :
    Sparse.wf (Sparse.write m k x) = true := Sparse.sortedFrom_write x h (Nat.zero_le k)

theorem Sparse.wf_writeList {m : Sparse w} (h : m.wf = true) (k : Nat) (xs : List (BitVec w)) :
    Sparse.wf (Sparse.writeList m k xs) = true := by
  induction xs generalizing m k with
  | nil => exact h
  | cons x xs ih => exact ih (Sparse.wf_write h k x) (k + 1)

/-- Two lists in canonical form that read the same are equal. -/
theorem Sparse.ext_of_read {lo : Nat} {m n : Sparse w} (hm : Sparse.sortedFrom lo m = true)
    (hn : Sparse.sortedFrom lo n = true) (h : ∀ k, Sparse.read m k = Sparse.read n k) : m = n := by
  induction m generalizing lo n with
  | nil =>
    cases n with
    | nil => rfl
    | cons c n =>
      simp only [Sparse.sortedFrom, Bool.and_eq_true, decide_eq_true_eq] at hn
      have := h c.1
      rw [Sparse.read_nil, show c :: n = (c.1, c.2) :: n from rfl, Sparse.read_cons, if_pos rfl] at this
      exact absurd this.symm hn.1.2
  | cons c m ih =>
    obtain ⟨b, v⟩ := c
    have hm' := hm
    simp only [Sparse.sortedFrom, Bool.and_eq_true, decide_eq_true_eq] at hm
    cases n with
    | nil =>
      have := h b
      rw [Sparse.read_nil, Sparse.read_cons, if_pos rfl] at this
      exact absurd this hm.1.2
    | cons d n =>
      obtain ⟨b', v'⟩ := d
      have hn' := hn
      simp only [Sparse.sortedFrom, Bool.and_eq_true, decide_eq_true_eq] at hn
      have hb : b = b' := by
        rcases Nat.lt_trichotomy b b' with hlt | heq | hgt
        · have := h b
          rw [Sparse.read_cons, if_pos rfl, Sparse.read_cons, if_neg (by omega),
            Sparse.read_below hn.2 (by omega)] at this
          exact absurd this hm.1.2
        · exact heq
        · have := h b'
          rw [Sparse.read_cons, if_neg (by omega), Sparse.read_below hm.2 (by omega), Sparse.read_cons,
            if_pos rfl] at this
          exact absurd this.symm hn.1.2
      subst hb
      have hv : v = v' := by simpa [Sparse.read_cons] using h b
      subst hv
      have : m = n := by
        refine ih hm.2 hn.2 fun k => ?_
        have hk := h k
        rw [Sparse.read_cons, Sparse.read_cons] at hk
        by_cases hkb : k = b
        · subst hkb
          rw [Sparse.read_below hm.2 (by omega), Sparse.read_below hn.2 (by omega)]
        · simpa [hkb] using hk
      rw [this]

theorem Sparse.mem_write {m : Sparse w} {k : Nat} {x : BitVec w} {c : Nat × BitVec w}
    (h : c ∈ Sparse.write m k x) : c ∈ m ∨ c = (k, x) := by
  induction m with
  | nil =>
    unfold Sparse.write at h
    split at h <;> simp_all
  | cons d m ih =>
    obtain ⟨b, v⟩ := d
    unfold Sparse.write at h
    split at h
    · split at h
      · exact .inl h
      · rcases List.mem_cons.mp h with h | h
        · exact .inr h
        · exact .inl h
    · split at h
      · split at h
        · exact .inl (List.mem_cons_of_mem _ h)
        · rcases List.mem_cons.mp h with h | h
          · exact .inr h
          · exact .inl (List.mem_cons_of_mem _ h)
      · rcases List.mem_cons.mp h with h | h
        · exact .inl (h ▸ List.mem_cons_self)
        · exact (ih h).imp (List.mem_cons_of_mem _) id

/-- What memory in canonical form is. -/
theorem Memory.wf_iff (m : Memory) :
    m.wf = true ↔ Sparse.wf m = true ∧ ∀ c ∈ m, c.1 < 2 ^ 32 := by
  unfold Memory.wf
  rw [Bool.and_eq_true, List.all_eq_true]
  refine and_congr Iff.rfl (forall_congr' fun c => imp_congr Iff.rfl ?_)
  exact decide_eq_true_iff

/-- A store keeps the canonical form. -/
theorem Memory.wf_write {m : Memory} (h : m.wf = true) {a : Nat} (ha : a < 2 ^ 32) (v : Byte) :
    (m.write a v).wf = true := by
  rw [Memory.wf_iff] at h ⊢
  refine ⟨Sparse.wf_write h.1 a v, fun c hc => ?_⟩
  rcases Sparse.mem_write hc with hc | rfl
  · exact h.2 c hc
  · exact ha

/-- A read after a store. -/
theorem Memory.read_write {m : Memory} (h : m.wf = true) (a b : Nat) (v : Byte) :
    (m.write a v).read b = if b = a then v else m.read b :=
  Sparse.read_write ((Memory.wf_iff m).mp h).1 a b v

/-- A store leaves every other byte alone, in canonical form or not. -/
theorem Memory.read_write_other {a b : Nat} (h : b ≠ a) (m : Memory) (v : Byte) :
    (m.write a v).read b = m.read b := Sparse.read_write_other h m v

/-- Equal memories are equal data. -/
theorem Memory.ext_of_read {m n : Memory} (hm : m.wf = true) (hn : n.wf = true)
    (h : ∀ a, m.read a = n.read a) : m = n :=
  Sparse.ext_of_read ((Memory.wf_iff m).mp hm).1 ((Memory.wf_iff n).mp hn).1 h

theorem Memory.wf_writeBytes {m : Memory} (h : m.wf = true) (a : Word) (bs : List Byte) :
    (m.writeBytes a bs).wf = true := by
  induction bs generalizing m a with
  | nil => exact h
  | cons b bs ih => exact ih (Memory.wf_write h a.isLt b) (a + 1)

end Sys2Proof.Machine
end

