-- ==== Sys2Proof/Laws/State.lean ====
section
/-! SUPPORT. The laws of the state's updates: what each update does to each field, one lemma a field, so that no proof
unfolds an update. -/
namespace Sys2Proof.Machine

/-! ### Completing a command -/

@[simp] theorem advance_params (op : Op) (s : State) : (advance op s).params = s.params := rfl
@[simp] theorem advance_cfg (op : Op) (s : State) : (advance op s).cfg = s.cfg := rfl
@[simp] theorem advance_proc (op : Op) (s : State) :
    (advance op s).proc = { s.proc with cqPtr := s.proc.cqPtr + BitVec.ofNat 32 (4 * op.words) } := rfl
@[simp] theorem advance_srcPos (op : Op) (s : State) : (advance op s).srcPos = s.srcPos := rfl
@[simp] theorem advance_dec (op : Op) (s : State) : (advance op s).dec = s.dec := rfl
@[simp] theorem advance_mem (op : Op) (s : State) : (advance op s).mem = s.mem := rfl
@[simp] theorem advance_events (op : Op) (s : State) : (advance op s).events = s.events := rfl
@[simp] theorem advance_loads (op : Op) (s : State) : (advance op s).loads = s.loads := rfl
@[simp] theorem advance_race (op : Op) (s : State) : (advance op s).race = s.race := rfl
@[simp] theorem advance_free (op : Op) (s : State) : (advance op s).free = s.free := rfl

theorem advance_proc_cqPtr (op : Op) (s : State) :
    (advance op s).proc.cqPtr = s.proc.cqPtr + BitVec.ofNat 32 (4 * op.words) := rfl
theorem advance_proc_busy (op : Op) (s : State) : (advance op s).proc.busy = s.proc.busy := rfl
theorem advance_proc_done (op : Op) (s : State) : (advance op s).proc.done = s.proc.done := rfl
theorem advance_proc_err (op : Op) (s : State) : (advance op s).proc.err = s.proc.err := rfl
theorem advance_proc_errCode (op : Op) (s : State) : (advance op s).proc.errCode = s.proc.errCode := rfl
theorem advance_proc_errClass (op : Op) (s : State) : (advance op s).proc.errClass = s.proc.errClass := rfl
theorem advance_proc_errCp (op : Op) (s : State) : (advance op s).proc.errCp = s.proc.errCp := rfl
theorem advance_proc_errData (op : Op) (s : State) : (advance op s).proc.errData = s.proc.errData := rfl

/-! ### Error entry and return (R341, R345) -/

@[simp] theorem errorEntry_params (r : Raise) (s : State) : (errorEntry r s).params = s.params := rfl
@[simp] theorem errorEntry_cfg (r : Raise) (s : State) : (errorEntry r s).cfg = s.cfg := rfl
@[simp] theorem errorEntry_proc (r : Raise) (s : State) :
    (errorEntry r s).proc =
      { s.proc with errCode := r.name.code, errClass := r.name.cls, errCp := s.proc.cqPtr, errData := r.data, busy := false, err := true } := rfl
@[simp] theorem errorEntry_srcPos (r : Raise) (s : State) : (errorEntry r s).srcPos = s.srcPos := rfl
@[simp] theorem errorEntry_dec (r : Raise) (s : State) : (errorEntry r s).dec = s.dec := rfl
@[simp] theorem errorEntry_mem (r : Raise) (s : State) : (errorEntry r s).mem = s.mem := rfl
@[simp] theorem errorEntry_events (r : Raise) (s : State) : (errorEntry r s).events = s.events := rfl
@[simp] theorem errorEntry_loads (r : Raise) (s : State) : (errorEntry r s).loads = s.loads := rfl
@[simp] theorem errorEntry_race (r : Raise) (s : State) : (errorEntry r s).race = s.race := rfl
@[simp] theorem errorEntry_free (r : Raise) (s : State) : (errorEntry r s).free = s.free := rfl

theorem errorEntry_proc_cqPtr (r : Raise) (s : State) : (errorEntry r s).proc.cqPtr = s.proc.cqPtr := rfl
theorem errorEntry_proc_busy (r : Raise) (s : State) : (errorEntry r s).proc.busy = false := rfl
theorem errorEntry_proc_done (r : Raise) (s : State) : (errorEntry r s).proc.done = s.proc.done := rfl
theorem errorEntry_proc_err (r : Raise) (s : State) : (errorEntry r s).proc.err = true := rfl
theorem errorEntry_proc_errCode (r : Raise) (s : State) : (errorEntry r s).proc.errCode = r.name.code := rfl
theorem errorEntry_proc_errClass (r : Raise) (s : State) : (errorEntry r s).proc.errClass = r.name.cls := rfl
theorem errorEntry_proc_errCp (r : Raise) (s : State) : (errorEntry r s).proc.errCp = s.proc.cqPtr := rfl
theorem errorEntry_proc_errData (r : Raise) (s : State) : (errorEntry r s).proc.errData = r.data := rfl

@[simp] theorem errorReturn_params (s : State) : (errorReturn s).params = s.params := rfl
@[simp] theorem errorReturn_cfg (s : State) : (errorReturn s).cfg = s.cfg := rfl
@[simp] theorem errorReturn_proc (s : State) : (errorReturn s).proc = { s.proc with err := false } := rfl
@[simp] theorem errorReturn_srcPos (s : State) : (errorReturn s).srcPos = s.srcPos := rfl
@[simp] theorem errorReturn_dec (s : State) : (errorReturn s).dec = s.dec := rfl
@[simp] theorem errorReturn_mem (s : State) : (errorReturn s).mem = s.mem := rfl
@[simp] theorem errorReturn_events (s : State) : (errorReturn s).events = s.events := rfl
@[simp] theorem errorReturn_loads (s : State) : (errorReturn s).loads = s.loads := rfl
@[simp] theorem errorReturn_race (s : State) : (errorReturn s).race = s.race := rfl
@[simp] theorem errorReturn_free (s : State) : (errorReturn s).free = s.free := rfl

/-! ### Control commands (R324, R325) -/

@[simp] theorem endRun_params (s : State) : (endRun s).params = s.params := rfl
@[simp] theorem endRun_cfg (s : State) : (endRun s).cfg = s.cfg := rfl
@[simp] theorem endRun_proc (s : State) : (endRun s).proc = { s.proc with busy := false, done := true } := rfl
@[simp] theorem endRun_srcPos (s : State) : (endRun s).srcPos = s.srcPos := rfl
@[simp] theorem endRun_dec (s : State) : (endRun s).dec = s.dec := rfl
@[simp] theorem endRun_mem (s : State) : (endRun s).mem = s.mem := rfl
@[simp] theorem endRun_events (s : State) : (endRun s).events = s.events := rfl
@[simp] theorem endRun_loads (s : State) : (endRun s).loads = s.loads := rfl
@[simp] theorem endRun_race (s : State) : (endRun s).race = s.race := rfl
@[simp] theorem endRun_free (s : State) : (endRun s).free = s.free := rfl

@[simp] theorem clearDecoder_params (s : State) : (clearDecoder s).params = s.params := rfl
@[simp] theorem clearDecoder_cfg (s : State) : (clearDecoder s).cfg = s.cfg := rfl
@[simp] theorem clearDecoder_proc (s : State) : (clearDecoder s).proc = s.proc := rfl
@[simp] theorem clearDecoder_srcPos (s : State) : (clearDecoder s).srcPos = s.srcPos := rfl
@[simp] theorem clearDecoder_dec (s : State) : (clearDecoder s).dec = Dec.reset := rfl
@[simp] theorem clearDecoder_mem (s : State) : (clearDecoder s).mem = s.mem := rfl
@[simp] theorem clearDecoder_events (s : State) : (clearDecoder s).events = s.events := rfl
@[simp] theorem clearDecoder_loads (s : State) : (clearDecoder s).loads = s.loads := rfl
@[simp] theorem clearDecoder_race (s : State) : (clearDecoder s).race = s.race := rfl
@[simp] theorem clearDecoder_free (s : State) : (clearDecoder s).free = s.free := rfl

/-! ### Segment commands -/

@[simp] theorem setCursor_params (pos : Word) (s : State) : (setCursor pos s).params = s.params := rfl
@[simp] theorem setCursor_cfg (pos : Word) (s : State) : (setCursor pos s).cfg = s.cfg := rfl
@[simp] theorem setCursor_proc (pos : Word) (s : State) : (setCursor pos s).proc = s.proc := rfl
@[simp] theorem setCursor_srcPos (pos : Word) (s : State) : (setCursor pos s).srcPos = pos := rfl
@[simp] theorem setCursor_dec (pos : Word) (s : State) :
    (setCursor pos s).dec = { s.dec with ent := { s.dec.ent with bl := 0, markerHit := false } } := rfl
@[simp] theorem setCursor_mem (pos : Word) (s : State) : (setCursor pos s).mem = s.mem := rfl
@[simp] theorem setCursor_events (pos : Word) (s : State) : (setCursor pos s).events = s.events := rfl
@[simp] theorem setCursor_loads (pos : Word) (s : State) : (setCursor pos s).loads = s.loads := rfl
@[simp] theorem setCursor_race (pos : Word) (s : State) : (setCursor pos s).race = s.race := rfl
@[simp] theorem setCursor_free (pos : Word) (s : State) : (setCursor pos s).free = s.free := rfl

@[simp] theorem commitRi_params (ri : Nat) (s : State) : (commitRi ri s).params = s.params := rfl
@[simp] theorem commitRi_cfg (ri : Nat) (s : State) : (commitRi ri s).cfg = s.cfg := rfl
@[simp] theorem commitRi_proc (ri : Nat) (s : State) : (commitRi ri s).proc = s.proc := rfl
@[simp] theorem commitRi_srcPos (ri : Nat) (s : State) : (commitRi ri s).srcPos = s.srcPos + 4 := rfl
@[simp] theorem commitRi_dec (ri : Nat) (s : State) :
    (commitRi ri s).dec =
      { s.dec with ri := BitVec.ofNat 16 ri, ent := { s.dec.ent with rtg := BitVec.ofNat 16 ri } } := rfl
@[simp] theorem commitRi_mem (ri : Nat) (s : State) : (commitRi ri s).mem = s.mem := rfl
@[simp] theorem commitRi_events (ri : Nat) (s : State) : (commitRi ri s).events = s.events := rfl
@[simp] theorem commitRi_loads (ri : Nat) (s : State) : (commitRi ri s).loads = s.loads := rfl
@[simp] theorem commitRi_race (ri : Nat) (s : State) : (commitRi ri s).race = s.race := rfl
@[simp] theorem commitRi_free (ri : Nat) (s : State) : (commitRi ri s).free = s.free := rfl

@[simp] theorem commitFrame_params (m : Mode) (f : FrameHdr) (g : Geom) (s : State) :
    (commitFrame m f g s).params = s.params := rfl
@[simp] theorem commitFrame_cfg (m : Mode) (f : FrameHdr) (g : Geom) (s : State) :
    (commitFrame m f g s).cfg = s.cfg := rfl
@[simp] theorem commitFrame_proc (m : Mode) (f : FrameHdr) (g : Geom) (s : State) :
    (commitFrame m f g s).proc = s.proc := rfl
@[simp] theorem commitFrame_srcPos (m : Mode) (f : FrameHdr) (g : Geom) (s : State) :
    (commitFrame m f g s).srcPos = BitVec.ofNat 32 f.pos := rfl
@[simp] theorem commitFrame_dec (m : Mode) (f : FrameHdr) (g : Geom) (s : State) :
    (commitFrame m f g s).dec = { s.dec with
      frm := frameOf m f g, scn := Scan.reset, prog := Progress.reset
      ent := { s.dec.ent with dcpred := .all 0, eobrun := 0, srow := 0 } } := rfl
@[simp] theorem commitFrame_mem (m : Mode) (f : FrameHdr) (g : Geom) (s : State) :
    (commitFrame m f g s).mem = s.mem := rfl
@[simp] theorem commitFrame_events (m : Mode) (f : FrameHdr) (g : Geom) (s : State) :
    (commitFrame m f g s).events = s.events := rfl
@[simp] theorem commitFrame_loads (m : Mode) (f : FrameHdr) (g : Geom) (s : State) :
    (commitFrame m f g s).loads = s.loads := rfl
@[simp] theorem commitFrame_race (m : Mode) (f : FrameHdr) (g : Geom) (s : State) :
    (commitFrame m f g s).race = s.race := rfl
@[simp] theorem commitFrame_free (m : Mode) (f : FrameHdr) (g : Geom) (s : State) :
    (commitFrame m f g s).free = s.free := rfl

@[simp] theorem noteNeed_params (n : Nat) (s : State) : (noteNeed n s).params = s.params := rfl
@[simp] theorem noteNeed_cfg (n : Nat) (s : State) : (noteNeed n s).cfg = s.cfg := rfl
@[simp] theorem noteNeed_proc (n : Nat) (s : State) : (noteNeed n s).proc = s.proc := rfl
@[simp] theorem noteNeed_srcPos (n : Nat) (s : State) : (noteNeed n s).srcPos = s.srcPos := rfl
@[simp] theorem noteNeed_dec (n : Nat) (s : State) :
    (noteNeed n s).dec =
      { s.dec with frm := { s.dec.frm with coefNeed := BitVec.ofNat 32 (min n (2 ^ 32 - 1)) } } := rfl
@[simp] theorem noteNeed_mem (n : Nat) (s : State) : (noteNeed n s).mem = s.mem := rfl
@[simp] theorem noteNeed_events (n : Nat) (s : State) : (noteNeed n s).events = s.events := rfl
@[simp] theorem noteNeed_loads (n : Nat) (s : State) : (noteNeed n s).loads = s.loads := rfl
@[simp] theorem noteNeed_race (n : Nat) (s : State) : (noteNeed n s).race = s.race := rfl
@[simp] theorem noteNeed_free (n : Nat) (s : State) : (noteNeed n s).free = s.free := rfl

@[simp] theorem commitScan_params (h : ScanHdr) (s : State) : (commitScan h s).params = s.params := rfl
@[simp] theorem commitScan_cfg (h : ScanHdr) (s : State) : (commitScan h s).cfg = s.cfg := rfl
@[simp] theorem commitScan_proc (h : ScanHdr) (s : State) : (commitScan h s).proc = s.proc := rfl
@[simp] theorem commitScan_mem (h : ScanHdr) (s : State) : (commitScan h s).mem = s.mem := rfl
@[simp] theorem commitScan_events (h : ScanHdr) (s : State) : (commitScan h s).events = s.events := rfl
@[simp] theorem commitScan_loads (h : ScanHdr) (s : State) : (commitScan h s).loads = s.loads := rfl
@[simp] theorem commitScan_race (h : ScanHdr) (s : State) : (commitScan h s).race = s.race := rfl
@[simp] theorem commitScan_free (h : ScanHdr) (s : State) : (commitScan h s).free = s.free := rfl
@[simp] theorem commitScan_srcPos (h : ScanHdr) (s : State) : (commitScan h s).srcPos = BitVec.ofNat 32 h.pos := rfl
@[simp] theorem commitScan_dec_scn (h : ScanHdr) (s : State) : (commitScan h s).dec.scn = scanOf s h := rfl
@[simp] theorem commitScan_dec_info (h : ScanHdr) (s : State) : (commitScan h s).dec.info = s.dec.info := rfl
@[simp] theorem commitScan_dec_tab (h : ScanHdr) (s : State) : (commitScan h s).dec.tab = s.dec.tab := rfl
@[simp] theorem commitScan_dec_frm (h : ScanHdr) (s : State) : (commitScan h s).dec.frm = s.dec.frm := rfl
@[simp] theorem commitScan_dec_ri (h : ScanHdr) (s : State) : (commitScan h s).dec.ri = s.dec.ri := rfl
@[simp] theorem commitScan_dec_prog (h : ScanHdr) (s : State) : (commitScan h s).dec.prog = s.dec.prog := rfl
@[simp] theorem commitScan_dec_warn (h : ScanHdr) (s : State) : (commitScan h s).dec.warn = s.dec.warn := rfl

/-! ### Host side -/

@[simp] theorem hardReset_params (s : State) : (hardReset s).params = s.params := rfl
@[simp] theorem hardReset_cfg (s : State) : (hardReset s).cfg = Cfg.reset := rfl
@[simp] theorem hardReset_proc (s : State) : (hardReset s).proc = Proc.reset := rfl
@[simp] theorem hardReset_srcPos (s : State) : (hardReset s).srcPos = 0 := rfl
@[simp] theorem hardReset_dec (s : State) : (hardReset s).dec = Dec.reset := rfl
@[simp] theorem hardReset_mem (s : State) : (hardReset s).mem = s.mem := rfl
@[simp] theorem hardReset_events (s : State) : (hardReset s).events = s.events := rfl
@[simp] theorem hardReset_loads (s : State) : (hardReset s).loads = s.loads := rfl
@[simp] theorem hardReset_race (s : State) : (hardReset s).race = Race.empty := rfl
@[simp] theorem hardReset_free (s : State) : (hardReset s).free = s.free := rfl

@[simp] theorem recordLoad_params (a : Word) (w : Width) (v : Word) (s : State) :
    (recordLoad a w v s).params = s.params := rfl
@[simp] theorem recordLoad_cfg (a : Word) (w : Width) (v : Word) (s : State) :
    (recordLoad a w v s).cfg = s.cfg := rfl
@[simp] theorem recordLoad_proc (a : Word) (w : Width) (v : Word) (s : State) :
    (recordLoad a w v s).proc = s.proc := rfl
@[simp] theorem recordLoad_srcPos (a : Word) (w : Width) (v : Word) (s : State) :
    (recordLoad a w v s).srcPos = s.srcPos := rfl
@[simp] theorem recordLoad_dec (a : Word) (w : Width) (v : Word) (s : State) :
    (recordLoad a w v s).dec = s.dec := rfl
@[simp] theorem recordLoad_mem (a : Word) (w : Width) (v : Word) (s : State) :
    (recordLoad a w v s).mem = s.mem := rfl
@[simp] theorem recordLoad_events (a : Word) (w : Width) (v : Word) (s : State) :
    (recordLoad a w v s).events = s.events := rfl
@[simp] theorem recordLoad_loads (a : Word) (w : Width) (v : Word) (s : State) :
    (recordLoad a w v s).loads = { addr := a, width := w, value := v } :: s.loads := rfl
@[simp] theorem recordLoad_free (a : Word) (w : Width) (v : Word) (s : State) :
    (recordLoad a w v s).free = s.free := rfl
@[simp] theorem recordLoad_race_stored (a : Word) (w : Width) (v : Word) (s : State) :
    (recordLoad a w v s).race.stored = s.race.stored := by unfold recordLoad; dsimp only; split <;> rfl
@[simp] theorem recordLoad_race_start (a : Word) (w : Width) (v : Word) (s : State) :
    (recordLoad a w v s).race.start = s.race.start := by unfold recordLoad; dsimp only; split <;> rfl
@[simp] theorem recordLoad_race_log (a : Word) (w : Width) (v : Word) (s : State) :
    (recordLoad a w v s).race.log = s.race.log := by unfold recordLoad; dsimp only; split <;> rfl

@[simp] theorem withFetchWord_params (s : State) (n w : Nat) : (s.withFetchWord n w).params = s.params := rfl
@[simp] theorem withFetchWord_cfg (s : State) (n w : Nat) : (s.withFetchWord n w).cfg = s.cfg := rfl
@[simp] theorem withFetchWord_proc (s : State) (n w : Nat) :
    (s.withFetchWord n w).proc = { s.proc with busy := true, done := false, err := false } := rfl
@[simp] theorem withFetchWord_srcPos (s : State) (n w : Nat) : (s.withFetchWord n w).srcPos = s.srcPos := rfl
@[simp] theorem withFetchWord_dec (s : State) (n w : Nat) : (s.withFetchWord n w).dec = s.dec := rfl
@[simp] theorem withFetchWord_mem (s : State) (n w : Nat) :
    (s.withFetchWord n w).mem = Memory.writeBytes s.mem s.proc.cqPtr (tableBytes n w) := rfl
@[simp] theorem withFetchWord_events (s : State) (n w : Nat) : (s.withFetchWord n w).events = [] := rfl
@[simp] theorem withFetchWord_loads (s : State) (n w : Nat) : (s.withFetchWord n w).loads = s.loads := rfl
@[simp] theorem withFetchWord_race (s : State) (n w : Nat) :
    (s.withFetchWord n w).race = { s.runStart with mem := (s.withFetchWord n w).mem }.race := rfl
@[simp] theorem withFetchWord_free (s : State) (n w : Nat) : (s.withFetchWord n w).free = s.free := rfl

/-! ### The host's accesses beside a run (R97) -/

@[simp] theorem racedStore_params (a : Word) (w : Width) (v : Word) (s : State) :
    (racedStore a w v s).params = s.params := rfl
@[simp] theorem racedStore_cfg (a : Word) (w : Width) (v : Word) (s : State) :
    (racedStore a w v s).cfg = s.cfg := rfl
@[simp] theorem racedStore_proc (a : Word) (w : Width) (v : Word) (s : State) :
    (racedStore a w v s).proc = s.proc := rfl
@[simp] theorem racedStore_srcPos (a : Word) (w : Width) (v : Word) (s : State) :
    (racedStore a w v s).srcPos = s.srcPos := rfl
@[simp] theorem racedStore_dec (a : Word) (w : Width) (v : Word) (s : State) :
    (racedStore a w v s).dec = s.dec := rfl
@[simp] theorem racedStore_events (a : Word) (w : Width) (v : Word) (s : State) :
    (racedStore a w v s).events = s.events := rfl
@[simp] theorem racedStore_loads (a : Word) (w : Width) (v : Word) (s : State) :
    (racedStore a w v s).loads = s.loads := rfl
@[simp] theorem racedStore_free (a : Word) (w : Width) (v : Word) (s : State) :
    (racedStore a w v s).free = s.free + 1 := rfl
@[simp] theorem racedStore_race (a : Word) (w : Width) (v : Word) (s : State) :
    (racedStore a w v s).race = { s.race with stored := accessAddrs a w ++ s.race.stored } := rfl

@[simp] theorem racedLoad_params (a : Word) (w : Width) (s : State) : (racedLoad a w s).params = s.params := rfl
@[simp] theorem racedLoad_cfg (a : Word) (w : Width) (s : State) : (racedLoad a w s).cfg = s.cfg := rfl
@[simp] theorem racedLoad_proc (a : Word) (w : Width) (s : State) : (racedLoad a w s).proc = s.proc := rfl
@[simp] theorem racedLoad_srcPos (a : Word) (w : Width) (s : State) : (racedLoad a w s).srcPos = s.srcPos := rfl
@[simp] theorem racedLoad_dec (a : Word) (w : Width) (s : State) : (racedLoad a w s).dec = s.dec := rfl
@[simp] theorem racedLoad_mem (a : Word) (w : Width) (s : State) : (racedLoad a w s).mem = s.mem := rfl
@[simp] theorem racedLoad_events (a : Word) (w : Width) (s : State) : (racedLoad a w s).events = s.events := rfl
@[simp] theorem racedLoad_free (a : Word) (w : Width) (s : State) : (racedLoad a w s).free = s.free + 1 := rfl

@[simp] theorem beside_params (s : State) (as : List Word) (f : Word → Byte) : (s.beside as f).params = s.params := rfl
@[simp] theorem beside_cfg (s : State) (as : List Word) (f : Word → Byte) : (s.beside as f).cfg = s.cfg := rfl
@[simp] theorem beside_proc (s : State) (as : List Word) (f : Word → Byte) : (s.beside as f).proc = s.proc := rfl
@[simp] theorem beside_srcPos (s : State) (as : List Word) (f : Word → Byte) : (s.beside as f).srcPos = s.srcPos := rfl
@[simp] theorem beside_dec (s : State) (as : List Word) (f : Word → Byte) : (s.beside as f).dec = s.dec := rfl
@[simp] theorem beside_events (s : State) (as : List Word) (f : Word → Byte) : (s.beside as f).events = s.events := rfl
@[simp] theorem beside_loads (s : State) (as : List Word) (f : Word → Byte) : (s.beside as f).loads = s.loads := rfl
@[simp] theorem beside_race (s : State) (as : List Word) (f : Word → Byte) : (s.beside as f).race = s.race := rfl
@[simp] theorem beside_free (s : State) (as : List Word) (f : Word → Byte) : (s.beside as f).free = s.free := rfl

@[simp] theorem atGo_params (s : State) : s.atGo.params = s.params := rfl
@[simp] theorem atGo_cfg (s : State) : s.atGo.cfg = s.cfg := rfl
@[simp] theorem atGo_runStart (s : State) : s.atGo.runStart = s.race.start := rfl

@[simp] theorem race_start (r : RunStart) : r.race.start = r := rfl
@[simp] theorem race_log (r : RunStart) : r.race.log = [] := rfl
@[simp] theorem race_stored (r : RunStart) : r.race.stored = [] := rfl
@[simp] theorem race_loads (r : RunStart) : r.race.loads = 0 := rfl
@[simp] theorem race_quiet (r : RunStart) : r.race.quiet = true := rfl

@[simp] theorem seen_params (s : State) : (s.seen).params = s.params := rfl
@[simp] theorem seen_cfg (s : State) : (s.seen).cfg = s.cfg := rfl
@[simp] theorem seen_proc (s : State) : (s.seen).proc = s.proc := rfl
@[simp] theorem seen_srcPos (s : State) : (s.seen).srcPos = s.srcPos := rfl
@[simp] theorem seen_dec (s : State) : (s.seen).dec = s.dec := rfl
@[simp] theorem seen_events (s : State) : (s.seen).events = s.events := rfl
@[simp] theorem seen_loads (s : State) : (s.seen).loads = s.loads := rfl
@[simp] theorem seen_race (s : State) : (s.seen).race = s.race := rfl
@[simp] theorem seen_free (s : State) : (s.seen).free = s.free + 1 := rfl
@[simp] theorem seen_mem (s : State) : (s.seen).mem = freeBytes s.free s.mem s.race.stored := rfl

@[simp] theorem afterRace_params (s t : State) (new : Access) : (s.afterRace new t).params = t.params := rfl
@[simp] theorem afterRace_cfg (s t : State) (new : Access) : (s.afterRace new t).cfg = t.cfg := rfl
@[simp] theorem afterRace_proc (s t : State) (new : Access) : (s.afterRace new t).proc = t.proc := rfl
@[simp] theorem afterRace_srcPos (s t : State) (new : Access) : (s.afterRace new t).srcPos = t.srcPos := rfl
@[simp] theorem afterRace_dec (s t : State) (new : Access) : (s.afterRace new t).dec = t.dec := rfl
@[simp] theorem afterRace_events (s t : State) (new : Access) : (s.afterRace new t).events = t.events := rfl
@[simp] theorem afterRace_race (s t : State) (new : Access) :
    (s.afterRace new t).race = { s.race with log := new :: s.race.log } := rfl

/-! ### Memory of a command -/

/-- What settling a command's memory changes: memory, and the count of free values. -/
theorem settle_eq (w : MemW) (s : State) :
    s.settle w = { s with mem := (s.settle w).mem, free := (s.settle w).free } := by
  unfold State.settle
  split <;> rfl

/-- What settling leaves in memory depends on the state by its event number alone. -/
theorem settle_mem_congr {s t : State} (h : s.free = t.free) (w : MemW) : (s.settle w).mem = (t.settle w).mem := by
  unfold State.settle
  rw [h]
  split <;> rfl

/-- Without overlap the memory is the command's own. -/
theorem settle_of_no_overlap {w : MemW} (h : w.overlap = []) (s : State) : s.settle w = { s with mem := w.mem } := by
  unfold State.settle
  rw [h]

@[simp] theorem settle_params (w : MemW) (s : State) : (s.settle w).params = s.params := by rw [settle_eq]
@[simp] theorem settle_cfg (w : MemW) (s : State) : (s.settle w).cfg = s.cfg := by rw [settle_eq]
@[simp] theorem settle_proc (w : MemW) (s : State) : (s.settle w).proc = s.proc := by rw [settle_eq]
@[simp] theorem settle_srcPos (w : MemW) (s : State) : (s.settle w).srcPos = s.srcPos := by rw [settle_eq]
@[simp] theorem settle_dec (w : MemW) (s : State) : (s.settle w).dec = s.dec := by rw [settle_eq]
@[simp] theorem settle_events (w : MemW) (s : State) : (s.settle w).events = s.events := by rw [settle_eq]
@[simp] theorem settle_loads (w : MemW) (s : State) : (s.settle w).loads = s.loads := by rw [settle_eq]
@[simp] theorem settle_race (w : MemW) (s : State) : (s.settle w).race = s.race := by rw [settle_eq]

/-! ### DECROW -/

/-- Completing a scan changes its SCAN_ACTIVE and the completion flags (R216). -/
theorem scanComplete_eq (s : State) :
    scanComplete s =
      { s with
        dec :=
          { s.dec with
            scn := { s.dec.scn with active := (scanComplete s).dec.scn.active }, prog := (scanComplete s).dec.prog } } := by
  unfold scanComplete
  split <;> rfl

@[simp] theorem scanComplete_params (s : State) : (scanComplete s).params = s.params := by rw [scanComplete_eq]
@[simp] theorem scanComplete_cfg (s : State) : (scanComplete s).cfg = s.cfg := by rw [scanComplete_eq]
@[simp] theorem scanComplete_proc (s : State) : (scanComplete s).proc = s.proc := by rw [scanComplete_eq]
@[simp] theorem scanComplete_srcPos (s : State) : (scanComplete s).srcPos = s.srcPos := by rw [scanComplete_eq]
@[simp] theorem scanComplete_mem (s : State) : (scanComplete s).mem = s.mem := by rw [scanComplete_eq]
@[simp] theorem scanComplete_events (s : State) : (scanComplete s).events = s.events := by rw [scanComplete_eq]
@[simp] theorem scanComplete_loads (s : State) : (scanComplete s).loads = s.loads := by rw [scanComplete_eq]
@[simp] theorem scanComplete_race (s : State) : (scanComplete s).race = s.race := by rw [scanComplete_eq]
@[simp] theorem scanComplete_free (s : State) : (scanComplete s).free = s.free := by rw [scanComplete_eq]

@[simp] theorem withDec_params (w : DecW) (s : State) : (s.withDec w).params = s.params := by simp [State.withDec]
@[simp] theorem withDec_cfg (w : DecW) (s : State) : (s.withDec w).cfg = s.cfg := by simp [State.withDec]
@[simp] theorem withDec_proc (w : DecW) (s : State) : (s.withDec w).proc = s.proc := by simp [State.withDec]
@[simp] theorem withDec_events (w : DecW) (s : State) : (s.withDec w).events = s.events := by simp [State.withDec]
@[simp] theorem withDec_loads (w : DecW) (s : State) : (s.withDec w).loads = s.loads := by simp [State.withDec]
@[simp] theorem withDec_race (w : DecW) (s : State) : (s.withDec w).race = s.race := by simp [State.withDec]
@[simp] theorem withDec_srcPos (w : DecW) (s : State) : (s.withDec w).srcPos = w.pos := rfl
@[simp] theorem withDec_dec (w : DecW) (s : State) :
    (s.withDec w).dec = { s.dec with ent := w.ent, warn := w.warn } := rfl
@[simp] theorem withDec_mem (w : DecW) (s : State) : (s.withDec w).mem = (s.settle w.mw).mem := rfl
@[simp] theorem withDec_free (w : DecW) (s : State) : (s.withDec w).free = (s.settle w.mw).free := rfl

end Sys2Proof.Machine
end

