-- ==== Sys2Proof/Laws/Ops.lean ====
section
/-! SUPPORT. The laws of the shared operations: what each can do, and that every memory operation keeps the canonical
form of memory. -/
namespace Sys2Proof.Machine

variable {α : Type}

/-! ### Four-way registers -/

@[simp] theorem Quad.get_all (v : α) (i : Nat) : (Quad.all v).get i = v := by
  unfold Quad.get Quad.all
  split <;> rfl

theorem Quad.get_set {q : Quad α} {i j : Nat} (hi : i < 4) (hj : j < 4) (v : α) :
    (q.set i v).get j = if j = i then v else q.get j := by
  match i, hi with
  | 0, _ => match j, hj with | 0, _ | 1, _ | 2, _ | 3, _ => rfl
  | 1, _ => match j, hj with | 0, _ | 1, _ | 2, _ | 3, _ => rfl
  | 2, _ => match j, hj with | 0, _ | 1, _ | 2, _ | 3, _ => rfl
  | 3, _ => match j, hj with | 0, _ | 1, _ | 2, _ | 3, _ => rfl

theorem Quad.get_ofFn (f : Nat → α) {i : Nat} (hi : i < 4) : (Quad.ofFn f).get i = f i := by
  match i, hi with
  | 0, _ | 1, _ | 2, _ | 3, _ => rfl

/-- A property of all four elements is one of every read. -/
theorem Quad.forall_get {P : α → Prop} {q : Quad α} (h0 : P q.c0) (h1 : P q.c1) (h2 : P q.c2) (h3 : P q.c3) (i : Nat) :
    P (q.get i) := by
  unfold Quad.get
  split <;> assumption

/-! ### One byte -/

/-- What reading a byte can do. -/
theorem readByte_run (p : Params) (b : Buf) (a : Word) (w : MemW) :
    readByte p b a w =
      if p.memOk a.toNat then
        .ok (w.look a).1 { w with reads := logAccess b a.toNat w.reads, host := (w.look a).2 }
      else .error ⟨.busError, a⟩ w := rfl

/-- Where the host stores nothing beside the command, a read gives what memory holds. -/
theorem look_none {w : MemW} (h : w.host = .none) (a : Word) : w.look a = (w.mem.read a.toNat, .none) := by
  simp [MemW.look, h, Beside.none]

/-- What reading a byte can do where the host stores nothing beside the command. -/
theorem readByte_none {w : MemW} (h : w.host = .none) (p : Params) (b : Buf) (a : Word) :
    readByte p b a w =
      if p.memOk a.toNat then .ok (w.mem.read a.toNat) { w with reads := logAccess b a.toNat w.reads }
      else .error ⟨.busError, a⟩ w := by
  rw [readByte_run, look_none h]
  cases w
  subst h
  rfl

/-- What reading a source byte can do where the host stores nothing beside the command (R85). -/
theorem srcByte_none {w : MemW} (h : w.host = .none) (e : Env) (i : Nat) :
    srcByte e i w =
      match srcByteIn e.params e.cfg w.mem i with
      | .ok b => .ok b { w with reads := logAccess .src (srcAddr e.cfg i).toNat w.reads }
      | .error r => .error r w := by
  unfold srcByte srcByteIn
  split
  · rfl
  · rw [readByte_none h]
    split <;> rfl

/-- What writing a byte can do. -/
theorem writeByte_run (p : Params) (b : Buf) (a : Word) (v : Byte) (w : MemW) :
    writeByte p b a v w =
      if p.memOk a.toNat then
        .ok () { w with mem := w.mem.write a.toNat v, writes := logAccess b a.toNat w.writes }
      else .error ⟨.busError, a⟩ w := rfl

/-! ### Relations that every memory access keeps -/

variable {P : MemW → MemW → Prop}

theorem Keeps.memRead (hP : Closed P) {p : Params} {b : Buf} (hr : ∀ a, Keeps P (readByte p b a)) (n : Nat) (a : Word) :
    Keeps P (memRead p b n a) := by
  induction n generalizing a with
  | zero => exact Keeps.pure hP _
  | succ n ih =>
    exact Keeps.bind hP (hr a) fun _ => Keeps.bind hP (ih (a + 1)) fun _ => Keeps.pure hP _

theorem Keeps.memWrite (hP : Closed P) {p : Params} {b : Buf} (hw : ∀ a v, Keeps P (writeByte p b a v)) (n : Nat)
    (a : Word) (v : Int) : Keeps P (memWrite p b n a v) := by
  induction n generalizing a v with
  | zero => exact Keeps.pure hP _
  | succ n ih => exact Keeps.bind hP (hw a _) fun _ => ih (a + 1) (v / 256)

theorem Keeps.readBlock (hP : Closed P) {p : Params} {b : Buf} (hr : ∀ a, Keeps P (readByte p b a)) (a : Word) :
    Keeps P (readBlock p b a) := by
  have h : ∀ k n blk, Keeps P (readCoefs p b a k n blk) := by
    intro k
    induction k with
    | zero => exact fun _ _ => Keeps.pure hP _
    | succ k ih =>
      exact fun n blk => Keeps.bind hP (Keeps.memRead hP hr 2 (a + BitVec.ofNat 32 (2 * n))) fun _ => ih _ _
  exact h 64 0 Block.zero

theorem Keeps.writeBlock (hP : Closed P) {p : Params} {b : Buf} (hw : ∀ a v, Keeps P (writeByte p b a v)) (a : Word)
    (blk : Block) : Keeps P (writeBlock p b a blk) :=
  Keeps.forRange hP (fun n => Keeps.memWrite hP hw 2 (a + BitVec.ofNat 32 (2 * n)) (blk.val n)) 0 64

/-! ### The canonical form -/

/-- Every logged address is a 32-bit address. -/
def spansBounded (l : List Span) : Prop := ∀ x ∈ l, x.hi < 2 ^ 32

theorem spansBounded_logAccess {l : List Span} (h : spansBounded l) (b : Buf) {a : Nat} (ha : a < 2 ^ 32) :
    spansBounded (logAccess b a l) := by
  induction l with
  | nil =>
    intro x hx
    rcases List.mem_singleton.mp hx with rfl
    exact ha
  | cons s l ih =>
    have hs := h s List.mem_cons_self
    have hl : spansBounded l := fun x hx => h x (List.mem_cons_of_mem _ hx)
    unfold logAccess
    split
    · intro x hx
      rcases List.mem_cons.mp hx with rfl | hx
      · exact max_lt hs ha
      · exact hl x hx
    · intro x hx
      rcases List.mem_cons.mp hx with rfl | hx
      · exact hs
      · exact ih hl x hx

theorem spansBounded_logRun {l : List Span} (h : spansBounded l) (b : Buf) (n : Nat) (a : Word) :
    spansBounded (logRun b n a l) := by
  induction n generalizing a l with
  | zero => exact h
  | succ n ih => exact ih (spansBounded_logAccess h b a.isLt) (a + 1)

/-- A command's memory is canonical, and its logs hold 32-bit addresses. -/
def MemW.good (w : MemW) : Prop := w.mem.wf = true ∧ spansBounded w.reads ∧ spansBounded w.writes

/-- Being good is kept. -/
def keepsGood (v w : MemW) : Prop := v.good → w.good

theorem closed_keepsGood : Closed keepsGood := ⟨fun _ h => h, fun _ _ _ h1 h2 h => h2 (h1 h)⟩

theorem keepsGood_readByte (p : Params) (b : Buf) (a : Word) : Keeps keepsGood (readByte p b a) := by
  rintro w ⟨h, hr, hs⟩
  rw [readByte_run]
  split
  · exact ⟨h, spansBounded_logAccess hr b a.isLt, hs⟩
  · exact ⟨h, hr, hs⟩

theorem keepsGood_writeByte (p : Params) (b : Buf) (a : Word) (v : Byte) : Keeps keepsGood (writeByte p b a v) := by
  rintro w ⟨h, hr, hs⟩
  rw [writeByte_run]
  split
  · exact ⟨Memory.wf_write h a.isLt v, hr, spansBounded_logAccess hs b a.isLt⟩
  · exact ⟨h, hr, hs⟩

theorem good_start {s : State} (h : s.mem.wf = true) (op : Op) : (MemW.start op s).good :=
  ⟨h, spansBounded_logRun (fun _ hx => absurd hx List.not_mem_nil) _ _ _, fun _ hx => absurd hx List.not_mem_nil⟩

theorem good_beside {w : MemW} (h : w.good) (b : Beside) : (w.beside b).good := h

/-- That the host stores nothing beside a command stays so. -/
def keepsAlone (v w : MemW) : Prop := v.host = .none → w.host = .none

theorem closed_keepsAlone : Closed keepsAlone := ⟨fun _ h => h, fun _ _ _ h1 h2 h => h2 (h1 h)⟩

theorem keepsAlone_readByte (p : Params) (b : Buf) (a : Word) : Keeps keepsAlone (readByte p b a) := by
  intro w h
  rw [readByte_none h]
  split <;> exact h

theorem keepsAlone_writeByte (p : Params) (b : Buf) (a : Word) (v : Byte) : Keeps keepsAlone (writeByte p b a v) := by
  intro w h
  rw [writeByte_run]
  split <;> exact h

/-- Which bytes a command wrote and read through different buffers. -/
theorem mem_overlap {w : MemW} {a : Nat} :
    a ∈ w.overlap ↔
      ∃ x ∈ w.writes, ∃ y ∈ w.reads, x.buf ≠ y.buf ∧ x.lo ≤ a ∧ y.lo ≤ a ∧ a ≤ x.hi ∧ a ≤ y.hi := by
  simp only [MemW.overlap, List.mem_flatMap, Span.meet]
  refine exists_congr fun x => and_congr_right fun _ => exists_congr fun y => and_congr_right fun _ => ?_
  split
  · simp_all
  · rw [List.mem_range'_1]
    constructor
    · intro h
      exact ⟨by assumption, by omega, by omega, by omega, by omega⟩
    · rintro ⟨_, h⟩
      omega

/-- Settling keeps the canonical form. -/
theorem wf_settle {w : MemW} (h : w.good) (s : State) : (s.settle w).mem.wf = true := by
  have key : ∀ (l : List Nat) (m : Memory), m.wf = true → (∀ a ∈ l, a < 2 ^ 32) →
      (l.foldl (fun m a => m.write a (Config.overlapByte s.free a (w.mem.read a))) m).wf = true := by
    intro l
    induction l with
    | nil => exact fun m hm _ => hm
    | cons a l ih =>
      exact fun m hm hl => ih _ (Memory.wf_write hm (hl a List.mem_cons_self) _) fun b hb =>
        hl b (List.mem_cons_of_mem _ hb)
  unfold State.settle
  split
  · exact h.1
  · rename_i as _
    refine key _ _ h.1 fun a ha => ?_
    obtain ⟨x, hx, _, _, _, _, _, hax, _⟩ := mem_overlap.mp ha
    exact lt_of_le_of_lt hax (h.2.2 x hx)

/-- Settling changes no byte outside the overlap. -/
theorem settle_read {w : MemW} {a : Nat} (h : a ∉ w.overlap) (s : State) :
    (s.settle w).mem.read a = w.mem.read a := by
  have key : ∀ (l : List Nat) (m : Memory), a ∉ l →
      (l.foldl (fun m a => m.write a (Config.overlapByte s.free a (w.mem.read a))) m).read a = m.read a := by
    intro l
    induction l with
    | nil => exact fun m _ => rfl
    | cons b l ih =>
      intro m hb
      rw [List.mem_cons, not_or] at hb
      exact (ih _ hb.2).trans (Memory.read_write_other hb.1 _ _)
  unfold State.settle
  split
  · rfl
  · exact key _ _ h

/-- Storing a host word keeps the canonical form. -/
theorem wf_storeMem {m : Memory} (h : m.wf = true) (n : Nat) (a : Word) (v : Nat) : (storeMem m n a v).wf = true := by
  induction n generalizing m a v with
  | zero => exact h
  | succ n ih => exact ih (Memory.wf_write h a.isLt _) (a + 1) (v / 256)

/-- Bytes written from a function of the address keep the canonical form. -/
theorem wf_foldl_write {m : Memory} (h : m.wf = true) (f : Word → Byte) (as : List Word) :
    (as.foldl (fun m a => m.write a.toNat (f a)) m).wf = true := by
  induction as generalizing m with
  | nil => exact h
  | cons a as ih => exact ih (Memory.wf_write h a.isLt _)

/-- Bytes written from a function of the address leave every other byte alone. -/
theorem read_foldl_write_other {m : Memory} (f : Word → Byte) {as : List Word} {a : Word} (h : a ∉ as) :
    (as.foldl (fun m a => m.write a.toNat (f a)) m).read a.toNat = m.read a.toNat := by
  induction as generalizing m with
  | nil => rfl
  | cons b as ih =>
    rw [List.mem_cons, not_or] at h
    exact (ih h.2).trans (Memory.read_write_other (fun e => h.1 (BitVec.eq_of_toNat_eq e)) _ _)

/-- A byte written from a function of the address holds that function's value, however often it is written. -/
theorem read_foldl_write {m : Memory} (hm : m.wf = true) (f : Word → Byte) {as : List Word} {a : Word} (h : a ∈ as) :
    (as.foldl (fun m a => m.write a.toNat (f a)) m).read a.toNat = f a := by
  induction as generalizing m with
  | nil => exact absurd h List.not_mem_nil
  | cons b as ih =>
    by_cases ha : a ∈ as
    · exact ih (Memory.wf_write hm b.isLt _) ha
    · obtain rfl : a = b := (List.mem_cons.mp h).resolve_right ha
      rw [List.foldl_cons, read_foldl_write_other f ha, Memory.read_write hm, if_pos rfl]

theorem wf_freeBytes {m : Memory} (h : m.wf = true) (k : Nat) (as : List Word) : (freeBytes k m as).wf = true :=
  wf_foldl_write h _ as

theorem wf_restoreBytes {m : Memory} (h : m.wf = true) (old : Memory) (as : List Word) :
    (restoreBytes old m as).wf = true := wf_foldl_write h _ as

theorem freeBytes_read_other {m : Memory} (k : Nat) {as : List Word} {a : Word} (h : a ∉ as) :
    (freeBytes k m as).read a.toNat = m.read a.toNat := read_foldl_write_other _ h

theorem restoreBytes_read_other {old m : Memory} {as : List Word} {a : Word} (h : a ∉ as) :
    (restoreBytes old m as).read a.toNat = m.read a.toNat := read_foldl_write_other _ h

theorem restoreBytes_read {old m : Memory} (hm : m.wf = true) {as : List Word} {a : Word} (h : a ∈ as) :
    (restoreBytes old m as).read a.toNat = old.read a.toNat := read_foldl_write hm _ h

/-! ### The host beside a run (R97) -/

/-- Every address is one of the 2^32. -/
theorem mem_addrsBelow (a : Word) : a ∈ addrsBelow (2 ^ 32) :=
  List.mem_map.mpr ⟨a.toNat, List.mem_range.mpr a.isLt, BitVec.eq_of_toNat_eq (by simp)⟩

/-- What a command that changes nothing but memory can do. -/
theorem runMem_next (op : Op) (body : MM Unit) (s : State) :
    (∃ w, body (MemW.start op s) = .ok () w ∧ runMem op body s = .next (advance op (s.settle w))) ∨
    ∃ r w, body (MemW.start op s) = .error r w ∧ runMem op body s = .next (errorEntry r (s.settle w)) := by
  unfold runMem
  cases h : body (MemW.start op s) with
  | ok u w => exact .inl ⟨w, rfl, rfl⟩
  | error r w => exact .inr ⟨r, w, rfl, rfl⟩

/-- Settling work that has written nothing leaves its memory. -/
theorem settle_onlyRead (s : State) (reads : List Span) (t : State) : t.settle (s.onlyRead reads) = { t with mem := s.mem } :=
  settle_of_no_overlap rfl t

/-- A command that changes nothing but memory leaves what its work does, settled. -/
theorem finishMem_mem {op : Op} {s t : State} {r : EStateM.Result Raise MemW Unit} (h : finishMem op s r = .next t) :
    t.mem = (s.settle (stateAfter r)).mem := by
  cases r <;> cases h <;> rfl

/-- DECROW leaves in memory what its rows do, settled. -/
theorem finishDecrow_mem {s t : State} {r : EStateM.Result Raise DecW Unit} (h : finishDecrow s r = .next t) :
    t.mem = (s.settle (stateAfter r).mw).mem := by
  cases r <;> cases h
  · exact scanComplete_mem _
  · rfl

/-- Beside no host store a command is its meaning. -/
theorem execBeside_none (i : Instr) (s : State) : execBeside .none i s = exec i s := by
  cases i with
  | decrow n =>
    simp only [execBeside, exec, execDecrow]
    split <;> rfl
  | _ => rfl

/-- Every command leaves in memory what its work does, settled (R95, I6). -/
theorem execBeside_mem {h : Beside} {i : Instr} {s t : State} (ht : execBeside h i s = .next t) :
    t.mem = (s.settle (workOf h i s)).mem := by
  cases i with
  | nop => cases ht; rfl
  | endList => cases ht; rfl
  | reset => cases ht; rfl
  | seek _ =>
    simp only [execBeside, exec, execSeek] at ht
    split at ht <;> cases ht <;> rfl
  | ldqt =>
    simp only [execBeside, exec, execLdqt, finishTables] at ht
    split at ht <;> cases ht <;> rfl
  | ldht =>
    simp only [execBeside, exec, execLdht, finishTables] at ht
    split at ht <;> cases ht <;> rfl
  | setri =>
    simp only [execBeside, exec, execSetri] at ht
    split at ht <;> cases ht <;> rfl
  | setscn =>
    simp only [execBeside, exec, execSetscn] at ht
    split at ht <;> cases ht <;> rfl
  | setfrm k =>
    simp only [execBeside, exec, execSetfrm] at ht
    cases hp : parseFrame s (modeOf k) <;> simp only [hp] at ht
    · cases ht
      simp [workOf, frameWork, hp, sourceWork, settle_onlyRead]
    · split at ht <;> rename_i hn
      · cases ht
        simp [workOf, frameWork, hp, hn, sourceWork, settle_onlyRead]
      · split at ht <;> rename_i hz <;> cases ht <;> simp [workOf, frameWork, hp, if_neg hn, hz, stateAfter]
  | decrow n =>
    simp only [execBeside, exec, execDecrow] at ht
    simp only [workOf, decrowWork]
    split at ht <;> rename_i ha
    · rw [if_pos ha]
      cases ht
      simp [settle_onlyRead]
    · rw [if_neg ha]
      exact finishDecrow_mem ht
  | idctblk _ _ _ _ => exact finishMem_mem ht
  | idctrow _ _ => exact finishMem_mem ht
  | upsrow _ _ => exact finishMem_mem ht
  | ccvrow _ _ => exact finishMem_mem ht
  | recrow _ _ => exact finishMem_mem ht

/-- Every command leaves in memory what its work does, settled (R95, I6). -/
theorem exec_mem {i : Instr} {s t : State} (h : exec i s = .next t) : t.mem = (s.settle (workOf .none i s)).mem :=
  execBeside_mem ((execBeside_none i s).trans h)

/-- A byte the run leaves the same whatever some bytes hold does not depend on them. -/
theorem dependsOn_eq_false {s : State} {as : List Word} {n : Nat} {b : Word}
    (h : ∀ f g : Others, s.outputBeside as f n b = s.outputBeside as g n b) (k : Nat) : s.dependsOn k as n b = false :=
  bne_eq_false_iff_eq.mpr (h _ _)

/-- Which bytes are left open. -/
theorem mem_openBytes {s : State} {k : Nat} {stored : List Word} {log : List Access} {b : Word} :
    b ∈ s.openBytes k stored log ↔ stored.any (touchedByte log) = true ∧ s.isOpen k stored log b = true := by
  unfold State.openBytes
  split <;> rename_i ht
  · rw [List.mem_filter]
    exact ⟨fun h => ⟨ht, h.2⟩, fun h => ⟨mem_addrsBelow b, h.2⟩⟩
  · exact ⟨fun h => absurd h List.not_mem_nil, fun h => absurd h.1 ht⟩

/-- Where the run has touched no byte the host has stored to, no byte is open. -/
theorem openBytes_untouched {stored : List Word} {log : List Access} (h : stored.any (touchedByte log) = false)
    (s : State) (k : Nat) : s.openBytes k stored log = [] := by
  rw [State.openBytes, if_neg (by simp [h])]

/-- A byte stored to, which the run does not write whatever is there, is not open. -/
theorem not_mem_openBytes_stored {s : State} {stored : List Word} {log : List Access} {b : Word} (hb : b ∈ stored)
    (hw : wroteByte log b = false) (h : ∀ f : Others, s.writesBeside stored f log.length b = false) (k : Nat) :
    b ∉ s.openBytes k stored log := fun hm => by
  have ho := (mem_openBytes.mp hm).2
  rw [State.isOpen, if_pos (by simpa using hb), hw, h] at ho
  cases ho

/-- A byte not stored to, which the run leaves the same whatever the bytes stored to hold, is not open. -/
theorem not_mem_openBytes_other {s : State} {stored : List Word} {log : List Access} {b : Word} (hb : b ∉ stored)
    (h : ∀ f g : Others, s.outputBeside stored f log.length b = s.outputBeside stored g log.length b) (k : Nat) :
    b ∉ s.openBytes k stored log := fun hm => by
  have ho := (mem_openBytes.mp hm).2
  rw [State.isOpen, if_neg (by simpa using hb), dependsOn_eq_false h] at ho
  cases ho

/-- A host store during a run keeps the canonical form. -/
theorem wf_racedStore {s : State} (h : s.mem.wf = true) (a : Word) (w : Width) (v : Word) :
    (racedStore a w v s).mem.wf = true := wf_freeBytes (wf_storeMem h _ a _) _ _

/-- A command met by a race keeps the canonical form. -/
theorem wf_afterRace {t : State} (h : t.mem.wf = true) (s : State) (new : Access) :
    (s.afterRace new t).mem.wf = true := wf_freeBytes (wf_restoreBytes h _ _) _ _

/-- A byte the host has stored to, that the command has not written and that is not open, holds what it held before. -/
theorem afterRace_read_stored {s t : State} (ht : t.mem.wf = true) {new : Access} {a : Word} (h : a ∈ s.race.stored)
    (hn : covers new.writes a = false) (ho : a ∉ s.openBytes t.free s.race.stored (new :: s.race.log)) :
    (s.afterRace new t).mem.read a.toNat = s.mem.read a.toNat :=
  (freeBytes_read_other _ ho).trans (restoreBytes_read ht (by simp [h, hn]))

/-- A byte the host has not stored to, and that is not open, is what the command left. -/
theorem afterRace_read_other {s t : State} {new : Access} {a : Word} (h : a ∉ s.race.stored)
    (ho : a ∉ s.openBytes t.free s.race.stored (new :: s.race.log)) :
    (s.afterRace new t).mem.read a.toNat = t.mem.read a.toNat :=
  (freeBytes_read_other _ ho).trans (restoreBytes_read_other fun ha => h (List.mem_of_mem_filter ha))

/-- A step of a run the host has not raced with is its command, with what that accessed noted. -/
theorem runStep_quiet {s t : State} (hq : s.race.quiet = true) (h : runCommand s = .next t) :
    runStep s = .next { t with race := { s.race with log := commandAccess s :: s.race.log } } := by
  simp [runStep, hq, h]

/-- A step of a run the host has raced with is its command on memory as seen, with the open values left. -/
theorem runStep_raced {s t : State} (hq : s.race.quiet = false) (h : runRaced s = .next t) :
    runStep s = .next (s.afterRace (racedAccess s) t) := by
  simp [runStep, hq, h]

/-- Memory after an abandoned command is canonical. -/
theorem wf_mixMemory {old new : Memory} (ho : old.wf = true) (hn : new.wf = true) (k : Nat) :
    (mixMemory k old new).wf = true := by
  have key : ∀ (l : List Nat) (m : Memory), m.wf = true → (∀ a ∈ l, a < 2 ^ 32) →
      (l.foldl (fun m a => if old.read a = new.read a ∨ Config.freeBit k a = false then m
        else m.write a (new.read a)) m).wf = true := by
    intro l
    induction l with
    | nil => exact fun m hm _ => hm
    | cons a l ih =>
      intro m hm hl
      refine ih _ ?_ fun b hb => hl b (List.mem_cons_of_mem _ hb)
      dsimp only
      split
      · exact hm
      · exact Memory.wf_write hm (hl a List.mem_cons_self) _
  refine key _ _ ho fun a ha => ?_
  rcases List.mem_append.mp ha with ha | ha <;> obtain ⟨c, hc, rfl⟩ := List.mem_map.mp ha
  · exact ((Memory.wf_iff old).mp ho).2 c hc
  · exact ((Memory.wf_iff new).mp hn).2 c hc

end Sys2Proof.Machine
end

