-- ==== Sys2Proof/Laws/PerInstr.lean ====
section
/-! SUPPORT. Statements made per instruction: the encoding's length (R110, R113). -/
namespace Sys2Proof.Laws.EncodeLength

/-- A command is encoded in as many words as the opcode map gives its opcode (R113). -/
def Statement (i : Instr) : Prop := (encode i).length = i.op.words

theorem nop : Statement .nop := rfl
theorem endList : Statement .endList := rfl
theorem reset : Statement .reset := rfl
theorem seek (offset : Word) : Statement (.seek offset) := rfl
theorem ldqt : Statement .ldqt := rfl
theorem ldht : Statement .ldht := rfl
theorem setfrm (sofn : SofKind) : Statement (.setfrm sofn) := rfl
theorem setri : Statement .setri := rfl
theorem setscn : Statement .setscn := rfl
theorem decrow (nrows : Nat) : Statement (.decrow nrows) := rfl
theorem idctblk (tq : Nat) (src dst stride : Word) : Statement (.idctblk tq src dst stride) := rfl
theorem idctrow (row nrows : Nat) : Statement (.idctrow row nrows) := rfl
theorem upsrow (row nrows : Nat) : Statement (.upsrow row nrows) := rfl
theorem ccvrow (row nrows : Nat) : Statement (.ccvrow row nrows) := rfl
theorem recrow (row nrows : Nat) : Statement (.recrow row nrows) := rfl

end Sys2Proof.Laws.EncodeLength
end

