-- ==== Sys2Proof/Tests/Slice0.lean ====
section
/-! SUPPORT. The model's own tests: the ill-formed terms that the check refuses, words written out from the encodings of
30_encoding.md, one step of each command with a result of 95_test_vectors.md, and for every statement with hypotheses a
witness: a concrete state and operands that meet them. -/
namespace Sys2Proof.Tests
open Sys2Proof.Machine Sys2Proof.Cert

-- One theorem at a time: the kernel evaluations below would otherwise wait for each other in one thread each.
set_option Elab.async false

/-! ### Helpers -/

/-- The answer is a next state. -/
def isNext : Answer → Bool
  | .next _ => true
  | .fault _ => false
  | .refused _ => false

/-- The next state of an answer. -/
def nextOf : Answer → State
  | .next t => t
  | .fault _ => State.reset
  | .refused _ => State.reset

theorem eq_next {a : Answer} (h : isNext a = true) : a = .next (nextOf a) := by
  cases a <;> simp_all [isNext, nextOf]

/-- The value of a computation that does not raise. -/
def okVal {ε σ α : Type} : EStateM.Result ε σ α → Option α
  | .ok a _ => some a
  | .error _ _ => none

/-- The raise of a computation that raises. -/
def errVal {ε σ α : Type} : EStateM.Result ε σ α → Option ε
  | .ok _ _ => none
  | .error r _ => some r

/-- The state a computation leaves. -/
def left {ε σ α : Type} : EStateM.Result ε σ α → σ
  | .ok _ w => w
  | .error _ w => w

theorem eq_ok {ε σ α : Type} {r : EStateM.Result ε σ α} {v : α} (h : okVal r = some v) : r = .ok v (left r) := by
  cases r <;> simp_all [okVal, left]

theorem eq_error {ε σ α : Type} {r : EStateM.Result ε σ α} {x : ε} (h : errVal r = some x) : r = .error x (left r) := by
  cases r <;> simp_all [errVal, left]

theorem eq_src {x y : Except Raise Byte} (h : x.toOption = y.toOption ∧ x.toOption.isSome = true) : x = y := by
  cases x <;> cases y <;> simp_all [Except.toOption]

theorem eq_src_ok {x : Except Raise Byte} {b : Byte} (h : x.toOption = some b) : x = .ok b := by
  cases x <;> simp_all [Except.toOption]

/-- The block at work at 0x100, its buffers at 0x1000 (source), 0x2000 (coefficients), 0x3000 (planes), 0x4000
(destination) and 0x5000 (UPlanes). -/
def start : State :=
  { State.reset with
    cfg :=
      { Cfg.reset with
        srcBase := 0x1000, coefBase := 0x2000, coefSize := 0x200
        planeBase := ⟨0x3000, 0x3200, 0x3400, 0x3600⟩, planeStride := .all 16
        uplaneBase := ⟨0x5000, 0x5200, 0x5400, 0x5600⟩, uplaneStride := .all 16
        dstBase := 0x4000, dstStride := 64, dstCs := 1, dstNch := 1 }
    proc := { Proc.reset with cqPtr := 0x100, busy := true } }

/-- Bytes placed in memory. -/
def put (a : Word) (bs : List Byte) (s : State) : State := { s with mem := s.mem.writeBytes a bs }

/-- The source stream. -/
def stream (bs : List Byte) (s : State) : State :=
  put 0x1000 bs { s with cfg := { s.cfg with srcLen := BitVec.ofNat 32 bs.length } }

/-- Ranges that are not accessible. -/
def holes (rs : List (Nat × Nat)) (s : State) : State := { s with params := { s.params with noAccess := rs } }

/-- Events ahead of the block. -/
def withEvents (es : List BusEvent) (s : State) : State := { s with events := es }

/-- The block idle. -/
def idle (s : State) : State := { s with proc := { s.proc with busy := false } }

/-- A Huffman table by its counts and values. -/
def huff (counts : List Nat) (vals : List Byte) : HuffTab :=
  { bits := Vector.ofFn fun i => BitVec.ofNat 8 (counts.getD i 0), vals := vals
    hcode := (buildHuff counts vals).getD [] }

/-- One code of one bit and one of two: 0 and 10 (program A's tables). -/
def twoCodes : List Nat := [1, 1, 0, 0, 0, 0, 0, 0, 0, 0, 0, 0, 0, 0, 0, 0]

/-- Program A's tables, every id loaded: quantisation all 1, DC 0 and 6, AC 0 and 1. -/
def tables : Tables :=
  { qt := .all (Vector.replicate 64 1), dc := .all (huff twoCodes [0, 6]), ac := .all (huff twoCodes [0, 1])
    qtv := .all true, dcv := .all true, acv := .all true, qtp := .all false }

/-- A component of factors (1,1) at full resolution. -/
def unitComp (id : Byte) : Comp := { id := id, h := 1, v := 1, tq := 0, uph := 1, upv := 1 }

/-- An 8 × 8 grey frame (program A's). -/
def greyFrame : Frame :=
  { Frame.reset with
    hdrValid := true, x := 8, y := 8, p := 8, ncomp := 1, mode := .sof0, layout := .l444, hmax := 1, vmax := 1
    mcux := 1, mcuy := 1, coefNeed := 128
    comp := ⟨unitComp 1, Comp.reset, Comp.reset, Comp.reset⟩
    geo := ⟨⟨1, 1, 8, 8, 0⟩, Geo.reset, Geo.reset, Geo.reset⟩ }

/-- A sequential scan of one block. -/
def oneBlock : Scan :=
  { Scan.reset with csValid := true, active := true, cs := .gray, ns := 1, se := 63, smode := .seq, srows := 1, scols := 1 }

/-- The grey frame with its scan and tables. -/
def grey : State :=
  { start with dec := { Dec.reset with tab := tables, frm := greyFrame, scn := oneBlock } }

/-- A 16 × 8 4:2:2 frame of three components (program G's), converted to RGB. -/
def wide : State :=
  { grey with
    cfg := { start.cfg with dstCs := 2, dstNch := 3 }
    dec :=
      { grey.dec with
        scn := { oneBlock with cs := .ycbcr, ns := 3, cidx := ⟨0, 1, 2, 0⟩ }
        frm :=
          { greyFrame with
            x := 16, ncomp := 3, layout := .l422, hmax := 2, coefNeed := 512
            comp :=
              ⟨{ unitComp 1 with h := 2 }, { unitComp 2 with uph := 2 }, { unitComp 3 with uph := 2 }, Comp.reset⟩
            geo := ⟨⟨2, 1, 16, 8, 0⟩, ⟨1, 1, 8, 8, 256⟩, ⟨1, 1, 8, 8, 384⟩, Geo.reset⟩ } } }

/-- A frame with a smaller image. -/
def small (x y : Half) (s : State) : State :=
  { s with dec := { s.dec with frm := { s.dec.frm with x := x, y := y } } }

/-- The state a command leaves. -/
def after (i : Instr) (s : State) : State := nextOf (exec i s)

/-- The error record's code and ERR_DATA, if ERR is set. -/
def err (s : State) : Option (Nat × Nat) := if s.proc.err then some (s.proc.errCode.toNat, s.proc.errData.toNat) else none

/-! ### Well-formedness -/

theorem test_wf_refuses_decrow : (Instr.decrow 65536).wf = false := by decide
theorem test_wf_refuses_idctblk : (Instr.idctblk 4 0 0 0).wf = false := by decide
theorem test_wf_refuses_idctrow : (Instr.idctrow 65536 0).wf = false ∧ (Instr.idctrow 0 65536).wf = false := by decide
theorem test_wf_refuses_upsrow : (Instr.upsrow 65536 0).wf = false ∧ (Instr.upsrow 0 65536).wf = false := by decide
theorem test_wf_refuses_ccvrow : (Instr.ccvrow 65536 0).wf = false ∧ (Instr.ccvrow 0 65536).wf = false := by decide
theorem test_wf_refuses_recrow : (Instr.recrow 65536 0).wf = false ∧ (Instr.recrow 0 65536).wf = false := by decide

/-! ### Decoding: words written out bit by bit from R110 to R113 (opcode in bits 31–24) -/

/-- The command that some words decode to, with nothing left over. -/
def words (ws : List Word) : Option Instr :=
  match decode (ws.flatMap wordBytes) with
  | .ok (i, []) => some i
  | .ok (_, _ :: _) => none
  | .error _ => none

theorem test_decode_nop : words [0b00000001_000000000000000000000000#32] = some .nop := by decide
theorem test_decode_end : words [0b00000010_000000000000000000000000#32] = some .endList := by decide
theorem test_decode_reset : words [0b00000011_000000000000000000000000#32] = some .reset := by decide
theorem test_decode_seek :
    words [0b00000100_000000000000000000000000#32, 0b10000000000000000000000001001001#32] = some (.seek 0x80000049#32) := by
  decide
theorem test_decode_ldqt : words [0b00010000_000000000000000000000000#32] = some .ldqt := by decide
theorem test_decode_ldht : words [0b00010001_000000000000000000000000#32] = some .ldht := by decide
theorem test_decode_setfrm :
    words [0b00010010_0000000000000000000000_00#32] = some (.setfrm .sof0) ∧
    words [0b00010010_0000000000000000000000_01#32] = some (.setfrm .sof1) ∧
    words [0b00010010_0000000000000000000000_10#32] = some (.setfrm .sof2) ∧
    words [0b00010010_0000000000000000000000_11#32] = some (.setfrm .sof3) := by decide
theorem test_decode_setri : words [0b00010011_000000000000000000000000#32] = some .setri := by decide
theorem test_decode_setscn : words [0b00010100_000000000000000000000000#32] = some .setscn := by decide
theorem test_decode_decrow :
    words [0b00100000_00000000_1000000000000011#32] = some (.decrow 0x8003) ∧
    words [0b00100000_00000001_0000000000000000#32] = none := by decide
theorem test_decode_idctblk :
    words
        [0b00110000_0000000000000000000000_11#32, 0b00000000000000000010000000000000#32,
          0b00000000000000000011000000000000#32, 0b00000000000000000000000000001000#32] =
      some (.idctblk 3 0x2000 0x3000 8) := by decide
theorem test_decode_idctrow :
    words [0b00110001_000000000000000000000000#32, 0b0000000000000011_1000000000000001#32] =
      some (.idctrow 0x8001 3) := by decide
theorem test_decode_upsrow :
    words [0b00110010_000000000000000000000000#32, 0b1000000000000001_0000000000000010#32] =
      some (.upsrow 2 0x8001) := by decide
theorem test_decode_ccvrow :
    words [0b00110011_000000000000000000000000#32, 0b0000000000000001_0000000000000010#32] =
      some (.ccvrow 2 1) := by decide
theorem test_decode_recrow :
    words [0b00110100_000000000000000000000000#32, 0b0000000000000001_0000000000000010#32] =
      some (.recrow 2 1) := by decide
theorem test_decode_refuses :
    words [0#32] = none ∧ words [0x05000000#32] = none ∧ words [0x12000004#32] = none ∧
    words [0x30000004#32, 0, 0, 0] = none ∧ words [0x01000001#32] = none := by decide
theorem test_table_word : decodeTableWord 32 0x34000000 = some (.recrow 0 0) := by decide
theorem test_table_word_two : decodeTableWord 64 0x0001000234000000 = some (.recrow 2 1) := by decide

/-! ### One step of each command: results of 95_test_vectors.md -/

/-- Section 7: NOP moves CQ_PTR from 0x100 to 0x104. -/
theorem test_nop : (after .nop start).proc.cqPtr = 0x104#32 := by decide +kernel

/-- Section 7: END sets DONE, CQ_PTR after it. -/
theorem test_end : csrRead (after .endList start) 0x008 = 2#32 ∧ (after .endList start).proc.cqPtr = 0x104#32 := by
  decide +kernel

/-- Section 7: RESET leaves TBLVALID, HDR_VALID and DCPRED 0 and keeps SRC_POS. -/
theorem test_reset :
    csrRead (after .reset { grey with srcPos := 138 }) 0x0E4 = 0 ∧
    (after .reset { grey with srcPos := 138 }).dec.frm.hdrValid = false ∧
    (after .reset { grey with srcPos := 138 }).srcPos = 138 := by decide +kernel

/-- Section 7: SEEK 140 of 140 is allowed; SEEK 141 is ERR 11/141. -/
theorem test_seek :
    (after (.seek 140) { start with cfg := { start.cfg with srcLen := 140 } }).srcPos = 140 ∧
    err (after (.seek 141) { start with cfg := { start.cfg with srcLen := 140 } }) = some (11, 141) := by decide +kernel

/-- Section 3.1: a 16-bit table of 64 × 01 00 is QT[1] all 256, QTP bit 1, SRC_POS after it. -/
theorem test_ldqt_wide :
    let t := after .ldqt (stream ([0x00, 0x83, 0x11] ++ (List.replicate 64 [0x01, 0x00]).flatten) start)
    csrRead t 0x480 = 0x01000100#32 ∧ csrRead t 0x0E4 = 0x2002#32 ∧ t.srcPos = 131 := by decide +kernel

/-- Section 3.1: L = 0x42, one byte short, is ERR 2 after the Pq/Tq byte. -/
theorem test_ldqt_short :
    err (after .ldqt (stream ([0x00, 0x42, 0x00] ++ List.replicate 64 0x01) start)) = some (2, 3) := by decide +kernel

/-- Section 3.2: the table 00, 01 01 00×14, 00 06 has the codes 0 and 10. -/
theorem test_ldht :
    let t := after .ldht (stream ([0x00, 0x15, 0x00, 1, 1] ++ List.replicate 14 0 ++ [0x00, 0x06]) start)
    (t.dec.tab.dc.get 0).hcode = [⟨1, 0, 0⟩, ⟨2, 2, 6⟩] ∧ csrRead t 0x0E4 = 0x10#32 ∧ t.srcPos = 21 := by decide +kernel

/-- Section 3.2: three codes of length 1 are ERR 10 after the values. -/
theorem test_ldht_overfull :
    err (after .ldht (stream ([0x00, 0x16, 0x00, 3] ++ List.replicate 15 0 ++ [1, 2, 3]) start)) = some (10, 22) := by
  decide +kernel

/-- Section 3.3: 00 04 00 01 is RI = 1; L = 5 is ERR 2 after the four bytes. -/
theorem test_setri :
    (after .setri (stream [0, 4, 0, 1] start)).dec.ri = 1 ∧
    err (after .setri (stream [0, 5, 0, 1, 0] start)) = some (2, 4) := by decide +kernel

/-- Section 3.3: 17 × 9 with factors (2,2), (1,1), (1,1): LAYOUT 411, MCUX 2, MCUY 1, COEF_NEED 1536; the second component
is (2,2,2,1,9,5) at 1024. -/
theorem test_setfrm :
    let t :=
      after (.setfrm .sof0)
        (stream (sofBytes 17 8 9 17 [⟨1, 2, 2, 0⟩, ⟨2, 1, 1, 1⟩, ⟨3, 1, 1, 1⟩])
          { start with cfg := { start.cfg with coefSize := 0x800 } })
    csrRead t 0x094 = 0x02231308#32 ∧ csrRead t 0x098 = 0x00010002#32 ∧ csrRead t 0x09C = 1536#32 ∧
    csrRead t 0x0A4 = 0x02211102#32 ∧ t.dec.frm.geo.get 1 = ⟨2, 1, 9, 5, 1024⟩ := by decide +kernel

/-- Section 3.3: a 16 × 16 grey frame with COEF_SIZE 511 is ERR 9/11. -/
theorem test_setfrm_memory :
    err (after (.setfrm .sof0)
      (stream (sofBytes 11 8 16 16 [⟨1, 1, 1, 0⟩]) { start with cfg := { start.cfg with coefSize := 511 } })) =
      some (9, 11) := by decide +kernel

/-- Section 3.4: the grey frame's SOS body is SMODE 1, NS 1, one row and column, GRAY. -/
theorem test_setscn :
    let t := after .setscn (stream [0x00, 0x08, 0x01, 0x01, 0x00, 0x00, 0x3F, 0x00] grey)
    csrRead t 0x0C0 = 0x3F000001#32 ∧ csrRead t 0x0C4 = 0x01000000#32 ∧ csrRead t 0x0C8 = 0x00010000#32 ∧
    t.dec.scn.cs = .gray ∧ t.srcPos = 8 := by decide +kernel

/-- Section 3.4: component id 2 is ERR 7 after its two bytes. -/
theorem test_setscn_component :
    err (after .setscn (stream [0x00, 0x08, 0x01, 0x02, 0x00, 0x00, 0x3F, 0x00] grey)) = some (7, 5) := by decide +kernel

/-- Program A's data B0 7F: DC 48, the scan complete, SEQDONE set. -/
theorem test_decrow :
    let t := after (.decrow 0) (stream [0xB0, 0x7F] grey)
    coefIn t.mem 0x2000 0 = 48 ∧ coefIn t.mem 0x2000 1 = 0 ∧ t.srcPos = 2 ∧ t.dec.scn.active = false ∧
    csrRead t 0x0E0 = 1#32 := by decide +kernel

/-- Program F: two lossless lines of four samples, predictor 1. -/
theorem test_decrow_lossless :
    let t := after (.decrow 0)
      (stream [0x83, 0x51, 0x04, 0x9B, 0x88]
        { small 4 2 grey with
          dec :=
            { (small 4 2 grey).dec with
              tab := { tables with dc := .all (huff [0, 0, 5, 0, 0, 0, 0, 0, 0, 0, 0, 0, 0, 0, 0, 0] [0, 1, 2, 3, 5]) }
              frm := { (small 4 2 grey).dec.frm with mode := .sof3 }
              scn := { oneBlock with ss := 1, se := 0, smode := .lossless, srows := 2, scols := 4 } } })
    (List.range 4).map (fun x => t.mem.read (0x3000 + x)) = [100, 102, 101, 101] ∧
    (List.range 4).map (fun x => t.mem.read (0x3010 + x)) = [98, 99, 103, 100] ∧ t.srcPos = 5 ∧ t.dec.ent.bl = 0 ∧
    t.dec.ent.bb = 0x88 := by decide +kernel

/-- Section 2.3: C0 00 matches no code: ERR 10 with SRC_POS 2. -/
theorem test_decrow_no_code : err (after (.decrow 0) (stream [0xC0, 0x00] grey)) = some (10, 2) := by decide +kernel

/-- Section 4.3: C[0] = 80 writes 138 into all 64 bytes, CQ_PTR past four words. -/
theorem test_idctblk :
    let t := after (.idctblk 0 0x2000 0x4000 8) (put 0x2000 [0x50, 0x00] grey)
    (∀ i, i < 64 → t.mem.read (0x4000 + i) = 138) ∧ t.proc.cqPtr = 0x110 := by decide +kernel

/-- Section 4.2: F[1] = 16 gives every row 131 130 130 129 127 126 126 125. -/
theorem test_idct_ac :
    (List.range 8).map (fun x => idctSample Params.reset ((List.replicate 64 0).set 1 16) x 3) =
      [131, 130, 130, 129, 127, 126, 126, 125] := by decide +kernel

/-- Program A: DC 48 makes every plane sample 134. -/
theorem test_idctrow :
    let t := after (.idctrow 0 0) (put 0x2000 [48, 0] grey)
    ∀ y, y < 8 → ∀ x, x < 8 → t.mem.read (0x3000 + 16 * y + x) = 134 := by decide +kernel

/-- Section 6: the 422 row 10 20 30 40 50 60 70 80 is upsampled. -/
theorem test_upsrow :
    let t := after (.upsrow 0 0) (put 0x3200 [10, 20, 30, 40, 50, 60, 70, 80] wide)
    (List.range 16).map (fun x => (t.mem.read (0x5200 + x)).toNat) =
      [10, 13, 17, 23, 27, 33, 37, 43, 47, 53, 57, 63, 67, 73, 77, 80] := by decide +kernel

/-- Section 5: (100, 200, 50) is (0, 131, 228). -/
theorem test_ccvrow :
    let t := after (.ccvrow 0 0) (put 0x3000 [100] (put 0x5200 [200] (put 0x5400 [50] (small 2 1 wide))))
    [0, 1, 2].map (fun ch => (t.mem.read (0x4000 + ch)).toNat) = [0, 131, 228] := by decide +kernel

/-- Program A: RECROW of DC 48 makes every pixel 134; with no frame it is ERR 13/0. -/
theorem test_recrow :
    (∀ y, y < 8 → ∀ x, x < 8 →
      (after (.recrow 0 0) (put 0x2000 [48, 0] grey)).mem.read (0x4000 + 64 * y + x) = 134) ∧
    err (after (.recrow 0 0) start) = some (13, 0) := by decide +kernel

/-! ### Witnesses: encoding and the command processor -/

theorem test_witness_DecodeInvertsEncode :
    (Instr.decrow 65535).wf = true ∧ (Instr.idctblk 3 0xFFFFFFFF 1 2).wf = true ∧ (Instr.recrow 65535 65535).wf = true := by
  decide

theorem test_witness_DecodedBytesAreTheEncoding :
    decode (wordBytes 0x32000000#32 ++ wordBytes 0xFFFF8000#32 ++ [7]) = .ok (.upsrow 0x8000 0xFFFF, [7]) := by decide

/-- The block at work beside a host that has stored to two bytes. -/
def raced : State := { start with race := { Race.empty with stored := [0x1000, 0x4000] } }

/-- Bytes the host has not stored to are seen as they are. -/
theorem seen_holds {s : State} {a : Word} {bs : List Byte} (h : memHolds s a bs)
    (hn : ∀ i, i < bs.length → a + BitVec.ofNat 32 i ∉ s.race.stored) : memHolds s.seen a bs := fun i hi =>
  ⟨(h i hi).1, (freeBytes_read_other s.free (hn i hi)).trans (h i hi).2⟩

/-- Word 0's first or last byte not accessible, an illegal word 0, an extension word's first or last byte not
accessible; the same illegal word beside a race. -/
theorem test_witness_WordZeroDecidesTheCommand :
    (raced.events = [] ∧ raced.proc.busy = true ∧ raced.race.quiet = false ∧
      memHolds (put 0x100 (wordBytes 0x35000000#32) raced).seen 0x100 (wordBytes 0x35000000#32)) ∧
    (start.events = [] ∧ start.proc.busy = true ∧ start.race.quiet = true) ∧
    (0 < 4 ∧ (∀ j, j < 0 → okAt (holes [(0x100, 1)] start).params 0x100 j) ∧
      ¬okAt (holes [(0x100, 1)] start).params 0x100 0) ∧
    (3 < 4 ∧ (∀ j, j < 3 → okAt (holes [(0x103, 1)] start).params 0x100 j) ∧
      ¬okAt (holes [(0x103, 1)] start).params 0x100 3) ∧
    (memHolds (put 0x100 (wordBytes 0x35000000#32) start) 0x100 (wordBytes 0x35000000#32) ∧
      decodeWord0 0x35000000#32 = none) ∧
    (memHolds (put 0x100 (wordBytes 0x30000003#32) (holes [(0x104, 1)] start)) 0x100 (wordBytes 0x30000003#32) ∧
      decodeWord0 0x30000003#32 = some ⟨.idctblk, 0x30, .fb⟩ ∧ 4 < 4 * Format.fb.words ∧
      (∀ j, j < 4 → okAt (holes [(0x104, 1)] start).params 0x100 j) ∧
      ¬okAt (holes [(0x104, 1)] start).params 0x100 4) ∧
    (memHolds (put 0x100 (wordBytes 0x30000003#32) (holes [(0x10F, 1)] start)) 0x100 (wordBytes 0x30000003#32) ∧
      15 < 4 * Format.fb.words ∧ (∀ j, j < 15 → okAt (holes [(0x10F, 1)] start).params 0x100 j) ∧
      ¬okAt (holes [(0x10F, 1)] start).params 0x100 15) := by
  refine ⟨⟨by decide +kernel, by decide +kernel, by decide +kernel,
    seen_holds (by decide +kernel) (by decide +kernel)⟩, ?_⟩
  and_intros <;> decide +kernel

/-- A run the host has not raced with, and one it has. -/
theorem test_witness_StepRunsTheDecodedCommand :
    start.proc.busy = true ∧ start.race.quiet = true ∧
    (raced.proc.busy = true ∧ raced.events = [] ∧ raced.race.quiet = false ∧
      memHolds (put 0x100 (encodeBytes (.recrow 2 1)) raced).seen 0x100 (encodeBytes (.recrow 2 1))) ∧
    memHolds (put 0x100 (encodeBytes (.recrow 2 1)) start) 0x100 (encodeBytes (.recrow 2 1)) ∧
    decode (encodeBytes (.recrow 2 1)) = .ok (.recrow 2 1, []) ∧ start.events = [] ∧
    (withEvents [.run, .resetPin] start).events = .run :: [.resetPin] := by
  refine ⟨by decide +kernel, by decide +kernel, ⟨by decide +kernel, by decide +kernel, by decide +kernel,
    seen_holds (by decide +kernel) (by decide +kernel)⟩, ?_⟩
  and_intros <;> decide +kernel

theorem test_witness_IdleBlockDoesNothing :
    State.reset.proc.busy = false ∧ State.reset.events = [] ∧
    (withEvents [.run] State.reset).events = .run :: [] := by
  and_intros <;> decide +kernel

theorem test_witness_NopAndEndOnlyMoveOn :
    ((0x01800000#32).toNat / 2 ^ 24 = 1 ∧ 0x01800000#32 ≠ 0x01000000#32) ∧
    exec .endList start = .next (nextOf (exec .endList start)) ∧ (0x71#32).getLsbD 0 = true ∧
    (0x71#32).getLsbD 1 = false ∧ start.proc.err = false :=
  ⟨by decide, eq_next (by decide +kernel), by decide⟩

/-! ### Witnesses: reset, the host's side, errors -/

/-- SRST beside GO; enables without GO, GO while BUSY, GO with ERR; GO while idle; a store of CTRL. -/
theorem test_witness_GoStartsTheRun :
    (3#32).getLsbD 1 = true ∧ ((0x70#32).getLsbD 1 = false ∧ (0x70#32).getLsbD 0 = false) ∧
    ((1#32).getLsbD 1 = false ∧ start.proc.busy = true) ∧
    (errorEntry ⟨.badState, 0⟩ start).proc.err = true ∧
    ((1#32).getLsbD 1 = false ∧ (1#32).getLsbD 0 = true ∧ State.reset.proc.busy = false ∧ State.reset.proc.err = false) ∧
    (withEvents [.store 0xFFFFE004 .w32 1] State.reset).events =
      .store (csrAddr State.reset 0x004) .w32 1 :: [] := by
  and_intros <;> decide +kernel

theorem test_witness_CsrWritesReadBack :
    State.reset.procLegal = true ∧ State.reset.proc.busy = false ∧ (0x028 % 4 = 0 ∧ 0x028 ≠ 0x004 ∧ 0x028 ≠ 0x008) ∧ (0x0D8 % 4 = 0 ∧ 0x0D8 ≠ 0x028) ∧
    (0x07C % 4 = 0 ∧ 0x07C ≠ 0x004 ∧ 0x07C ≠ 0x008) := by decide

/-- (a) a byte access, a halfword that reaches into the window from below it, an unaligned word; (b) the first and the last
reserved offset; (c) a register and the last word of HTMEM; (d), (e) BUSY; (f) idle. -/
theorem test_witness_HostAccessRules :
    ((∃ k, k < Width.w8.bytes ∧ State.reset.params.inWindow ((0xFFFFFFFF#32) + BitVec.ofNat 32 k).toNat = true) ∧
      Width.w8 ≠ .w32) ∧
    ((∃ k, k < Width.w16.bytes ∧ State.reset.params.inWindow ((0xFFFFDFFF#32) + BitVec.ofNat 32 k).toNat = true) ∧
      Width.w16 ≠ .w32) ∧
    ((∃ k, k < Width.w32.bytes ∧ State.reset.params.inWindow ((0xFFFFDFFD#32) + BitVec.ofNat 32 k).toNat = true) ∧
      (0xFFFFDFFD#32).toNat % 4 ≠ 0) ∧
    (0x038 % 4 = 0 ∧ 0x038 < 0x2000 ∧ reservedOffset 0x038 = true) ∧
    (0x1EFC % 4 = 0 ∧ 0x1EFC < 0x2000 ∧ reservedOffset 0x1EFC = true) ∧
    (rwMask 0x000 = 0 ∧ 0x000 ≠ 0x004 ∧ 0x000 ≠ 0x008) ∧ (0x1FFC % 4 = 0 ∧ 0x1FFC < 0x2000 ∧ rwMask 0x1FFC = 0) ∧
    (start.proc.busy = true ∧ 0x018 ≠ 0x004 ∧ 0x018 ≠ 0x008) ∧ (0x000 < 0x2000 ∧ 0x000 % 4 = 0 ∧ 0x000 ≠ 0x008) ∧
    State.reset.proc.busy = false := by
  and_intros <;> decide +kernel

theorem test_witness_ErrorEntryRecordsTheRaise : (0x71#32).getLsbD 1 = false ∧ (0x71#32).getLsbD 0 = true := by decide

theorem test_witness_ResetTakesEffectAtAnyTime :
    grey.memCanonical = true ∧ (withEvents [.resetPin, .run] grey).events = .resetPin :: [.run] ∧
    ((withEvents [.store 0xFFFFE004 .w32 2] grey).events = .store (csrAddr grey 0x004) .w32 2 :: [] ∧
      (2#32).getLsbD 1 = true) ∧
    (withEvents [.resetDuringCommand] grey).events = .resetDuringCommand :: [] := by
  and_intros <;> decide +kernel

/-! ### Witnesses: SEEK, SETRI, LDQT, LDHT -/

theorem test_witness_SeekSetsTheCursor :
    (140#32).toNat ≤ ({ start.cfg with srcLen := 140 } : Cfg).srcLen.toNat ∧
    ({ start.cfg with srcLen := 140 } : Cfg).srcLen.toNat < (141#32).toNat := by decide

/-- A stream whose third byte is not accessible. -/
def cut (bs : List Byte) (s : State) : State := holes [(0x1002, 1)] (stream bs s)

theorem test_witness_SetriLoadsTheInterval :
    (65535 < 65536 ∧ srcHolds (stream [0, 4, 0xFF, 0xFF] start) 0 (be16Bytes 4 ++ be16Bytes 65535)) ∧
    (5 < 65536 ∧ 5 ≠ 4 ∧ srcHolds (stream [0, 5, 0, 1] start) 0 (be16Bytes 5 ++ be16Bytes 1)) ∧
    (([0, 4, 0] : List Byte).length < 4 ∧ srcHolds (stream [0, 4, 0] start) 0 [0, 4, 0] ∧
      srcStops (stream [0, 4, 0] start) 3 (.at .bufferTooSmall 3)) ∧
    (([] : List Byte).length < 4 ∧ srcStops start 0 (.at .bufferTooSmall 0)) ∧
    (([0, 4] : List Byte).length < 4 ∧ srcHolds (cut [0, 4, 0, 5] start) 0 [0, 4] ∧
      srcStops (cut [0, 4, 0, 5] start) 2 ⟨.busError, 0x1002⟩) := by
  and_intros <;> decide +kernel

/-- An 8-bit table. -/
def table8 : DqtTable := { pq := 0, tq := 2, vals := (List.range 64).map (· + 192) }

/-- A 16-bit table. -/
def table16 : DqtTable := { pq := 1, tq := 3, vals := (List.range 64).map fun k => 65535 - k }

theorem test_witness_LdqtLoadsEveryTable :
    ((∀ t ∈ [table8, table16], t.ok) ∧ 2 + (dqtBytes [table8, table16]).length < 65536) ∧
    srcHolds (stream (be16Bytes 196 ++ dqtBytes [table8, table16]) start) 0
      (be16Bytes (2 + (dqtBytes [table8, table16]).length) ++ dqtBytes [table8, table16]) ∧
    srcHolds (stream (be16Bytes 2) start) 0 (be16Bytes (2 + (dqtBytes []).length) ++ dqtBytes []) := by
  and_intros <;> decide +kernel

/-- The stream of a DQT body with length field `L`: one table, then some bytes. -/
def dqtStream (L : Nat) (more : List Byte) : State := stream (be16Bytes L ++ dqtBytes [table8] ++ more) start

/-- With one table loaded (67 bytes used): L = 1; a precision 2 and an id 4; one byte short of a table; a table cut one
byte short; no byte left; a length field cut; a byte that is not accessible. -/
theorem test_witness_LdqtErrorsKeepEarlierTables :
    (∀ t ∈ [table8], t.ok) ∧ 2 + (dqtBytes [table8]).length = 67 ∧
    (1 < 2 ∧ srcHolds (stream (be16Bytes 1) start) 0 (be16Bytes 1)) ∧
    ((2 < 16 ∧ 3 < 16 ∧ 1 < 2) ∧ 67 < 68 ∧
      srcHolds (dqtStream 68 [nibbles 2 3]) 0 (be16Bytes 68 ++ dqtBytes [table8] ++ [nibbles 2 3])) ∧
    ((1 < 16 ∧ 4 < 16 ∧ 3 < 4) ∧
      srcHolds (dqtStream 68 [nibbles 1 4]) 0 (be16Bytes 68 ++ dqtBytes [table8] ++ [nibbles 1 4])) ∧
    ((67 < 195 ∧ 195 < 67 + 1 + 64 * (1 + 1)) ∧
      srcHolds (dqtStream 195 [nibbles 1 3]) 0 (be16Bytes 195 ++ dqtBytes [table8] ++ [nibbles 1 3])) ∧
    (67 + 1 + 64 * (0 + 1) ≤ 132 ∧ (List.replicate 63 (1 : Byte)).length < 64 * (0 + 1) ∧
      srcHolds (dqtStream 132 (nibbles 0 3 :: List.replicate 63 1)) 0
        (be16Bytes 132 ++ dqtBytes [table8] ++ nibbles 0 3 :: List.replicate 63 1) ∧
      srcStops (dqtStream 132 (nibbles 0 3 :: List.replicate 63 1)) 131 (.at .bufferTooSmall 131)) ∧
    (67 < 68 ∧ srcHolds (dqtStream 68 []) 0 (be16Bytes 68 ++ dqtBytes [table8]) ∧ srcStops (dqtStream 68 []) 67 (.at .bufferTooSmall 67)) ∧
    (([0] : List Byte).length < 2 ∧ srcHolds (stream [0] start) 0 [0] ∧
      srcStops (stream [0] start) 1 (.at .bufferTooSmall 1)) ∧
    ((∀ t ∈ ([] : List DqtTable), t.ok) ∧ 2 + (dqtBytes []).length < 67 ∧
      srcHolds (cut (be16Bytes 67 ++ [0]) start) 0 (be16Bytes 67 ++ dqtBytes []) ∧
      srcStops (cut (be16Bytes 67 ++ [0]) start) 2 ⟨.busError, 0x1002⟩) := by
  and_intros <;> decide +kernel

/-- A full code space, and one code too many. -/
theorem test_witness_CanonicalCodesAreBuilt :
    (twoCodes.length = 16 ∧ codesFit twoCodes) ∧
    (([2, 0, 0, 0, 0, 0, 0, 0, 0, 0, 0, 0, 0, 0, 0, 0] : List Nat).length = 16 ∧
      codesFit [2, 0, 0, 0, 0, 0, 0, 0, 0, 0, 0, 0, 0, 0, 0, 0]) ∧
    ¬codesFit [3, 0, 0, 0, 0, 0, 0, 0, 0, 0, 0, 0, 0, 0, 0, 0] ∧
    (⟨1, 0, 0⟩ ∈ canonicalCodes twoCodes [0, 6] ∧ ⟨2, 2, 6⟩ ∈ canonicalCodes twoCodes [0, 6] ∧
      (⟨1, 0, 0⟩ : HEntry) ≠ ⟨2, 2, 6⟩ ∧ 1 ≤ 2) := by
  and_intros <;> decide +kernel

/-- Program A's DC table. -/
def dcTable : DhtTable := { tc := 0, th := 0, counts := twoCodes, vals := [0, 6] }

/-- An AC table. -/
def acTable : DhtTable := { tc := 1, th := 3, counts := twoCodes, vals := [0, 1] }

theorem test_witness_LdhtLoadsEveryTable :
    ((∀ t ∈ [dcTable, acTable], t.ok) ∧ 2 + (dhtBytes [dcTable, acTable]).length < 65536) ∧
    srcHolds (stream (be16Bytes 40 ++ dhtBytes [dcTable, acTable]) start) 0
      (be16Bytes (2 + (dhtBytes [dcTable, acTable]).length) ++ dhtBytes [dcTable, acTable]) := by
  and_intros <;> decide +kernel

/-- The stream of a DHT body with length field `L`: one table, then some bytes. -/
def dhtStream (L : Nat) (more : List Byte) : State := stream (be16Bytes L ++ dhtBytes [dcTable] ++ more) start

/-- 257 values. -/
def manyValues : DhtTable := { tc := 0, th := 0, counts := 255 :: 2 :: List.replicate 14 0, vals := [] }

/-- Three codes of length 1. -/
def threeCodes : DhtTable := { tc := 1, th := 0, counts := 3 :: List.replicate 15 0, vals := [1, 2, 3] }

/-- With one table loaded (21 bytes used): L = 1; 257 values; one value more than the length leaves; a class 2; an id 4;
three codes of length 1; one and sixteen bytes left over; a header cut; values cut; a length field cut; a byte that is not
accessible. -/
theorem test_witness_LdhtErrorsKeepEarlierTables :
    (∀ t ∈ [dcTable], t.ok) ∧ 2 + (dhtBytes [dcTable]).length = 21 ∧
    (1 < 2 ∧ srcHolds (stream (be16Bytes 1) start) 0 (be16Bytes 1)) ∧
    ((manyValues.tc < 16 ∧ manyValues.th < 16 ∧ manyValues.counts.length = 16 ∧ (∀ n ∈ manyValues.counts, n < 256)) ∧
      21 + 17 ≤ 1000 ∧ 256 < manyValues.counts.sum ∧
      srcHolds (dhtStream 1000 manyValues.head) 0 (be16Bytes 1000 ++ dhtBytes [dcTable] ++ manyValues.head)) ∧
    (21 + 17 ≤ 39 ∧ 39 < 21 + 17 + acTable.counts.sum ∧
      srcHolds (dhtStream 39 acTable.head) 0 (be16Bytes 39 ++ dhtBytes [dcTable] ++ acTable.head)) ∧
    (({ acTable with tc := 2 } : DhtTable).counts.sum = acTable.vals.length ∧ acTable.vals.length ≤ 256 ∧
      21 + ({ acTable with tc := 2 } : DhtTable).bytes.length ≤ 40 ∧ 1 < 2 ∧
      srcHolds (dhtStream 40 ({ acTable with tc := 2 } : DhtTable).bytes) 0
        (be16Bytes 40 ++ dhtBytes [dcTable] ++ ({ acTable with tc := 2 } : DhtTable).bytes)) ∧
    (21 + ({ acTable with th := 4 } : DhtTable).bytes.length ≤ 40 ∧ 3 < 4 ∧
      srcHolds (dhtStream 40 ({ acTable with th := 4 } : DhtTable).bytes) 0
        (be16Bytes 40 ++ dhtBytes [dcTable] ++ ({ acTable with th := 4 } : DhtTable).bytes)) ∧
    (threeCodes.counts.sum = threeCodes.vals.length ∧ 21 + threeCodes.bytes.length ≤ 41 ∧
      ¬codesFit threeCodes.counts ∧
      srcHolds (dhtStream 41 threeCodes.bytes) 0 (be16Bytes 41 ++ dhtBytes [dcTable] ++ threeCodes.bytes)) ∧
    (21 < 22 ∧ 22 ≤ 21 + 16 ∧ srcHolds (dhtStream 22 []) 0 (be16Bytes 22 ++ dhtBytes [dcTable])) ∧
    (21 < 37 ∧ 37 ≤ 21 + 16 ∧ srcHolds (dhtStream 37 []) 0 (be16Bytes 37 ++ dhtBytes [dcTable])) ∧
    ((List.replicate 16 (0 : Byte)).length < 17 ∧ 21 + 17 ≤ 38 ∧
      srcHolds (dhtStream 38 (List.replicate 16 0)) 0 (be16Bytes 38 ++ dhtBytes [dcTable] ++ List.replicate 16 0) ∧
      srcStops (dhtStream 38 (List.replicate 16 0)) 37 (.at .bufferTooSmall 37)) ∧
    (acTable.counts.sum ≤ 256 ∧ 21 + 17 + acTable.counts.sum ≤ 40 ∧ ([9] : List Byte).length < acTable.counts.sum ∧
      srcHolds (dhtStream 40 (acTable.head ++ [9])) 0 (be16Bytes 40 ++ dhtBytes [dcTable] ++ acTable.head ++ [9]) ∧
      srcStops (dhtStream 40 (acTable.head ++ [9])) 39 (.at .bufferTooSmall 39)) ∧
    (([0] : List Byte).length < 2 ∧ srcHolds (stream [0] start) 0 [0] ∧
      srcStops (stream [0] start) 1 (.at .bufferTooSmall 1)) ∧
    (([] : List Byte).length < 17 ∧ 2 + (dhtBytes []).length + 17 ≤ 19 ∧
      srcHolds (cut (be16Bytes 19 ++ [0]) start) 0 (be16Bytes 19 ++ dhtBytes [] ++ []) ∧
      srcStops (cut (be16Bytes 19 ++ [0]) start) 2 ⟨.busError, 0x1002⟩) := by
  and_intros <;> decide +kernel

/-! ### Witnesses: SETFRM, SETSCN -/

/-- Three components with factors (2,1), (1,1), (1,1). -/
def colour : List CompHdr := [⟨1, 2, 1, 0⟩, ⟨2, 1, 1, 1⟩, ⟨3, 1, 1, 3⟩]

/-- One component. -/
def mono : List CompHdr := [⟨1, 1, 1, 0⟩]

/-- A colour frame that fits COEF_SIZE exactly, and a lossless line of 65535 samples that needs no coefficients. -/
theorem test_witness_SetfrmCommitsTheFrame :
    (start.memCanonical = true ∧ frameFields 17 8 8 16 colour ∧
      srcHolds (stream (sofBytes 17 8 8 16 colour) start) 0 (sofBytes 17 8 8 16 colour) ∧
      frameError .sof2 17 8 8 16 colour = none ∧ needOf .sof2 16 8 colour colour ≤ start.cfg.coefSize.toNat ∧
      fillable (stream (sofBytes 17 8 8 16 colour) start) (needOf .sof2 16 8 colour colour) (8 + 3 * colour.length)) ∧
    (stream (sofBytes 17 8 8 16 colour) start).memCanonical = true ∧
    (frameFields 11 16 1 65535 mono ∧ frameError .sof3 11 16 1 65535 mono = none ∧
      needOf .sof3 65535 1 mono mono = 0) := by
  and_intros <;> decide +kernel

/-- A stream that is an SOF head, some components, and some bytes. -/
def sofStream (L p y x nf : Nat) (cs : List CompHdr) (more : List Byte) : State :=
  stream (sofHead L p y x nf ++ compBytes cs ++ more) start

/-- No and five components; a zero factor, an id 4; each of the later checks; OutOfMemory; a zero fill that meets an
inaccessible byte; a head and a component cut; a byte of the head that is not accessible. -/
theorem test_witness_SetfrmErrorsCommitNothing :
    (11 < 65536 ∧ mono.length ≤ 4 ∧ ∀ c ∈ mono, compOk c) ∧
    (0 < 256 ∧ 0 < 1 ∧ srcHolds (sofStream 8 8 8 8 0 [] []) 0 (sofHead 8 8 8 8 0)) ∧
    (5 < 256 ∧ 4 < 5 ∧ srcHolds (sofStream 8 8 8 8 5 [] []) 0 (sofHead 8 8 8 8 5)) ∧
    (2 ≤ 4 ∧ mono.length < 2 ∧ (0 < 16 ∧ 1 < 16 ∧ 3 < 256) ∧
      srcHolds (sofStream 14 8 8 8 2 mono [2, nibbles 0 1, 3]) 0
        (sofHead 14 8 8 8 2 ++ compBytes mono ++ [2, nibbles 0 1, BitVec.ofNat 8 3])) ∧
    ((1 < 16 ∧ 4 < 256 ∧ 3 < 4) ∧
      srcHolds (sofStream 14 8 8 8 2 mono [2, nibbles 1 1, 4]) 0
        (sofHead 14 8 8 8 2 ++ compBytes mono ++ [2, nibbles 1 1, BitVec.ofNat 8 4])) ∧
    (frameError .sof0 12 8 8 8 mono = some .badSegmentLength ∧ frameError .sof1 11 12 8 8 mono = some .notImplemented ∧
      frameError .sof3 17 8 8 8 colour = some .notImplemented ∧ frameError .sof3 11 1 8 8 mono = some .badFrameSegment ∧
      frameError .sof3 11 17 8 8 mono = some .badFrameSegment ∧ frameError .sof0 11 8 8 0 mono = some .badFrameSegment ∧
      frameError .sof0 11 8 0 8 mono = some .notImplemented ∧
      srcHolds (stream (sofBytes 11 8 0 8 mono) start) 0 (sofBytes 11 8 0 8 mono)) ∧
    (frameError .sof0 11 8 16 24 mono = none ∧
      srcHolds (stream (sofBytes 11 8 16 24 mono) start) 0 (sofBytes 11 8 16 24 mono) ∧
      start.cfg.coefSize.toNat < needOf .sof0 24 16 mono mono) ∧
    ((stream (sofBytes 11 8 8 8 mono) start).memCanonical = true ∧ frameError .sof0 11 8 8 8 mono = none ∧
      srcHolds (stream (sofBytes 11 8 8 8 mono) (holes [(0x2007, 1)] start)) 0 (sofBytes 11 8 8 8 mono) ∧
      needOf .sof0 8 8 mono mono ≤ start.cfg.coefSize.toNat ∧ 7 < needOf .sof0 8 8 mono mono ∧
      fillable (stream (sofBytes 11 8 8 8 mono) (holes [(0x2007, 1)] start)) 7 (8 + 3 * mono.length) ∧
      ¬(holes [(0x2007, 1)] start).params.memOk (coefByteAddr start 7).toNat = true) ∧
    ((List.replicate 7 (0 : Byte)).length < 8 ∧ srcHolds (stream (List.replicate 7 0) start) 0 (List.replicate 7 0) ∧
      srcStops (stream (List.replicate 7 0) start) 7 (.at .bufferTooSmall 7)) ∧
    (2 ≤ 4 ∧ mono.length < 2 ∧ ([2, 17] : List Byte).length < 3 ∧
      srcHolds (sofStream 14 8 8 8 2 mono [2, 17]) 0 (sofHead 14 8 8 8 2 ++ compBytes mono ++ [2, 17]) ∧
      srcStops (sofStream 14 8 8 8 2 mono [2, 17]) 13 (.at .bufferTooSmall 13)) ∧
    (([0, 11] : List Byte).length < 8 ∧ srcHolds (cut (sofBytes 11 8 8 8 mono) start) 0 [0, 11] ∧
      srcStops (cut (sofBytes 11 8 8 8 mono) start) 2 ⟨.busError, 0x1002⟩) := by
  and_intros <;> decide +kernel

/-- Component `c` of a scan, with tables 0. -/
def comp (c : Nat) : ScanComp := { c := c, td := 0, ta := 0 }

/-- The colour frame with no scan. -/
def wideFrame : State := { wide with dec := { wide.dec with scn := Scan.reset } }

/-- The frame of another coding mode and precision. -/
def withMode (m : Mode) (p : Byte) (s : State) : State :=
  { s with dec := { s.dec with frm := { s.dec.frm with mode := m, p := p } } }

/-- An 8 × 8 lossless frame of 16-bit samples, with no scan. -/
def lineFrame : State :=
  { grey with
    dec :=
      { grey.dec with
        scn := Scan.reset
        frm :=
          { greyFrame with
            mode := .sof3, p := 16, mcux := 8, mcuy := 8, coefNeed := 0
            geo := ⟨⟨8, 8, 8, 8, 0⟩, Geo.reset, Geo.reset, Geo.reset⟩ } } }

/-- A scan of all components in another order, a one-component scan, a progressive and a lossless scan. -/
theorem test_witness_SetscnStartsTheScan :
    (wideFrame.headersLegal = true ∧ wideFrame.dec.frm.hdrValid = true ∧
      scanFields wideFrame 12 [comp 2, comp 0, comp 1] 0 63 0 0 ∧
      srcHolds (stream (sosBytes wideFrame 12 [comp 2, comp 0, comp 1] 0 63 0 0) wideFrame) 0
        (sosBytes wideFrame 12 [comp 2, comp 0, comp 1] 0 63 0 0) ∧
      scanChecks wideFrame 12 [comp 2, comp 0, comp 1] 0 63 0 0 = .inr .seq) ∧
    (scanFields wideFrame 8 [comp 2] 0 63 0 0 ∧ scanChecks wideFrame 8 [comp 2] 0 63 0 0 = .inr .seq) ∧
    ((withMode .sof2 8 wideFrame).headersLegal = true ∧ scanFields (withMode .sof2 8 wideFrame) 8 [comp 1] 63 63 14 13 ∧
      scanChecks (withMode .sof2 8 wideFrame) 8 [comp 1] 63 63 14 13 = .inr .acRefine) ∧
    (lineFrame.headersLegal = true ∧ scanFields lineFrame 8 [comp 0] 7 0 0 15 ∧
      scanChecks lineFrame 8 [comp 0] 7 0 0 15 = .inr .lossless) := by
  and_intros <;> decide +kernel

/-- A stream that is an SOS head, some components, and some bytes. -/
def sosStream (L ns : Nat) (cs : List ScanComp) (more : List Byte) : State :=
  stream (be16Bytes L ++ [BitVec.ofNat 8 ns] ++ scanCompBytes wideFrame cs ++ more) wideFrame

/-- No table loaded. -/
def noTables : State := withTables Tables.reset wideFrame

/-- A lossless frame 8 samples wide with a restart interval of 12. -/
def oddInterval : State := { lineFrame with dec := { lineFrame.dec with ri := 12 } }

/-- No frame; no and five components; two of three in a sequential frame; an id no component has, an id again, a selector
4; each of the later checks; the stream's end in each place, and a byte that is not accessible. -/
theorem test_witness_SetscnErrorsCommitNothing :
    start.dec.frm.hdrValid = false ∧
    (wideFrame.headersLegal = true ∧ wideFrame.dec.frm.hdrValid = true ∧ ([comp 0].map ScanComp.c).Nodup ∧
      ∀ c ∈ [comp 0], scanCompOk wideFrame c) ∧
    (0 < 256 ∧ 0 < 1 ∧ srcHolds (sosStream 6 0 [] []) 0 (be16Bytes 6 ++ [BitVec.ofNat 8 0])) ∧
    (5 < 256 ∧ 4 < 5 ∧ srcHolds (sosStream 6 5 [] []) 0 (be16Bytes 6 ++ [BitVec.ofNat 8 5])) ∧
    ((1 ≤ 2 ∧ 2 ≤ 4 ∧ 2 ≠ wideFrame.dec.frm.ncomp.toNat ∧ wideFrame.dec.frm.mode = .sof0) ∧
      srcHolds (sosStream 10 2 [] []) 0 (be16Bytes 10 ++ [BitVec.ofNat 8 2])) ∧
    ([comp 0].length < 3 ∧ 3 ≤ 4 ∧ 3 = wideFrame.dec.frm.ncomp.toNat) ∧
    (srcHolds (sosStream 12 3 [comp 0] [9, 0]) 0
        (be16Bytes 12 ++ [BitVec.ofNat 8 3] ++ scanCompBytes wideFrame [comp 0] ++ [9, 0]) ∧
      ∀ c, c < wideFrame.dec.frm.ncomp.toNat → (wideFrame.dec.frm.comp.get c).id ≠ 9) ∧
    (srcHolds (sosStream 12 3 [comp 0] [1, 0]) 0
        (be16Bytes 12 ++ [BitVec.ofNat 8 3] ++ scanCompBytes wideFrame [comp 0] ++ [1, 0]) ∧
      ∃ c ∈ [comp 0], (wideFrame.dec.frm.comp.get c.c).id = 1) ∧
    (srcHolds (sosStream 12 3 [comp 0] [2, 0x04]) 0
        (be16Bytes 12 ++ [BitVec.ofNat 8 3] ++ scanCompBytes wideFrame [comp 0] ++ [2, 0x04]) ∧
      (∃ c, c < wideFrame.dec.frm.ncomp.toNat ∧ (wideFrame.dec.frm.comp.get c).id = 2) ∧ 3 < (0x04#8).toNat % 16) ∧
    (scanFields wideFrame 9 [comp 1] 0 63 0 0 ∧ scanChecks wideFrame 9 [comp 1] 0 63 0 0 = .inl .badSegmentLength ∧
      srcHolds (stream (sosBytes wideFrame 9 [comp 1] 0 63 0 0) wideFrame) 0 (sosBytes wideFrame 9 [comp 1] 0 63 0 0)) ∧
    ((withMode .sof2 8 wideFrame).headersLegal = true ∧ lineFrame.headersLegal = true ∧ oddInterval.headersLegal = true ∧
      noTables.headersLegal = true) ∧
    scanChecks (withMode .sof2 8 wideFrame) 8 [comp 1] 0 1 0 0 = .inl .badScanSegment ∧
    scanChecks (withMode .sof2 8 wideFrame) 8 [comp 1] 1 64 0 0 = .inl .badScanSegment ∧
    scanChecks (withMode .sof2 8 wideFrame) 8 [comp 1] 1 63 2 0 = .inl .badScanSegment ∧
    scanChecks (withMode .sof2 8 wideFrame) 8 [comp 1] 1 63 15 14 = .inl .badScanSegment ∧
    scanChecks lineFrame 8 [comp 0] 8 0 0 0 = .inl .badScanSegment ∧
    scanChecks (withMode .sof3 8 lineFrame) 8 [comp 0] 1 0 0 8 = .inl .badScanSegment ∧
    (scanFields noTables 8 [comp 1] 0 63 0 0 ∧ scanChecks noTables 8 [comp 1] 0 63 0 0 = .inl .badHuffTbl) ∧
    (scanFields oddInterval 8 [comp 0] 1 0 0 0 ∧ scanChecks oddInterval 8 [comp 0] 1 0 0 0 = .inl .notImplemented) ∧
    (([0, 12] : List Byte).length < 3 ∧ srcHolds (stream [0, 12] wideFrame) 0 [0, 12] ∧
      srcStops (stream [0, 12] wideFrame) 2 (.at .bufferTooSmall 2)) ∧
    (([2] : List Byte).length < 2 ∧
      srcHolds (sosStream 12 3 [comp 0] [2]) 0
        (be16Bytes 12 ++ [BitVec.ofNat 8 3] ++ scanCompBytes wideFrame [comp 0] ++ [2]) ∧
      srcStops (sosStream 12 3 [comp 0] [2]) 6 (.at .bufferTooSmall 6)) ∧
    (1 ≤ [comp 0].length ∧ ([0, 63] : List Byte).length < 3 ∧
      srcHolds (sosStream 8 1 [comp 0] [0, 63]) 0
        (be16Bytes 8 ++ [BitVec.ofNat 8 1] ++ scanCompBytes wideFrame [comp 0] ++ [0, 63]) ∧
      srcStops (sosStream 8 1 [comp 0] [0, 63]) 7 (.at .bufferTooSmall 7)) ∧
    (([0, 8] : List Byte).length < 3 ∧ srcHolds (cut [0, 8, 1] wideFrame) 0 [0, 8] ∧
      srcStops (cut [0, 8, 1] wideFrame) 2 ⟨.busError, 0x1002⟩) := by
  and_intros <;> decide +kernel

/-- The same frame header parsed from two states that differ in a register and in the stream after the body. -/
theorem test_witness_HeadersDependOnlyOnTheirBody_frame :
    let s := stream (sofBytes 11 8 8 8 mono ++ [1]) start
    let s' := put (0x1000 + 11) [2] { s with dec := { s.dec with ri := 5 } }
    (s.srcPos = s'.srcPos ∧ s.cfg.coefSize = s'.cfg.coefSize ∧ (s.src 11).toOption ≠ (s'.src 11).toOption ∧
      s.proc.err = false ∧ s'.proc.err = false ∧ (after (.setfrm .sof0) s).proc.err = false ∧
      (after (.setfrm .sof0) s').proc.err = false) ∧
    s.src (s.srcPos.toNat + 7) = .ok 1 ∧
    (∀ i, i < 8 + 3 * 1 → s.src (s.srcPos.toNat + i) = s'.src (s.srcPos.toNat + i)) ∧
    exec (.setfrm .sof0) s = .next (after (.setfrm .sof0) s) ∧
    exec (.setfrm .sof0) s' = .next (after (.setfrm .sof0) s') :=
  ⟨by and_intros <;> decide +kernel, eq_src_ok (by decide +kernel),
    fun i hi => eq_src ((by decide +kernel : ∀ i, i < 8 + 3 * 1 →
      ((stream (sofBytes 11 8 8 8 mono ++ [1]) start).src (0 + i)).toOption =
          ((put (0x1000 + 11) [2] (stream (sofBytes 11 8 8 8 mono ++ [1]) start)).src (0 + i)).toOption ∧
        ((stream (sofBytes 11 8 8 8 mono ++ [1]) start).src (0 + i)).toOption.isSome = true) i hi),
    eq_next (by decide +kernel), eq_next (by decide +kernel)⟩

/-- The same scan header parsed from two states that differ in a register and in the stream after the body. -/
theorem test_witness_HeadersDependOnlyOnTheirBody_scan :
    let s := stream [0x00, 0x08, 0x01, 0x01, 0x00, 0x00, 0x3F, 0x00, 0xB0] grey
    let s' := put (0x1000 + 8) [0x7F] { s with dec := { s.dec with ent := { s.dec.ent with eobrun := 3 } } }
    (s.srcPos = s'.srcPos ∧ (s.src 8).toOption ≠ (s'.src 8).toOption ∧ s.dec.frm = s'.dec.frm ∧
      s.dec.info = s'.dec.info ∧ s.dec.ri = s'.dec.ri ∧ s.dec.tab.dcv = s'.dec.tab.dcv ∧
      s.dec.tab.acv = s'.dec.tab.acv ∧ s.proc.err = false ∧ s'.proc.err = false ∧
      (after .setscn s).proc.err = false) ∧
    s.src (s.srcPos.toNat + 2) = .ok 1 ∧
    (∀ i, i < 6 + 2 * 1 → s.src (s.srcPos.toNat + i) = s'.src (s.srcPos.toNat + i)) ∧
    exec .setscn s = .next (after .setscn s) ∧ exec .setscn s' = .next (after .setscn s') :=
  ⟨by and_intros <;> decide +kernel, eq_src_ok (by decide +kernel),
    fun i hi => eq_src ((by decide +kernel : ∀ i, i < 6 + 2 * 1 →
      ((stream [0x00, 0x08, 0x01, 0x01, 0x00, 0x00, 0x3F, 0x00, 0xB0] grey).src (0 + i)).toOption =
          ((put (0x1000 + 8) [0x7F] (stream [0x00, 0x08, 0x01, 0x01, 0x00, 0x00, 0x3F, 0x00, 0xB0] grey)).src
            (0 + i)).toOption ∧
        ((stream [0x00, 0x08, 0x01, 0x01, 0x00, 0x00, 0x3F, 0x00, 0xB0] grey).src (0 + i)).toOption.isSome = true) i hi),
    eq_next (by decide +kernel), eq_next (by decide +kernel)⟩

/-! ### Witnesses: entropy decoding -/

/-- DECROW's start on the grey frame with a stream. -/
def reader (bs : List Byte) (f : Entropy → Entropy) : DecW :=
  DecW.start { stream bs grey with dec := { grey.dec with ent := f grey.dec.ent } }

/-- What DECROW reads on the grey frame with a stream. -/
def greyEnv (bs : List Byte) : Env := (stream bs grey).env

theorem test_witness_ZigzagExtendAndPredict : (0 : Nat) ≤ 15 ∧ 0 < 2 ^ 0 ∧ 15 ≤ 15 ∧ 32767 < 2 ^ 15 ∧ 1 ≤ 15 := by decide

/-- After a marker; a data byte; 0xFF 0x00 with no and two fill bytes; a marker after a fill byte; the end of the stream
at once and after a 0xFF; a byte that is not accessible after two. -/
theorem test_witness_FillByteTakesEveryForm :
    (reader [] fun e => { e with markerHit := true }).ent.markerHit = true ∧ (reader [] id).ent.markerHit = false ∧
    (0xFE#8 ≠ 0xFF#8 ∧ streamHolds (greyEnv [0xFE]) (reader [0xFE] id) 0 [0xFE]) ∧
    streamHolds (greyEnv [0xFF, 0]) (reader [0xFF, 0] id) 0 (List.replicate (0 + 1) 0xFF#8 ++ [0]) ∧
    streamHolds (greyEnv [0xFF, 0xFF, 0xFF, 0]) (reader [0xFF, 0xFF, 0xFF, 0] id) 0 (List.replicate (2 + 1) 0xFF#8 ++ [0]) ∧
    (0xD9#8 ≠ 0 ∧ 0xD9#8 ≠ 0xFF#8 ∧
      streamHolds (greyEnv [0xFF, 0xFF, 0xD9]) (reader [0xFF, 0xFF, 0xD9] id) 0 (List.replicate (1 + 1) 0xFF#8 ++ [0xD9])) ∧
    noByteAt (greyEnv []).params (greyEnv []).cfg 0 (.at .bufferTooSmall 0) ∧
    (streamHolds (greyEnv [0xFF]) (reader [0xFF] id) 0 (List.replicate 1 0xFF#8) ∧
      noByteAt (greyEnv [0xFF]).params (greyEnv [0xFF]).cfg 1 (.at .bufferTooSmall 1)) ∧
    (streamHolds (cut [0xFF, 0xFF, 0] grey).env (DecW.start (cut [0xFF, 0xFF, 0] grey)) 0 (List.replicate 2 0xFF#8) ∧
      noByteAt (cut [0xFF, 0xFF, 0] grey).params (cut [0xFF, 0xFF, 0] grey).cfg 2 ⟨.busError, 0x1002⟩) := by
  and_intros <;> decide +kernel

theorem test_witness_BitsComeMostSignificantFirst :
    (reader [] fun e => { e with bb := 0xA5, bl := 8 }).ent.bl.toNat ≤ 8 ∧
    8 ≤ (reader [] fun e => { e with bb := 0xA5, bl := 8 }).ent.bl.toNat ∧ (reader [0xA5] id).ent.bl = 0 := by
  decide +kernel

/-- Program A's DC table and the bits 10; the bits 11 and fourteen more, which begin with no code. -/
theorem test_witness_HuffmanDecodeInvertsTheCode :
    let e := greyEnv [0xB0, 0x7F]
    let w := reader [0xB0, 0x7F] id
    let w0 := reader [0xC0, 0] id
    (twoCodes.length = 16 ∧ buildHuff twoCodes [0, 6] = some (huff twoCodes [0, 6]).hcode) ∧
    ((⟨2, 2, 6⟩ : HEntry) ∈ (huff twoCodes [0, 6]).hcode ∧ receive e 2 w = .ok 2 (left (receive e 2 w))) ∧
    decodeSym e (huff twoCodes [0, 6]) w = .ok 6 (left (decodeSym e (huff twoCodes [0, 6]) w)) ∧
    receive (greyEnv [0xC0, 0]) 16 w0 = .ok 0xC000 (left (receive (greyEnv [0xC0, 0]) 16 w0)) ∧
    ∀ x ∈ (huff twoCodes [0, 6]).hcode, 0xC000 / 2 ^ (16 - x.len) ≠ x.code :=
  ⟨by decide +kernel, ⟨by decide +kernel, eq_ok (by decide +kernel)⟩, eq_ok (by decide +kernel), eq_ok (by decide +kernel),
    by decide +kernel⟩

/-- The grey frame with a restart interval. -/
def restartEnv (bs : List Byte) : Env := { greyEnv bs with ri := 3 }

/-- The expected marker after a fill byte; two other bytes; no interval; an MCU inside the interval; the interval's end. -/
theorem test_witness_RestartConsumesTwoBytes :
    (streamHolds (restartEnv [0xFF, 0xFF, 0xD0]) (reader [0xFF, 0xFF, 0xD0] id) 0 (List.replicate 1 0xFF#8 ++ [0xFF, 0xD0]) ∧
      ¬(0xFF#8 = 0xFF#8 ∧ 0xD0#8 = 0xFF#8) ∧ 0xFF#8 = 0xFF#8) ∧
    (streamHolds (restartEnv [0x12, 0xFF]) (reader [0x12, 0xFF] id) 0 (List.replicate 0 0xFF#8 ++ [0x12, 0xFF]) ∧
      ¬(0x12#8 = 0xFF#8 ∧ 0xFF#8 = 0xFF#8)) ∧
    (greyEnv []).ri = 0 ∧ ((restartEnv []).ri ≠ 0 ∧ (reader [] fun e => { e with rtg := 1 }).ent.rtg ≠ 0) ∧
    ((reader [0xFF, 0xD0] id).ent.rtg = 0 ∧
      processRestart (restartEnv [0xFF, 0xD0]) (reader [0xFF, 0xD0] id) =
        .ok () (left (processRestart (restartEnv [0xFF, 0xD0]) (reader [0xFF, 0xD0] id)))) :=
  ⟨by decide +kernel, by decide +kernel, by decide +kernel, by decide +kernel, by decide +kernel, eq_ok (by decide +kernel)⟩

/-- DC 10 and 110000, then AC 10 and 1 (the value 1), then AC 0 (end of block). -/
def bits : List Byte := [0xB0, 0xAF]

/-- After the DC category. -/
def w1 : DecW := left (decodeSym (greyEnv bits) (huff twoCodes [0, 6]) (reader bits id))

/-- After the DC value. -/
def w2 : DecW := left (receive (greyEnv bits) 6 w1)

/-- With the predictor updated. -/
def w2' : DecW := { w2 with ent := { w2.ent with dcpred := w2.ent.dcpred.set 0 48 } }

/-- After the first AC symbol. -/
def w3 : DecW := left (decodeSym (greyEnv bits) (huff twoCodes [0, 1]) w2')

/-- After its value. -/
def w4 : DecW := left (receive (greyEnv bits) 1 w3)

/-- After the end of the block. -/
def w5 : DecW := left (decodeSym (greyEnv bits) (huff twoCodes [0, 1]) w4)

/-- The block that those bits code. -/
def coded : Block := (Block.zero.put 0 48).put 1 1

theorem test_witness_SeqBlockInvertsRunLengthCoding :
    let e := greyEnv bits
    decodeSym e (e.dcTab 0) (reader bits id) = .ok 6 w1 ∧ (6#8).toNat ≤ 15 ∧ receive e (6#8).toNat w1 = .ok 48 w2 ∧
    (([1] : List Int).length < 63 ∧ ([1] : List Int).getLast? ≠ some 0 ∧ ∀ c ∈ ([1] : List Int), c.natAbs ≤ 32767) ∧
    w2' = { w2 with
      ent := { w2.ent with dcpred := w2.ent.dcpred.set (e.comp 0) (wrap16 ((w2.ent.dcpred.get (e.comp 0)).toInt + extend 48 6)) } } ∧
    ReadsTokens e (e.acTab 0) w2' (tokensOf 0 [1]) w4 ∧ coded.at 0 = 48 ∧
    (∀ k, k < 63 → coded.at (zz (k + 1)) = wrap16 (([1] : List Int).getD k 0)) ∧
    decodeSym e (e.acTab 0) w4 = .ok 0 w5 ∧ (0#8).toNat % 16 = 0 ∧ (0#8).toNat / 16 < 15 := by
  refine ⟨eq_ok (by decide +kernel), by decide, eq_ok (by decide +kernel), by decide, by decide +kernel, ?_, by decide,
    by decide +kernel, eq_ok (by decide +kernel), by decide⟩
  rw [show tokensOf 0 [1] = [(0, 1, 1)] by decide +kernel]
  exact .cons w2' w3 w4 w4 1#8 1 _ (eq_ok (by decide +kernel)) (eq_ok (by decide +kernel)) (.nil w4)

/-- Tokens read one after another, if the stream holds them, and then a symbol. -/
def runTokens (e : Env) (h : HuffTab) : List Token → DecW → Option DecW
  | [], w => some w
  | (r, s, v) :: ts, w =>
    let w1 := left (decodeSym e h w)
    if okVal (decodeSym e h w) = some (nibbles r s) ∧ okVal (receive e s w1) = some v then
      runTokens e h ts (left (receive e s w1))
    else none

theorem readsTokens_of_run {e : Env} {h : HuffTab} {ts : List Token} {w w' : DecW}
    (ht : ∀ t ∈ ts, t.1 < 16 ∧ t.2.1 < 16) (hr : runTokens e h ts w = some w') : ReadsTokens e h w ts w' := by
  induction ts generalizing w with
  | nil =>
    obtain rfl := Option.some.inj hr
    exact .nil w
  | cons t ts ih =>
    obtain ⟨r, s, v⟩ := t
    obtain ⟨h1, h2⟩ := ht (r, s, v) List.mem_cons_self
    rw [runTokens] at hr
    split at hr
    · rename_i hv
      have hn : (nibbles r s).toNat = 16 * r + s := by
        rw [nibbles, BitVec.toNat_ofNat, Nat.mod_eq_of_lt]
        dsimp only at h1 h2
        omega
      have hd : (nibbles r s).toNat / 16 = r ∧ (nibbles r s).toNat % 16 = s := by
        dsimp only at h1 h2
        omega
      have := ReadsTokens.cons (h := h) w _ _ w' (nibbles r s) v ts (eq_ok hv.1) (by rw [hd.2]; exact eq_ok hv.2)
        (ih (fun t ht' => ht t (List.mem_cons_of_mem _ ht')) hr)
      rwa [hd.1, hd.2] at this
    · cases hr

theorem reads_tokens {e : Env} {h : HuffTab} {ts : List Token} {w : DecW} {rs : Byte}
    (ht : ∀ t ∈ ts, t.1 < 16 ∧ t.2.1 < 16)
    (hr : (runTokens e h ts w).bind (fun w => okVal (decodeSym e h w)) = some rs) :
    ∃ w3 w4, ReadsTokens e h w ts w3 ∧ decodeSym e h w3 = .ok rs w4 := by
  obtain ⟨w3, h3, hd⟩ := Option.bind_eq_some_iff.mp hr
  exact ⟨w3, _, readsTokens_of_run ht h3, eq_ok hd⟩

/-- The grey frame with an AC table of ZRL (0) and of a run of 14 before a value of category 1 (10). -/
def runEnv (bs : List Byte) : Env := { greyEnv bs with tab := { tables with ac := .all (huff twoCodes [0xF0, 0xE1]) } }

/-- After the DC value 48 at the stream's start. -/
def dcRead (bs : List Byte) : DecW :=
  let u := left (receive (runEnv bs) 6 (left (decodeSym (runEnv bs) (huff twoCodes [0, 6]) (reader bs id))))
  { u with ent := { u.ent with dcpred := u.ent.dcpred.set 0 48 } }

/-- Zeros and then 1. -/
def zerosAndOne (n : Nat) : List Int := List.replicate n 0 ++ [1]

/-- The values' block. -/
def blockOf (cs : List Int) : Block :=
  (List.range 63).foldl (fun b k => b.put (zz (k + 1)) (wrap16 (cs.getD k 0))) (Block.zero.put 0 48)

/-- 63 values; 47 values and a ZRL past the block; 62 values and a run past it. -/
theorem test_witness_SeqBlockInvertsRunLengthCoding_ends :
    let h := huff twoCodes [0xF0, 0xE1]
    let full := zerosAndOne 62
    let some47 := zerosAndOne 46
    let most := some47 ++ zerosAndOne 14
    (full.length = 63 ∧ full.getLast? ≠ some 0 ∧ (blockOf full).at 0 = 48 ∧
      (∀ k, k < 63 → (blockOf full).at (zz (k + 1)) = wrap16 (full.getD k 0)) ∧
      ∃ w3, ReadsTokens (runEnv [0xB0, 0x17]) h (dcRead [0xB0, 0x17]) (tokensOf 0 full) w3) ∧
    (some47.length < 63 ∧ some47.getLast? ≠ some 0 ∧ 63 < 1 + some47.length + 16 ∧
      (∀ k, k < 63 → (blockOf some47).at (zz (k + 1)) = wrap16 (some47.getD k 0)) ∧
      ∃ w3 w4, ReadsTokens (runEnv [0xB0, 0x2B]) h (dcRead [0xB0, 0x2B]) (tokensOf 0 some47) w3 ∧
        decodeSym (runEnv [0xB0, 0x2B]) h w3 = .ok 0xF0 w4) ∧
    (most.length < 63 ∧ most.getLast? ≠ some 0 ∧ 63 < 1 + most.length + (0xE1#8).toNat / 16 ∧
      ∃ w3 w4, ReadsTokens (runEnv [0xB0, 0x2D, 0xBF]) h (dcRead [0xB0, 0x2D, 0xBF]) (tokensOf 0 most) w3 ∧
        decodeSym (runEnv [0xB0, 0x2D, 0xBF]) h w3 = .ok 0xE1 w4) := by
  refine ⟨⟨by decide +kernel, by decide +kernel, by decide +kernel, by decide +kernel, _,
      readsTokens_of_run (by decide +kernel) (Option.some_get (by decide +kernel)).symm⟩,
    ⟨by decide +kernel, by decide +kernel, by decide +kernel, by decide +kernel,
      reads_tokens (by decide +kernel) (by decide +kernel)⟩,
    by decide +kernel, by decide +kernel, by decide +kernel, reads_tokens (by decide +kernel) (by decide +kernel)⟩

/-- A table whose second symbol is 16. -/
def bigCategory : Env := { greyEnv bits with tab := { tables with dc := .all (huff twoCodes [0, 16]) } }

theorem test_witness_SeqBlockInvertsRunLengthCoding_category :
    decodeSym bigCategory (bigCategory.dcTab 0) (reader bits id) =
      .ok 16 (left (decodeSym bigCategory (bigCategory.dcTab 0) (reader bits id))) ∧ 15 < (16#8).toNat :=
  ⟨eq_ok (by decide +kernel), by decide⟩

/-- After the block has been read. -/
def r0 : DecW :=
  { reader bits id with mw := left (readBlock (greyEnv bits).params .coef 0x2000 (reader bits id).mw) }

/-- The first pass, and its category 16. -/
theorem test_witness_DcPassesChangeCoefficientZero :
    let e := greyEnv bits
    let w := reader bits id
    (w.mw.mem.wf = true ∧ w.mw.host = .none ∧ blockOk e.params 0x2000) ∧
    readBlock e.params .coef 0x2000 w.mw = .ok Block.zero (left (readBlock e.params .coef 0x2000 w.mw)) ∧
    decodeSym e (e.dcTab 0) r0 = .ok 6 (left (decodeSym e (e.dcTab 0) r0)) ∧ (6#8).toNat ≤ 15 ∧
    receive e (6#8).toNat (left (decodeSym e (e.dcTab 0) r0)) = .ok 48 (left (receive e 6 (left (decodeSym e (e.dcTab 0) r0)))) ∧
    decodeSym bigCategory (bigCategory.dcTab 0) r0 = .ok 16 (left (decodeSym bigCategory (bigCategory.dcTab 0) r0)) ∧
    15 < (16#8).toNat ∧
    receive e 1 r0 = .ok 1 (left (receive e 1 r0)) ∧
    dcFirstBlock e 0 0x2000 w = .ok () (left (dcFirstBlock e 0 0x2000 w)) ∧
    dcRefineBlock e 0x2000 w = .ok () (left (dcRefineBlock e 0x2000 w)) ∧ (0x2002#32 ≠ 0x2000 ∧ 0x2002#32 ≠ 0x2000 + 1) :=
  ⟨by decide +kernel, eq_ok (by decide +kernel), eq_ok (by decide +kernel), by decide, eq_ok (by decide +kernel),
    eq_ok (by decide +kernel), by decide, eq_ok (by decide +kernel), eq_ok (by decide +kernel), eq_ok (by decide +kernel),
    by decide⟩

/-- The grey frame's scan with the band 1..63. -/
def bandEnv : Env := { greyEnv bits with scn := { oneBlock with ss := 1 } }

/-- An AC block of either pass completes; a byte outside the band; an end-of-band run. -/
theorem test_witness_AcPassesStayInTheirBand :
    let w := reader [0xAF] id
    let e : Env := { greyEnv [0xAF] with scn := bandEnv.scn }
    (w.mw.mem.wf = true ∧ w.mw.host = .none ∧ e.scn.se.toNat ≤ 63) ∧
    acFirstBlock e 0 0x2000 w = .ok () (left (acFirstBlock e 0 0x2000 w)) ∧
    acRefineBlock e 0 0x2000 w = .ok () (left (acRefineBlock e 0 0x2000 w)) ∧
    (blockOk e.params 0x2000 ∧ (reader [] fun s => { s with eobrun := 5 }).ent.eobrun ≠ 0) ∧
    ∀ k, e.scn.ss.toNat ≤ k → k ≤ e.scn.se.toNat → coefIn w.mw.mem 0x2000 (zz k) = 0 := by
  refine ⟨by decide +kernel, eq_ok (by decide +kernel), eq_ok (by decide +kernel), by decide +kernel, ?_⟩
  intro k _ hk
  exact (by decide +kernel : ∀ k, k < 64 → coefIn (reader [0xAF] id).mw.mem 0x2000 (zz k) = 0) k
    (Nat.lt_succ_of_le hk)

/-- The scan with the band 1..`se`, a point transform and an AC table. -/
def acEnv (h : HuffTab) (se : Byte) (al : BitVec 4) (bs : List Byte) : Env :=
  { greyEnv bs with scn := { oneBlock with ss := 1, se := se, al := al }, tab := { tables with ac := .all h } }

/-- Two codes of one bit. -/
def bitCodes (v0 v1 : Byte) : HuffTab := huff (2 :: List.replicate 15 0) [v0, v1]

/-- A block whose coefficient 1 is `v`, at the start of an AC pass with EOBRUN `n`. -/
def acStart (v : Byte) (n : Half) (bs : List Byte) : DecW :=
  DecW.start (stream bs (put 0x2002 [v] { grey with dec := { grey.dec with ent := { grey.dec.ent with eobrun := n } } }))

/-- The same after the block has been read. -/
def acRead (e : Env) (v : Byte) (n : Half) (bs : List Byte) : DecW :=
  { acStart v n bs with mw := left (readBlock e.params .coef 0x2000 (acStart v n bs).mw) }

theorem acRead_ok {e : Env} {v : Byte} {n : Half} {bs : List Byte} {b : Block}
    (h : okVal (readBlock e.params .coef 0x2000 (acStart v n bs).mw) = some b) :
    readBlock e.params .coef 0x2000 (acStart v n bs).mw = .ok b (acRead e v n bs).mw := eq_ok h

/-- Items read one after another, if the stream holds them. -/
def runItems (e : Env) (h : HuffTab) : List Item → DecW → Option DecW
  | [], w => some w
  | .sym v :: is, w => if okVal (decodeSym e h w) = some v then runItems e h is (left (decodeSym e h w)) else none
  | .bits n v :: is, w => if okVal (receive e n w) = some v then runItems e h is (left (receive e n w)) else none
  | .warn :: is, w => runItems e h is { w with warn := warnedEnt w.warn }

theorem readsItems_of_run {e : Env} {h : HuffTab} {is : List Item} {w w' : DecW} (hr : runItems e h is w = some w') :
    ReadsItems e h w is w' := by
  induction is generalizing w with
  | nil =>
    obtain rfl := Option.some.inj hr
    exact .nil w
  | cons i is ih =>
    cases i with
    | sym v =>
      rw [runItems] at hr
      split at hr
      · exact .sym _ _ _ _ _ (eq_ok ‹_›) (ih hr)
      · cases hr
    | bits n v =>
      rw [runItems] at hr
      split at hr
      · exact .bits _ _ _ _ _ _ (eq_ok ‹_›) (ih hr)
      · cases hr
    | warn => exact .warn _ _ _ (ih hr)

theorem reads_items {e : Env} {h : HuffTab} {is : List Item} {w : DecW} (hr : (runItems e h is w).isSome = true) :
    ∃ w', ReadsItems e h w is w' :=
  let ⟨w', h'⟩ := Option.isSome_iff_exists.mp hr
  ⟨w', readsItems_of_run h'⟩

theorem reads_items_twice {e : Env} {h : HuffTab} {is is' : List Item} {w : DecW}
    (hr : ((runItems e h is w).bind (runItems e h is')).isSome = true) :
    ∃ w1 w2, ReadsItems e h w is w1 ∧ ReadsItems e h w1 is' w2 := by
  obtain ⟨w2, h2⟩ := Option.isSome_iff_exists.mp hr
  obtain ⟨w1, h1, h2⟩ := Option.bind_eq_some_iff.mp h2
  exact ⟨w1, w2, readsItems_of_run h1, readsItems_of_run h2⟩

/-- R212's example. -/
def exampleEnv : Env := acEnv (bitCodes 0x01 0x10) 63 1 [0x6F]

/-- After its first symbol. -/
def f1 : DecW := left (decodeSym exampleEnv (bitCodes 0x01 0x10) (acRead exampleEnv 0 0 [0x6F]))

/-- After the value. -/
def f2 : DecW := left (receive exampleEnv 1 f1)

/-- After EOB1. -/
def f3 : DecW := left (decodeSym exampleEnv (bitCodes 0x01 0x10) f2)

/-- R212's example: one value, and then EOB1 with the run bit 0; the same value filling a band of one coefficient. -/
theorem test_witness_AcPassesStayInTheirBand_first :
    let e := exampleEnv
    let w := acStart 0 0 [0x6F]
    let w0 := acRead e 0 0 [0x6F]
    readBlock e.params .coef 0x2000 w.mw = .ok Block.zero w0.mw ∧ w.ent.eobrun = 0 ∧
    bandFilled e [1] Block.zero (Block.zero.put 1 2) ∧
    (ReadsTokens e (e.acTab 0) w0 (tokensOf 0 [1]) f2 ∧ decodeSym e (e.acTab 0) f2 = .ok 0x10 f3 ∧
      receive e ((0x10#8).toNat / 16) f3 = .ok 0 (left (receive e ((0x10#8).toNat / 16) f3))) ∧
    (1 + [(1 : Int)].length = (1#8).toNat + 1 ∧
      bandFilled (acEnv (bitCodes 0x01 0x10) 1 1 [0x6F]) [1] Block.zero (Block.zero.put 1 2)) := by
  refine ⟨acRead_ok (by decide +kernel), by decide +kernel, fun k hk => ?_, ⟨?_, eq_ok (by decide +kernel),
    eq_ok (by decide +kernel)⟩, by decide, fun k hk => ?_⟩
  · revert k
    decide +kernel
  · rw [show tokensOf 0 [1] = [(0, 1, 1)] by decide +kernel]
    exact .cons (acRead exampleEnv 0 0 [0x6F]) f1 f2 f2 1#8 1 _ (eq_ok (by decide +kernel)) (eq_ok (by decide +kernel))
      (.nil f2)
  · revert k
    decide +kernel

/-- An empty list of values, and a ZRL or a run of two past the band 1..2. -/
theorem test_witness_AcPassesStayInTheirBand_past :
    let e := acEnv (bitCodes 0xF0 0x21) 2 1 [0x7F]
    bandFilled e [] Block.zero Block.zero ∧ e.scn.se.toNat < 1 + ([] : List Int).length + 16 ∧
    decodeSym e (e.acTab 0) (acRead e 0 0 [0x7F]) = .ok 0xF0 (left (decodeSym e (e.acTab 0) (acRead e 0 0 [0x7F]))) ∧
    decodeSym e (e.acTab 0) (acRead e 0 0 [0xE0]) = .ok 0x21 (left (decodeSym e (e.acTab 0) (acRead e 0 0 [0xE0]))) ∧
    ((0x21#8).toNat % 16 ≠ 0 ∧ e.scn.se.toNat < 1 + ([] : List Int).length + (0x21#8).toNat / 16) := by
  refine ⟨fun k hk => ?_, by decide, eq_ok (by decide +kernel), eq_ok (by decide +kernel), by decide⟩
  revert k
  decide +kernel

/-- The block with coefficient 1 at 2. -/
def old2 : Block := Block.zero.put 1 2

/-- Marks: coefficient 1 corrected, a zero passed, a new coefficient; the rest of a band. -/
def marks : List Mark := [.corr true, .zero, .fresh 1 true]

/-- R213's example: the marks are those of 0xE7's first three bits, and EOB0 ends the band 1..63; or the band ends with
them. -/
theorem test_witness_AcPassesStayInTheirBand_refine :
    let e := acEnv (bitCodes 0x00 0x11) 63 0 [0xE7]
    let w0 := acRead e 2 0 [0xE7]
    let rest := List.replicate 60 Mark.zero
    let fit := fun (ms : List Mark) =>
      (∀ k, k < ms.length → (ms.getD k .zero).fits (old2.at (zz (1 + k)))) ∧ 1 + ms.length = ms.length + 1
    readBlock e.params .coef 0x2000 (acStart 2 0 [0xE7]).mw = .ok old2 w0.mw ∧
    (fit (marks ++ rest) ∧ (∀ m ∈ rest, ∀ size pos, m ≠ .fresh size pos) ∧ rest ≠ []) ∧
    bandRefined e (marks ++ rest) old2 ((old2.put 1 3).put 16 1) ∧
    refineItems 0 [] marks = some [.sym 0x11, .bits 1 1, .bits 1 1] ∧
    (∃ w1 w2, ReadsItems e (e.acTab 0) w0 [.sym 0x11, .bits 1 1, .bits 1 1] w1 ∧
      ReadsItems e (e.acTab 0) w1 (.sym (nibbles 0 0) :: .bits 0 0 :: corrItems (corrections rest)) w2) := by
  refine ⟨acRead_ok (by decide +kernel), ⟨⟨fun k hk => ?_, by decide⟩, fun m hm size pos => ?_, by decide⟩, fun k hk => ?_, rfl,
    reads_items_twice (by decide +kernel)⟩
  · match k with
    | 0 => exact (by decide +kernel : old2.at (zz 1) ≠ 0)
    | 1 => exact (by decide +kernel : old2.at (zz 2) = 0)
    | 2 => exact ⟨(by decide +kernel : old2.at (zz 3) = 0), by decide, by decide⟩
    | k + 3 =>
      have hk : k < 60 := by
        have : k + 3 < 63 := hk
        omega
      have h : (marks ++ List.replicate 60 Mark.zero).getD (k + 3) .zero = .zero := by
        show (List.replicate 60 Mark.zero).getD k .zero = .zero
        rw [List.getD_eq_getElem?_getD, List.getElem?_replicate]
        split <;> rfl
      rw [h]
      exact (by decide +kernel : ∀ k, k < 60 → old2.at (zz (1 + (k + 3))) = 0) k hk
  · rw [List.eq_of_mem_replicate hm]
    exact Mark.noConfusion
  · revert k
    decide +kernel

/-- The rest of a band 1..3: coefficient 1 corrected and two zeros. -/
def rest3 : List Mark := [.corr true, .zero, .zero]

/-- It is passed by ZRL; a run of two runs past it; in an end-of-band run its correction bit is read alone. -/
theorem test_witness_AcPassesStayInTheirBand_rest :
    let e := fun (bs : List Byte) => acEnv (bitCodes 0xF0 0x21) 3 0 bs
    (∀ k, k < 3 → (rest3.getD k .zero).fits (old2.at (zz (1 + k)))) ∧ 1 + rest3.length = (3#8).toNat + 1 ∧
    bandRefined (e [0x7F]) rest3 old2 (old2.put 1 3) ∧ zerosOf rest3 = 2 ∧
    (∃ w2, ReadsItems (e [0x7F]) ((e [0x7F]).acTab 0) (acRead (e [0x7F]) 2 0 [0x7F]) [.sym 0xF0, .bits 1 1] w2) ∧
    (∃ w2, ReadsItems (e [0xE0]) ((e [0xE0]).acTab 0) (acRead (e [0xE0]) 2 0 [0xE0])
      [.sym (nibbles 2 1), .bits 1 1, .bits 1 1] w2) ∧
    (acStart 2 1 [0xE7]).ent.eobrun ≠ 0 ∧ corrItems (corrections rest3) = [.bits 1 1] ∧
    ∃ w1, ReadsItems (e [0xE7]) ((e [0xE7]).acTab 0) (acRead (e [0xE7]) 2 1 [0xE7]) [.bits 1 1] w1 := by
  refine ⟨fun k hk => ?_, by decide, fun k hk => ?_, by decide, reads_items (by decide +kernel),
    reads_items (by decide +kernel), by decide +kernel, rfl, reads_items (by decide +kernel)⟩
  · match k with
    | 0 => exact (by decide +kernel : old2.at (zz 1) ≠ 0)
    | 1 => exact (by decide +kernel : old2.at (zz 2) = 0)
    | 2 => exact (by decide +kernel : old2.at (zz 3) = 0)
  · revert k
    decide +kernel

/-- Coefficient 0's bytes lie outside the band 1..63. -/
theorem test_witness_AcPassesStayInTheirBand_outside : ¬inBand bandEnv 0x2000 0x2001 := by
  rintro ⟨k, h1, h2, h3⟩
  have h := (by decide +kernel : ∀ k, k < 64 → bandEnv.scn.ss.toNat ≤ k →
    (0x2001#32 ≠ 0x2000#32 + BitVec.ofNat 32 (2 * zz k) ∧ 0x2001#32 ≠ 0x2000#32 + BitVec.ofNat 32 (2 * zz k + 1))) k
    (Nat.lt_succ_of_le h2) h1
  exact h3.elim h.1 h.2

/-- A lossless line of two 16-bit samples after a marker. -/
def lineState : State :=
  { withMode .sof3 16 (small 2 1 grey) with
    dec :=
      { (withMode .sof3 16 (small 2 1 grey)).dec with
        scn := { oneBlock with ss := 4, smode := .lossless }
        ent := { Entropy.reset with markerHit := true, llfirst := false, llprev := [(0, 700), (1, 9)] } } }

/-- Program F's first two samples: a lossless line of two 8-bit samples, the stream `bs`, the residual table `h`. -/
def lineOf (h : HuffTab) (bs : List Byte) : State :=
  stream bs
    { withMode .sof3 8 (small 2 1 grey) with
      dec :=
        { (withMode .sof3 8 (small 2 1 grey)).dec with
          tab := { tables with dc := .all h }, scn := { oneBlock with ss := 1, se := 0, smode := .lossless } } }

/-- Program F's residual table. -/
def lineTable : HuffTab := huff [0, 0, 5, 0, 0, 0, 0, 0, 0, 0, 0, 0, 0, 0, 0, 0] [0, 1, 2, 3, 5]

/-- A sample of line 0 decoded: its residual read from a symbol and its bits, and the sample stored. -/
theorem reads_sample {e : Env} {cur : Nat → Half} {x v : Nat} {w w' : DecW} {s : Byte} {rs : List (Bool × Int)}
    (hri : e.ri = 0) (hs : okVal (decodeSym e (e.dcTab 0) w) = some s) (hc : s.toNat ≤ 15)
    (hv : okVal (receive e s.toNat (left (decodeSym e (e.dcTab 0) w))) = some v)
    (hm : okVal (liftMem (memWrite e.params (.plane 0) (planeBps e) (planeAddr e 0 x 0)
      ((cur x).toNat * 2 ^ e.scn.al.toNat % 65536 : Nat)) (left (receive e s.toNat (left (decodeSym e (e.dcTab 0) w)))))
        = some ())
    (hr : ReadsSamples e 0 cur (x + 1) (left (liftMem (memWrite e.params (.plane 0) (planeBps e) (planeAddr e 0 x 0)
      ((cur x).toNat * 2 ^ e.scn.al.toNat % 65536 : Nat)) (left (receive e s.toNat (left (decodeSym e (e.dcTab 0) w))))))
        rs w') :
    ReadsSamples e 0 cur x w ((w.ent.llfirst, extend v s.toNat) :: rs) w' :=
  .cons x w w _ _ w' _ rs (by simp [beforeMcu, hri, pure, EStateM.pure])
    ⟨s, _, eq_ok hs, .inr ⟨hc, v, eq_ok hv, rfl⟩⟩ (eq_ok hm) hr

theorem test_witness_LosslessLineFollowsThePredictor_residuals :
    let s := lineOf lineTable [0x83, 0x50]
    let cur := fun x => ([100, 102] : List Half).getD x 0
    let rs : List (Bool × Int) := [(true, -28), (true, 2)]
    ((DecW.start s).mw.mem.wf = true ∧ (DecW.start s).ent.llprev.wf = true ∧ rs.length = s.env.frm.x.toNat) ∧
    (∃ w', ReadsSamples s.env 0 cur 0 (DecW.start s) rs w') ∧
    ∀ x, x < rs.length →
      cur x = wrap16 (predicted s.env (rs.getD x (false, 0)).1 (fun i => (((DecW.start s).ent.llprev.read i).toNat : Int))
        (fun i => ((cur i).toNat : Int)) x + (rs.getD x (false, 0)).2) :=
  ⟨by decide +kernel,
    ⟨_, reads_sample (s := 5) (v := 3) rfl (by decide +kernel) (by decide) (by decide +kernel) (by decide +kernel)
      (reads_sample (s := 2) (v := 2) rfl (by decide +kernel) (by decide) (by decide +kernel) (by decide +kernel)
        (.nil _ _))⟩, by decide +kernel⟩

/-- A line whose residuals have the categories 16 (code 0) and 17 (code 10). -/
def bigLine : State := lineOf (huff twoCodes [16, 17]) [0x5F]

/-- After the category 16. -/
def g1 : DecW := left (decodeSym bigLine.env (bigLine.env.dcTab 0) (DecW.start bigLine))

/-- After its sample. -/
def g2 : DecW :=
  left (liftMem (memWrite bigLine.env.params (.plane 0) (planeBps bigLine.env) (planeAddr bigLine.env 0 0 0)
    ((32896#16).toNat * 2 ^ bigLine.env.scn.al.toNat % 65536 : Nat)) g1)

/-- The sample 128 + 32768, and then a category 17. -/
theorem test_witness_LosslessLineFollowsThePredictor_categories :
    let e := bigLine.env
    ReadsSamples e 0 (fun _ => 32896) 0 (DecW.start bigLine) [(true, 32768)] g2 ∧
    32896#16 = wrap16 (predicted e true (fun _ => 0) (fun _ => 32896) 0 + 32768) ∧
    (1 < e.frm.x.toNat ∧ beforeMcu e g2 = .ok () g2) ∧
    decodeSym e (e.dcTab 0) g2 = .ok 17 (left (decodeSym e (e.dcTab 0) g2)) ∧ 16 < (17#8).toNat := by
  have h1 : decodeSym bigLine.env (bigLine.env.dcTab 0) (DecW.start bigLine) = .ok 16 g1 := eq_ok (by decide +kernel)
  exact ⟨.cons 0 (DecW.start bigLine) _ g1 g2 g2 32768 [] rfl ⟨16, g1, h1, .inl ⟨rfl, rfl, rfl⟩⟩ (eq_ok (by decide +kernel))
    (.nil 1 g2), by decide +kernel, ⟨by decide +kernel, rfl⟩, eq_ok (by decide +kernel), by decide⟩

theorem test_witness_LosslessLineFollowsThePredictor :
    let e := lineState.env
    let w := DecW.start lineState
    (w.mw.mem.wf = true ∧ w.ent.markerHit = true ∧ w.ent.bl = 0 ∧ e.ri = 0 ∧ (e.dcTab 0).find 1 0 = some 0 ∧
      1 ≤ e.frm.x.toNat ∧ w.ent.llprev.wf = true) ∧
    ∀ x k, x < e.frm.x.toNat → k < planeBps e → okAt e.params (planeAddr e 0 x 0) k := by
  refine ⟨by decide +kernel, fun x k hx hk => ?_⟩
  exact (by decide +kernel : ∀ x, x < lineState.env.frm.x.toNat → ∀ k, k < planeBps lineState.env →
    okAt lineState.env.params (planeAddr lineState.env 0 x 0) k) x hx k hk

/-- No active scan; program A's row; a row with a code that is not there. -/
theorem test_witness_DecrowCompletesTheScan :
    start.dec.scn.active = false ∧ grey.dec.scn.active = true ∧
    decodeRows (stream bits grey).env (rowsOf (stream bits grey) 0) (DecW.start (stream bits grey)) =
      .ok () (left (decodeRows (stream bits grey).env (rowsOf (stream bits grey) 0) (DecW.start (stream bits grey)))) ∧
    decodeRows (stream [0xC0, 0] grey).env (rowsOf (stream [0xC0, 0] grey) 1) (DecW.start (stream [0xC0, 0] grey)) =
      .error ⟨.internalError, 2⟩
        (left (decodeRows (stream [0xC0, 0] grey).env (rowsOf (stream [0xC0, 0] grey) 1)
          (DecW.start (stream [0xC0, 0] grey)))) :=
  ⟨by decide, by decide, eq_ok (by decide +kernel), eq_error (by decide +kernel)⟩

/-- The grey frame's scan after a marker. -/
def marked : State :=
  { grey with dec := { grey.dec with ent := { grey.dec.ent with markerHit := true, dcpred := .all 5 } } }

theorem test_witness_DecrowFillsOutAfterAMarker :
    (marked.memCanonical = true ∧ zeroScan marked) ∧
    ∀ y x k, y < rowsOf marked 0 → x < marked.dec.scn.scols.toNat → k < 128 →
      okAt marked.params (coefAddr marked.env (scanComp marked) x (marked.dec.ent.srow.toNat + y)) k ∧
        notCommand marked 4
          (coefAddr marked.env (scanComp marked) x (marked.dec.ent.srow.toNat + y) + BitVec.ofNat 32 k) := by
  refine ⟨by decide +kernel, fun y x k hy hx hk => ?_⟩
  exact (by decide +kernel : ∀ y, y < rowsOf marked 0 → ∀ x, x < marked.dec.scn.scols.toNat → ∀ k, k < 128 →
    okAt marked.params (coefAddr marked.env (scanComp marked) x (marked.dec.ent.srow.toNat + y)) k ∧
      notCommand marked 4
        (coefAddr marked.env (scanComp marked) x (marked.dec.ent.srow.toNat + y) + BitVec.ofNat 32 k)) y hy x hx k hk

/-- DECROW answers; the word after the only row's block is no byte it may store. -/
theorem test_witness_DecrowLeavesTheRestAlone :
    exec (.decrow 0) (stream bits grey) = .next (nextOf (exec (.decrow 0) (stream bits grey))) ∧
    ∀ y, y < rowsOf (stream bits grey) 0 →
      ¬rowStores (stream bits grey).env ((stream bits grey).dec.ent.srow.toNat + y) 0x2080 := by
  refine ⟨eq_next (by decide +kernel), fun y hy => ?_⟩
  have hy0 : y = 0 := by
    have h1 : rowsOf (stream bits grey) 0 = 1 := by decide +kernel
    omega
  subst hy0
  rintro (⟨-, -, mx, k, hmx, hk, h⟩ | ⟨-, h, -⟩ | ⟨h, -⟩)
  · exact (by decide +kernel : ∀ mx, mx < (stream bits grey).env.scn.scols.toNat → ∀ k, k < 128 →
      (0x2080 : Word) ≠ coefAddr (stream bits grey).env ((stream bits grey).env.scn.cidx.get 0).toNat mx
        ((stream bits grey).dec.ent.srow.toNat + 0) + BitVec.ofNat 32 k) mx hmx k hk h
  · exact absurd h (by decide)
  · exact absurd h (by decide)

/-! ### Witnesses: memory and reconstruction -/

/-- A memory with four accessible bytes; a hole at the last; an accessible block at the top of memory below the window. -/
theorem test_witness_MemoryPrimitivesAreLittleEndian :
    (4 ≤ 4 ∧ (reader bits id).mw.mem.wf = true ∧ (reader bits id).mw.host = .none) ∧ (∀ k, k < 4 → okAt start.params 0x1000 k) ∧
    (3 < 4 ∧ (∀ k, k < 3 → okAt (holes [(0x1003, 1)] start).params 0x1000 k) ∧
      ¬okAt (holes [(0x1003, 1)] start).params 0x1000 3) ∧ blockOk start.params 0xFFFFDF80 := by
  and_intros <;> decide +kernel

/-- A DC-only block. -/
def dcBlock (v : Int) : List Int := v :: List.replicate 63 0

theorem test_witness_TransformMeetsItsBounds :
    ((dcBlock 4).length = 64 ∧ (7 : Nat) < 8) ∧ (∀ n, 1 ≤ n → (dcBlock 1200).getD n 0 = 0) ∧
    (dcBlock 4).getD 0 0 = 4 ∧ (dcBlock (-4)).getD 0 0 = -4 ∧ (dcBlock 1200).getD 0 0 = 1200 := by
  refine ⟨by decide, fun n hn => ?_, by decide, by decide, by decide⟩
  obtain ⟨m, rfl⟩ : ∃ m, n = m + 1 := ⟨n - 1, by omega⟩
  show (List.replicate 63 (0 : Int)).getD m 0 = 0
  rw [List.getD_eq_getElem?_getD, List.getElem?_replicate]
  split <;> rfl

theorem test_witness_ReferenceTransformIsAccurate :
    (dcBlock (-2147483648)).length = 64 ∧ (∀ v ∈ dcBlock (-2147483648), |v| ≤ 2 ^ 31) ∧ (7 : Nat) < 8 := by
  and_intros <;> decide +kernel

/-- The table not loaded; the source's last byte not accessible; all accessible, with a sample written only once, and away
from the block and the command; the last sample's byte not accessible. -/
theorem test_witness_IdctblkWritesTheBlock :
    (grey.memCanonical = true ∧ 3 < 4) ∧ noTables.dec.tab.qtv.get 3 = false ∧
    (grey.dec.tab.qtv.get 3 = true ∧ 127 < 128 ∧ (∀ j, j < 127 → okAt (holes [(0x207F, 1)] grey).params 0x2000 j) ∧
      ¬okAt (holes [(0x207F, 1)] grey).params 0x2000 127) ∧
    (blockOk grey.params 0x2000 ∧ ∀ n, n < 64 → grey.params.memOk (blkTarget 0x4000 8 n).toNat = true) ∧
    (63 < 64 ∧ (∀ k, k < 128 → blkTarget 0x4000 8 63 ≠ 0x2000 + BitVec.ofNat 32 k) ∧
      notCommand grey 16 (blkTarget 0x4000 8 63)) ∧
    (blockOk (holes [(0x403F, 1)] grey).params 0x2000 ∧
      (∀ n, n < 63 → (holes [(0x403F, 1)] grey).params.memOk (blkTarget 0x4000 8 n).toNat = true) ∧
      ¬(holes [(0x403F, 1)] grey).params.memOk (blkTarget 0x4000 8 63).toNat = true) := by
  and_intros <;> decide +kernel

theorem test_witness_IdctblkWritesTheBlock_once :
    ∀ m, 5 < m → m < 64 → blkTarget 0x4000 8 m ≠ blkTarget 0x4000 8 5 := by
  intro m h5 h
  exact (by decide +kernel : ∀ m, m < 64 → 5 < m → blkTarget 0x4000 8 m ≠ blkTarget 0x4000 8 5) m h h5

theorem test_witness_RowArgumentsAreChecked :
    (Instr.idctrow ∈ rowCommands ∧ Instr.recrow ∈ rowCommands) ∧
    ((Instr.idctrow 65535 65535).wf = true ∧ start.dec.frm.hdrValid = false) ∧
    (grey.dec.frm.hdrValid = true ∧ bandsIn grey ≤ 1 ∧ (Instr.recrow 1 0).wf = true) ∧
    (bandsIn grey < 0 + 2 ∧ (Instr.recrow 0 2).wf = true) := by
  refine ⟨⟨by simp [rowCommands], by simp [rowCommands]⟩, by decide, by decide, by decide⟩

/-- The only band. -/
theorem band_zero {s : State} (hs : bandCount s 0 0 = 1) {b : Nat} (h : b < 0 + bandCount s 0 0) : b = 0 := by omega

set_option synthInstance.maxSize 1000 in
/-- What CcvBand needs at the only band of the frames below. -/
theorem ccv_ready :
    ccvReady (small 2 1 wide) 0 ∧ ccvReady grey 0 ∧
    ccvReady { small 2 1 wide with cfg := { wide.cfg with dst422 := true, dstCs := 4, dstNch := 2 } } 0 := by
  and_intros <;> decide +kernel

/-- RECROW's needs at the only band. -/
theorem rec_ready {s : State} (hm : s.dec.frm.mode ≠ .sof3) (hi : idctReady s 0) (hu : upsReady s 0) (hc : ccvReady s 0) :
    recReady s 0 := by
  show if s.dec.frm.mode = .sof3 then _ else _
  rw [if_neg hm]
  exact ⟨hi, fun h => absurd h (by decide), fun _ => ⟨hu, hc⟩⟩

/-- One frame with all that each of the four commands needs at its only band. -/
theorem test_witness_RowCommandsComplete :
    rowOk (small 2 1 wide) 0 0 ∧
    (∀ b, 0 ≤ b → b < 0 + bandCount (small 2 1 wide) 0 0 → idctReady (small 2 1 wide) b) ∧
    (∀ b, 0 ≤ b → b < 0 + bandCount (small 2 1 wide) 0 0 → upsReady (small 2 1 wide) b) ∧
    (∀ b, 0 ≤ b → b < 0 + bandCount (small 2 1 wide) 0 0 → ccvReady (small 2 1 wide) b) ∧
    ∀ b, 0 ≤ b → b < 0 + bandCount (small 2 1 wide) 0 0 → recReady (small 2 1 wide) b := by
  have hs : bandCount (small 2 1 wide) 0 0 = 1 := by decide +kernel
  refine ⟨by decide +kernel, ?_, ?_, ?_, ?_⟩ <;>
    intro b _ h <;> rw [band_zero hs h]
  · decide +kernel
  · decide +kernel
  · exact ccv_ready.1
  · exact rec_ready (by decide) (by decide +kernel) (by decide +kernel) ccv_ready.1

/-- Each command answers, and a byte of the coefficient buffer is none that it may store. -/
theorem test_witness_RowCommandsLeaveTheRestAlone :
    let s := small 2 1 grey
    exec (.idctrow 0 0) s = .next (nextOf (exec (.idctrow 0 0) s)) ∧
    exec (.upsrow 0 0) s = .next (nextOf (exec (.upsrow 0 0) s)) ∧
    exec (.ccvrow 0 0) s = .next (nextOf (exec (.ccvrow 0 0) s)) ∧
    exec (.recrow 0 0) s = .next (nextOf (exec (.recrow 0 0) s)) ∧
    ¬(∃ b, 0 ≤ b ∧ b < 0 + bandCount s 0 0 ∧ recStores s b 0x2000) := by
  refine ⟨eq_next (by decide +kernel), eq_next (by decide +kernel), eq_next (by decide +kernel),
    eq_next (by decide +kernel), ?_⟩
  rintro ⟨b, -, hb, h⟩
  rw [band_zero (by decide +kernel) hb] at h
  have hi : ¬idctStores (small 2 1 grey).env 0 0x2000 := by
    rintro ⟨-, c, r, bx, n, hc, hr, hbx, hn, h⟩
    exact (by decide +kernel : ∀ c, c < (small 2 1 grey).env.frm.ncomp.toNat → ∀ r, r < vOf (small 2 1 grey).env c →
      ∀ bx, bx < bwOf (small 2 1 grey).env c → ∀ n, n < 64 → (0x2000 : Word) ≠
        planeAddr (small 2 1 grey).env c (8 * bx + n % 8) (8 * (0 * vOf (small 2 1 grey).env c + r) + n / 8))
      c hc r hr bx hbx n hn h
  have hu : ¬upsStores (small 2 1 grey).env 0 0x2000 := by
    rintro ⟨-, c, r, xo, hc, hf, -⟩
    exact absurd hf ((by decide +kernel : ∀ c, c < (small 2 1 grey).env.frm.ncomp.toNat →
      ¬fullRes (small 2 1 grey).env c = false) c hc)
  have hcc : ¬ccvStores (small 2 1 grey).env 0 0x2000 := by
    rintro ⟨y, ⟨-, -, hy⟩, ⟨hk, -⟩ | ⟨-, x, ch, k, hx, hch, hk, h⟩⟩
    · exact absurd hk (by decide +kernel)
    · exact (by decide +kernel : ∀ y, y < (small 2 1 grey).env.frm.y.toNat → ∀ x, x < (small 2 1 grey).env.frm.x.toNat →
        ∀ ch, ch < (small 2 1 grey).env.cfg.dstNch.toNat → ∀ k, k < dstBps (small 2 1 grey).env →
        (0x2000 : Word) ≠ dstAddr (small 2 1 grey).env x y ch + BitVec.ofNat 32 k) y hy x hx ch hch k hk h
  rcases h with h | ⟨h, -⟩ | ⟨h, -⟩ | ⟨h, -⟩
  · exact hi h
  · exact hcc h
  · exact hu h
  · omega

/-! Where the grey frame's samples, coefficients and pixels lie. -/

theorem grey_plane : ∀ x, x < 8 → ∀ y, y < 8 → (planeAddr grey.env 0 x y).toNat = 0x3000 + 16 * y + x := by decide +kernel

theorem grey_pixel : ∀ x, x < 8 → ∀ y, y < 8 → (dstAddr grey.env x y 0).toNat = 0x4000 + 64 * y + x := by decide +kernel

theorem grey_coef : ∀ k, k < 128 → (coefAddr grey.env 0 0 0 + BitVec.ofNat 32 k).toNat = 0x2000 + k := by decide +kernel

theorem grey_word : ∀ j, j < 8 → (grey.proc.cqPtr + BitVec.ofNat 32 j).toNat = 0x100 + j := by decide +kernel

theorem toNat_ne {a b : Word} (h : a.toNat ≠ b.toNat) : a ≠ b := fun he => h (he ▸ rfl)

theorem test_witness_IdctrowFillsThePlanes :
    let s := grey
    (s.memCanonical = true ∧ rowOk s 0 0 ∧ s.dec.frm.mode ≠ .sof3) ∧
    let covered := fun (c by' bx m : Nat) =>
      c < s.dec.frm.ncomp.toNat ∧ bx < bwOf s.env c ∧ m < 64 ∧ 0 * vOf s.env c ≤ by' ∧
        by' < (0 + bandCount s 0 0) * vOf s.env c
    let sample := fun (c by' bx m : Nat) => planeAddr s.env c (8 * bx + m % 8) (8 * by' + m / 8)
    (∀ b, 0 ≤ b → b < 0 + bandCount s 0 0 → idctReady s b) ∧
    ∀ c r bx m, covered c r bx m →
      notCommand s 8 (sample c r bx m) ∧
      (∀ c' r' bx' m', covered c' r' bx' m' → sample c r bx m = sample c' r' bx' m' →
        c = c' ∧ r = r' ∧ bx = bx' ∧ m = m') ∧
      ∀ c' r' bx' k, covered c' r' bx' 0 → k < 128 →
        sample c r bx m ≠ coefAddr s.env c' bx' r' + BitVec.ofNat 32 k := by
  intro s
  have hc : ∀ {c r bx m : Nat},
      (c < s.dec.frm.ncomp.toNat ∧ bx < bwOf s.env c ∧ m < 64 ∧ 0 * vOf s.env c ≤ r ∧
        r < (0 + bandCount s 0 0) * vOf s.env c) → c = 0 ∧ r = 0 ∧ bx = 0 ∧ m < 64 := by
    rintro c r bx m ⟨h1, h2, h3, -, h5⟩
    have : c = 0 := Nat.lt_one_iff.mp h1
    subst this
    exact ⟨rfl, Nat.lt_one_iff.mp h5, Nat.lt_one_iff.mp h2, h3⟩
  refine ⟨by decide +kernel, ?_, ?_⟩
  · intro b _ h
    rw [band_zero (by decide +kernel) h]
    decide +kernel
  · intro c r bx m h
    obtain ⟨rfl, rfl, rfl, hm⟩ := hc h
    have hp : ∀ m, m < 64 → (planeAddr s.env 0 (8 * 0 + m % 8) (8 * 0 + m / 8)).toNat = 0x3000 + 16 * (m / 8) + m % 8 := by
      intro m hm
      rw [show 8 * 0 + m % 8 = m % 8 by omega, show 8 * 0 + m / 8 = m / 8 by omega]
      exact grey_plane _ (by omega) _ (by omega)
    refine ⟨fun j hj => toNat_ne ?_, fun c' r' bx' m' h' he => ?_, fun c' r' bx' k h' hk => toNat_ne ?_⟩
    · show (planeAddr s.env 0 (8 * 0 + m % 8) (8 * 0 + m / 8)).toNat ≠ _
      rw [hp m hm, grey_word j hj]
      omega
    · obtain ⟨rfl, rfl, rfl, hm'⟩ := hc h'
      have h2 : (planeAddr s.env 0 (8 * 0 + m % 8) (8 * 0 + m / 8)).toNat =
          (planeAddr s.env 0 (8 * 0 + m' % 8) (8 * 0 + m' / 8)).toNat := congrArg BitVec.toNat he
      rw [hp m hm, hp m' hm'] at h2
      exact ⟨rfl, rfl, rfl, by omega⟩
    · obtain ⟨rfl, rfl, rfl, -⟩ := hc h'
      show (planeAddr s.env 0 (8 * 0 + m % 8) (8 * 0 + m / 8)).toNat ≠ _
      rw [hp m hm, grey_coef k hk]
      omega

/-! Where the 4:2:2 frame's samples lie. -/

theorem wide_uplane : ∀ c, c < 3 → ∀ x, x < 16 → ∀ y, y < 8 →
    (uplaneAddr wide.env c x y).toNat = 0x5000 + 0x200 * c + 16 * y + x := by decide +kernel

theorem wide_plane : ∀ c, c < 3 → ∀ x, x < 16 → ∀ y, y < 8 →
    (planeAddr wide.env c x y).toNat = 0x3000 + 0x200 * c + 16 * y + x := by decide +kernel

theorem wide_word : ∀ j, j < 8 → (wide.proc.cqPtr + BitVec.ofNat 32 j).toNat = 0x100 + j := by decide +kernel

theorem test_witness_UpsrowFillsTheUplanes :
    let s := wide
    (s.memCanonical = true ∧ rowOk s 0 0 ∧ s.dec.frm.mode ≠ .sof3) ∧
    let covered := fun (c xo yo : Nat) =>
      c < s.dec.frm.ncomp.toNat ∧ fullRes s.env c = false ∧ xo < 8 * s.dec.frm.hmax.toNat * s.dec.frm.mcux.toNat ∧
        8 * s.dec.frm.vmax.toNat * 0 ≤ yo ∧ yo < 8 * s.dec.frm.vmax.toNat * (0 + bandCount s 0 0)
    (∀ b, 0 ≤ b → b < 0 + bandCount s 0 0 → upsReady s b) ∧
    ∀ c xo yo, covered c xo yo →
      factorsOk s c ∧ notCommand s 8 (uplaneAddr s.env c xo yo) ∧
      (∀ c' xo' yo', covered c' xo' yo' → uplaneAddr s.env c xo yo = uplaneAddr s.env c' xo' yo' →
        c = c' ∧ xo = xo' ∧ yo = yo') ∧
      ∀ c' i j, c' < s.dec.frm.ncomp.toNat → fullRes s.env c' = false → i < (s.dec.frm.geo.get c').cw →
        j < (s.dec.frm.geo.get c').ch → uplaneAddr s.env c xo yo ≠ planeAddr s.env c' i j := by
  intro s
  have hc : ∀ {c x y : Nat},
      (c < s.dec.frm.ncomp.toNat ∧ fullRes s.env c = false ∧ x < 8 * s.dec.frm.hmax.toNat * s.dec.frm.mcux.toNat ∧
        8 * s.dec.frm.vmax.toNat * 0 ≤ y ∧ y < 8 * s.dec.frm.vmax.toNat * (0 + bandCount s 0 0)) →
        c < 3 ∧ fullRes s.env c = false ∧ x < 16 ∧ y < 8 := fun ⟨h1, h2, h3, _, h5⟩ => ⟨h1, h2, h3, h5⟩
  refine ⟨by decide +kernel, ?_, ?_⟩
  · intro b _ h
    rw [band_zero (by decide +kernel) h]
    decide +kernel
  · intro c x y h
    obtain ⟨h1, h2, h3, h4⟩ := hc h
    refine ⟨?_, fun j hj => toNat_ne ?_, fun c' x' y' h' he => ?_, fun c' i j hc' hf hi hj => toNat_ne ?_⟩
    · exact (by decide +kernel : ∀ c, c < 3 → fullRes wide.env c = false → factorsOk wide c) c h1 h2
    · rw [wide_uplane c h1 x h3 y h4, wide_word j hj]
      omega
    · obtain ⟨g1, -, g3, g4⟩ := hc h'
      have h5 := congrArg BitVec.toNat he
      rw [wide_uplane c h1 x h3 y h4, wide_uplane c' g1 x' g3 y' g4] at h5
      omega
    · have hd : c' < 3 → i < 16 ∧ j < 8 := fun hc' => by
        have := (by decide +kernel : ∀ c, c < 3 →
          (wide.dec.frm.geo.get c).cw ≤ 16 ∧ (wide.dec.frm.geo.get c).ch ≤ 8) c' hc'
        exact ⟨Nat.lt_of_lt_of_le hi this.1, Nat.lt_of_lt_of_le hj this.2⟩
      rw [wide_uplane c h1 x h3 y h4, wide_plane c' hc' i (hd hc').1 j (hd hc').2]
      have : c' < 3 := hc'
      have := hd hc'
      omega

/-- Another layout. -/
theorem test_witness_UpsrowFillsTheUplanes_other :
    let s := { wide with dec := { wide.dec with frm := { wide.dec.frm with layout := .other } } }
    s.memCanonical = true ∧ rowOk s 0 0 ∧ s.dec.frm.mode ≠ .sof3 ∧ s.dec.frm.layout = .other := by decide +kernel

/-- The 4:2:2 frame's image of 2 × 1 pixels, to RGB. -/
def pair : State := small 2 1 wide

/-- The same to packed 4:2:2. -/
def packed : State := { pair with cfg := { wide.cfg with dst422 := true, dstCs := 4, dstNch := 2 } }

/-- No colour space; no conversion. -/
theorem test_witness_CcvrowConvertsThePixels_errors :
    (pair.memCanonical = true ∧ rowOk pair 0 0) ∧
    (wideFrame.memCanonical = true ∧ rowOk wideFrame 0 0 ∧ wideFrame.dec.scn.csValid = false) ∧
    (pair.dec.scn.csValid = true ∧ ccvDispatch { pair.env with cfg := { pair.cfg with dstNch := 4 } } = none) := by
  and_intros <;> decide +kernel

theorem test_witness_CcvrowConvertsThePixels :
    let s := pair
    let line := fun (y : Nat) => ∃ b, 0 ≤ b ∧ b < 0 + bandCount s 0 0 ∧ imageRow s.env b y
    (∀ b, 0 ≤ b → b < 0 + bandCount s 0 0 → ccvReady s b) ∧ ccvDispatch s.env = some .rgb ∧
    let covered := fun (y x ch i : Nat) =>
      line y ∧ x < s.dec.frm.x.toNat ∧ ch < s.cfg.dstNch.toNat ∧ i < dstBps s.env
    let pixel := fun (y x ch i : Nat) => dstAddr s.env x y ch + BitVec.ofNat 32 i
    ∀ y x ch i, covered y x ch i →
      notCommand s 8 (pixel y x ch i) ∧
      (∀ y' x' ch' i', covered y' x' ch' i' → pixel y x ch i = pixel y' x' ch' i' →
        y = y' ∧ x = x' ∧ ch = ch' ∧ i = i') ∧
      ∀ y' x' c j, line y' → x' < s.dec.frm.x.toNat → c < s.dec.frm.ncomp.toNat → j < inputBytes s.env c →
        pixel y x ch i ≠ inputAddr s.env c x' y' + BitVec.ofNat 32 j := by
  intro s line
  have hl : ∀ {y : Nat}, line y → y = 0 := fun ⟨_, _, _, _, _, h⟩ => Nat.lt_one_iff.mp h
  have hp : ∀ x, x < 2 → ∀ ch, ch < 3 → (dstAddr pair.env x 0 ch + BitVec.ofNat 32 0).toNat = 0x4000 + 3 * x + ch := by
    decide +kernel
  have hi : ∀ x, x < 2 → ∀ c, c < 3 → ∀ j, j < inputBytes pair.env c →
      (inputAddr pair.env c x 0 + BitVec.ofNat 32 j).toNat < 0x4000 ∨
        0x5000 ≤ (inputAddr pair.env c x 0 + BitVec.ofNat 32 j).toNat := by decide +kernel
  refine ⟨?_, by decide +kernel, ?_⟩
  · intro b _ h
    rw [band_zero (by decide +kernel) h]
    exact ccv_ready.1
  · intro covered pixel y x ch i ⟨hy, hx, hch, hb⟩
    obtain rfl := hl hy
    obtain rfl : i = 0 := Nat.lt_one_iff.mp hb
    have hx2 : x < 2 := hx
    have hch3 : ch < 3 := hch
    refine ⟨fun j hj => toNat_ne ?_, ?_, fun y' x' c j hy' hx' hc' hj => toNat_ne ?_⟩
    · rw [hp x hx ch hch, show (s.proc.cqPtr + BitVec.ofNat 32 j).toNat = 0x100 + j from wide_word j hj]
      omega
    · rintro y' x' ch' i' ⟨hy', hx', hch', hb'⟩ he
      obtain rfl := hl hy'
      obtain rfl : i' = 0 := Nat.lt_one_iff.mp hb'
      have h5 := congrArg BitVec.toNat he
      have hch3' : ch' < 3 := hch'
      rw [hp x hx ch hch, hp x' hx' ch' hch'] at h5
      omega
    · obtain rfl := hl hy'
      have := hi x' hx' c hc' j hj
      rw [hp x hx ch hch]
      intro h6
      rw [← h6] at this
      omega

theorem test_witness_CcvrowConvertsThePixels_packed :
    let s := packed
    let line := fun (y : Nat) => ∃ b, 0 ≤ b ∧ b < 0 + bandCount s 0 0 ∧ imageRow s.env b y
    (∀ b, 0 ≤ b → b < 0 + bandCount s 0 0 → ccvReady s b) ∧ ccvDispatch s.env = some .p422 ∧
    let covered := fun (y pr j : Nat) => line y ∧ pr < upDiv s.dec.frm.x.toNat 2 ∧ j < 4
    ∀ y pr j, covered y pr j →
      notCommand s 8 (packedAddr s.env y pr j) ∧
      (∀ y' pr' j', covered y' pr' j' → packedAddr s.env y pr j = packedAddr s.env y' pr' j' →
        y = y' ∧ pr = pr' ∧ j = j') ∧
      ∀ y' pr' j', covered y' pr' j' → packedAddr s.env y pr j ≠ packedFrom s.env y' pr' j' := by
  intro s line
  have hl : ∀ {y : Nat}, line y → y = 0 := fun ⟨_, _, _, _, _, h⟩ => Nat.lt_one_iff.mp h
  have hu : upDiv s.dec.frm.x.toNat 2 = 1 := by decide +kernel
  have hz : ∀ {n : Nat}, n < upDiv s.dec.frm.x.toNat 2 → n = 0 := fun h => by omega
  have hp : ∀ j, j < 4 → (packedAddr packed.env 0 0 j).toNat = 0x4000 + j := by decide +kernel
  have hf : ∀ j, j < 4 → (packedFrom packed.env 0 0 j).toNat < 0x4000 := by decide +kernel
  refine ⟨?_, by decide +kernel, ?_⟩
  · intro b _ h
    rw [band_zero (by decide +kernel) h]
    exact ccv_ready.2.2
  · intro covered y pr j ⟨hy, hpr, hj⟩
    obtain rfl := hl hy
    obtain rfl := hz hpr
    refine ⟨fun k hk => toNat_ne ?_, ?_, ?_⟩
    · rw [hp j hj, show (s.proc.cqPtr + BitVec.ofNat 32 k).toNat = 0x100 + k from wide_word k hk]
      omega
    · rintro y' pr' j' ⟨hy', hpr', hj'⟩ he
      obtain rfl := hl hy'
      obtain rfl := hz hpr'
      have h5 := congrArg BitVec.toNat he
      rw [hp j hj, hp j' hj'] at h5
      exact ⟨rfl, rfl, by omega⟩
    · rintro y' pr' j' ⟨hy', hpr', hj'⟩
      obtain rfl := hl hy'
      obtain rfl := hz hpr'
      apply toNat_ne
      have : (packedFrom s.env 0 0 j').toNat < 0x4000 := hf j' hj'
      rw [hp j hj]
      omega

theorem test_witness_ConversionsFollowTheTables : (0 : Int) ≤ 255 ∧ (255 : Int) ≤ 255 := by decide

theorem test_witness_LosslessFramesAreOnlyConverted :
    lineState.dec.frm.mode = .sof3 ∧ rowOk lineState 0 1 ∧ lineState.dec.frm.ncomp = 1 ∧ lineState.dec.scn.cs = .gray ∧
    ccvDispatch ({ lineState with cfg := { lineState.cfg with dstPrec16 := true } } : State).env = some .copy := by
  and_intros <;> decide +kernel

theorem test_witness_RecrowReconstructsAGreyFrame :
    let s := grey
    (s.memCanonical = true ∧ rowOk s 0 0 ∧ s.dec.frm.mode ≠ .sof3 ∧ s.dec.frm.ncomp = 1 ∧
      (s.dec.frm.comp.get 0).v = 1 ∧ fullRes s.env 0 = true ∧ s.dec.frm.vmax = 1 ∧ s.dec.scn.csValid = true ∧
      ccvDispatch s.env = some .copy ∧ s.cfg.dstPrec16 = false ∧ s.dec.frm.x.toNat ≤ 8 * bwOf s.env 0 ∧
      s.dec.frm.y.toNat ≤ 8 * bandsIn s) ∧
    let plane := fun (x y : Nat) => planeAddr s.env 0 x y
    let pixel := fun (x y : Nat) => dstAddr s.env x y 0
    let inPlane := fun (x y : Nat) => x < 8 * bwOf s.env 0 ∧ y < 8 * bandsIn s
    let inImage := fun (x y : Nat) => x < s.dec.frm.x.toNat ∧ y < s.dec.frm.y.toNat
    let coef := fun (bx by' k : Nat) => coefAddr s.env 0 bx by' + BitVec.ofNat 32 k
    (∀ b, b < bandsIn s → recReady s b) ∧
    (∀ x y x' y', inPlane x y → inPlane x' y' → plane x y = plane x' y' → x = x' ∧ y = y') ∧
    (∀ x y x' y', inImage x y → inImage x' y' → pixel x y = pixel x' y' → x = x' ∧ y = y') ∧
    (∀ x y x' y', inPlane x y → inImage x' y' → plane x y ≠ pixel x' y') ∧
    (∀ x y bx by' k, inPlane x y → bx < bwOf s.env 0 → by' < bandsIn s → k < 128 → plane x y ≠ coef bx by' k) ∧
    (∀ x y bx by' k, inImage x y → bx < bwOf s.env 0 → by' < bandsIn s → k < 128 → pixel x y ≠ coef bx by' k) ∧
    (∀ x y, inPlane x y → notCommand s 8 (plane x y)) ∧ ∀ x y, inImage x y → notCommand s 8 (pixel x y) := by
  intro s
  have hw : ∀ {x y : Nat}, (x < 8 * bwOf s.env 0 ∧ y < 8 * bandsIn s) → x < 8 ∧ y < 8 := fun h => h
  have hi : ∀ {x y : Nat}, (x < s.dec.frm.x.toNat ∧ y < s.dec.frm.y.toNat) → x < 8 ∧ y < 8 := fun h => h
  have hp : ∀ {x y : Nat}, x < 8 ∧ y < 8 → (planeAddr s.env 0 x y).toNat = 0x3000 + 16 * y + x :=
    fun h => grey_plane _ h.1 _ h.2
  have hd : ∀ {x y : Nat}, x < 8 ∧ y < 8 → (dstAddr s.env x y 0).toNat = 0x4000 + 64 * y + x :=
    fun h => grey_pixel _ h.1 _ h.2
  have hk : ∀ {bx b k : Nat}, bx < bwOf s.env 0 → b < bandsIn s → k < 128 →
      (coefAddr s.env 0 bx b + BitVec.ofNat 32 k).toNat = 0x2000 + k := by
    intro bx b k h1 h2 h3
    obtain rfl : bx = 0 := Nat.lt_one_iff.mp h1
    obtain rfl : b = 0 := Nat.lt_one_iff.mp h2
    exact grey_coef k h3
  refine ⟨by and_intros <;> decide +kernel, ?_, ?_, ?_, ?_, ?_, ?_, ?_, ?_⟩
  · intro b h
    obtain rfl : b = 0 := Nat.lt_one_iff.mp h
    exact rec_ready (by decide) (by decide +kernel) (by decide +kernel) ccv_ready.2.1
  · intro x y x' y' h h' he
    have h5 := congrArg BitVec.toNat he
    rw [hp (hw h), hp (hw h')] at h5
    have := hw h
    have := hw h'
    omega
  · intro x y x' y' h h' he
    have h5 := congrArg BitVec.toNat he
    rw [hd (hi h), hd (hi h')] at h5
    have := hi h
    have := hi h'
    omega
  · intro x y x' y' h h'
    apply toNat_ne
    rw [hp (hw h), hd (hi h')]
    have := hw h
    omega
  · intro x y bx b k h h1 h2 h3
    apply toNat_ne
    rw [hp (hw h), hk h1 h2 h3]
    omega
  · intro x y bx b k h h1 h2 h3
    apply toNat_ne
    rw [hd (hi h), hk h1 h2 h3]
    omega
  · intro x y h j hj
    apply toNat_ne
    rw [hp (hw h), grey_word j hj]
    omega
  · intro x y h j hj
    apply toNat_ne
    rw [hd (hi h), grey_word j hj]
    omega

/-! ### Witnesses: invariants and whole-machine rules -/

/-- The grey frame before program A's DECROW, its command at CQ_PTR: a state that meets every invariant and steps. -/
def ready : State := put 0x100 (encodeBytes (.decrow 0)) (stream bits grey)

theorem test_witness_invariants : ready.inv = true ∧ step ready = .next (nextOf (step ready)) :=
  ⟨by decide +kernel, eq_next (by decide +kernel)⟩

theorem test_witness_StepKeepsMemoryCanonical : ready.memCanonical = true := by decide +kernel

theorem test_witness_StepKeepsRegistersLegal : ready.procLegal = true ∧ ready.entropyLegal = true := by decide +kernel

theorem test_witness_StepKeepsCodesDerived : ready.huffDerived = true := by decide +kernel

theorem test_witness_StepKeepsHeadersLegal : ready.headersLegal = true := by decide +kernel

/-- The state after program A's DECROW. -/
def decoded : State := nextOf (step ready)

/-- The last word below the window, idle and BUSY; beside a run, a byte it has not touched, one it has written, and one
it has only read; and a step of the run. -/
theorem test_witness_HostLoadsWhatItStored :
    ((idle grey).memCanonical = true ∧ (idle grey).proc.busy = false) ∧
    (grey.memCanonical = true ∧ grey.proc.busy = true ∧ touchesWindow grey.params 0xFFFFDFFC .w32 = false) ∧
    (decoded.proc.busy = true ∧ touchedByte decoded.race.log 0x3000 = false ∧
      wroteByte decoded.race.log 0x2000 = true ∧ touchedByte decoded.race.log 0x1000 = true ∧
      wroteByte decoded.race.log 0x1000 = false) ∧
    (ready.memCanonical = true ∧ ready.events = []) ∧ step ready = .next decoded :=
  and_assoc.mp ⟨by decide +kernel, by and_intros <;> decide +kernel, by and_intros <;> decide +kernel,
    eq_next (by decide +kernel)⟩

/-- A run whose first command has no accessible word, beside a store to 0x4000 and a log that says it touched that. -/
def unreadable : State :=
  { holes [(0x100, 1)] start with
    race :=
      { { start.runStart with cqPtr := 0x100 }.race with
        stored := [0x4000], log := [{ reads := [⟨.dst, 0x4000, 0x4000⟩], writes := [⟨.dst, 0x5000, 0x5000⟩] }] } }

/-- Its fetch reads no byte. -/
theorem unreadable_fetch (as : List Word) (f : Word → Byte) :
    fetch (unreadable.atGo.beside as f) = .error ⟨.busError, 0x100⟩ := by
  have h : fetchBytes unreadable.params (unreadable.atGo.beside as f).mem 4 0x100 = .error ⟨.busError, 0x100⟩ := by
    rw [fetchBytes, if_neg (by decide +kernel)]
  show fetchBytes unreadable.params (unreadable.atGo.beside as f).mem 4 0x100 >>= _ = _
  rw [h]
  rfl

theorem unreadable_rerun (as : List Word) (f : Others) :
    rerun as f unreadable.atGo 1 = errorEntry ⟨.busError, 0x100⟩ unreadable.atGo := by
  rw [rerun, rerun, if_pos (by decide +kernel), rerunCommand, unreadable_fetch]

/-- A byte of the output that the run leaves the same whatever the byte stored to holds, with a race. -/
theorem test_witness_HostLoadsWhatItStored_same :
    (wroteByte unreadable.race.log 0x5000 = true ∧ unreadable.race.quiet = false ∧ 0x5000#32 ∉ unreadable.race.stored ∧
      unreadable.race.stored.any (touchedByte unreadable.race.log) = true) ∧
    keptBeside unreadable unreadable.race.stored unreadable.race.log 0x5000 :=
  ⟨by decide +kernel, .inr (.inr ⟨by decide +kernel, fun f g =>
    congrArg (fun s : State => s.mem.read (0x5000#32).toNat) ((unreadable_rerun _ f).trans (unreadable_rerun _ g).symm)⟩)⟩

/-- The byte stored to, which the run does not write; and a byte beside a store to a byte the run does not touch. -/
theorem test_witness_HostLoadsWhatItStored_stored :
    (wroteByte unreadable.race.log 0x4000 = false ∧
      keptBeside unreadable unreadable.race.stored unreadable.race.log 0x4000) ∧
    keptBeside unreadable [0x6000] unreadable.race.log 0x4001 :=
  ⟨⟨by decide +kernel, .inr (.inl ⟨by decide +kernel, by decide +kernel, fun f =>
    (congrArg (fun s : State => wroteByte s.race.log 0x4000) (unreadable_rerun _ f)).trans (by decide +kernel)⟩)⟩,
    .inl (List.forall_mem_singleton.mpr (by decide +kernel))⟩

/-- A byte of memory that `n` commands leave, beside a value in one byte. -/
def leaves (is : List Instr) (s : State) (b : Word) (v : Byte) (a : Nat) : Byte :=
  (rerun [b] (fun _ => { fetched := fun _ => v, held := fun _ => v, given := List.replicate 64 v })
    (put 0x100 (is.flatMap encodeBytes) s) is.length).mem.read a

/-- A 16 × 8 grey frame. -/
def twoBlocks : State :=
  { grey with
    dec :=
      { grey.dec with
        scn := { oneBlock with scols := 2 }
        frm := { greyFrame with x := 16, mcux := 2, coefNeed := 256, geo := ⟨⟨2, 1, 16, 8, 0⟩, Geo.reset, Geo.reset, Geo.reset⟩ } } }

/-- I5: what a stream byte holds changes the block whose bits it has (48 or 0), and not the block before it; what a table's
element holds changes a block of that table, and not one of another. -/
theorem test_dependent_blocks :
    let d := leaves [.decrow 0] (stream [0x5A, 0xB0, 0x7F] twoBlocks) 0x1001
    let q := fun (t : Nat) =>
      leaves [.ldqt, .idctblk t 0x2000 0x4000 8]
        (put 0x2000 [80] (stream ([0x00, 0x43, 0x01] ++ List.replicate 64 0x01) grey)) 0x1003
    (d 0xB0 0x2080 = 48 ∧ d 0x30 0x2080 = 0 ∧ d 0xB0 0x2002 = 1 ∧ d 0x30 0x2002 = 1) ∧
    (q 1 1 0x4000 = 138 ∧ q 1 2 0x4000 = 148 ∧ q 0 1 0x4000 = 138 ∧ q 0 2 0x4000 = 138) := by decide +kernel

/-- I5: what a Cr sample holds changes the red of its pixel, and neither its blue nor another pixel; what a plane sample
holds when RECROW reads it changes its pixel, and not the next, also where the pixels follow RECROW's own words. -/
theorem test_dependent_pixels :
    let c := leaves [.ccvrow 0 0] (small 2 1 wide) 0x5400
    let r := leaves [.recrow 0 0] (put 0x2000 [48] grey) 0x3000
    let r' := leaves [.recrow 0 0] (put 0x2000 [48] { grey with cfg := { grey.cfg with dstBase := 0x110 } }) 0x3000
    (c 50 0x4000 ≠ c 250 0x4000 ∧ c 50 0x4002 = c 250 0x4002 ∧ c 50 0x4003 = c 250 0x4003) ∧
    (r 1 0x4000 = 1 ∧ r 2 0x4000 = 2 ∧ r 1 0x4001 = 134 ∧ r 2 0x4001 = 134) ∧
    (r' 1 0x110 = 1 ∧ r' 2 0x110 = 2 ∧ r' 1 0x111 = 134 ∧ r' 2 0x111 = 134) := by decide +kernel

/-- I5: where the destination begins one byte after the plane, a store to plane byte 1 between CCVROW's own write of it and
its read of it changes the destination byte past the plane; without one that byte is plane byte 0. -/
theorem test_dependent_within_a_command :
    let s := put 0x3000 [7, 0, 0, 0, 0, 0, 0, 0] (small 8 1 { grey with cfg := { grey.cfg with dstBase := 0x3001 } })
    let m := fun (h : Beside) => (workOf h (.ccvrow 0 0) s).mem.read 0x3008
    m { bytes := [0x3001], given := [5] } = 5 ∧ m { bytes := [0x3001], given := [] } = 7 ∧
    m { bytes := [0x3001], given := [0, 5] } = 0 ∧ m { bytes := [0x4000], given := [5] } = 7 := by decide +kernel

/-- I5: where X's low byte is the opcode's own byte, a store to it between SETFRM's fetch and its read of X changes X. -/
theorem test_dependent_between_fetch_and_body :
    let s := put 0xFD [0, 11, 8, 3, 0, 0, 0x12, 1, 1, 0x11, 0] { start with cfg := { start.cfg with srcBase := 0xFD, srcLen := 11 } }
    let x := fun (v : Byte) => (rerunCommand [0x103] { fetched := fun _ => 0x12, held := fun _ => v, given := [] } s).dec.frm.x
    x 0x12 = 0x12 ∧ x 0x40 = 0x40 := by decide +kernel

/-- I5: what X's low byte holds decides whether SETFRM's zero fill reaches the second block's last byte, so that a store to it
leaves that byte open too, whichever X the run has read. -/
theorem test_dependent_extent :
    let s := stream (sofBytes 11 8 8 8 mono) start
    let w := fun (v : Byte) =>
      wroteByte (rerunCommand [0x1006] { fetched := fun _ => v, held := fun _ => v, given := [] }
        (put 0x100 (encodeBytes (.setfrm .sof0)) s)).race.log 0x20FF
    w 8 = false ∧ w 16 = true := by decide +kernel

/-- R97 (a), (c): a store beside a run, to a byte that the run does not touch, is there for a later run. -/
theorem test_store_beside_a_run_stays :
    let s := racedStore 0x8000 .w8 5 ready
    s.mem.read 0x8000 = 5 ∧ (startRun (idle s)).race.quiet = true ∧ (startRun (idle s)).mem.read 0x8000 = 5 := by
  decide +kernel

/-! ### The step's own interface -/

/-- From reset, the word placed by withFetchWord is the one the next step runs. -/
theorem test_step_runs_the_placed_word :
    (nextOf (step (State.reset.withFetchWord 32 0x01000000))).proc.cqPtr = 4#32 ∧
    csrRead (nextOf (step (State.reset.withFetchWord 32 0x02000000))) 0x008 = 2#32 := by decide +kernel

theorem test_reset_meets_the_invariants : State.reset.inv = true := by decide +kernel

end Sys2Proof.Tests
end

section
/-! The bit reader's byte fill (R87): what one source byte gives, how fill bytes are passed, and each form FillByte takes. -/
namespace Sys2Proof.Cert
open Sys2Proof.Machine

/-! ### The stream, byte by byte -/

theorem srcByteIn_eq_ok {p : Params} {c : Cfg} {m : Memory} {i : Nat} {b : Byte} :
    srcByteIn p c m i = .ok b ↔
      i < c.srcLen.toNat ∧ p.memOk (srcAddr c i).toNat = true ∧ m.read (srcAddr c i).toNat = b := by
  unfold srcByteIn
  split
  · simp; omega
  · split <;> simp_all

/-- A byte that cannot be read is one SrcByte raises at. -/
theorem srcByteIn_of_noByteAt {p : Params} {c : Cfg} {i : Nat} {x : Raise} (h : noByteAt p c i x) (m : Memory) :
    srcByteIn p c m i = .error x := by
  unfold srcByteIn
  rcases h with ⟨hi, rfl⟩ | ⟨hi, hok, rfl⟩
  · rw [if_pos hi]
  · rw [if_neg (by omega), if_neg (by rw [srcAddr, hok]; decide)]
    rfl

theorem srcIs_cons {p : Params} {c : Cfg} {m : Memory} {i : Nat} {b : Byte} {bs : List Byte} :
    srcIs p c m i (b :: bs) ↔ srcByteIn p c m i = .ok b ∧ srcIs p c m (i + 1) bs := by
  rw [srcByteIn_eq_ok]
  constructor
  · refine fun h => ⟨h 0 (by simp), fun j hj => ?_⟩
    have := h (j + 1) (by simpa using hj)
    rwa [show i + (j + 1) = i + 1 + j by omega] at this
  · rintro ⟨hb, hbs⟩ (_ | j) hj
    · exact hb
    · have := hbs j (by simpa using hj)
      rwa [show i + 1 + j = i + (j + 1) by omega] at this

theorem srcIs_append {p : Params} {c : Cfg} {m : Memory} {i : Nat} {as bs : List Byte} :
    srcIs p c m i (as ++ bs) ↔ srcIs p c m i as ∧ srcIs p c m (i + as.length) bs := by
  induction as generalizing i with
  | nil => simp [srcIs]
  | cons a as ih =>
    rw [List.cons_append, srcIs_cons, srcIs_cons, ih, and_assoc, List.length_cons, Nat.add_right_comm, Nat.add_assoc]

/-- The offset of a source byte that can be read lies below SRC_LEN, and so do those of the bytes before it. -/
theorem length_le_of_srcIs {p : Params} {c : Cfg} {m : Memory} {i : Nat} {bs : List Byte} (h : srcIs p c m i bs) :
    bs.length ≤ c.srcLen.toNat - i := by
  rcases Nat.eq_zero_or_pos bs.length with h0 | h0
  · omega
  · have := (h (bs.length - 1) (by omega)).1
    omega

/-! ### One byte of a running DECROW -/

variable {e : Env} {w : DecW}

theorem liftMem_srcByte_ok (hn : w.mw.host = .none) {q : Nat} {b : Byte}
    (h : srcByteIn e.params e.cfg w.mw.mem q = .ok b) :
    ∃ r, liftMem (srcByte e q) w = .ok b (withReads r w) := by
  unfold liftMem
  rw [srcByte_none hn, h]
  exact ⟨_, rfl⟩

theorem liftMem_srcByte_error (hn : w.mw.host = .none) {q : Nat} {x : Raise}
    (h : srcByteIn e.params e.cfg w.mw.mem q = .error x) : liftMem (srcByte e q) w = .error x w := by
  unfold liftMem
  rw [srcByte_none hn, h]

/-! ### Fill bytes -/

theorem skipFill_succ (fuel q : Nat) :
    skipFill e (fuel + 1) q =
      (liftMem (srcByte e q) >>= fun b => if b = 0xFF#8 then skipFill e fuel (q + 1) else pure q) := rfl

/-- The search passes fill bytes. -/
theorem skipFill_replicate (hn : w.mw.host = .none) {n q : Nat}
    (h : srcIs e.params e.cfg w.mw.mem q (List.replicate n 0xFF#8)) (fuel : Nat) :
    ∃ r, skipFill e (n + fuel) q w = skipFill e fuel (q + n) (withReads r w) := by
  induction n generalizing q w with
  | zero => exact ⟨w.mw.reads, by rw [Nat.zero_add]; rfl⟩
  | succ n ih =>
    obtain ⟨hb, hbs⟩ := srcIs_cons.mp h
    obtain ⟨r, hr⟩ := liftMem_srcByte_ok hn hb
    obtain ⟨r', hr'⟩ := ih (w := withReads r w) hn hbs
    refine ⟨r', ?_⟩
    rw [Nat.add_right_comm, skipFill_succ, bind_run, hr]
    simp only [if_true]
    rw [hr', Nat.add_assoc, Nat.add_comm 1]
    rfl

/-- The search stops at the first byte that is not a fill byte. -/
theorem skipFill_stops (hn : w.mw.host = .none) {n q fuel : Nat} {b : Byte} (hb : b ≠ 0xFF#8)
    (h : srcIs e.params e.cfg w.mw.mem q (List.replicate n 0xFF#8 ++ [b])) (hf : n < fuel) :
    ∃ r, skipFill e fuel q w = .ok (q + n) (withReads r w) := by
  obtain ⟨f, rfl⟩ : ∃ f, fuel = n + (f + 1) := ⟨fuel - n - 1, by omega⟩
  obtain ⟨hfill, hlast⟩ := srcIs_append.mp h
  rw [List.length_replicate] at hlast
  obtain ⟨r, hr⟩ := skipFill_replicate hn hfill (f + 1)
  obtain ⟨r', hr'⟩ := liftMem_srcByte_ok (w := withReads r w) hn (srcIs_cons.mp hlast).1
  refine ⟨r', ?_⟩
  rw [hr, skipFill_succ, bind_run, hr']
  simp only [if_neg hb]
  rfl

/-- The search raises where no byte ends the fill bytes. -/
theorem skipFill_raises (hn : w.mw.host = .none) {n q fuel : Nat} {x : Raise}
    (h : srcIs e.params e.cfg w.mw.mem q (List.replicate n 0xFF#8)) (hx : noByteAt e.params e.cfg (q + n) x)
    (hf : n < fuel) : ∃ r, skipFill e fuel q w = .error x (withReads r w) := by
  obtain ⟨f, rfl⟩ : ∃ f, fuel = n + (f + 1) := ⟨fuel - n - 1, by omega⟩
  obtain ⟨r, hr⟩ := skipFill_replicate hn h (f + 1)
  refine ⟨r, ?_⟩
  rw [hr, skipFill_succ, bind_run, liftMem_srcByte_error (w := withReads r w) hn (srcByteIn_of_noByteAt hx _)]

/-! ### FillByte -/

/-- A warning counter saturates. -/
theorem satInc_eq_countUp (v : Half) : satInc v = countUp v := by
  unfold satInc countUp
  split
  · subst_vars; rfl
  · bv_omega

theorem warnEnt_eq_warnedEnt (v : Warn) : v.warnEnt = warnedEnt v := by
  rw [Warn.warnEnt, satInc_eq_countUp, warnedEnt]

theorem loadByte_run (pos : Nat) (b : Byte) (w : DecW) : loadByte pos b w = .ok () (dataByte pos b w) := rfl

theorem supplyZero_run (w : DecW) : supplyZero w = .ok () (zeroByte w.ent.markerHit w) := by
  rw [zeroByte, ← warnEnt_eq_warnedEnt]
  rfl

/-- What FillByte does at the byte after 0xFF and any fill bytes (R87). -/
def afterFill (e : Env) (q : Nat) : DM Unit := do
  let z ← liftMem (srcByte e q)
  if z = 0 then loadByte (q + 1) 0xFF#8
  else do
    modEnt fun s => { s with markerHit := true }
    supplyZero

theorem fillByte_of_markerHit (h : w.ent.markerHit = true) : fillByte e w = .ok () (zeroByte true w) := by
  unfold fillByte
  rw [bind_run, get_run]
  simp only [h, if_true]
  rw [supplyZero_run, h]

theorem fillByte_of_no_markerHit (h : w.ent.markerHit = false) :
    fillByte e w =
      (liftMem (srcByte e w.pos.toNat) >>= fun b =>
        if b ≠ 0xFF#8 then loadByte (w.pos.toNat + 1) b
        else skipFill e (e.cfg.srcLen.toNat - w.pos.toNat) (w.pos.toNat + 1) >>= afterFill e) w := by
  conv_lhs => unfold fillByte
  rw [bind_run, get_run]
  simp only [h]
  rfl

/-- After 0xFF, FillByte passes the fill bytes and goes by the byte after them. -/
theorem fillByte_after_ff (hm : w.ent.markerHit = false) (hn : w.mw.host = .none)
    (h : srcByteIn e.params e.cfg w.mw.mem w.pos.toNat = .ok 0xFF#8) :
    ∃ r, fillByte e w =
      (skipFill e (e.cfg.srcLen.toNat - w.pos.toNat) (w.pos.toNat + 1) >>= afterFill e) (withReads r w) := by
  obtain ⟨r, hr⟩ := liftMem_srcByte_ok hn h
  refine ⟨r, ?_⟩
  rw [fillByte_of_no_markerHit hm, bind_run, hr]
  rfl

/-- FillByte takes a data byte. -/
theorem fillByte_data {b : Byte} (hm : w.ent.markerHit = false) (hb : b ≠ 0xFF#8)
    (h : streamHolds e w w.pos.toNat [b]) :
    ∃ r, fillByte e w = .ok () (withReads r (dataByte (w.pos.toNat + 1) b w)) := by
  obtain ⟨r, hr⟩ := liftMem_srcByte_ok h.2 (srcIs_cons.mp h.1).1
  refine ⟨r, ?_⟩
  rw [fillByte_of_no_markerHit hm, bind_run, hr]
  simp only [ne_eq, hb, not_false_eq_true, if_true]
  rfl

/-- At 0xFF, fill bytes and another byte, FillByte goes by that byte. -/
theorem fillByte_fill {n : Nat} {b : Byte} (hm : w.ent.markerHit = false) (hb : b ≠ 0xFF#8)
    (h : streamHolds e w w.pos.toNat (List.replicate (n + 1) 0xFF#8 ++ [b])) :
    ∃ r, fillByte e w =
      (if b = 0 then loadByte (w.pos.toNat + n + 2) 0xFF#8
        else modEnt (fun s => { s with markerHit := true }) >>= fun _ => supplyZero) (withReads r w) := by
  obtain ⟨hs, hn⟩ := h
  have hlen := length_le_of_srcIs hs
  obtain ⟨hff, hrest⟩ := srcIs_cons.mp hs
  have hlast := (srcIs_cons.mp (srcIs_append.mp hrest).2).1
  simp only [List.length_append, List.length_replicate, List.length_singleton] at hlen hlast
  obtain ⟨r, hr⟩ := fillByte_after_ff hm hn hff
  obtain ⟨r', hr'⟩ := skipFill_stops (w := withReads r w) hn hb hrest
    (show n < e.cfg.srcLen.toNat - w.pos.toNat by omega)
  obtain ⟨r'', hr''⟩ := liftMem_srcByte_ok (w := withReads r' w) hn hlast
  refine ⟨r'', ?_⟩
  rw [hr, bind_run, hr']
  simp only [afterFill]
  rw [show withReads r' (withReads r w) = withReads r' w from rfl, bind_run, hr'',
    show w.pos.toNat + 1 + n + 1 = w.pos.toNat + n + 2 by omega]
  rfl

/-- FillByte raises where the byte it needs, after any number of bytes 0xFF, cannot be read. -/
theorem fillByte_raises {n : Nat} {x : Raise} (hm : w.ent.markerHit = false)
    (h : streamHolds e w w.pos.toNat (List.replicate n 0xFF#8)) (hx : noByteAt e.params e.cfg (w.pos.toNat + n) x) :
    ∃ r, fillByte e w = .error x (withReads r w) := by
  obtain ⟨hs, hn⟩ := h
  cases n with
  | zero =>
    rw [Nat.add_zero] at hx
    refine ⟨w.mw.reads, ?_⟩
    rw [fillByte_of_no_markerHit hm, bind_run, liftMem_srcByte_error hn (srcByteIn_of_noByteAt hx _)]
    rfl
  | succ n =>
    have hlen := length_le_of_srcIs hs
    obtain ⟨hff, hrest⟩ := srcIs_cons.mp hs
    obtain ⟨r, hr⟩ := fillByte_after_ff hm hn hff
    rw [List.length_replicate] at hlen
    rw [Nat.add_comm n, ← Nat.add_assoc] at hx
    obtain ⟨r', hr'⟩ := skipFill_raises (w := withReads r w) hn hrest hx
      (show n < e.cfg.srcLen.toNat - w.pos.toNat by omega)
    refine ⟨r', ?_⟩
    rw [hr, bind_run, hr']
    rfl

/-- SrcByte is a MemRead of one byte, below SRC_LEN. -/
theorem srcByte_eq_memRead {i : Nat} (hi : i < e.cfg.srcLen.toNat) (m : MemW) :
    (srcByte e i >>= fun b => pure b.toNat) m = memRead e.params .src 1 (e.cfg.srcBase + BitVec.ofNat 32 i) m := by
  unfold srcByte
  rw [if_neg (by omega)]
  rfl

/-- Settles O30, from the form FillByte takes in each case. -/
theorem fillByteTakesEveryForm : Obligations.FillByteTakesEveryForm := by
  refine ⟨fun e i m => ⟨fun hi => ?_, fun hi => srcByte_eq_memRead hi m⟩, fun e w =>
    ⟨fillByte_of_markerHit, fun hm => ⟨fun b hb h => fillByte_data hm hb h, fun n h => ?_, fun n b h0 hb h => ?_,
      fun n x h hx => fillByte_raises hm h hx⟩⟩⟩
  · unfold srcByte
    rw [if_pos hi]
    rfl
  · obtain ⟨r, hr⟩ := fillByte_fill hm (by decide) h
    exact ⟨r, by rw [hr, if_pos rfl, loadByte_run]; rfl⟩
  · obtain ⟨r, hr⟩ := fillByte_fill hm hb h
    exact ⟨r, by rw [hr, if_neg h0, bind_run, modEnt, modify_run]; exact supplyZero_run _⟩

end Sys2Proof.Cert
end

section
/-! The memory primitives (R82) and the block access built on them (R90): the bytes a MemRead sums and a MemWrite stores,
up to the first byte that is not accessible, and a block read after it has been written. -/
namespace Sys2Proof.Cert
open Sys2Proof.Machine

/-! ### Addresses -/

theorem addr_add (a : Word) (j k : Nat) : a + BitVec.ofNat 32 j + BitVec.ofNat 32 k = a + BitVec.ofNat 32 (j + k) := by
  rw [BitVec.add_assoc, ← BitVec.ofNat_add]

theorem addr_succ (a : Word) (k : Nat) : a + 1 + BitVec.ofNat 32 k = a + BitVec.ofNat 32 (k + 1) := by
  rw [Nat.add_comm k]
  exact addr_add a 1 k

/-- Offsets below 2^32 give different addresses. -/
theorem addr_ne (a : Word) {j k : Nat} (hj : j < 2 ^ 32) (hk : k < 2 ^ 32) (h : j ≠ k) :
    a + BitVec.ofNat 32 j ≠ a + BitVec.ofNat 32 k := by
  intro e
  have hjk := congrArg BitVec.toNat (add_left_cancel e)
  rw [BitVec.toNat_ofNat, BitVec.toNat_ofNat, Nat.mod_eq_of_lt hj, Nat.mod_eq_of_lt hk] at hjk
  exact h hjk

/-! ### MemRead -/

/-- The little-endian value of `n` bytes of memory (R82). -/
def leValue (m : Memory) (a : Word) (n : Nat) : Nat := ((List.range n).map fun k => (byteAt m a k).toNat * 256 ^ k).sum

theorem leValue_succ (m : Memory) (a : Word) (n : Nat) :
    leValue m a (n + 1) = (m.read a.toNat).toNat + 256 * leValue m (a + 1) n := by
  unfold leValue
  rw [List.range_succ_eq_map, List.map_cons, List.sum_cons, List.map_map, ← List.sum_map_mul_left]
  congr 1
  · simp [byteAt]
  · refine congrArg List.sum (List.map_congr_left fun k _ => ?_)
    simp only [Function.comp_apply, byteAt, addr_succ, Nat.succ_eq_add_one]
    ring

variable {p : Params} {b : Buf} {a : Word}

/-- MemRead reads its accessible bytes in ascending order, and goes on at the byte after them. -/
theorem memRead_add {i : Nat} {w : MemW} (hn : w.host = .none) (hok : ∀ k, k < i → okAt p a k) (d : Nat) :
    ∃ w', memRead p b (i + d) a w =
        (memRead p b d (a + BitVec.ofNat 32 i) >>= fun r => pure (leValue w.mem a i + 256 ^ i * r)) w' ∧
      w'.mem = w.mem ∧ w'.host = .none := by
  induction i generalizing a w with
  | zero =>
    refine ⟨w, ?_, rfl, hn⟩
    simp [leValue]
  | succ i ih =>
    have h0 : p.memOk a.toNat = true := by simpa [okAt] using hok 0 (by omega)
    obtain ⟨w', hw', hm, hh⟩ := ih (a := a + 1) (w := { w with reads := logAccess b a.toNat w.reads }) hn
      fun k hk => by simpa only [okAt, addr_succ] using hok (k + 1) (by omega)
    refine ⟨w', ?_, hm, hh⟩
    rw [Nat.add_right_comm, memRead, bind_run, readByte_none hn, if_pos h0]
    simp only
    rw [bind_run, hw', addr_succ, bind_run, bind_run, leValue_succ]
    cases memRead p b d (a + BitVec.ofNat 32 (i + 1)) w' with
    | ok r u =>
      simp only [pure_run]
      congr 1
      ring
    | error r u => rfl

/-- MemRead gives the bytes' little-endian value where all are accessible. -/
theorem memRead_ok {n : Nat} {w : MemW} (hn : w.host = .none) (hok : ∀ k, k < n → okAt p a k) :
    ∃ w', memRead p b n a w = .ok (leValue w.mem a n) w' ∧ w'.mem = w.mem ∧ w'.host = .none := by
  obtain ⟨w', hw', hm, hh⟩ := memRead_add (b := b) hn hok 0
  exact ⟨w', by simpa [memRead, pure_run] using hw', hm, hh⟩

/-- MemRead raises at the first byte that is not accessible. -/
theorem memRead_busError {n i : Nat} {w : MemW} (hn : w.host = .none) (hi : i < n) (hok : ∀ k, k < i → okAt p a k)
    (hbad : ¬okAt p a i) :
    ∃ w', memRead p b n a w = .error ⟨.busError, a + BitVec.ofNat 32 i⟩ w' ∧ w'.mem = w.mem := by
  obtain ⟨d, rfl⟩ : ∃ d, n = i + (d + 1) := ⟨n - i - 1, by omega⟩
  obtain ⟨w', hw', hm, hh⟩ := memRead_add (b := b) hn hok (d + 1)
  refine ⟨w', ?_, hm⟩
  rw [hw', memRead, bind_run, bind_run, readByte_none hh, if_neg hbad]

/-! ### MemWrite -/

/-- A memory in canonical form that holds the low `n` bytes of a value from an address on, and else what the memory before
it held. -/
structure Stored (m m' : Memory) (a : Word) (n : Nat) (v : Int) : Prop where
  wf : m'.wf = true
  bytes : ∀ k, k < n → byteAt m' a k = BitVec.ofInt 8 (v / 256 ^ k)
  frame : ∀ addr : Word, (∀ k, k < n → addr ≠ a + BitVec.ofNat 32 k) → m'.read addr.toNat = m.read addr.toNat

theorem stored_zero {m : Memory} (h : m.wf = true) (a : Word) (v : Int) : Stored m m a 0 v :=
  ⟨h, fun _ hk => absurd hk (Nat.not_lt_zero _), fun _ _ => rfl⟩

/-- The lowest byte stored, then the bytes above it. -/
theorem stored_succ {m m' : Memory} {n : Nat} {v : Int} (hm : m.wf = true) (hn : n + 1 < 2 ^ 32)
    (h : Stored (m.write a.toNat (BitVec.ofInt 8 v)) m' (a + 1) n (v / 256)) : Stored m m' a (n + 1) v := by
  refine ⟨h.wf, fun k hk => ?_, fun addr hout => ?_⟩
  · cases k with
    | zero =>
      have hkept := h.frame a fun k hk => by
        rw [addr_succ]
        simpa using addr_ne a (j := 0) (by omega) (by omega) (Nat.succ_ne_zero k).symm
      rw [Memory.read_write hm, if_pos rfl] at hkept
      simpa [byteAt] using hkept
    | succ k =>
      have hb := h.bytes k (by omega)
      rwa [byteAt, addr_succ, Int.ediv_ediv_of_nonneg (by norm_num), ← pow_succ'] at hb
  · have hne : addr ≠ a := by simpa using hout 0 (by omega)
    rw [h.frame addr fun k hk => by rw [addr_succ]; exact hout (k + 1) (by omega),
      Memory.read_write_other fun e => hne (BitVec.eq_of_toNat_eq e)]

/-- MemWrite stores its accessible bytes in ascending order, and goes on at the byte after them. -/
theorem memWrite_add {i : Nat} {v : Int} {w : MemW} (hi : i < 2 ^ 32) (hwf : w.mem.wf = true)
    (hok : ∀ k, k < i → okAt p a k) (d : Nat) :
    ∃ w', memWrite p b (i + d) a v w = memWrite p b d (a + BitVec.ofNat 32 i) (v / 256 ^ i) w' ∧
      Stored w.mem w'.mem a i v ∧ w'.host = w.host := by
  induction i generalizing a v w with
  | zero => exact ⟨w, by simp, stored_zero hwf a v, rfl⟩
  | succ i ih =>
    have h0 : p.memOk a.toNat = true := by simpa [okAt] using hok 0 (by omega)
    obtain ⟨w', hw', hs, hh⟩ := ih (a := a + 1) (v := v / 256)
      (w := { w with mem := w.mem.write a.toNat (BitVec.ofInt 8 v), writes := logAccess b a.toNat w.writes }) (by omega)
      (Memory.wf_write hwf a.isLt _) fun k hk => by simpa only [okAt, addr_succ] using hok (k + 1) (by omega)
    refine ⟨w', ?_, stored_succ hwf hi hs, hh⟩
    rw [Nat.add_right_comm, memWrite, bind_run, writeByte_run, if_pos h0]
    simp only
    rw [hw', addr_succ, Int.ediv_ediv_of_nonneg (by norm_num), pow_succ' (256 : Int)]

/-- MemWrite stores all its bytes where all are accessible. -/
theorem memWrite_ok {n : Nat} {v : Int} {w : MemW} (hn : n < 2 ^ 32) (hwf : w.mem.wf = true)
    (hok : ∀ k, k < n → okAt p a k) :
    ∃ w', memWrite p b n a v w = .ok () w' ∧ Stored w.mem w'.mem a n v ∧ w'.host = w.host :=
  memWrite_add hn hwf hok 0

/-- MemWrite raises at the first byte that is not accessible, the bytes before it stored. -/
theorem memWrite_busError {n i : Nat} {v : Int} {w : MemW} (hi : i < n) (hi32 : i < 2 ^ 32) (hwf : w.mem.wf = true)
    (hok : ∀ k, k < i → okAt p a k) (hbad : ¬okAt p a i) :
    ∃ w', memWrite p b n a v w = .error ⟨.busError, a + BitVec.ofNat 32 i⟩ w' ∧ Stored w.mem w'.mem a i v := by
  obtain ⟨d, rfl⟩ : ∃ d, n = i + (d + 1) := ⟨n - i - 1, by omega⟩
  obtain ⟨w', hw', hs, _⟩ := memWrite_add (b := b) (v := v) hi32 hwf hok (d + 1)
  refine ⟨w', ?_, hs⟩
  rw [hw', memWrite, bind_run, writeByte_run, if_neg hbad]

/-! ### Blocks -/

theorem toNat_append_byte (x y : Byte) : (x ++ y).toNat = 256 * x.toNat + y.toNat := by
  rw [BitVec.toNat_append, ← Nat.shiftLeft_add_eq_or_of_lt y.isLt, Nat.shiftLeft_eq, Nat.mul_comm]

/-- A MemRead of a coefficient's two bytes gives the coefficient (R90). -/
theorem ofNat_leValue_two (m : Memory) (a : Word) (n : Nat) :
    BitVec.ofNat 16 (leValue m (a + BitVec.ofNat 32 (2 * n)) 2) = coefIn m a n := by
  have hlo := (m.read (a + BitVec.ofNat 32 (2 * n)).toNat).isLt
  have hhi := (m.read (a + BitVec.ofNat 32 (2 * n + 1)).toNat).isLt
  refine BitVec.eq_of_toNat_eq ?_
  rw [leValue_succ, leValue_succ, coefIn, toNat_append_byte, show (1 : Word) = BitVec.ofNat 32 1 from rfl, addr_add]
  simp only [leValue, List.range_zero, List.map_nil, List.sum_nil, BitVec.toNat_ofNat, byteAt]
  omega

/-- The two bytes a MemWrite stores of a coefficient, put together, are the coefficient. -/
theorem bytes_append (x : Half) : BitVec.ofInt 8 (x.toInt / 256) ++ BitVec.ofInt 8 x.toInt = x := by
  refine BitVec.eq_of_toNat_eq ?_
  rw [toNat_append_byte, BitVec.toNat_ofInt, BitVec.toNat_ofInt, BitVec.toInt_eq_toNat_cond]
  have := x.isLt
  split <;> omega

/-- What holds a coefficient's two bytes holds the coefficient, and every other one it held before. -/
theorem coefIn_of_stored {m m' : Memory} {a : Word} {n : Nat} {x : Half} (hn : n < 64)
    (h : Stored m m' (a + BitVec.ofNat 32 (2 * n)) 2 x.toInt) {j : Nat} (hj : j < 64) :
    coefIn m' a j = if j = n then x else coefIn m a j := by
  split
  · subst_vars
    have hlo := h.bytes 0 (by omega)
    have hhi := h.bytes 1 (by omega)
    rw [byteAt, addr_add] at hlo hhi
    rw [pow_zero, Int.ediv_one, Nat.add_zero] at hlo
    rw [pow_one] at hhi
    rw [coefIn, byteAt, byteAt, hhi, hlo, bytes_append]
  · have hframe : ∀ i, i = 2 * j ∨ i = 2 * j + 1 → byteAt m' a i = byteAt m a i := fun i hi =>
      h.frame _ fun k hk => by
        rw [addr_add]
        exact addr_ne a (by omega) (by omega) (by omega)
    rw [coefIn, hframe _ (.inl rfl), hframe _ (.inr rfl), coefIn]

theorem blockAt_put (blk : Block) {n : Nat} (hn : n < 64) (x : Half) (j : Nat) :
    (blk.put n x).at j = if j = n then x else blk.at j := by
  unfold Block.at Block.put
  rw [Vector.toList_setIfInBounds, List.getD_eq_getElem?_getD, List.getD_eq_getElem?_getD, List.getElem?_set]
  by_cases h : n = j
  · subst h
    simp [hn]
  · rw [if_neg h, if_neg (Ne.symm h)]

theorem block_ext_at {blk blk' : Block} (h : ∀ n, n < 64 → blk.at n = blk'.at n) : blk = blk' := by
  refine Vector.ext fun n hn => ?_
  simpa [Block.at, hn] using h n hn

/-- Reading coefficients up to the block's end fills in those of memory. -/
theorem readCoefs_ok {k n : Nat} (hkn : n + k = 64) (acc : Block) {w : MemW} (hn : w.host = .none) (hok : blockOk p a)
    (hacc : ∀ j, j < n → acc.at j = coefIn w.mem a j) :
    ∃ blk w', readCoefs p b a k n acc w = .ok blk w' ∧ (∀ j, j < 64 → blk.at j = coefIn w.mem a j) ∧
      w'.mem = w.mem ∧ w'.host = .none := by
  induction k generalizing n acc w with
  | zero => exact ⟨acc, w, rfl, fun j hj => hacc j (by omega), rfl, hn⟩
  | succ k ih =>
    obtain ⟨w1, hw1, hm, hh⟩ := memRead_ok (p := p) (b := b) (a := a + BitVec.ofNat 32 (2 * n)) (n := 2) hn
      fun i hi => by rw [okAt, addr_add]; exact hok _ (by omega)
    rw [← hm] at hacc ⊢
    rw [readCoefs, bind_run, hw1, ← hm]
    refine ih (by omega) _ hh fun j hj => ?_
    rw [ofNat_leValue_two, blockAt_put acc (by omega)]
    split
    · subst_vars; rfl
    · exact hacc j (by omega)

/-- ReadBlock gives the coefficients that memory holds. -/
theorem readBlock_ok {w : MemW} (hn : w.host = .none) (hok : blockOk p a) :
    ∃ blk w', readBlock p b a w = .ok blk w' ∧ (∀ n, n < 64 → blk.at n = coefIn w.mem a n) ∧ w'.mem = w.mem ∧
      w'.host = .none :=
  readCoefs_ok rfl Block.zero hn hok fun _ hj => absurd hj (Nat.not_lt_zero _)

/-- A block being written to memory, `n` of its coefficients stored. -/
structure BlockStored (a : Word) (blk : Block) (n : Nat) (w : MemW) : Prop where
  wf : w.mem.wf = true
  host : w.host = .none
  coefs : ∀ j, j < n → coefIn w.mem a j = blk.at j

/-- WriteBlock stores the block's coefficients. -/
theorem writeBlock_ok {w : MemW} (hwf : w.mem.wf = true) (hn : w.host = .none) (hok : blockOk p a) (blk : Block) :
    ∃ w', writeBlock p b a blk w = .ok () w' ∧ BlockStored a blk 64 w' := by
  refine forRange_ok (BlockStored a blk) 0 64 (fun n u _ hlt hu => ?_) w
    ⟨hwf, hn, fun _ hj => absurd hj (Nat.not_lt_zero _)⟩
  obtain ⟨u', hu', hs, hh⟩ := memWrite_ok (p := p) (b := b) (a := a + BitVec.ofNat 32 (2 * n)) (v := blk.val n)
    (show 2 < 2 ^ 32 by norm_num) hu.wf fun i hi => by rw [okAt, addr_add]; exact hok _ (by omega)
  refine ⟨u', hu', hs.wf, hh.trans hu.host, fun j hj => ?_⟩
  rw [coefIn_of_stored (by omega) hs (by omega)]
  split
  · subst_vars; rfl
  · exact hu.coefs j (by omega)

/-- Settles O41: the sums and stores byte by byte, the block coefficient by coefficient. -/
theorem memoryPrimitivesAreLittleEndian : Obligations.MemoryPrimitivesAreLittleEndian := by
  refine ⟨fun p b n a v w hn4 hwf hhost => ⟨fun hok => ⟨?_, ?_⟩, fun i hi hok hbad => ⟨?_, ?_⟩⟩,
    fun p b b' a blk w hwf hhost hok => ?_⟩
  · obtain ⟨w', hr, hm, _⟩ := memRead_ok (b := b) hhost hok
    exact ⟨w', hr, hm⟩
  · obtain ⟨w', hr, hs, _⟩ := memWrite_ok (b := b) (v := v) (by omega) hwf hok
    exact ⟨w', hr, hs.bytes, hs.frame⟩
  · exact memRead_busError hhost hi hok hbad
  · obtain ⟨w', hr, hs⟩ := memWrite_busError (b := b) (v := v) hi (by omega) hwf hok hbad
    exact ⟨w', hr, hs.bytes, hs.frame⟩
  · obtain ⟨w', hw', hstored⟩ := writeBlock_ok (b := b) hwf hhost hok blk
    obtain ⟨blk', w'', hr, hat, hm, _⟩ := readBlock_ok (b := b') hstored.host hok
    obtain rfl : blk' = blk := block_ext_at fun n hn => (hat n hn).trans (hstored.coefs n hn)
    exact ⟨w', hw', hstored.coefs, w'', hr, hm⟩

end Sys2Proof.Cert
end

section
/-! SEEK (R140), SETRI (R165) and the colour space of a scan (R182); what a two-byte field of the stream gives or raises
(R86). -/
namespace Sys2Proof.Cert
open Sys2Proof.Machine

/-! ### Two-byte fields of the stream -/

section
variable {p : Params} {c : Cfg} {m : Memory} {i : Nat}

/-- BE16 gives the big-endian value of two bytes that can be read. -/
theorem be16In_ok {hi lo : Byte} (h : srcIs p c m i [hi, lo]) : be16In p c m i = .ok (hi.toNat * 256 + lo.toNat) := by
  obtain ⟨hhi, hrest⟩ := srcIs_cons.mp h
  obtain ⟨hlo, -⟩ := srcIs_cons.mp hrest
  rw [be16In, hhi, hlo]
  rfl

/-- BE16 raises at the first of its bytes that cannot be read. -/
theorem be16In_of_noByteAt {bs : List Byte} {x : Raise} (hlen : bs.length < 2) (h : srcIs p c m i bs)
    (hx : noByteAt p c (i + bs.length) x) : be16In p c m i = .error x := by
  match bs with
  | [] =>
    have hhi : srcByteIn p c m i = .error x := srcByteIn_of_noByteAt hx m
    rw [be16In, hhi]
    rfl
  | [_] =>
    have hlo : srcByteIn p c m (i + 1) = .error x := srcByteIn_of_noByteAt hx m
    rw [be16In, (srcIs_cons.mp h).1, hlo]
    rfl

/-- BE16 reads back a two-byte field. -/
theorem be16In_be16Bytes {v : Nat} (h : srcIs p c m i (be16Bytes v)) : be16In p c m i = .ok (v % 65536) := by
  rw [be16In_ok h, BitVec.toNat_ofNat, BitVec.toNat_ofNat]
  congr 1
  omega

end

/-! ### SEEK -/

/-- Settles O16: OFFSET is checked against SRC_LEN, and then SRC_POS is set and the bit reader reset. -/
theorem seekSetsTheCursor : Obligations.SeekSetsTheCursor := by
  intro s offset
  refine ⟨fun h => ?_, fun h => if_pos h⟩
  have hexec : exec (.seek offset) s = .next (advance .seek (setCursor offset s)) := if_neg (by omega)
  rw [hexec]
  rfl

/-! ### SETRI -/

variable {s : State}

theorem exec_setri_of_ok {ri : Nat} (h : parseDri s = .ok ri) :
    exec .setri s = .next (advance .setri (commitRi ri s)) := by
  rw [exec, execSetri, h]

theorem exec_setri_of_error {r : Raise} (h : parseDri s = .error r) : exec .setri s = .next (errorEntry r s) := by
  rw [exec, execSetri, h]

/-- The parse of a DRI body reads both of its fields, then checks the length. -/
theorem parseDri_be16Bytes {L ri : Nat} (h : srcHolds s s.srcPos.toNat (be16Bytes L ++ be16Bytes ri)) :
    parseDri s =
      if L % 65536 ≠ 4 then .error (.at .badSegmentLength (s.srcPos.toNat + 4)) else .ok (ri % 65536) := by
  obtain ⟨hlen, hri⟩ := srcIs_append.mp h
  rw [show (be16Bytes L).length = 2 from rfl] at hri
  rw [parseDri, State.be16, be16In_be16Bytes hlen, State.be16, be16In_be16Bytes hri]
  rfl

/-- The parse of a DRI body raises at the first of its four bytes that cannot be read. -/
theorem parseDri_of_srcStops {bs : List Byte} {r : Raise} (hlen : bs.length < 4) (h : srcHolds s s.srcPos.toNat bs)
    (hr : srcStops s (s.srcPos.toNat + bs.length) r) : parseDri s = .error r := by
  match bs with
  | [] | [_] =>
    rw [parseDri, State.be16, be16In_of_noByteAt (by simp) h hr]
    rfl
  | hi :: lo :: rest =>
    rw [List.length_cons, List.length_cons] at hlen hr
    obtain ⟨hfield, hrest⟩ := srcIs_append (as := [hi, lo]).mp h
    have hsecond : be16In s.params s.cfg s.mem (s.srcPos.toNat + 2) = .error r := by
      refine be16In_of_noByteAt (by omega) hrest ?_
      rwa [Nat.add_assoc, Nat.add_comm 2]
    rw [parseDri, State.be16, be16In_ok hfield, State.be16, hsecond]
    rfl

/-- Settles O17, from what the parse of a DRI body answers. -/
theorem setriLoadsTheInterval : Obligations.SetriLoadsTheInterval := by
  intro s
  refine ⟨fun ri hri h => ?_, fun L ri hL hne h => ?_, fun bs r hlen h hr =>
    exec_setri_of_error (parseDri_of_srcStops hlen h hr)⟩
  · have hparse := parseDri_be16Bytes h
    rw [if_neg (by decide), Nat.mod_eq_of_lt hri] at hparse
    rw [exec_setri_of_ok hparse]
    rfl
  · have hparse := parseDri_be16Bytes h
    rw [Nat.mod_eq_of_lt hL, if_pos hne] at hparse
    exact exec_setri_of_error hparse

/-! ### The colour space -/

/-- The model's chain and the statement's have the same conditions, in the same order. -/
theorem resolveCs_eq_colourSpace (m : Meta) (n : Nat) :
    resolveCs m n = colourSpace m.jfif m.adobe m.adobeXform.toNat n := by
  simp only [resolveCs, colourSpace, Bool.and_eq_true, beq_iff_eq, and_assoc]

/-- No condition of the chain is about two components. -/
theorem resolveCs_two (m : Meta) : resolveCs m 2 = .unknown := by
  simp [resolveCs]

/-- Settles O27: the chain, its example, and two components. -/
theorem colourSpaceFollowsThePriorityChain : Obligations.ColourSpaceFollowsThePriorityChain :=
  ⟨resolveCs_eq_colourSpace, by decide, resolveCs_two⟩

end Sys2Proof.Cert
end

section
/-! What entropy decoding leaves alone: a bit read touches the bit buffer, SRC_POS and the warnings; nothing inside a row
touches the row counter (R205). -/
namespace Sys2Proof.Cert
open Sys2Proof.Machine

/-! ### Reading bits -/

/-- Memory is left as it was, and no host store has come beside the command. -/
def leavesMem (v w : MemW) : Prop := w.mem = v.mem ∧ keepsAlone v w

theorem closed_leavesMem : Closed leavesMem where
  refl w := ⟨rfl, closed_keepsAlone.refl w⟩
  trans _ _ _ h1 h2 := ⟨h2.1.trans h1.1, closed_keepsAlone.trans _ _ _ h1.2 h2.2⟩

theorem leavesMem_readByte (p : Params) (b : Buf) (a : Word) : Keeps leavesMem (readByte p b a) := by
  refine fun w => ⟨?_, keepsAlone_readByte p b a w⟩
  rw [readByte_run]
  split <;> rfl

/-- What differs after bits have been read (R87, R88): of the entropy state the bit buffer and MARKER_HIT only, and no
memory. -/
structure OnlyReads (w w' : DecW) : Prop where
  mem : leavesMem w.mw w'.mw
  ent : { w'.ent with bb := w.ent.bb, bl := w.ent.bl, markerHit := w.ent.markerHit } = w.ent

theorem closed_onlyReads : Closed OnlyReads where
  refl w := ⟨closed_leavesMem.refl w.mw, rfl⟩
  trans w _ _ h1 h2 :=
    ⟨closed_leavesMem.trans _ _ _ h1.mem h2.mem,
      (congrArg (fun s : Entropy => { s with bb := w.ent.bb, bl := w.ent.bl, markerHit := w.ent.markerHit }) h2.ent).trans
        h1.ent⟩

/-- A change of the bit buffer, SRC_POS or the warnings. -/
theorem onlyReads_modify {f : DecW → DecW} (hm : ∀ w, (f w).mw = w.mw)
    (he : ∀ w, { (f w).ent with bb := w.ent.bb, bl := w.ent.bl, markerHit := w.ent.markerHit } = w.ent) :
    Keeps OnlyReads (modify f : DM PUnit) :=
  Keeps.modify fun w => ⟨by rw [hm]; exact closed_leavesMem.refl w.mw, he w⟩

theorem keeps_mono {ε σ α : Type} {P Q : σ → σ → Prop} (h : ∀ s t, P s t → Q s t) {m : EStateM ε σ α} (hm : Keeps P m) :
    Keeps Q m := fun s => h _ _ (hm s)

theorem stateAfter_liftMem {α : Type} (m : MM α) (w : DecW) :
    stateAfter (liftMem m w) = { w with mw := stateAfter (m w.mw) } := by
  unfold liftMem
  cases m w.mw <;> rfl

variable {e : Env}

theorem onlyReads_srcByte (q : Nat) : Keeps OnlyReads (liftMem (srcByte e q)) := by
  intro w
  rw [stateAfter_liftMem]
  unfold srcByte
  split
  · exact closed_onlyReads.refl w
  · exact ⟨leavesMem_readByte _ _ _ w.mw, rfl⟩

theorem onlyReads_loadByte (pos : Nat) (b : Byte) : Keeps OnlyReads (loadByte pos b) :=
  onlyReads_modify (fun _ => rfl) fun _ => rfl

theorem onlyReads_supplyZero : Keeps OnlyReads supplyZero :=
  Keeps.bind closed_onlyReads (onlyReads_modify (fun _ => rfl) fun _ => rfl) fun _ =>
    onlyReads_modify (fun _ => rfl) fun _ => rfl

theorem onlyReads_skipFill (fuel q : Nat) : Keeps OnlyReads (skipFill e fuel q) := by
  induction fuel generalizing q with
  | zero => exact Keeps.pure closed_onlyReads _
  | succ fuel ih =>
    exact Keeps.bind closed_onlyReads (onlyReads_srcByte q) fun _ =>
      Keeps.ite (ih (q + 1)) (Keeps.pure closed_onlyReads _)

theorem onlyReads_afterFill (q : Nat) : Keeps OnlyReads (afterFill e q) :=
  Keeps.bind closed_onlyReads (onlyReads_srcByte q) fun _ =>
    Keeps.ite (onlyReads_loadByte _ _) <|
      Keeps.bind closed_onlyReads (onlyReads_modify (fun _ => rfl) fun _ => rfl) fun _ => onlyReads_supplyZero

theorem onlyReads_fillByte : Keeps OnlyReads (fillByte e) :=
  Keeps.bind closed_onlyReads (Keeps.get closed_onlyReads) fun _ =>
    Keeps.ite onlyReads_supplyZero <|
      Keeps.bind closed_onlyReads (onlyReads_srcByte _) fun _ =>
        Keeps.ite (onlyReads_loadByte _ _) <|
          Keeps.bind closed_onlyReads (onlyReads_skipFill _ _) onlyReads_afterFill

theorem onlyReads_nextBit : Keeps OnlyReads (nextBit e) := by
  have htake : Keeps OnlyReads takeBit := fun w => ⟨closed_leavesMem.refl w.mw, rfl⟩
  exact Keeps.bind closed_onlyReads (Keeps.get closed_onlyReads) fun _ =>
    Keeps.ite (Keeps.bind closed_onlyReads onlyReads_fillByte fun _ => htake) htake

theorem onlyReads_receive (t : Nat) : Keeps OnlyReads (receive e t) := by
  have h : ∀ t acc, Keeps OnlyReads (receiveFrom e t acc) := by
    intro t
    induction t with
    | zero => exact fun _ => Keeps.pure closed_onlyReads _
    | succ t ih => exact fun _ => Keeps.bind closed_onlyReads onlyReads_nextBit fun _ => ih _
  exact h t 0

theorem onlyReads_raiseInternal {α : Type} : Keeps OnlyReads (raiseInternal : DM α) := closed_onlyReads.refl

theorem onlyReads_decodeSym (h : HuffTab) : Keeps OnlyReads (decodeSym e h) := by
  have hfrom : ∀ fuel len acc, Keeps OnlyReads (decodeFrom e h fuel len acc) := by
    intro fuel
    induction fuel with
    | zero => exact fun _ _ => onlyReads_raiseInternal
    | succ fuel ih =>
      refine fun len acc => Keeps.bind closed_onlyReads onlyReads_nextBit fun b => ?_
      cases h.find len (2 * acc + b) with
      | some v => exact Keeps.pure closed_onlyReads v
      | none => exact ih _ _
  exact hfrom 16 1 0

/-! ### The row counter -/

/-- The row counter is kept. -/
def keepsRow (w w' : DecW) : Prop := w'.ent.srow = w.ent.srow

theorem closed_keepsRow : Closed keepsRow := ⟨fun _ => rfl, fun _ _ _ h1 h2 => h2.trans h1⟩

theorem OnlyReads.row {w w' : DecW} (h : OnlyReads w w') : keepsRow w w' := (congrArg Entropy.srow h.ent :)

theorem keepsRow_of_onlyReads {α : Type} {m : DM α} (h : Keeps OnlyReads m) : Keeps keepsRow m :=
  keeps_mono (fun _ _ => OnlyReads.row) h

theorem keepsRow_liftMem {α : Type} (m : MM α) : Keeps keepsRow (liftMem m) := by
  intro w
  rw [stateAfter_liftMem]
  rfl

theorem keepsRow_modEnt {f : Entropy → Entropy} (h : ∀ s, (f s).srow = s.srow) : Keeps keepsRow (modEnt f) :=
  Keeps.modify fun w => h w.ent

/-- Sequencing, a choice and an answer keep the row counter where their parts do. -/
theorem keepsRow_bind {α β : Type} {m : DM α} {f : α → DM β} (hm : Keeps keepsRow m) (hf : ∀ a, Keeps keepsRow (f a)) :
    Keeps keepsRow (m >>= f) := Keeps.bind closed_keepsRow hm hf

/-- A step taken under a condition, and what follows it either way. -/
theorem keepsRow_when {α : Type} {c : Prop} [Decidable c] {m : DM Unit} {f : Unit → DM α} (hm : Keeps keepsRow m)
    (hf : ∀ a, Keeps keepsRow (f a)) : Keeps keepsRow (if c then m >>= f else f ()) :=
  Keeps.ite (keepsRow_bind hm hf) (hf ())

theorem keepsRow_unless {α : Type} {c : Prop} [Decidable c] {m : DM Unit} {f : Unit → DM α} (hm : Keeps keepsRow m)
    (hf : ∀ a, Keeps keepsRow (f a)) : Keeps keepsRow (if c then f () else m >>= f) :=
  Keeps.ite (hf ()) (keepsRow_bind hm hf)

/-- One of two steps, and what follows it either way. -/
theorem keepsRow_either {α β : Type} {c : Prop} [Decidable c] {m n : DM α} {f : α → DM β} (hm : Keeps keepsRow m)
    (hn : Keeps keepsRow n) (hf : ∀ a, Keeps keepsRow (f a)) : Keeps keepsRow (if c then m >>= f else n >>= f) :=
  Keeps.ite (keepsRow_bind hm hf) (keepsRow_bind hn hf)

theorem keepsRow_pure {α : Type} (a : α) : Keeps keepsRow (pure a : DM α) := Keeps.pure closed_keepsRow a

theorem keepsRow_get : Keeps keepsRow (get : DM DecW) := Keeps.get closed_keepsRow

theorem keepsRow_raiseInternal {α : Type} : Keeps keepsRow (raiseInternal : DM α) := closed_keepsRow.refl

theorem keepsRow_receive (t : Nat) : Keeps keepsRow (receive e t) := keepsRow_of_onlyReads (onlyReads_receive t)

theorem keepsRow_decodeSym (h : HuffTab) : Keeps keepsRow (decodeSym e h) := keepsRow_of_onlyReads (onlyReads_decodeSym h)

/-! ### Restarts -/

theorem keepsRow_skipPairs (fuel p : Nat) : Keeps keepsRow (skipPairs e fuel p) := by
  induction fuel generalizing p with
  | zero => exact keepsRow_pure _
  | succ fuel ih =>
    exact keepsRow_bind (keepsRow_liftMem _) fun _ =>
      Keeps.ite (keepsRow_bind (keepsRow_liftMem _) fun _ => Keeps.ite (ih _) (keepsRow_pure _)) (keepsRow_pure _)

theorem keepsRow_expectedRst (p : Nat) (n : BitVec 3) : Keeps keepsRow (expectedRst e p n) :=
  keepsRow_bind (keepsRow_liftMem _) fun _ =>
    Keeps.ite (keepsRow_bind (keepsRow_liftMem _) fun _ => keepsRow_pure _) (keepsRow_pure _)

theorem keepsRow_processRestart : Keeps keepsRow (processRestart e) :=
  keepsRow_bind (keepsRow_modEnt fun _ => rfl) fun _ =>
    keepsRow_bind keepsRow_get fun _ =>
      keepsRow_bind (keepsRow_skipPairs _ _) fun _ =>
        keepsRow_bind (keepsRow_expectedRst _ _) fun _ =>
          keepsRow_unless (Keeps.modify fun _ => rfl) fun _ => Keeps.modify fun _ => rfl

theorem keepsRow_beforeMcu : Keeps keepsRow (beforeMcu e) :=
  Keeps.ite (keepsRow_pure _) <|
    keepsRow_bind keepsRow_get fun _ =>
      keepsRow_when keepsRow_processRestart fun _ => keepsRow_modEnt fun _ => rfl

/-! ### Blocks -/

variable {j : Nat}

theorem keepsRow_dcDiff : Keeps keepsRow (dcDiff e j) :=
  keepsRow_bind (keepsRow_decodeSym _) fun _ =>
    Keeps.ite keepsRow_raiseInternal <|
      keepsRow_bind (keepsRow_receive _) fun _ =>
        keepsRow_bind keepsRow_get fun _ => keepsRow_bind (keepsRow_modEnt fun _ => rfl) fun _ => keepsRow_pure _

theorem keepsRow_seqAc (fuel k : Nat) (b : Block) : Keeps keepsRow (seqAc e j fuel k b) := by
  induction fuel generalizing k b with
  | zero => exact keepsRow_pure _
  | succ fuel ih =>
    exact Keeps.ite (keepsRow_pure _) <|
      keepsRow_bind (keepsRow_decodeSym _) fun _ =>
        Keeps.ite (Keeps.ite (ih _ _) (keepsRow_pure _)) <|
          Keeps.ite keepsRow_raiseInternal (keepsRow_bind (keepsRow_receive _) fun _ => ih _ _)

theorem keepsRow_acFirstLoop (fuel k : Nat) (b : Block) : Keeps keepsRow (acFirstLoop e j fuel k b) := by
  induction fuel generalizing k b with
  | zero => exact keepsRow_pure _
  | succ fuel ih =>
    exact Keeps.ite (keepsRow_pure _) <|
      keepsRow_bind (keepsRow_decodeSym _) fun _ =>
        Keeps.ite (Keeps.ite keepsRow_raiseInternal (keepsRow_bind (keepsRow_receive _) fun _ => ih _ _)) <|
          Keeps.ite (ih _ _) <|
            keepsRow_bind (keepsRow_receive _) fun _ =>
              keepsRow_bind (keepsRow_modEnt fun _ => rfl) fun _ => keepsRow_pure _

theorem keepsRow_refine (b : Block) (z : Nat) : Keeps keepsRow (refine e b z) :=
  keepsRow_bind (keepsRow_receive _) fun _ => Keeps.ite (keepsRow_pure _) (keepsRow_pure _)

theorem keepsRow_skipZeros (fuel k r : Nat) (b : Block) : Keeps keepsRow (skipZeros e fuel k r b) := by
  induction fuel generalizing k r b with
  | zero => exact keepsRow_pure _
  | succ fuel ih =>
    exact Keeps.ite (keepsRow_pure _) <|
      Keeps.ite (keepsRow_bind (keepsRow_refine _ _) fun _ => ih _ _ _) (Keeps.ite (keepsRow_pure _) (ih _ _ _))

theorem keepsRow_acRefineLoop (fuel k : Nat) (b : Block) : Keeps keepsRow (acRefineLoop e j fuel k b) := by
  induction fuel generalizing k b with
  | zero => exact keepsRow_pure _
  | succ fuel ih =>
    exact Keeps.ite (keepsRow_pure _) <|
      keepsRow_bind (keepsRow_decodeSym _) fun _ =>
        Keeps.ite
          (keepsRow_when (Keeps.modify fun _ => rfl) fun _ =>
            keepsRow_bind (keepsRow_receive _) fun _ =>
              keepsRow_bind (keepsRow_skipZeros _ _ _ _) fun _ => Keeps.ite keepsRow_raiseInternal (ih _ _)) <|
          Keeps.ite
            (keepsRow_bind (keepsRow_receive _) fun _ =>
              keepsRow_bind (keepsRow_modEnt fun _ => rfl) fun _ => keepsRow_pure _) <|
            keepsRow_bind (keepsRow_skipZeros _ _ _ _) fun _ => ih _ _

theorem keepsRow_refineRest (fuel k : Nat) (b : Block) : Keeps keepsRow (refineRest e fuel k b) := by
  induction fuel generalizing k b with
  | zero => exact keepsRow_pure _
  | succ fuel ih =>
    exact Keeps.ite (keepsRow_pure _) <|
      Keeps.ite (keepsRow_bind (keepsRow_refine _ _) fun _ => ih _ _) (ih _ _)

theorem keepsRow_acFirstBlock (a : Word) : Keeps keepsRow (acFirstBlock e j a) :=
  keepsRow_bind (keepsRow_liftMem _) fun _ =>
    keepsRow_bind keepsRow_get fun _ =>
      Keeps.ite (keepsRow_bind (keepsRow_modEnt fun _ => rfl) fun _ => keepsRow_liftMem _) <|
        keepsRow_bind (keepsRow_acFirstLoop _ _ _) fun _ => keepsRow_liftMem _

theorem keepsRow_acRefineBlock (a : Word) : Keeps keepsRow (acRefineBlock e j a) :=
  keepsRow_bind (keepsRow_liftMem _) fun _ =>
    keepsRow_bind keepsRow_get fun _ =>
      keepsRow_either (keepsRow_acRefineLoop _ _ _) (keepsRow_pure _) fun _ =>
        keepsRow_bind keepsRow_get fun _ =>
          Keeps.ite (keepsRow_liftMem _) <|
            keepsRow_bind (keepsRow_refineRest _ _ _) fun _ =>
              keepsRow_bind (keepsRow_modEnt fun _ => rfl) fun _ => keepsRow_liftMem _

theorem keepsRow_decodeBlock (bx byy : Nat) : Keeps keepsRow (decodeBlock e j bx byy) := by
  unfold decodeBlock
  cases e.scn.smode with
  | none => exact keepsRow_pure _
  | lossless => exact keepsRow_pure _
  | seq =>
    exact keepsRow_bind keepsRow_dcDiff fun _ => keepsRow_bind (keepsRow_seqAc _ _ _) fun _ => keepsRow_liftMem _
  | dcFirst =>
    exact keepsRow_bind (keepsRow_liftMem _) fun _ => keepsRow_bind keepsRow_dcDiff fun _ => keepsRow_liftMem _
  | dcRefine =>
    exact keepsRow_bind (keepsRow_liftMem _) fun _ => keepsRow_bind (keepsRow_receive _) fun _ => keepsRow_liftMem _
  | acFirst => exact keepsRow_acFirstBlock _
  | acRefine => exact keepsRow_acRefineBlock _

/-! ### Rows -/

theorem keepsRow_decodeMcu (my mx : Nat) : Keeps keepsRow (decodeMcu e my mx) :=
  keepsRow_bind keepsRow_beforeMcu fun _ =>
    Keeps.ite
      (Keeps.forRange closed_keepsRow
        (fun _ => Keeps.forRange closed_keepsRow
          (fun _ => Keeps.forRange closed_keepsRow (fun _ => keepsRow_decodeBlock _ _) _ _) _ _) _ _)
      (keepsRow_decodeBlock _ _)

theorem keepsRow_residual : Keeps keepsRow (residual e) :=
  keepsRow_bind (keepsRow_decodeSym _) fun _ =>
    Keeps.ite (keepsRow_pure _) <|
      Keeps.ite keepsRow_raiseInternal (keepsRow_bind (keepsRow_receive _) fun _ => keepsRow_pure _)

theorem keepsRow_losslessFrom (y n x : Nat) (ra : Half) : Keeps keepsRow (losslessFrom e y n x ra) := by
  induction n generalizing x ra with
  | zero => exact keepsRow_pure _
  | succ n ih =>
    exact keepsRow_bind keepsRow_beforeMcu fun _ =>
      keepsRow_bind keepsRow_get fun _ =>
        keepsRow_bind keepsRow_residual fun _ =>
          keepsRow_bind (keepsRow_liftMem _) fun _ => keepsRow_bind (ih _ _) fun _ => keepsRow_pure _

theorem keepsRow_losslessLine (y : Nat) : Keeps keepsRow (losslessLine e y) :=
  keepsRow_bind (keepsRow_losslessFrom _ _ _ _) fun _ => keepsRow_modEnt fun _ => rfl

/-- A row's body and then the count of the row. -/
theorem srow_of_bind_count {m : DM Unit} (hm : Keeps keepsRow m) {w w' : DecW}
    (h : (m >>= fun _ => modEnt fun s => { s with srow := s.srow + 1 }) w = .ok () w') :
    w'.ent.srow = w.ent.srow + 1 := by
  obtain ⟨_, u, hbody, hcount⟩ := bind_eq_ok.mp h
  cases hcount
  have hu := hm w
  rw [hbody] at hu
  exact congrArg (· + 1) hu

/-- A row that completes moves the row counter on by one. -/
theorem srow_of_decodeRow {w w' : DecW} (h : decodeRow e w = .ok () w') : w'.ent.srow = w.ent.srow + 1 := by
  obtain ⟨_, _, hget, hrest⟩ := bind_eq_ok.mp h
  cases hget
  simp only at hrest
  split at hrest
  · exact srow_of_bind_count (keepsRow_losslessLine _) hrest
  · exact srow_of_bind_count (Keeps.forRange closed_keepsRow (fun _ => keepsRow_decodeMcu _ _) _ _) hrest

/-- The row counter counts the rows decoded (R205). -/
theorem srow_of_decodeRows {n : Nat} {w w' : DecW} (h : decodeRows e n w = .ok () w') :
    w'.ent.srow = w.ent.srow + BitVec.ofNat 16 n := by
  have hrange : ∀ (n lo : Nat) (w : DecW), forRange lo n (fun _ => decodeRow e) w = .ok () w' →
      w'.ent.srow = w.ent.srow + BitVec.ofNat 16 n := by
    intro n
    induction n with
    | zero =>
      rintro _ _ ⟨⟩
      simp
    | succ n ih =>
      intro lo w h
      obtain ⟨_, u, hrow, hrest⟩ := bind_eq_ok.mp h
      rw [ih _ _ hrest, srow_of_decodeRow hrow, BitVec.add_assoc, Nat.add_comm n, BitVec.ofNat_add]
      rfl
  exact hrange n 0 w h

end Sys2Proof.Cert
end

section
/-! The end of DECROW (R205, R216): the flags that completing a scan sets, and what the command leaves when its rows have
been decoded or one of them has raised. -/
namespace Sys2Proof.Cert
open Sys2Proof.Machine

/-! ### Setting flags -/

theorem mem_comps {s : Scan} {c : Nat} : c ∈ s.comps ↔ inScan s c := by
  simp [Scan.comps, inScan]

theorem comps_lt {s : Scan} {c : Nat} (h : c ∈ s.comps) : c < 4 := by
  obtain ⟨j, -, rfl⟩ := mem_comps.mp h
  exact (s.cidx.get j).isLt

/-- Setting the flags of a list of components. -/
theorem setAll_get {q : Quad Bool} {cs : List Nat} {c : Nat} (hc : c < 4) (hcs : ∀ i ∈ cs, i < 4) :
    (setAll q cs).get c = true ↔ q.get c = true ∨ c ∈ cs := by
  induction cs generalizing q with
  | nil => simp [setAll]
  | cons i cs ih =>
    obtain ⟨hi, hcs⟩ := List.forall_mem_cons.mp hcs
    rw [show setAll q (i :: cs) = setAll (q.set i true) cs from rfl, ih hcs, Quad.get_set hi hc, List.mem_cons]
    split <;> simp_all

theorem testBit_foldl_two_pow (l : List Nat) (m k : Nat) :
    (l.foldl (fun m i => m ||| 2 ^ i) m).testBit k = true ↔ m.testBit k = true ∨ k ∈ l := by
  induction l generalizing m with
  | nil => simp
  | cons i l ih =>
    rw [List.foldl_cons, ih, Nat.testBit_or, Bool.or_eq_true, Nat.testBit_two_pow, decide_eq_true_eq, List.mem_cons,
      or_assoc, @eq_comm _ k i]

theorem getLsbD_bitRange {lo hi k : Nat} (hk : k < 64) : (bitRange lo hi).getLsbD k = true ↔ lo ≤ k ∧ k ≤ hi := by
  rw [bitRange, BitVec.getLsbD_ofNat, Bool.and_eq_true, testBit_foldl_two_pow, List.mem_range'_1, Nat.zero_testBit]
  simp only [hk, decide_true, true_and, Bool.false_eq_true, false_or]
  omega

/-- Setting bits of the masks of a list of components. -/
theorem setBits_getLsbD {q : Quad (BitVec 64)} {lo hi : Nat} {cs : List Nat} {c k : Nat} (hc : c < 4) (hk : k < 64)
    (hcs : ∀ i ∈ cs, i < 4) :
    ((setBits q lo hi cs).get c).getLsbD k = true ↔
      (q.get c).getLsbD k = true ∨ (c ∈ cs ∧ lo ≤ k ∧ k ≤ hi) := by
  induction cs generalizing q with
  | nil => simp [setBits]
  | cons i cs ih =>
    obtain ⟨hi4, hcs⟩ := List.forall_mem_cons.mp hcs
    rw [show setBits q lo hi (i :: cs) = setBits (q.set i (q.get i ||| bitRange lo hi)) lo hi cs from rfl, ih hcs,
      Quad.get_set hi4 hc, List.mem_cons]
    split
    · subst_vars
      rw [BitVec.getLsbD_or, Bool.or_eq_true, getLsbD_bitRange hk]
      tauto
    · simp_all

/-! ### Completing a scan -/

variable {p : Progress} {s : Scan} {c : Nat}

theorem complete_seqDone (hc : c < 4) :
    (p.complete s).seqDone.get c = true ↔
      p.seqDone.get c = true ∨ ((s.smode = .seq ∨ s.smode = .lossless) ∧ inScan s c) := by
  have hset := setAll_get (q := p.seqDone) hc fun _ => comps_lt (s := s)
  rw [mem_comps] at hset
  unfold Progress.complete
  cases s.smode <;> simp [hset]

theorem complete_dcDone (hc : c < 4) :
    (p.complete s).dcDone.get c = true ↔ p.dcDone.get c = true ∨ (s.smode = .dcFirst ∧ inScan s c) := by
  have hset := setAll_get (q := p.dcDone) hc fun _ => comps_lt (s := s)
  rw [mem_comps] at hset
  unfold Progress.complete
  cases s.smode <;> simp [hset]

theorem complete_acmask {k : Nat} (hc : c < 4) (hk : k < 64) :
    ((p.complete s).acmask.get c).getLsbD k = true ↔
      (p.acmask.get c).getLsbD k = true ∨
        (s.smode = .acFirst ∧ inScan s c ∧ s.ss.toNat ≤ k ∧ k ≤ s.se.toNat) := by
  have hset := setBits_getLsbD (q := p.acmask) (lo := s.ss.toNat) (hi := s.se.toNat) hc hk fun _ => comps_lt (s := s)
  rw [mem_comps] at hset
  unfold Progress.complete
  cases s.smode <;> simp [hset]

theorem scanComplete_prog (t : State) :
    (scanComplete t).dec.prog =
      if t.dec.ent.srow = t.dec.scn.srows then t.dec.prog.complete t.dec.scn else t.dec.prog := by
  unfold scanComplete
  split <;> rfl

/-- An active scan stays active until its last row has been decoded. -/
theorem scanComplete_active {t : State} (h : t.dec.scn.active = true) :
    (scanComplete t).dec.scn.active = (t.dec.ent.srow != t.dec.scn.srows) := by
  unfold scanComplete
  split <;> simp_all

/-! ### The command -/

theorem rowCount_eq_rowsOf (t : State) (n : Nat) : rowCount t n = rowsOf t n := rfl

variable {t : State} {n : Nat}

theorem exec_decrow_inactive (h : t.dec.scn.active = false) :
    exec (.decrow n) t = .next (errorEntry ⟨.badState, 0⟩ t) := if_pos h

theorem exec_decrow_active (h : t.dec.scn.active = true) :
    exec (.decrow n) t = finishDecrow t (decodeRows t.env (rowsOf t n) (DecW.start t)) := by
  rw [exec, execDecrow, if_neg (by simp [h]), rowCount_eq_rowsOf]

/-- What DECROW leaves when its rows have been decoded: the scan stays active, and no flag is set, until the last. -/
def decrowDone (w : DecW) (t : State) : State :=
  { ranPast 4 t with
    srcPos := w.pos, mem := (t.settle w.mw).mem, free := (t.settle w.mw).free
    dec :=
      { t.dec with
        ent := w.ent, warn := w.warn
        scn := { t.dec.scn with active := w.ent.srow != t.dec.scn.srows }
        prog := if w.ent.srow = t.dec.scn.srows then t.dec.prog.complete t.dec.scn else t.dec.prog } }

theorem advance_scanComplete_withDec (h : t.dec.scn.active = true) (w : DecW) :
    advance .decrow (scanComplete (t.withDec w)) = decrowDone w t := by
  rw [scanComplete_eq, scanComplete_active (t := t.withDec w) h, scanComplete_prog, State.withDec, settle_eq]
  rfl

theorem exec_decrow_ok (h : t.dec.scn.active = true) {w : DecW}
    (hw : decodeRows t.env (rowsOf t n) (DecW.start t) = .ok () w) : exec (.decrow n) t = .next (decrowDone w t) := by
  rw [exec_decrow_active h, hw, finishDecrow, advance_scanComplete_withDec h]

theorem exec_decrow_error (h : t.dec.scn.active = true) {r : Raise} {w : DecW}
    (hw : decodeRows t.env (rowsOf t n) (DecW.start t) = .error r w) :
    exec (.decrow n) t = .next (errorEntry r (t.withDec w)) := by
  rw [exec_decrow_active h, hw, finishDecrow]

/-- Settles O38: the rows move the row counter by their number, and the scan is complete when it reaches the last. -/
theorem decrowCompletesTheScan : Obligations.DecrowCompletesTheScan := by
  intro s n
  refine ⟨exec_decrow_inactive, fun hact => ⟨fun w hw => ?_, fun r w hw => exec_decrow_error hact hw⟩⟩
  refine ⟨decrowDone w s, exec_decrow_ok hact hw, rfl, rfl, rfl, srow_of_decodeRows hw, rfl, fun c hc => ?_, rfl⟩
  unfold decrowDone
  by_cases hlast : w.ent.srow = s.dec.scn.srows
  · simp only [hlast, if_true, true_and]
    exact ⟨complete_seqDone hc, complete_dcDone hc, fun k hk => complete_acmask hc hk⟩
  · simp [hlast]

end Sys2Proof.Cert
end

section
/-! The DC passes (R210, R211): a block read, changed at coefficient 0 and written back. -/
namespace Sys2Proof.Cert
open Sys2Proof.Machine

/-! ### Writing a block back -/

/-- Equal coefficients are equal bytes. -/
theorem byteAt_eq_of_coefIn {m m' : Memory} {a : Word} {n : Nat} (h : coefIn m a n = coefIn m' a n) :
    byteAt m a (2 * n) = byteAt m' a (2 * n) ∧ byteAt m a (2 * n + 1) = byteAt m' a (2 * n + 1) := by
  have hnat := congrArg BitVec.toNat h
  rw [coefIn, coefIn, toNat_append_byte, toNat_append_byte] at hnat
  constructor <;> apply BitVec.eq_of_toNat_eq <;> omega

variable {p : Params} {b : Buf} {a addr : Word}

/-- A byte of memory is kept. -/
def keepsByte (addr : Word) (v w : MemW) : Prop := w.mem.read addr.toNat = v.mem.read addr.toNat

theorem closed_keepsByte (addr : Word) : Closed (keepsByte addr) := ⟨fun _ => rfl, fun _ _ _ h1 h2 => h2.trans h1⟩

theorem keepsByte_writeByte (h : addr ≠ a) (v : Byte) : Keeps (keepsByte addr) (writeByte p b a v) := by
  intro w
  rw [writeByte_run]
  split
  · exact Memory.read_write_other (fun e => h (BitVec.eq_of_toNat_eq e)) _ _
  · rfl

/-- MemWrite keeps every byte but those it is to store. -/
theorem keepsByte_memWrite {n : Nat} (h : ∀ k, k < n → addr ≠ a + BitVec.ofNat 32 k) (v : Int) :
    Keeps (keepsByte addr) (memWrite p b n a v) := by
  induction n generalizing a v with
  | zero => exact Keeps.pure (closed_keepsByte addr) _
  | succ n ih =>
    refine Keeps.bind (closed_keepsByte addr) (keepsByte_writeByte (by simpa using h 0 (by omega)) _) fun _ =>
      ih (fun k hk => ?_) _
    rw [addr_succ]
    exact h (k + 1) (by omega)

/-- WriteBlock keeps every byte outside the block. -/
theorem keepsByte_writeBlock (h : ∀ k, k < 128 → addr ≠ a + BitVec.ofNat 32 k) (blk : Block) :
    Keeps (keepsByte addr) (writeBlock p b a blk) :=
  Keeps.forRange_mem (closed_keepsByte addr) 0 64 fun n _ hn => keepsByte_memWrite (fun k hk => by
    rw [addr_add]
    exact h _ (by omega)) _

/-- Writing a block over one keeps every byte of memory but those of the coefficients that differ. -/
theorem read_of_writeBlock {old new : Block} {w w' : MemW} (hw : BlockStored a old 64 w) (hok : blockOk p a)
    (h : writeBlock p b a new w = .ok () w')
    (hsame : ∀ n, n < 64 → addr = a + BitVec.ofNat 32 (2 * n) ∨ addr = a + BitVec.ofNat 32 (2 * n + 1) →
      new.at n = old.at n) : w'.mem.read addr.toNat = w.mem.read addr.toNat := by
  by_cases hin : ∃ k, k < 128 ∧ addr = a + BitVec.ofNat 32 k
  · obtain ⟨k, hk, rfl⟩ := hin
    obtain ⟨u, hu, hstored⟩ := writeBlock_ok (b := b) hw.wf hw.host hok new
    obtain rfl : w' = u := by rw [h] at hu; injection hu
    have hcoef : coefIn w'.mem a (k / 2) = coefIn w.mem a (k / 2) := by
      rw [hstored.coefs _ (by omega), hw.coefs _ (by omega)]
      refine hsame _ (by omega) ?_
      rcases Nat.mod_two_eq_zero_or_one k with h0 | h1
      · exact .inl (by rw [show 2 * (k / 2) = k by omega])
      · exact .inr (by rw [show 2 * (k / 2) + 1 = k by omega])
    obtain ⟨hlo, hhi⟩ := byteAt_eq_of_coefIn hcoef
    rcases Nat.mod_two_eq_zero_or_one k with h0 | h1
    · rwa [show 2 * (k / 2) = k by omega] at hlo
    · rwa [show 2 * (k / 2) + 1 = k by omega] at hhi
  · have hkeep := keepsByte_writeBlock (p := p) (b := b) (a := a) (fun k hk e => hin ⟨k, hk, e⟩) new w
    rwa [h] at hkeep

/-! ### A block inside DECROW -/

variable {e : Env} {j : Nat} {w w' : DecW}

theorem liftMem_eq_ok {α : Type} {m : MM α} {x : α} :
    liftMem m w = .ok x w' ↔ ∃ mw, m w.mw = .ok x mw ∧ w' = { w with mw := mw } := by
  unfold liftMem
  cases m w.mw <;> simp [eq_comm]

theorem BlockStored.of_leavesMem {blk : Block} {n : Nat} {v u : MemW} (h : BlockStored a blk n v) (hu : leavesMem v u) :
    BlockStored a blk n u := by
  obtain ⟨hmem, hhost⟩ := hu
  exact ⟨hmem ▸ h.wf, hhost h.host, hmem ▸ h.coefs⟩

/-- A block that has been read is the one in memory. -/
theorem blockStored_of_readBlock {v v' : MemW} {blk : Block} (hwf : v.mem.wf = true) (hn : v.host = .none)
    (hok : blockOk p a) (h : readBlock p b a v = .ok blk v') : BlockStored a blk 64 v' ∧ v'.mem = v.mem := by
  obtain ⟨blk', u, hu, hat, hmem, hhost⟩ := readBlock_ok (b := b) hn hok
  rw [h] at hu
  obtain ⟨rfl, rfl⟩ : blk = blk' ∧ v' = u := by injection hu with h1 h2; exact ⟨h1, h2⟩
  exact ⟨⟨by rwa [hmem], hhost, fun n hlt => by rw [hmem, hat n hlt]⟩, hmem⟩

/-- Writing a block back in place of one that memory holds. -/
theorem liftMem_writeBlock_ok {old : Block} (hw : BlockStored a old 64 w.mw) (hok : blockOk p a) (new : Block) :
    ∃ mw, liftMem (writeBlock p b a new) w = .ok () { w with mw := mw } ∧ BlockStored a new 64 mw := by
  obtain ⟨mw, hmw, hstored⟩ := writeBlock_ok (b := b) hw.wf hw.host hok new
  exact ⟨mw, liftMem_eq_ok.mpr ⟨mw, hmw, rfl⟩, hstored⟩

theorem leavesMem_receive {t v : Nat} (h : receive e t w = .ok v w') : leavesMem w.mw w'.mw := by
  have hkeep := (onlyReads_receive (e := e) t w).mem
  rwa [h] at hkeep

theorem leavesMem_decodeSym {t : HuffTab} {s : Byte} (h : decodeSym e t w = .ok s w') : leavesMem w.mw w'.mw := by
  have hkeep := (onlyReads_decodeSym (e := e) t w).mem
  rwa [h] at hkeep

/-! ### The DC difference -/

/-- The predictor after a difference of category `s` with value bits `v` (R209, R210). -/
def nextDc (e : Env) (j : Nat) (w : DecW) (s : Byte) (v : Nat) : Half :=
  wrap16 ((w.ent.dcpred.get (e.comp j)).toInt + extend v s.toNat)

/-- The state with the predictor of scan component `j` at `dc`. -/
def withDcpred (e : Env) (j : Nat) (dc : Half) (w : DecW) : DecW :=
  { w with ent := { w.ent with dcpred := w.ent.dcpred.set (e.comp j) dc } }

/-- What a DC difference does once its category has been decoded. -/
theorem dcDiff_of_decodeSym {s : Byte} (h : decodeSym e (e.dcTab j) w = .ok s w') :
    dcDiff e j w =
      if 15 < s.toNat then .error ⟨.internalError, w'.pos⟩ w'
      else match receive e s.toNat w' with
        | .ok v u => .ok (nextDc e j u s v) (withDcpred e j (nextDc e j u s v) u)
        | .error r u => .error r u := by
  unfold dcDiff
  rw [bind_run, h]
  simp only
  split
  · rfl
  · rw [bind_run]
    cases receive e s.toNat w' <;> rfl

theorem leavesMem_dcDiff {dc : Half} (h : dcDiff e j w = .ok dc w') : leavesMem w.mw w'.mw := by
  obtain ⟨s, u, hsym, -⟩ := bind_eq_ok.mp h
  rw [dcDiff_of_decodeSym hsym] at h
  split at h
  · cases h
  · cases hbits : receive e s.toNat u with
    | ok v u' =>
      rw [hbits] at h
      have hleaves := closed_leavesMem.trans _ _ _ (leavesMem_decodeSym hsym) (leavesMem_receive hbits)
      cases h
      exact hleaves
    | error r u' =>
      rw [hbits] at h
      cases h

/-! ### The passes -/

variable {blk : Block} {mw : MemW}

theorem dcFirstBlock_of_readBlock (h : readBlock e.params .coef a w.mw = .ok blk mw) :
    dcFirstBlock e j a w =
      (dcDiff e j >>= fun dc =>
        liftMem (writeBlock e.params .coef a (blk.put 0 (wrap16 (dc.toInt * 2 ^ e.scn.al.toNat))))) { w with mw := mw } := by
  conv_lhs => unfold dcFirstBlock
  rw [bind_run, liftMem_eq_ok.mpr ⟨mw, h, rfl⟩]

/-- The block a refinement pass writes back, its correction bit being `v` (R211). -/
def refinedDc (e : Env) (v : Nat) (blk : Block) : Block :=
  if v = 1 then blk.put 0 (blk.at 0 ||| BitVec.ofNat 16 (2 ^ e.scn.al.toNat)) else blk

theorem dcRefineBlock_of_readBlock (h : readBlock e.params .coef a w.mw = .ok blk mw) :
    dcRefineBlock e a w =
      (receive e 1 >>= fun v => liftMem (writeBlock e.params .coef a (refinedDc e v blk))) { w with mw := mw } := by
  conv_lhs => unfold dcRefineBlock
  rw [bind_run, liftMem_eq_ok.mpr ⟨mw, h, rfl⟩]
  rfl

theorem refinedDc_at (v : Nat) (blk : Block) (n : Nat) :
    (refinedDc e v blk).at n =
      if v = 1 ∧ n = 0 then blk.at 0 ||| BitVec.ofNat 16 (2 ^ e.scn.al.toNat) else blk.at n := by
  unfold refinedDc
  by_cases hv : v = 1
  · rw [if_pos hv, blockAt_put blk (by omega)]
    simp [hv]
  · rw [if_neg hv, if_neg (fun h => hv h.1)]

/-- A pass reads a block, reads bits, and writes the block back, changed at coefficient 0 at most: the other bytes of
memory are kept. -/
theorem read_of_dcBlock {α : Type} {bits : DM α} {f : Block → α → Block}
    (hbits : ∀ x u u', bits u = .ok x u' → leavesMem u.mw u'.mw)
    (hf : ∀ blk x n, n ≠ 0 → (f blk x).at n = blk.at n)
    (hwf : w.mw.mem.wf = true) (hn : w.mw.host = .none) (hok : blockOk e.params a)
    (h : (liftMem (readBlock e.params .coef a) >>= fun blk => bits >>= fun x =>
      liftMem (writeBlock e.params .coef a (f blk x))) w = .ok () w')
    (h0 : addr ≠ a) (h1 : addr ≠ a + 1) : w'.mw.mem.read addr.toNat = w.mw.mem.read addr.toNat := by
  obtain ⟨blk, u, hread, h⟩ := bind_eq_ok.mp h
  obtain ⟨x, v, hx, hwrite⟩ := bind_eq_ok.mp h
  obtain ⟨mw, hmw, rfl⟩ := liftMem_eq_ok.mp hread
  obtain ⟨mw', hmw', rfl⟩ := liftMem_eq_ok.mp hwrite
  obtain ⟨hstored, hmem⟩ := blockStored_of_readBlock hwf hn hok hmw
  have hleaves := hbits _ _ _ hx
  refine (read_of_writeBlock (hstored.of_leavesMem hleaves) hok hmw' fun n _ haddr => hf blk x n ?_).trans ?_
  · rintro rfl
    rcases haddr with rfl | rfl
    · exact h0 (by simp)
    · exact h1 rfl
  · rw [hleaves.1, hmem]

/-- Settles O35: the block written back differs from the one read at coefficient 0 only. -/
theorem dcPassesChangeCoefficientZero : Obligations.DcPassesChangeCoefficientZero := by
  intro e j a w w' hwf hn hok
  refine ⟨fun old mw w0 w1 hread hw0 s hsym => ?_, fun old mw w0 hread hw0 v w1 hbit => ?_, ?_⟩
  · obtain ⟨hstored, -⟩ := blockStored_of_readBlock hwf hn hok hread
    rw [dcFirstBlock_of_readBlock hread, ← hw0, bind_run, dcDiff_of_decodeSym hsym]
    refine ⟨fun hs => by rw [if_pos hs], fun v w2 hs hbits => ?_⟩
    rw [if_neg (by omega), hbits]
    subst hw0
    have hleaves := closed_leavesMem.trans _ _ _ (leavesMem_decodeSym hsym) (leavesMem_receive hbits)
    obtain ⟨mw', hmw', hnew⟩ := liftMem_writeBlock_ok (b := .coef) (w := withDcpred e j (nextDc e j w2 s v) w2)
      (hstored.of_leavesMem hleaves) hok (old.put 0 (wrap16 ((nextDc e j w2 s v).toInt * 2 ^ e.scn.al.toNat)))
    exact ⟨mw', hmw', by rw [hnew.coefs 0 (by omega), blockAt_put old (by omega), if_pos rfl]; rfl⟩
  · obtain ⟨hstored, hmem⟩ := blockStored_of_readBlock hwf hn hok hread
    rw [dcRefineBlock_of_readBlock hread, ← hw0, bind_run, hbit]
    subst hw0
    obtain ⟨mw', hmw', hnew⟩ := liftMem_writeBlock_ok (b := .coef)
      (hstored.of_leavesMem (leavesMem_receive hbit)) hok (refinedDc e v old)
    refine ⟨mw', hmw', ?_⟩
    rw [hnew.coefs 0 (by omega), refinedDc_at, ← hmem, hstored.coefs 0 (by omega)]
    simp
  · rintro (h | h) addr h0 h1
    · refine read_of_dcBlock (bits := dcDiff e j) (fun _ _ _ => leavesMem_dcDiff) (fun blk dc n hn0 => ?_) hwf hn hok h h0 h1
      rw [blockAt_put blk (by omega), if_neg hn0]
    · refine read_of_dcBlock (bits := receive e 1) (f := fun blk v => refinedDc e v blk) (fun _ _ _ => leavesMem_receive)
        (fun blk v n hn0 => ?_) hwf hn hok h h0 h1
      rw [refinedDc_at, if_neg fun h => hn0 h.2]

end Sys2Proof.Cert
end

section
/-! STATUS (R24) with the flags it computes (R217, R352); the zigzag order (R200), EXTEND (R201) and the lossless predictors
(R215). -/
namespace Sys2Proof.Cert
open Sys2Proof.Machine

/-! ### The flags STATUS computes -/

/-- A component's AC coefficients are complete when bits 1..63 of its mask are set (R49). -/
theorem acDone_iff (m : BitVec 64) : acDone m = true ↔ ∀ k, 1 ≤ k → k ≤ 63 → m.getLsbD k = true := by
  have hbit : ∀ k, k < 64 → ((m ||| 1).getLsbD k = (BitVec.allOnes 64).getLsbD k ↔ k = 0 ∨ m.getLsbD k = true) :=
    fun k hk => by
      rw [BitVec.getLsbD_or, BitVec.getLsbD_allOnes, show (1 : BitVec 64).getLsbD k = decide (k = 0) by simp]
      simp [hk, or_comm]
  rw [acDone, beq_iff_eq]
  constructor
  · intro h k h1 h63
    exact ((hbit k (by omega)).mp (by rw [h])).resolve_left (by omega)
  · intro h
    refine BitVec.eq_of_getLsbD_eq fun k hk => (hbit k hk).mpr ?_
    rcases Nat.eq_zero_or_pos k with h0 | h1
    · exact .inl h0
    · exact .inr (h k h1 (by omega))

/-- RECON_READY: every component's sequential flag, or, in a progressive frame, its DC flag and its AC mask (R217). -/
theorem reconReady_iff (f : Frame) (p : Progress) :
    reconReady f p = true ↔
      ((f.mode = .sof0 ∨ f.mode = .sof1 ∨ f.mode = .sof3) ∧ ∀ c, c < f.ncomp.toNat → p.seqDone.get c = true) ∨
        (f.mode = .sof2 ∧ ∀ c, c < f.ncomp.toNat →
          p.dcDone.get c = true ∧ ∀ k, 1 ≤ k → k ≤ 63 → (p.acmask.get c).getLsbD k = true) := by
  unfold reconReady
  cases f.mode <;> simp [acDone_iff]

/-- The interrupt line: a status bit and its enable (R352). -/
theorem irq_iff (s : State) :
    irq s = true ↔
      (s.proc.done = true ∧ s.cfg.ieDone = true) ∨ (s.proc.err = true ∧ s.cfg.ieErr = true) ∨
        ((s.dec.warn.rst = true ∨ s.dec.warn.ent = true) ∧ s.cfg.ieWarn = true) := by
  simp only [irq, Bool.or_eq_true, Bool.and_eq_true, or_assoc]

/-! ### The STATUS word -/

theorem csrRead_status (s : State) : csrRead s 0x008 = statusWord s := rfl

/-- Appending one flag below the bits of a word: it is bit 0, and the others move up. -/
theorem getLsbD_append_bit {n : Nat} (x : BitVec n) (f : Bool) (k : Nat) :
    (x ++ bit f).getLsbD k = if k = 0 then f else x.getLsbD (k - 1) := by
  rw [BitVec.getLsbD_append, bit]
  cases k <;> simp

theorem getLsbD_append_zeros {n m : Nat} (x : BitVec n) (k : Nat) :
    (x ++ 0#m).getLsbD k = if k < m then false else x.getLsbD (k - m) := by
  rw [BitVec.getLsbD_append]
  simp

/-- STATUS, bit by bit (R24). -/
theorem getLsbD_statusWord (s : State) (k : Nat) :
    (statusWord s).getLsbD k =
      match k with
      | 0 => s.proc.busy
      | 1 => s.proc.done
      | 2 => s.proc.err
      | 3 => s.dec.warn.rst
      | 4 => s.dec.warn.ent
      | 8 => s.dec.frm.hdrValid
      | 9 => s.dec.scn.csValid
      | 10 => s.dec.scn.active
      | 11 => s.dec.ent.markerHit
      | 12 => reconReady s.dec.frm s.dec.prog
      | 13 => irq s
      | _ => false := by
  unfold statusWord
  simp only [getLsbD_append_bit, getLsbD_append_zeros]
  match k with
  | 0 | 1 | 2 | 3 | 4 | 5 | 6 | 7 | 8 | 9 | 10 | 11 | 12 | 13 => simp
  | k + 14 => simp

/-- The reserved bits of STATUS read 0. -/
theorem statusWord_reserved (s : State) : statusWord s &&& 0xFFFFC0E0#32 = 0 := by
  refine BitVec.eq_of_getLsbD_eq fun k hk => ?_
  rw [BitVec.getLsbD_and, getLsbD_statusWord]
  split <;> simp

/-- Settles O13, bit by bit. -/
theorem statusReadsTheFlags : Obligations.StatusReadsTheFlags := by
  intro s
  simp only [csrRead_status, getLsbD_statusWord, true_and]
  exact ⟨reconReady_iff _ _, irq_iff s, statusWord_reserved s⟩

/-! ### The zigzag order -/

/-- The table starts at 0, meets every place, and steps along the diagonals. -/
theorem zz_diagonal :
    zz 0 = 0 ∧ (∀ n, n < 64 → ∃ k, k < 64 ∧ zz k = n) ∧
    ∀ k, k < 63 →
      zz (k + 1) =
        if (zz k % 8 + zz k / 8) % 2 = 0 then
          (if zz k % 8 = 7 then zz k + 8 else if zz k / 8 = 0 then zz k + 1 else zz k + 1 - 8)
        else (if zz k / 8 = 7 then zz k + 1 else if zz k % 8 = 0 then zz k + 8 else zz k + 8 - 1) := by
  decide +kernel

/-! ### EXTEND -/

theorem extend_zero (v : Nat) : extend v 0 = 0 := rfl

/-- The lower half of a category's values is negative. -/
theorem extend_lower {v t : Nat} (h : v < 2 ^ t) : extend v (t + 1) = (v : Int) - 2 ^ (t + 1) + 1 := by
  rw [extend, if_neg (Nat.succ_ne_zero t), if_pos (by simpa using h)]

/-- The upper half of a category's values stands for itself. -/
theorem extend_upper {v t : Nat} (h : 2 ^ t ≤ v) : extend v (t + 1) = v := by
  rw [extend, if_neg (Nat.succ_ne_zero t), if_neg (by simpa using h)]

/-- EXTEND lies in its category's range, and is 0 in category 0 only (R201). -/
theorem extend_range {v t : Nat} (hv : v < 2 ^ t) :
    -(2 ^ t - 1) ≤ extend v t ∧ extend v t ≤ 2 ^ t - 1 ∧ (1 ≤ t → extend v t ≠ 0) := by
  cases t with
  | zero => simp [extend_zero]
  | succ t =>
    have hpos : 0 < 2 ^ t := Nat.two_pow_pos t
    have hcast : (2 : Int) ^ (t + 1) = 2 * (2 ^ t : Nat) := by push_cast; ring
    rw [pow_succ] at hv
    rcases Nat.lt_or_ge v (2 ^ t) with h | h
    · rw [extend_lower h, hcast]
      omega
    · rw [extend_upper h, hcast]
      omega

/-- Settles O29: the zigzag table by evaluation, EXTEND by its two halves, the predictors by definition. -/
theorem zigzagExtendAndPredict : Obligations.ZigzagExtendAndPredict :=
  ⟨zz_diagonal, fun _ _ _ hv => ⟨rfl, extend_range hv⟩, by decide, by decide, by decide, by decide,
    fun _ _ _ => ⟨rfl, rfl, rfl, rfl, rfl, rfl, rfl⟩, by decide⟩

end Sys2Proof.Cert
end

section
/-! ## The colour transforms and the dispatch of conversions (R278 to R280) -/

namespace Sys2Proof.Cert
open Sys2Proof.Machine

/-! ### The colour transforms -/

/-- The model's clamp to a byte is the rules' one. -/
theorem clamp_byte (v : Int) : clamp v 0 255 = to255 v := by
  unfold clamp to255
  split_ifs <;> omega

theorem to255_of_byte {v : Int} (h0 : 0 ≤ v) (h255 : v ≤ 255) : to255 v = v := by
  rw [to255, if_neg (by omega), if_neg (by omega)]

/-- R278 gives the three channels of the rule's formulas. -/
theorem ycc2rgb_eq (y cb cr : Int) : ycc2rgb y cb cr = (redOf y cr, greenOf y cb cr, blueOf y cb) := by
  simp only [ycc2rgb, clamp_byte, redOf, greenOf, blueOf]

/-- R279 inverts those channels and copies K. -/
theorem ycck2cmyk_eq (y cb cr k : Int) :
    ycck2cmyk y cb cr k = (255 - redOf y cr, 255 - greenOf y cb cr, 255 - blueOf y cb, k) := by
  simp only [ycck2cmyk, ycc2rgb_eq]

/-- At a neutral chroma each channel's correction is the rounding constant alone, 32768 / 65536 = 0. -/
theorem ycc2rgb_neutral (y : Int) : ycc2rgb y 128 128 = (to255 y, to255 y, to255 y) := by
  simp [ycc2rgb_eq, redOf, greenOf, blueOf]

/-! ### The dispatch of conversions -/

/-- FRAME1.CS's code as a number. -/
theorem toNat_code (cs : CSpace) : cs.code.toNat = spaceNum cs := by cases cs <;> rfl

/-- Rows 1 and 2 of R280 let the frame through. -/
def ConvUsable (e : Env) : Prop := e.cfg.dstPrec16 = decide (8 < e.frm.p.toNat) ∧ e.frm.layout ≠ .other

/-- The condition of a kind's row in R280's table. -/
def ConvRow (e : Env) : CcvKind → Prop
  | .copy => e.cfg.dst422 = false ∧ e.cfg.dstCs.toNat = spaceNum e.scn.cs ∧ e.cfg.dstNch = e.frm.ncomp
  | .rgb =>
    e.cfg.dst422 = false ∧ e.scn.cs = .ycbcr ∧ e.frm.ncomp = 3 ∧ (e.cfg.dstCs = 2 ∨ e.cfg.dstCs = 3) ∧ e.cfg.dstNch = 3
  | .p422 =>
    e.cfg.dst422 = true ∧ e.scn.cs = .ycbcr ∧ e.frm.ncomp = 3 ∧ e.frm.layout = .l422 ∧ e.cfg.dstCs = 4 ∧ e.cfg.dstNch = 2
  | .cmyk => e.cfg.dst422 = false ∧ e.scn.cs = .ycck ∧ e.frm.ncomp = 4 ∧ e.cfg.dstCs = 5 ∧ e.cfg.dstNch = 4

/-- The rows exclude one another, so a row whose condition is met is the one R280's scan of the table takes. -/
theorem ccvDispatch_of_row {e : Env} {k : CcvKind} (hu : ConvUsable e) (hk : ConvRow e k) : ccvDispatch e = some k := by
  obtain ⟨hprec, hlay⟩ := hu
  rw [ccvDispatch, if_neg (not_not.mpr hprec), if_neg hlay]
  cases k with
  | copy =>
    obtain ⟨h422, hcs, hch⟩ := hk
    exact if_pos ⟨h422, BitVec.toNat_inj.mp (hcs.trans (toNat_code _).symm), congrArg BitVec.toNat hch⟩
  | rgb =>
    obtain ⟨h422, hcs, hn, hdst | hdst, hch⟩ := hk <;> simp [h422, hcs, hn, hdst, hch, CSpace.code]
  | p422 =>
    obtain ⟨h422, hcs, hn, hl, hdst, hch⟩ := hk
    simp [h422, hcs, hn, hl, hdst, hch, CSpace.code]
  | cmyk =>
    obtain ⟨h422, hcs, hn, hdst, hch⟩ := hk
    simp [h422, hcs, hn, hdst, hch, CSpace.code]

/-- A conversion the scan of the table finds has its row's condition met. -/
theorem row_of_ccvDispatch {e : Env} {k : CcvKind} (h : ccvDispatch e = some k) : ConvUsable e ∧ ConvRow e k := by
  simp only [ccvDispatch] at h
  split_ifs at h with hprec hlay hcopy hrgb hp422 hcmyk <;> refine ⟨⟨not_not.mp hprec, hlay⟩, ?_⟩ <;> cases h
  · obtain ⟨h422, hcs, hch⟩ := hcopy
    exact ⟨h422, (congrArg BitVec.toNat hcs).trans (toNat_code _), BitVec.toNat_inj.mp hch⟩
  · obtain ⟨h422, hcs, hn, hdst, hch⟩ := hrgb
    exact ⟨h422, hcs, BitVec.toNat_inj.mp hn, hdst, BitVec.toNat_inj.mp hch⟩
  · obtain ⟨h422, hcs, hn, hl, hdst, hch⟩ := hp422
    exact ⟨h422, hcs, BitVec.toNat_inj.mp hn, hl, hdst, BitVec.toNat_inj.mp hch⟩
  · obtain ⟨h422, hcs, hn, hdst, hch⟩ := hcmyk
    exact ⟨h422, hcs, BitVec.toNat_inj.mp hn, hdst, BitVec.toNat_inj.mp hch⟩

/-- R280: a conversion is found exactly where rows 1 and 2 let the frame through and its row's condition is met. -/
theorem ccvDispatch_eq_some_iff (e : Env) (k : CcvKind) : ccvDispatch e = some k ↔ ConvUsable e ∧ ConvRow e k :=
  ⟨row_of_ccvDispatch, fun ⟨hu, hk⟩ => ccvDispatch_of_row hu hk⟩

/-- Settles O51: the transforms by their formulas, the dispatch by R280's rows, one kind each. -/
theorem conversionsFollowTheTables : Obligations.ConversionsFollowTheTables := by
  refine ⟨⟨ycc2rgb_eq, ycck2cmyk_eq, fun y h0 h255 => ?_, by decide, by decide, by decide⟩, fun e => ?_⟩
  · rw [ycc2rgb_neutral, to255_of_byte h0 h255]
  · exact ⟨ccvDispatch_eq_some_iff e .copy, ccvDispatch_eq_some_iff e .rgb, ccvDispatch_eq_some_iff e .p422,
      ccvDispatch_eq_some_iff e .cmyk⟩

end Sys2Proof.Cert
end

section
/-! NOP and END (R323, R324): the words of a command without operands (R114), and what GO does (R321). -/
namespace Sys2Proof.Cert
open Sys2Proof.Machine

/-! ### Word 0 -/

/-- Word 0 is accepted when its opcode is assigned and the reserved bits of that opcode's format are clear (R114). -/
theorem decodeWord0_eq_some_iff {w : Word} {r : OpRow} :
    decodeWord0 w = some r ↔ rowOf (opField w) = some r ∧ w &&& r.format.rsv = 0 := by
  unfold decodeWord0
  cases h : rowOf (opField w) with
  | none => simp
  | some q =>
    simp only [Option.ite_none_right_eq_some, Option.some.injEq]
    constructor
    · rintro ⟨hrsv, rfl⟩
      exact ⟨rfl, hrsv⟩
    · rintro ⟨rfl, hrsv⟩
      exact ⟨hrsv, rfl⟩

/-- The opcode field as a number (R110). -/
theorem toNat_opField (w : Word) : (opField w).toNat = w.toNat / 2 ^ 24 := by
  rw [opField, BitVec.extractLsb'_toNat, Nat.shiftRight_eq_div_pow]
  omega

/-- The row found for an opcode has that opcode. -/
theorem code_of_rowOf {c : BitVec 8} {r : OpRow} (h : rowOf c = some r) : r.code = c := by
  simpa using List.find?_some h

/-- Where the low 24 bits are all reserved, the opcode is the whole word (R111). -/
theorem eq_opField_append_zeros {w : Word} (h : w &&& Format.f0.rsv = 0) : w = opField w ++ 0#24 := by
  have hlow : w.extractLsb' 0 24 = 0#24 := by
    have h24 : (w &&& Format.f0.rsv).extractLsb' 0 24 = w.extractLsb' 0 24 := by
      rw [BitVec.extractLsb'_and, show Format.f0.rsv.extractLsb' 0 24 = BitVec.allOnes 24 by decide, BitVec.and_allOnes]
    rw [← h24, h]
    rfl
  rw [← hlow]
  refine BitVec.eq_of_getLsbD_eq fun k hk => ?_
  rw [BitVec.getLsbD_append, opField, BitVec.getLsbD_extractLsb', BitVec.getLsbD_extractLsb']
  split
  · simp [*]
  · simp [show k - 24 < 8 by omega, show 24 + (k - 24) = k by omega]

/-- A command without operands has one word: its opcode over zeros. Every other word of that opcode is illegal (R115). -/
theorem decodeWord0_f0_eq_none {w : Word} {r : OpRow} (hrow : rowOf (opField w) = some r) (hf : r.format = .f0)
    (hw : w ≠ r.code ++ 0#24) : decodeWord0 w = none := by
  refine Option.eq_none_iff_forall_ne_some.mpr fun q hq => hw ?_
  obtain ⟨hq, hrsv⟩ := decodeWord0_eq_some_iff.mp hq
  obtain rfl : r = q := Option.some.inj (hrow.symm.trans hq)
  rw [hf] at hrsv
  rw [code_of_rowOf hrow]
  exact eq_opField_append_zeros hrsv

/-- NOP with a reserved bit set is illegal (R323). -/
theorem decodeWord0_nop_reserved {w : Word} (hop : w.toNat / 2 ^ 24 = 1) (hw : w ≠ 0x01000000#32) :
    decodeWord0 w = none := by
  have hfield : opField w = 0x01#8 := BitVec.eq_of_toNat_eq ((toNat_opField w).trans hop)
  exact decodeWord0_f0_eq_none (r := ⟨.nop, 0x01, .f0⟩) (by rw [hfield]; rfl) rfl hw

/-! ### GO -/

/-- While idle and without an error, GO sets the enables, clears DONE, sets BUSY and begins a run (R321). -/
theorem csrWrite_ctrl_go {s : State} {v : Word} (hsrst : v.getLsbD 1 = false) (hgo : v.getLsbD 0 = true)
    (hbusy : s.proc.busy = false) (herr : s.proc.err = false) :
    csrWrite s 0x004 v =
      { withEnables v s with proc := { s.proc with busy := true, done := false }, race := s.runStart.race } := by
  have hrun : writeCtrl s v = startRun (withEnables v s) := by
    simp only [writeCtrl, wbit, hsrst, hgo, Bool.false_eq_true, ↓reduceIte, withEnables]
  have hidle : ((withEnables v s).proc.busy || (withEnables v s).proc.err) = false := by
    simp [withEnables, hbusy, herr]
  rw [csrWrite, if_pos rfl, hrun, startRun, if_neg (by simp [hidle])]
  rfl

/-! ### NOP and END -/

/-- NOP runs past itself (R323). -/
theorem exec_nop (s : State) : exec .nop s = .next (ranPast 4 s) := rfl

/-- END runs past itself and ends the run (R324). -/
theorem exec_endList (s : State) : exec .endList s = .next (endRun (ranPast 4 s)) := rfl

/-- Settles O8: END leaves the block idle with its error flag as it was, so that the GO after it starts a run. -/
theorem nopAndEndOnlyMoveOn : Obligations.NopAndEndOnlyMoveOn := by
  refine ⟨⟨exec_nop, rfl, fun _ => decodeWord0_nop_reserved⟩, rfl, fun s => ⟨exec_endList s, ?_⟩⟩
  rintro t v ht hgo hsrst herr
  obtain rfl : endRun (ranPast 4 s) = t := Host.Outcome.next.inj ((exec_endList s).symm.trans ht)
  rw [csrWrite_ctrl_go (s := endRun (ranPast 4 s)) hsrst hgo rfl herr]
  exact ⟨rfl, rfl, rfl⟩

end Sys2Proof.Cert
end

section
/-! The idle block (R358): a turn of the block, by the event that gives it, changes nothing while BUSY = 0. -/
namespace Sys2Proof.Cert
open Sys2Proof.Machine

/-- While idle the block leaves the state as it is (R358). -/
theorem blockStep_idle {s : State} (hidle : s.proc.busy = false) : blockStep s = .next s :=
  if_neg (by simp [hidle])

/-- With no event ahead of it, the block takes the turn. -/
theorem step_of_no_events {s : State} (h : s.events = []) : step s = blockStep s := by
  rw [step, h]

/-- The event `run` gives the turn to the block. -/
theorem step_of_run {s : State} {es : List BusEvent} (h : s.events = .run :: es) :
    step s = blockStep { s with events := es } := by
  rw [step, h]

/-- Settles O6: either idle turn is a turn of the block, which is idle. -/
theorem idleBlockDoesNothing : Obligations.IdleBlockDoesNothing := by
  intro s hidle
  constructor
  · intro hnone
    rw [step_of_no_events hnone, blockStep_idle hidle]
  · intro es hrun
    rw [step_of_run hrun, blockStep_idle (s := { s with events := es }) hidle]

end Sys2Proof.Cert
end

section
/-! The reset table (R382): the register window after a hardware reset, and after the RESET command. -/
namespace Sys2Proof.Cert
open Sys2Proof.Machine

/-! ### The array registers -/

theorem huff_reset (h : Nat) : Tables.reset.huff h = HuffTab.reset := by
  rw [Tables.huff]
  split <;> exact Quad.get_all _ _

theorem qtWord_reset (i m : Nat) : qtWord Tables.reset i m = 0 := by
  have hzero (k : Nat) : ((Tables.reset.qt.get i).toList.getD k 0) = 0 := by
    rw [show Tables.reset.qt.get i = Vector.replicate 64 0 from Quad.get_all _ _, Vector.toList_replicate,
      List.getD_eq_getElem?_getD, List.getElem?_getD_replicate_default_eq]
  rw [qtWord, hzero, hzero]
  rfl

theorem htByte_reset (o : Nat) : htByte HuffTab.reset o = 0 := by
  have hbits : HuffTab.reset.bits.toList.getD o 0 = 0 := by
    rw [show HuffTab.reset.bits = Vector.replicate 16 0 from rfl, Vector.toList_replicate,
      List.getD_eq_getElem?_getD, List.getElem?_getD_replicate_default_eq]
  rw [htByte, hbits]
  split_ifs <;> rfl

theorem htWord_reset (o : Nat) : htWord HuffTab.reset o = 0 := by
  simp only [htWord, htByte_reset]
  rfl

theorem compWord_reset (i : Nat) : compWord (Dec.reset.frm.comp.get i) = 0 := by
  rw [show Dec.reset.frm.comp.get i = Comp.reset from Quad.get_all _ _]
  rfl

/-- From 0x0A0 on the arrays are the decoder's (R41, R42, R50, R52, R53), and a cleared decoder reads 0 there. -/
theorem csrArray_of_dec_reset {s : State} (hdec : s.dec = Dec.reset) {off : Nat} (hoff : 0x0A0 ≤ off) :
    csrArray s off = 0 := by
  have hpred (i : Nat) : Dec.reset.ent.dcpred.get i = 0 := Quad.get_all _ _
  have hmask (i : Nat) : Dec.reset.prog.acmask.get i = 0 := Quad.get_all _ _
  have htab : Dec.reset.tab = Tables.reset := rfl
  rw [csrArray, hdec, htab, if_neg (by omega), if_neg (by omega), if_neg (by omega), if_neg (by omega), compWord_reset,
    hpred, hmask, qtWord_reset, huff_reset, htWord_reset]
  simp

/-- Below 0x0A0 the arrays are the host's (R33, R34). -/
theorem csrArray_of_cfg_reset {s : State} (hcfg : s.cfg = Cfg.reset) {off : Nat} (hoff : off < 0x0A0) :
    csrArray s off = 0 := by
  have harr (i : Nat) : Cfg.reset.planeBase.get i = 0 ∧ Cfg.reset.planeStride.get i = 0 ∧
      Cfg.reset.uplaneBase.get i = 0 ∧ Cfg.reset.uplaneStride.get i = 0 :=
    ⟨Quad.get_all _ _, Quad.get_all _ _, Quad.get_all _ _, Quad.get_all _ _⟩
  simp [csrArray, hcfg, harr, show ¬0xA0 ≤ off by omega, show ¬0xB0 ≤ off by omega, show ¬0x100 ≤ off by omega,
    show ¬0x400 ≤ off by omega, show ¬0x1000 ≤ off by omega]

/-- An array register the RESET command does not clear is no part of the decoder. -/
theorem csrArray_with_dec (s : State) (d : Dec) {off : Nat} (hoff : resetClears off = false) :
    csrArray { s with dec := d } off = csrArray s off := by
  simp only [resetClears, Bool.or_eq_false_iff, Bool.and_eq_false_iff, decide_eq_false_iff_not] at hoff
  obtain ⟨⟨⟨⟨-, hcomp⟩, hmask⟩, hqt⟩, hht⟩ := hoff
  simp only [csrArray, show ¬(0x0A0 ≤ off ∧ off < 0x0B0) by omega, show ¬(0x0B0 ≤ off ∧ off < 0x0C0) by omega,
    show ¬(0x100 ≤ off ∧ off < 0x120) by omega, show ¬(0x400 ≤ off ∧ off < 0x600) by omega,
    show ¬(0x1000 ≤ off ∧ off < 0x2000) by omega, if_false]

/-! ### The register window -/

/-- Between and above the named registers the window is its arrays (R20). -/
theorem csrRead_eq_csrArray (s : State) {off : Nat} (hoff : 0x0A0 ≤ off ∧ off < 0x0C0 ∨ 0x100 ≤ off) :
    csrRead s off = csrArray s off := by
  rw [csrRead]
  repeat rw [if_neg (by omega)]

/-- Every register and table memory of the fourth column reads 0 where the decoder state is cleared. -/
theorem csrRead_of_dec_reset {s : State} (hdec : s.dec = Dec.reset) {off : Nat} (hoff : resetClears off = true) :
    csrRead s off = 0 := by
  have hnamed : ∀ off ∈ [0x01C, 0x02C, 0x090, 0x094, 0x098, 0x09C, 0x0C0, 0x0C4] ++
      [0x0C8, 0x0CC, 0x0D0, 0x0D4, 0x0D8, 0x0DC, 0x0E0, 0x0E4], csrRead s off = 0 := by
    have hdone : compDoneWord Dec.reset.prog = 0 := by decide
    simp only [List.cons_append, List.nil_append, List.forall_mem_cons, csrRead, hdec]
    exact ⟨rfl, rfl, rfl, rfl, rfl, rfl, rfl, rfl, rfl, rfl, rfl, rfl, rfl, rfl, hdone, rfl, nofun⟩
  have harray (h : 0x0A0 ≤ off ∧ off < 0x0C0 ∨ 0x100 ≤ off) : csrRead s off = 0 := by
    rw [csrRead_eq_csrArray s h, csrArray_of_dec_reset hdec (by omega)]
  simp only [resetClears, Bool.or_eq_true, Bool.and_eq_true, decide_eq_true_eq, List.contains_iff_mem] at hoff
  obtain ((((h | h) | h) | h) | h) | h := hoff
  · exact hnamed off (List.mem_append_left _ h)
  · exact hnamed off (List.mem_append_right _ h)
  · exact harray (.inl h)
  all_goals exact harray (.inr (by omega))

/-- The other registers but STATUS are no part of the decoder. -/
theorem csrRead_with_dec (s : State) (d : Dec) {off : Nat} (hoff : resetClears off = false) (hstatus : off ≠ 0x008) :
    csrRead { s with dec := d } off = csrRead s off := by
  have harr := csrArray_with_dec s d hoff
  simp only [resetClears, List.contains_eq_mem, List.mem_cons, List.not_mem_nil, or_false, Bool.decide_or,
    Bool.or_eq_false_iff, decide_eq_false_iff_not, Bool.and_eq_false_imp, decide_eq_true_eq] at hoff
  simp [csrRead, hoff, hstatus, harr, ctrlWord]

/-- RESET leaves of STATUS the run's flags, and the interrupt line as these give it (R24, R352). -/
theorem csrRead_status_clearDecoder (s : State) :
    csrRead (clearDecoder s) 0x008 =
      (csrRead s 0x008 &&& 7#32) |||
        (if s.proc.done && s.cfg.ieDone || s.proc.err && s.cfg.ieErr then 0x2000#32 else 0) := by
  have hirq : irq (clearDecoder s) = (s.proc.done && s.cfg.ieDone || s.proc.err && s.cfg.ieErr) := by
    simp [irq, Dec.reset, Warn.reset]
  have hrecon : reconReady Dec.reset.frm Dec.reset.prog = false := rfl
  have hflags : ∀ k < 32, (7#32).getLsbD k = decide (k < 3) := by decide
  have hline (c : Bool) : ∀ k < 32, (if c then 0x2000#32 else 0).getLsbD k = (c && decide (k = 13)) := by
    cases c <;> decide
  refine BitVec.eq_of_getLsbD_eq fun k hk => ?_
  rw [BitVec.getLsbD_or, BitVec.getLsbD_and, hflags k hk, hline _ k hk, csrRead_status, csrRead_status,
    getLsbD_statusWord, getLsbD_statusWord, hirq, clearDecoder_proc, clearDecoder_dec, hrecon]
  match k with
  | 0 | 1 | 2 | 3 | 4 | 5 | 6 | 7 | 8 | 9 | 10 | 11 | 12 | 13 =>
    simp [Dec.reset, Warn.reset, Frame.reset, Scan.reset, Entropy.reset]
  | k + 14 => simp

/-- Running past a command moves CQ_PTR, and no other register (R320). -/
theorem csrRead_ranPast (n : Nat) (s : State) (off : Nat) :
    csrRead (ranPast n s) off = if off = 0x018 then s.proc.cqPtr + BitVec.ofNat 32 n else csrRead s off := by
  split_ifs with hptr
  · rw [hptr]
    rfl
  · simp only [csrRead, if_neg hptr]
    rfl

/-! ### The two resets -/

theorem csrArray_hardReset (s : State) (off : Nat) : csrArray (hardReset s) off = 0 := by
  rcases Nat.lt_or_ge off 0x0A0 with h | h
  · exact csrArray_of_cfg_reset (hardReset_cfg s) h
  · exact csrArray_of_dec_reset (hardReset_dec s) h

/-- No flag of STATUS is set, none of the computed ones either (R217, R352). -/
theorem statusWord_hardReset (s : State) : statusWord (hardReset s) = 0 := by
  refine BitVec.eq_of_getLsbD_eq fun k _ => ?_
  rw [getLsbD_statusWord, show (0 : Word).getLsbD k = false from BitVec.getLsbD_zero]
  split <;> rfl

/-- R382, third column: what the host reads. -/
theorem csrCleared_hardReset (s : State) : csrCleared (hardReset s) := by
  intro off
  cases hoff : resetClears off with
  | true =>
    have hid : off ≠ 0 := fun h => absurd (h ▸ hoff) (by decide)
    rw [csrRead_of_dec_reset (hardReset_dec s) hoff, if_neg hid]
  | false =>
    simp only [resetClears, List.contains_eq_mem, List.mem_cons, List.not_mem_nil, or_false, Bool.decide_or,
      Bool.or_eq_false_iff, decide_eq_false_iff_not, Bool.and_eq_false_imp, decide_eq_true_eq] at hoff
    simp [csrRead, hoff, csrArray_hardReset, statusWord_hardReset, ctrlWord, errInfoWord, dstCfgWord, bit, Cfg.reset,
      Proc.reset, Config.idWord]

/-- R382's hidden state (R54 to R56) is the decoder's. -/
theorem hiddenCleared_of_dec_reset {s : State} (hdec : s.dec = Dec.reset) : hiddenCleared s := by
  unfold hiddenCleared
  rw [hdec]
  exact ⟨fun h _ => congrArg HuffTab.hcode (huff_reset h), fun _ _ => Quad.get_all _ _, Sparse.read_nil, rfl⟩

/-- GO and SRST read 0, as do the reserved bits beside them (R23). -/
theorem getLsbD_ctrlWord_low (s : State) {k : Nat} (hk : k < 4) : (ctrlWord s).getLsbD k = false := by
  rw [ctrlWord, getLsbD_append_zeros, if_pos hk]

/-- RESET clears the decoder state and runs past itself (R325). -/
theorem exec_reset (s : State) : exec .reset s = .next (ranPast 4 (clearDecoder s)) := rfl

/-- R382, fourth column: what the host reads after the RESET command. -/
theorem csrRead_after_reset (s : State) (off : Nat) :
    csrRead (ranPast 4 (clearDecoder s)) off =
      if resetClears off then 0
      else if off = 0x008 then
        (csrRead s 0x008 &&& 7#32) ||| (if s.proc.done && s.cfg.ieDone || s.proc.err && s.cfg.ieErr then 0x2000#32 else 0)
      else if off = 0x018 then s.proc.cqPtr + 4
      else csrRead s off := by
  cases hoff : resetClears off with
  | true => exact csrRead_of_dec_reset rfl hoff
  | false =>
    rw [if_neg Bool.false_ne_true, csrRead_ranPast]
    by_cases hstatus : off = 0x008
    · subst hstatus
      exact csrRead_status_clearDecoder s
    · rw [if_neg hstatus]
      exact if_congr Iff.rfl rfl (csrRead_with_dec s Dec.reset hoff hstatus)

/-- Settles O9: a hardware reset by the third column, RESET by the fourth. -/
theorem resetTableHolds : Obligations.ResetTableHolds := by
  intro s
  refine ⟨⟨csrCleared_hardReset s, hiddenCleared_of_dec_reset (hardReset_dec s), rfl, rfl⟩, rfl, ?_, ?_, ?_⟩
  · exact getLsbD_ctrlWord_low s (by decide)
  · exact getLsbD_ctrlWord_low s (by decide)
  · exact ⟨_, exec_reset s, rfl, hiddenCleared_of_dec_reset rfl, csrRead_after_reset s⟩

end Sys2Proof.Cert
end

section
/-! The encoding (R110 to R116): what `decode` reads from the words of a command, and that each word it accepts is the
encoding of what it reads. -/
namespace Sys2Proof.Cert
open Sys2Proof.Machine

/-! ### Words and their bytes -/

/-- Concatenation as arithmetic. -/
theorem toNat_append {n m : Nat} (x : BitVec n) (y : BitVec m) : (x ++ y).toNat = 2 ^ m * x.toNat + y.toNat := by
  rw [BitVec.toNat_append, ← Nat.shiftLeft_add_eq_or_of_lt y.isLt, Nat.shiftLeft_eq, Nat.mul_comm]

theorem toNat_extract {n : Nat} (x : BitVec n) (i k : Nat) : (x.extractLsb' i k).toNat = x.toNat / 2 ^ i % 2 ^ k := by
  rw [BitVec.extractLsb'_toNat, Nat.shiftRight_eq_div_pow]

theorem append_of_extract (w : Word) :
    w.extractLsb' 24 8 ++ w.extractLsb' 16 8 ++ w.extractLsb' 8 8 ++ w.extractLsb' 0 8 = w := by
  refine BitVec.eq_of_toNat_eq ?_
  simp only [toNat_append, toNat_extract]
  omega

theorem wordBytes_append (b0 b1 b2 b3 : Byte) : wordBytes (b3 ++ b2 ++ b1 ++ b0) = [b0, b1, b2, b3] := by
  have h : ∀ (b : Byte) k, (b3 ++ b2 ++ b1 ++ b0).toNat / 2 ^ k % 2 ^ 8 = b.toNat →
      (b3 ++ b2 ++ b1 ++ b0).extractLsb' k 8 = b := fun b k hb => BitVec.eq_of_toNat_eq ((toNat_extract _ _ _).trans hb)
  rw [wordBytes, h b0, h b1, h b2, h b3] <;> simp only [toNat_append] <;> omega

theorem takeWord_wordBytes (w : Word) (bs : List Byte) : takeWord (wordBytes w ++ bs) = some (w, bs) := by
  simp [wordBytes, takeWord, append_of_extract]

theorem eq_of_takeWord {bs rest : List Byte} {w : Word} (h : takeWord bs = some (w, rest)) :
    bs = wordBytes w ++ rest := by
  match bs with
  | b0 :: b1 :: b2 :: b3 :: bs =>
    cases h
    rw [wordBytes_append]
    rfl
  | [] | [_] | [_, _] | [_, _, _] => cases h

theorem takeExt_flatMap (ws : List Word) (bs : List Byte) :
    takeExt ws.length (ws.flatMap wordBytes ++ bs) = some (ws, bs) := by
  induction ws with
  | nil => rfl
  | cons w ws ih => simp [takeExt, takeWord_wordBytes, ih]

theorem eq_of_takeExt {n : Nat} {bs rest : List Byte} {ws : List Word} (h : takeExt n bs = some (ws, rest)) :
    ws.length = n ∧ bs = ws.flatMap wordBytes ++ rest := by
  induction n generalizing bs ws with
  | zero =>
    cases h
    exact ⟨rfl, rfl⟩
  | succ n ih =>
    unfold takeExt at h
    split at h
    · cases h
    · rename_i w more hw
      split at h
      · cases h
      · rename_i vs rest' hv
        cases h
        obtain ⟨hlen, hmore⟩ := ih hv
        exact ⟨by simp [hlen], by rw [eq_of_takeWord hw, hmore]; simp⟩

/-! ### Decoding words -/

/-- What `decode` reads where word 0 is legal and the extension words are there (R110, R114). -/
theorem decode_words {w0 : Word} {r : OpRow} (h : decodeWord0 w0 = some r) {ws : List Word}
    (hlen : ws.length = r.format.words - 1) (rest : List Byte) :
    decode ((w0 :: ws).flatMap wordBytes ++ rest) =
      .ok (r.op.build w0 (ws.getD 0 0) (ws.getD 1 0) (ws.getD 2 0), rest) := by
  rw [decode, List.flatMap_cons, List.append_assoc, takeWord_wordBytes]
  simp only [h, ← hlen, takeExt_flatMap]

/-- Whatever decodes begins with a legal word 0 and its extension words. -/
theorem words_of_decode {bs rest : List Byte} {i : Instr} (h : decode bs = .ok (i, rest)) :
    ∃ w0 r ws, decodeWord0 w0 = some r ∧ ws.length = r.format.words - 1 ∧
      i = r.op.build w0 (ws.getD 0 0) (ws.getD 1 0) (ws.getD 2 0) ∧ bs = (w0 :: ws).flatMap wordBytes ++ rest := by
  unfold decode at h
  split at h
  · cases h
  · rename_i w0 more hw
    split at h
    · cases h
    · rename_i r hr
      split at h
      · cases h
      · rename_i ws rest' hx
        cases h
        obtain ⟨hlen, hmore⟩ := eq_of_takeExt hx
        exact ⟨w0, r, ws, hr, hlen, rfl, by rw [eq_of_takeWord hw, hmore]; simp⟩

/-! ### The words of a command -/

theorem loField_rowWord {row n : Nat} (h : row < 65536) : loField (rowWord row n) = row := by
  rw [loField, toNat_extract, rowWord, toNat_append, BitVec.toNat_ofNat, BitVec.toNat_ofNat]
  omega

theorem hiField_rowWord {row n : Nat} (h : n < 65536) : hiField (rowWord row n) = n := by
  rw [hiField, toNat_extract, rowWord, toNat_append, BitVec.toNat_ofNat, BitVec.toNat_ofNat]
  omega

theorem rowWord_fields (w : Word) : rowWord (loField w) (hiField w) = w := by
  refine BitVec.eq_of_toNat_eq ?_
  simp only [rowWord, toNat_append, BitVec.toNat_ofNat, loField, hiField, toNat_extract]
  omega

theorem rowFields {row n : Nat} (h : (fits16 row && fits16 n) = true) : row < 65536 ∧ n < 65536 := by
  simpa [fits16] using h

theorem wf_rowFields (w : Word) : (fits16 (loField w) && fits16 (hiField w)) = true := by
  simp [fits16, show loField w < 65536 from (w.extractLsb' 0 16).isLt,
    show hiField w < 65536 from (w.extractLsb' 16 16).isLt]

/-! ### Word 0 as a number -/

/-- Where the reserved bits of a format's word 0 begin, and how many they are (R114). -/
def rsvField : Format → Nat × Nat
  | .f0 | .fa | .fr => (0, 24)
  | .fm | .fb => (2, 22)
  | .fn => (16, 8)

theorem getLsbD_rsv (f : Format) {k : Nat} (hk : k < 32) :
    f.rsv.getLsbD k = decide ((rsvField f).1 ≤ k ∧ k < (rsvField f).1 + (rsvField f).2) := by
  revert k
  cases f <;> decide

/-- The reserved bits are clear, as a number says it. -/
theorem and_rsv_eq_zero (f : Format) (w : Word) :
    w &&& f.rsv = 0 ↔ w.toNat / 2 ^ (rsvField f).1 % 2 ^ (rsvField f).2 = 0 := by
  have hf : (rsvField f).1 + (rsvField f).2 ≤ 32 := by cases f <;> decide
  rw [← toNat_extract, show (0 : Nat) = (0#(rsvField f).2).toNat by simp, BitVec.toNat_inj]
  constructor
  · intro h
    refine BitVec.eq_of_getLsbD_eq fun k hk => ?_
    have := congrArg (fun v => v.getLsbD ((rsvField f).1 + k)) h
    simpa [getLsbD_rsv f (k := (rsvField f).1 + k) (by omega), hk] using this
  · intro h
    refine BitVec.eq_of_getLsbD_eq fun k hk => ?_
    rw [BitVec.getLsbD_and, getLsbD_rsv f hk]
    by_cases hin : (rsvField f).1 ≤ k ∧ k < (rsvField f).1 + (rsvField f).2
    · have := congrArg (fun v => v.getLsbD (k - (rsvField f).1)) h
      have hbit : w.getLsbD k = false := by
        simpa [show k - (rsvField f).1 < (rsvField f).2 by omega,
          show (rsvField f).1 + (k - (rsvField f).1) = k by omega] using this
      rw [hbit, Bool.false_and]
      exact BitVec.getLsbD_zero.symm
    · rw [decide_eq_false hin, Bool.and_false]
      exact BitVec.getLsbD_zero.symm

/-- A legal word 0 as a number: the opcode of a row of the opcode map, and the reserved bits clear (R114). -/
theorem decodeWord0_iff {w : Word} {r : OpRow} :
    decodeWord0 w = some r ↔
      rowOf r.code = some r ∧ w.toNat / 2 ^ 24 = r.code.toNat ∧
        w.toNat / 2 ^ (rsvField r.format).1 % 2 ^ (rsvField r.format).2 = 0 := by
  rw [decodeWord0_eq_some_iff, and_rsv_eq_zero, ← toNat_opField, BitVec.toNat_inj]
  constructor
  · rintro ⟨hrow, hrsv⟩
    have hcode := code_of_rowOf hrow
    exact ⟨hcode ▸ hrow, hcode.symm, hrsv⟩
  · rintro ⟨hrow, hcode, hrsv⟩
    exact ⟨hcode ▸ hrow, hrsv⟩

/-- Where the low 24 bits are all reserved, the opcode is the whole word (R111). -/
theorem eq_code {w : Word} {c : BitVec 8} (hcode : w.toNat / 2 ^ 24 = c.toNat) (hrsv : w.toNat / 2 ^ 0 % 2 ^ 24 = 0) :
    c ++ 0#24 = w := by
  refine BitVec.eq_of_toNat_eq ?_
  rw [toNat_append, ← hcode, BitVec.toNat_ofNat]
  omega

/-- DECROW's word 0 as a number (R111). -/
theorem toNat_decrowWord {n : Nat} (h : n < 65536) : (0x20000000#32 ||| BitVec.ofNat 32 n).toNat = 0x20000000 + n := by
  rw [BitVec.toNat_or, BitVec.toNat_ofNat, BitVec.toNat_ofNat, Nat.mod_eq_of_lt (b := 2 ^ 32) (a := n) (by omega)]
  exact (Nat.two_pow_add_eq_or_of_lt (i := 29) (by omega) 1).symm

/-- IDCTBLK's word 0 as a number (R111). -/
theorem toNat_idctblkWord {n : Nat} (h : n < 4) : (0x30000000#32 ||| BitVec.ofNat 32 n).toNat = 0x30000000 + n := by
  rw [BitVec.toNat_or, BitVec.toNat_ofNat, BitVec.toNat_ofNat, Nat.mod_eq_of_lt (b := 2 ^ 32) (a := n) (by omega)]
  exact (Nat.two_pow_add_eq_or_of_lt (i := 28) (by omega) 3).symm

/-- SETFRM's word 0 as a number (R111). -/
theorem toNat_setfrmWord (k : SofKind) :
    (0x12000000#32 ||| k.code.zeroExtend 32).toNat = 0x12000000 + k.code.toNat := by
  cases k <;> rfl

theorem sofOf_code (k : SofKind) : sofOf k.code = k := by cases k <;> rfl

theorem code_sofOf (v : BitVec 2) : (sofOf v).code = v := by
  revert v
  decide

/-! ### Round trips -/

/-- The words of a well-formed command are those of the row of its opcode, and the operands assemble to it (R112, R116). -/
theorem encode_row {i : Instr} (h : i.wf = true) :
    ∃ w0 r ws, encode i = w0 :: ws ∧ decodeWord0 w0 = some r ∧ ws.length = r.format.words - 1 ∧
      r.op.build w0 (ws.getD 0 0) (ws.getD 1 0) (ws.getD 2 0) = i := by
  cases i with
  | nop => exact ⟨_, ⟨.nop, 0x01, .f0⟩, _, rfl, rfl, rfl, rfl⟩
  | endList => exact ⟨_, ⟨.endList, 0x02, .f0⟩, _, rfl, rfl, rfl, rfl⟩
  | reset => exact ⟨_, ⟨.reset, 0x03, .f0⟩, _, rfl, rfl, rfl, rfl⟩
  | seek off => exact ⟨_, ⟨.seek, 0x04, .fa⟩, _, rfl, rfl, rfl, rfl⟩
  | ldqt => exact ⟨_, ⟨.ldqt, 0x10, .f0⟩, _, rfl, rfl, rfl, rfl⟩
  | ldht => exact ⟨_, ⟨.ldht, 0x11, .f0⟩, _, rfl, rfl, rfl, rfl⟩
  | setri => exact ⟨_, ⟨.setri, 0x13, .f0⟩, _, rfl, rfl, rfl, rfl⟩
  | setscn => exact ⟨_, ⟨.setscn, 0x14, .f0⟩, _, rfl, rfl, rfl, rfl⟩
  | setfrm k =>
    have hk := k.code.isLt
    refine ⟨_, ⟨.setfrm, 0x12, .fm⟩, [], rfl, decodeWord0_iff.mpr ⟨rfl, ?_, ?_⟩, rfl, ?_⟩
    · rw [toNat_setfrmWord]
      exact (show (0x12000000 + k.code.toNat) / 2 ^ 24 = 18 by omega)
    · rw [toNat_setfrmWord]
      exact (show (0x12000000 + k.code.toNat) / 2 ^ 2 % 2 ^ 22 = 0 by omega)
    · rw [Op.build]
      conv_rhs => rw [← sofOf_code k]
      congr 2
      refine BitVec.eq_of_toNat_eq ?_
      rw [toNat_extract, toNat_setfrmWord]
      omega
  | decrow n =>
    have hn : n < 65536 := of_decide_eq_true h
    refine ⟨_, ⟨.decrow, 0x20, .fn⟩, [], rfl, decodeWord0_iff.mpr ⟨rfl, ?_, ?_⟩, rfl, ?_⟩
    · rw [toNat_decrowWord hn]
      exact (show (0x20000000 + n) / 2 ^ 24 = 32 by omega)
    · rw [toNat_decrowWord hn]
      exact (show (0x20000000 + n) / 2 ^ 16 % 2 ^ 8 = 0 by omega)
    · rw [Op.build, loField, toNat_extract, toNat_decrowWord hn]
      congr 1
      omega
  | idctblk tq src dst stride =>
    have ht : tq < 4 := of_decide_eq_true h
    refine ⟨_, ⟨.idctblk, 0x30, .fb⟩, [src, dst, stride], rfl, decodeWord0_iff.mpr ⟨rfl, ?_, ?_⟩, rfl, ?_⟩
    · rw [toNat_idctblkWord ht]
      exact (show (0x30000000 + tq) / 2 ^ 24 = 48 by omega)
    · rw [toNat_idctblkWord ht]
      exact (show (0x30000000 + tq) / 2 ^ 2 % 2 ^ 22 = 0 by omega)
    · rw [Op.build, toNat_extract, toNat_idctblkWord ht]
      simp only [List.getD_cons_zero, List.getD_cons_succ]
      congr 1
      omega
  | idctrow row n =>
    obtain ⟨hr, hn⟩ := rowFields h
    exact ⟨_, ⟨.idctrow, 0x31, .fr⟩, _, rfl, rfl, rfl,
      congrArg₂ Instr.idctrow (loField_rowWord hr) (hiField_rowWord hn)⟩
  | upsrow row n =>
    obtain ⟨hr, hn⟩ := rowFields h
    exact ⟨_, ⟨.upsrow, 0x32, .fr⟩, _, rfl, rfl, rfl,
      congrArg₂ Instr.upsrow (loField_rowWord hr) (hiField_rowWord hn)⟩
  | ccvrow row n =>
    obtain ⟨hr, hn⟩ := rowFields h
    exact ⟨_, ⟨.ccvrow, 0x33, .fr⟩, _, rfl, rfl, rfl,
      congrArg₂ Instr.ccvrow (loField_rowWord hr) (hiField_rowWord hn)⟩
  | recrow row n =>
    obtain ⟨hr, hn⟩ := rowFields h
    exact ⟨_, ⟨.recrow, 0x34, .fr⟩, _, rfl, rfl, rfl,
      congrArg₂ Instr.recrow (loField_rowWord hr) (hiField_rowWord hn)⟩

/-- Settles O1: the words of a command are those of its row, which `decode` reads back. -/
theorem decodeInvertsEncode : Obligations.DecodeInvertsEncode := by
  intro i rest h
  obtain ⟨w0, r, ws, henc, hdec, hlen, hbuild⟩ := encode_row h
  rw [encodeBytes, henc, decode_words hdec hlen, hbuild]

theorem noExt {v w : Word} {ws : List Word} (hlen : ws.length = 0) (h : v = w) : [v] = w :: ws := by
  rw [List.length_eq_zero_iff.mp hlen, h]

theorem rowExt {v w : Word} {ws : List Word} (hlen : ws.length = 1) (h : v = w) :
    [v, rowWord (loField (ws.getD 0 0)) (hiField (ws.getD 0 0))] = w :: ws := by
  obtain ⟨w1, rfl⟩ := List.length_eq_one_iff.mp hlen
  rw [h, List.getD_cons_zero, rowWord_fields]

/-- The operands that a legal word 0 and its extension words give are a well-formed command, whose words they are. -/
theorem encode_build {w0 : Word} {r : OpRow} (h : decodeWord0 w0 = some r) {ws : List Word}
    (hlen : ws.length = r.format.words - 1) :
    (r.op.build w0 (ws.getD 0 0) (ws.getD 1 0) (ws.getD 2 0)).wf = true ∧
      encode (r.op.build w0 (ws.getD 0 0) (ws.getD 1 0) (ws.getD 2 0)) = w0 :: ws := by
  obtain ⟨hrow, hcode, hrsv⟩ := decodeWord0_iff.mp h
  have hmem : r ∈ opTable := List.mem_of_find?_eq_some hrow
  simp only [opTable, List.cons_append, List.nil_append, List.mem_cons, List.not_mem_nil, or_false] at hmem
  rcases hmem with rfl | rfl | rfl | rfl | rfl | rfl | rfl | rfl | rfl | rfl | rfl | rfl | rfl | rfl | rfl
  · exact ⟨rfl, noExt hlen (eq_code hcode hrsv)⟩
  · exact ⟨rfl, noExt hlen (eq_code hcode hrsv)⟩
  · exact ⟨rfl, noExt hlen (eq_code hcode hrsv)⟩
  · obtain ⟨w1, rfl⟩ := List.length_eq_one_iff.mp hlen
    exact ⟨rfl, congrArg (· :: [w1]) (eq_code hcode hrsv)⟩
  · exact ⟨rfl, noExt hlen (eq_code hcode hrsv)⟩
  · exact ⟨rfl, noExt hlen (eq_code hcode hrsv)⟩
  · change w0.toNat / 2 ^ 24 = 18 at hcode
    change w0.toNat / 2 ^ 2 % 2 ^ 22 = 0 at hrsv
    refine ⟨rfl, noExt hlen (BitVec.eq_of_toNat_eq ?_)⟩
    rw [toNat_setfrmWord, code_sofOf, toNat_extract]
    omega
  · exact ⟨rfl, noExt hlen (eq_code hcode hrsv)⟩
  · exact ⟨rfl, noExt hlen (eq_code hcode hrsv)⟩
  · change w0.toNat / 2 ^ 24 = 32 at hcode
    change w0.toNat / 2 ^ 16 % 2 ^ 8 = 0 at hrsv
    have hn : loField w0 < 65536 := (w0.extractLsb' 0 16).isLt
    refine ⟨decide_eq_true hn, noExt hlen (BitVec.eq_of_toNat_eq ?_)⟩
    rw [toNat_decrowWord hn, loField, toNat_extract]
    omega
  · change w0.toNat / 2 ^ 24 = 48 at hcode
    change w0.toNat / 2 ^ 2 % 2 ^ 22 = 0 at hrsv
    obtain ⟨w1, w2, w3, rfl⟩ := List.length_eq_three.mp hlen
    have hn : (w0.extractLsb' 0 2).toNat < 4 := (w0.extractLsb' 0 2).isLt
    refine ⟨decide_eq_true hn, congrArg (· :: [w1, w2, w3]) (BitVec.eq_of_toNat_eq ?_)⟩
    rw [toNat_idctblkWord hn, toNat_extract]
    omega
  · exact ⟨wf_rowFields _, rowExt hlen (eq_code hcode hrsv)⟩
  · exact ⟨wf_rowFields _, rowExt hlen (eq_code hcode hrsv)⟩
  · exact ⟨wf_rowFields _, rowExt hlen (eq_code hcode hrsv)⟩
  · exact ⟨wf_rowFields _, rowExt hlen (eq_code hcode hrsv)⟩

/-- Settles O2: word 0's row, its format's length and its clear reserved bits determine the bytes. -/
theorem decodedBytesAreTheEncoding : Obligations.DecodedBytesAreTheEncoding := by
  intro bs i rest h
  obtain ⟨w0, r, ws, hdec, hlen, rfl, rfl⟩ := words_of_decode h
  obtain ⟨hwf, henc⟩ := encode_build hdec hlen
  exact ⟨hwf, by rw [encodeBytes, henc]⟩

/-- Settles O4: each example is a decoding or one step of a state that the kernel evaluates. -/
theorem exampleWordsDecode : Obligations.ExampleWordsDecode := by
  refine ⟨rfl, rfl, rfl, rfl, rfl, rfl, ⟨_, rfl, ?_, ?_⟩, _, rfl, ?_⟩ <;> rfl

end Sys2Proof.Cert
end

section
/-! What a command does: it completes past its own words or enters the error state at itself, and what it leaves of the
decoder state (R320, R326, R341). -/
namespace Sys2Proof.Cert
open Sys2Proof.Machine

/-- The processor after a command has completed (R320, R324). -/
def doneProc (i : Instr) (p : Proc) : Proc :=
  { p with
    cqPtr := p.cqPtr + BitVec.ofNat 32 (4 * (encode i).length)
    busy := p.busy && i != .endList
    done := p.done || i == .endList }

theorem encode_length (i : Instr) : (encode i).length = i.op.words := by cases i <;> rfl

theorem advance_doneProc {i : Instr} (hi : i ≠ .endList) (s : State) : (advance i.op s).proc = doneProc i s.proc := by
  simp [doneProc, encode_length, hi]

/-- What no command changes: the parameters, the host's registers, and the model's own records. -/
structure SameHost (s t : State) : Prop where
  params : t.params = s.params
  cfg : t.cfg = s.cfg
  events : t.events = s.events
  loads : t.loads = s.loads
  race : t.race = s.race

/-- A command has ended: complete, or in the error state. -/
def Ended (i : Instr) (s t : State) : Prop := t.proc = doneProc i s.proc ∨ ∃ r : Raise, t.proc = (errorEntry r s).proc

/-- What a command, with host stores beside it, can leave of the decoder state. -/
inductive DecEffect (h : Beside) (s : State) : Instr → Dec → Prop
  | same (i : Instr) : DecEffect h s i s.dec
  | reset : DecEffect h s .reset Dec.reset
  | seek (off : Word) : DecEffect h s (.seek off) (setCursor off s).dec
  | ldqt : DecEffect h s .ldqt { s.dec with tab := stateAfter (ldqtBody s s.dec.tab) }
  | ldht : DecEffect h s .ldht { s.dec with tab := stateAfter (ldhtBody s s.dec.tab) }
  | setri (ri : Nat) : DecEffect h s .setri (commitRi ri s).dec
  | setfrm (k : SofKind) (f : FrameHdr) : parseFrame s (modeOf k) = .ok f →
    DecEffect h s (.setfrm k) (commitFrame (modeOf k) f (geometry (modeOf k) f) s).dec
  | need (k : SofKind) (n : Nat) : DecEffect h s (.setfrm k) (noteNeed n s).dec
  | setscn (hdr : ScanHdr) : parseScan s = .ok hdr → DecEffect h s .setscn (commitScan hdr s).dec
  | decrowDone (n : Nat) (w : DecW) : s.dec.scn.active = true → decrowRun h n s = .ok () w →
    DecEffect h s (.decrow n) (scanComplete (s.withDec w)).dec
  | decrowRaised (n : Nat) (r : Raise) (w : DecW) : s.dec.scn.active = true → decrowRun h n s = .error r w →
    DecEffect h s (.decrow n) (s.withDec w).dec

/-- A command's answer goes on, to a state it has ended in. -/
def Runs (h : Beside) (i : Instr) (s : State) (a : Answer) : Prop :=
  ∃ t, a = .next t ∧ SameHost s t ∧ Ended i s t ∧ DecEffect h s i t.dec

variable {h : Beside} {i : Instr} {s : State}

theorem runs_error {t : State} (r : Raise) (hs : SameHost s t) (hp : t.proc = s.proc) (hd : DecEffect h s i t.dec) :
    Runs h i s (.next (errorEntry r t)) :=
  ⟨_, rfl, ⟨hs.params, hs.cfg, hs.events, hs.loads, hs.race⟩, .inr ⟨r, by simp [hp]⟩, hd⟩

theorem runs_advance {t : State} (hi : i ≠ .endList) (hs : SameHost s t) (hp : t.proc = s.proc)
    (hd : DecEffect h s i t.dec) : Runs h i s (.next (advance i.op t)) :=
  ⟨_, rfl, ⟨hs.params, hs.cfg, hs.events, hs.loads, hs.race⟩, .inl ((advance_doneProc hi t).trans (by rw [hp])), hd⟩

theorem sameHost_refl (s : State) : SameHost s s := ⟨rfl, rfl, rfl, rfl, rfl⟩

theorem sameHost_settle (w : MemW) (s : State) : SameHost s (s.settle w) :=
  ⟨settle_params w s, settle_cfg w s, settle_events w s, settle_loads w s, settle_race w s⟩

theorem sameHost_withDec (w : DecW) (s : State) : SameHost s (s.withDec w) :=
  ⟨withDec_params w s, withDec_cfg w s, withDec_events w s, withDec_loads w s, withDec_race w s⟩

theorem runs_finishMem (hi : i ≠ .endList) (r : EStateM.Result Raise MemW Unit) : Runs h i s (finishMem i.op s r) := by
  have hd : ∀ w, DecEffect h s i (s.settle w).dec := fun w => settle_dec w s ▸ .same i
  cases r with
  | ok _ w => exact runs_advance hi (sameHost_settle w s) (settle_proc w s) (hd w)
  | error r w => exact runs_error r (sameHost_settle w s) (settle_proc w s) (hd w)

theorem runs_finishTables (hi : i ≠ .endList) {r : EStateM.Result Raise Tables Nat}
    (hd : DecEffect h s i { s.dec with tab := stateAfter r }) : Runs h i s (finishTables i.op s r) := by
  cases r with
  | ok _ t => exact runs_advance hi ⟨rfl, rfl, rfl, rfl, rfl⟩ rfl hd
  | error r t => exact runs_error r ⟨rfl, rfl, rfl, rfl, rfl⟩ rfl hd

theorem runs_decrow {n : Nat} (ha : s.dec.scn.active = true) :
    Runs h (.decrow n) s (finishDecrow s (decrowRun h n s)) := by
  cases hr : decrowRun h n s with
  | ok u w =>
    have hs := sameHost_withDec w s
    refine runs_advance (i := .decrow n) (by simp) (t := scanComplete (s.withDec w)) ?_ (by simp)
      (.decrowDone n w ha hr)
    exact ⟨by simp, by simp, by simp, by simp, by simp⟩
  | error r w => exact runs_error r (sameHost_withDec w s) (withDec_proc w s) (.decrowRaised n r w ha hr)

theorem runs_setfrm (k : SofKind) : Runs h (.setfrm k) s (execSetfrm k s) := by
  unfold execSetfrm
  cases hp : parseFrame s (modeOf k) with
  | error r => exact runs_error r (sameHost_refl s) rfl (.same _)
  | ok f =>
    simp only
    split
    · exact runs_error _ ⟨rfl, rfl, rfl, rfl, rfl⟩ rfl (.need k _)
    · split
      · rename_i w _
        have hs := sameHost_settle w s
        have hd : (commitFrame (modeOf k) f (geometry (modeOf k) f) (s.settle w)).dec =
            (commitFrame (modeOf k) f (geometry (modeOf k) f) s).dec := by simp
        exact runs_advance (i := .setfrm k) (by simp) ⟨hs.params, hs.cfg, hs.events, hs.loads, hs.race⟩ (settle_proc w s)
          (hd ▸ .setfrm k f hp)
      · rename_i r w _
        exact runs_error r (sameHost_settle w s) (settle_proc w s) (settle_dec w s ▸ .same _)

/-- Every command, in every state and beside any host stores, completes or enters the error state. -/
theorem runs_execBeside (h : Beside) (i : Instr) (s : State) : Runs h i s (execBeside h i s) := by
  cases i with
  | nop => exact runs_advance (i := .nop) (by simp) (sameHost_refl s) rfl (.same _)
  | endList => exact ⟨_, rfl, ⟨rfl, rfl, rfl, rfl, rfl⟩, .inl (by simp [doneProc, encode, Op.words]), .same _⟩
  | reset => exact runs_advance (i := .reset) (by simp) ⟨rfl, rfl, rfl, rfl, rfl⟩ rfl .reset
  | seek off =>
    simp only [execBeside, exec, execSeek]
    split
    · exact runs_error _ (sameHost_refl s) rfl (.same _)
    · exact runs_advance (i := .seek off) (by simp) ⟨rfl, rfl, rfl, rfl, rfl⟩ rfl (.seek off)
  | ldqt => exact runs_finishTables (i := .ldqt) (by simp) .ldqt
  | ldht => exact runs_finishTables (i := .ldht) (by simp) .ldht
  | setfrm k => exact runs_setfrm k
  | setri =>
    simp only [execBeside, exec, execSetri]
    split
    · exact runs_advance (i := .setri) (by simp) ⟨rfl, rfl, rfl, rfl, rfl⟩ rfl (.setri _)
    · exact runs_error _ (sameHost_refl s) rfl (.same _)
  | setscn =>
    simp only [execBeside, exec, execSetscn]
    split
    · exact runs_advance (i := .setscn) (by simp) ⟨rfl, rfl, rfl, rfl, rfl⟩ rfl (.setscn _ (by assumption))
    · exact runs_error _ (sameHost_refl s) rfl (.same _)
  | decrow n =>
    simp only [execBeside]
    split
    · rename_i ha
      rw [exec, execDecrow, if_pos ha]
      exact runs_error _ (sameHost_refl s) rfl (.same _)
    · rename_i ha
      exact runs_decrow (by simpa using ha)
  | idctblk tq src dst stride => exact runs_finishMem (i := .idctblk tq src dst stride) (by simp) _
  | idctrow row n => exact runs_finishMem (i := .idctrow row n) (by simp) _
  | upsrow row n => exact runs_finishMem (i := .upsrow row n) (by simp) _
  | ccvrow row n => exact runs_finishMem (i := .ccvrow row n) (by simp) _
  | recrow row n => exact runs_finishMem (i := .recrow row n) (by simp) _

theorem runs_exec (i : Instr) (s : State) : Runs .none i s (exec i s) := execBeside_none i s ▸ runs_execBeside .none i s

/-- What a command that has gone on has done. -/
theorem execBeside_next {t : State} (ht : execBeside h i s = .next t) :
    SameHost s t ∧ Ended i s t ∧ DecEffect h s i t.dec := by
  obtain ⟨u, hu, hrest⟩ := runs_execBeside h i s
  obtain rfl := Host.Outcome.next.inj (hu.symm.trans ht)
  exact hrest

/-- Settles O7: the frame and the end that every command's meaning has. -/
theorem everyCommandCompletesOrHalts : Obligations.EveryCommandCompletesOrHalts := by
  intro i s
  obtain ⟨t, ht, hs, hp, -⟩ := runs_exec i s
  exact ⟨t, ht, hs.params, hs.cfg, hs.events, hs.loads, hs.race, hp⟩

end Sys2Proof.Cert
end

section
/-! The fetch of a command (R320, R344), and a step of the run as the command it runs. -/
namespace Sys2Proof.Cert
open Sys2Proof.Machine

/-! ### Bytes from memory -/

section
variable {p : Params} {m : Memory} {a : Word}

theorem fetchBytes_ok {bs : List Byte} (h : ∀ k, k < bs.length → okAt p a k ∧ byteAt m a k = bs.getD k 0) :
    fetchBytes p m bs.length a = .ok bs := by
  induction bs generalizing a with
  | nil => rfl
  | cons b bs ih =>
    have hhead := h 0 (by simp)
    have htail : ∀ k, k < bs.length → okAt p (a + 1) k ∧ byteAt m (a + 1) k = bs.getD k 0 := fun k hk => by
      have := h (k + 1) (by simpa using hk)
      rwa [okAt, byteAt, ← addr_succ] at this
    simp only [okAt, byteAt, BitVec.add_zero, List.getD_cons_zero] at hhead
    rw [List.length_cons, fetchBytes, if_pos hhead.1, ih htail, hhead.2]

theorem fetchBytes_busError {n k : Nat} (hk : k < n) (hok : ∀ j, j < k → okAt p a j) (hbad : ¬okAt p a k) :
    fetchBytes p m n a = .error ⟨.busError, a + BitVec.ofNat 32 k⟩ := by
  induction k generalizing n a with
  | zero =>
    obtain ⟨n, rfl⟩ := Nat.exists_eq_succ_of_ne_zero (by omega : n ≠ 0)
    rw [okAt, BitVec.add_zero] at hbad
    rw [fetchBytes, if_neg hbad, BitVec.add_zero]
  | succ k ih =>
    obtain ⟨n, rfl⟩ := Nat.exists_eq_succ_of_ne_zero (by omega : n ≠ 0)
    have h0 := hok 0 (by omega)
    rw [okAt, BitVec.add_zero] at h0
    rw [okAt, ← addr_succ] at hbad
    have htail := ih (n := n) (a := a + 1) (by omega)
      (fun j hj => by rw [okAt, addr_succ]; exact hok (j + 1) (by omega)) hbad
    rw [fetchBytes, if_pos h0, htail, addr_succ]

end

/-! ### The fetch -/

variable {s : State}

theorem memHolds_append {bs cs : List Byte} {a : Word} :
    memHolds s a (bs ++ cs) ↔ memHolds s a bs ∧ memHolds s (a + BitVec.ofNat 32 bs.length) cs := by
  constructor
  · refine fun h => ⟨fun k hk => ?_, fun k hk => ?_⟩
    · have := h k (by rw [List.length_append]; omega)
      rwa [List.getD_append _ _ _ _ hk] at this
    · have := h (bs.length + k) (by rw [List.length_append]; omega)
      rwa [List.getD_append_right _ _ _ _ (by omega), Nat.add_sub_cancel_left, okAt, byteAt, ← addr_add] at this
  · rintro ⟨h1, h2⟩ k hk
    by_cases hlt : k < bs.length
    · rw [List.getD_append _ _ _ _ hlt]
      exact h1 k hlt
    · rw [List.length_append] at hk
      have := h2 (k - bs.length) (by omega)
      rw [okAt, byteAt, addr_add, Nat.add_sub_cancel' (by omega)] at this
      rwa [List.getD_append_right _ _ _ _ (by omega)]

theorem length_wordBytes (w : Word) : (wordBytes w).length = 4 := rfl

/-- The fetch of the extension words after word 0 (R320). -/
def fetchExt (s : State) (w0 : Word) (r : OpRow) : Except Raise Instr := do
  let bs ← fetchBytes s.params s.mem (4 * (r.format.words - 1)) (s.proc.cqPtr + 4)
  let ws := (takeExt (r.format.words - 1) bs).map Prod.fst |>.getD []
  pure (r.op.build w0 (ws.getD 0 0) (ws.getD 1 0) (ws.getD 2 0))

theorem takeWord_fetched {w0 : Word} (h : memHolds s s.proc.cqPtr (wordBytes w0)) :
    fetchBytes s.params s.mem 4 s.proc.cqPtr = .ok (wordBytes w0) ∧
      ((takeWord (wordBytes w0)).map Prod.fst).getD 0 = w0 := by
  have hw := takeWord_wordBytes w0 []
  rw [List.append_nil] at hw
  exact ⟨fetchBytes_ok h, by rw [hw]; rfl⟩

theorem fetch_illegal {w0 : Word} (h : memHolds s s.proc.cqPtr (wordBytes w0)) (hw : decodeWord0 w0 = none) :
    fetch s = .error ⟨.illegalCommand, w0⟩ := by
  obtain ⟨hb, hw0⟩ := takeWord_fetched h
  simp only [fetch, hb, bind, Except.bind, hw0, hw]
  rfl

theorem fetch_legal {w0 : Word} {r : OpRow} (h : memHolds s s.proc.cqPtr (wordBytes w0)) (hw : decodeWord0 w0 = some r) :
    fetch s = fetchExt s w0 r := by
  obtain ⟨hb, hw0⟩ := takeWord_fetched h
  simp only [fetch, hb, bind, Except.bind, hw0, hw]
  rfl

theorem fetch_busError_word0 {k : Nat} (hk : k < 4) (hok : ∀ j, j < k → okAt s.params s.proc.cqPtr j)
    (hbad : ¬okAt s.params s.proc.cqPtr k) : fetch s = .error ⟨.busError, s.proc.cqPtr + BitVec.ofNat 32 k⟩ := by
  unfold fetch
  rw [fetchBytes_busError hk hok hbad]
  rfl

theorem fetch_busError_ext {w0 : Word} {r : OpRow} {k : Nat} (h : memHolds s s.proc.cqPtr (wordBytes w0))
    (hw : decodeWord0 w0 = some r) (h4 : 4 ≤ k) (hk : k < 4 * r.format.words)
    (hok : ∀ j, j < k → okAt s.params s.proc.cqPtr j) (hbad : ¬okAt s.params s.proc.cqPtr k) :
    fetch s = .error ⟨.busError, s.proc.cqPtr + BitVec.ofNat 32 k⟩ := by
  have h4k : s.proc.cqPtr + 4 + BitVec.ofNat 32 (k - 4) = s.proc.cqPtr + BitVec.ofNat 32 k := by
    rw [show (4 : Word) = BitVec.ofNat 32 4 from rfl, addr_add, Nat.add_sub_cancel' h4]
  have hext := fetchBytes_busError (p := s.params) (m := s.mem) (a := s.proc.cqPtr + 4) (n := 4 * (r.format.words - 1))
    (k := k - 4) (by omega)
    (fun j hj => by
      have := hok (4 + j) (by omega)
      rwa [okAt, ← addr_add s.proc.cqPtr 4 j] at this)
    (by rw [okAt, ← h4k] at hbad; exact hbad)
  rw [fetch_legal h hw, fetchExt, hext, h4k]
  rfl

/-- The fetch reads what the bytes at CQ_PTR decode to. -/
theorem fetch_of_decode {bs rest : List Byte} {i : Instr} (hd : decode bs = .ok (i, rest))
    (h : memHolds s s.proc.cqPtr bs) : fetch s = .ok i := by
  obtain ⟨w0, r, ws, hw, hlen, rfl, rfl⟩ := words_of_decode hd
  rw [List.flatMap_cons, List.append_assoc] at h
  obtain ⟨h0, hext⟩ := memHolds_append.mp h
  have hbs : fetchBytes s.params s.mem (4 * (r.format.words - 1)) (s.proc.cqPtr + 4) = .ok (ws.flatMap wordBytes) := by
    have hl : (ws.flatMap wordBytes).length = 4 * (r.format.words - 1) := by
      rw [List.length_flatMap, ← hlen]
      simp [length_wordBytes, Nat.mul_comm]
    exact hl ▸ fetchBytes_ok (memHolds_append.mp hext).1
  have hws : takeExt (r.format.words - 1) (ws.flatMap wordBytes) = some (ws, []) := by
    rw [← hlen, ← List.append_nil (ws.flatMap wordBytes)]
    exact takeExt_flatMap ws []
  simp only [fetch_legal h0 hw, fetchExt, hbs, bind, Except.bind, hws]
  rfl

/-! ### A step of the run -/

theorem blockStep_busy (h : s.proc.busy = true) : blockStep s = runStep s := by rw [blockStep, if_pos h]

theorem runStep_quiet_ok {i : Instr} {t : State} (hq : s.race.quiet = true) (hf : fetch s = .ok i)
    (ht : exec i s = .next t) : runStep s = .next (noted (accessOf .none i s) s t) := by
  have hrun : runCommand s = .next t := by rw [runCommand, hf]; exact ht
  have hacc : commandAccess s = accessOf .none i s := by rw [commandAccess, hf]
  rw [runStep_quiet hq hrun, hacc, noted]

theorem runStep_quiet_error {r : Raise} (hq : s.race.quiet = true) (hf : fetch s = .error r) :
    runStep s = .next (noted (failedFetch r s) s (errorEntry r s)) := by
  have hrun : runCommand s = .next (errorEntry r s) := by rw [runCommand, hf]
  have hacc : commandAccess s = failedFetch r s := by rw [commandAccess, hf]
  rw [runStep_quiet hq hrun, hacc, noted]

theorem runStep_raced_ok {i : Instr} {t : State} (hq : s.race.quiet = false) (hf : fetch s.seen = .ok i)
    (ht : execBeside s.stores i s.seen.seen = .next t) :
    runStep s = .next (s.afterRace (accessOf s.stores i s.seen.seen) t) := by
  have hrun : runRaced s = .next t := by rw [runRaced, hf]; exact ht
  have hacc : racedAccess s = accessOf s.stores i s.seen.seen := by rw [racedAccess, hf]
  rw [runStep_raced hq hrun, hacc]

theorem runStep_raced_error {r : Raise} (hq : s.race.quiet = false) (hf : fetch s.seen = .error r) :
    runStep s = .next (s.afterRace (failedFetch r s.seen) (errorEntry r s.seen)) := by
  have hrun : runRaced s = .next (errorEntry r s.seen) := by rw [runRaced, hf]
  have hacc : racedAccess s = failedFetch r s.seen := by rw [racedAccess, hf]
  rw [runStep_raced hq hrun, hacc]

/-- A step of the run runs the command at CQ_PTR. -/
theorem runStep_runs {bs rest : List Byte} {i : Instr} (hd : decode bs = .ok (i, rest)) (u : State) :
    (u.race.quiet = true → memHolds u u.proc.cqPtr bs →
      ∃ t, exec i u = .next t ∧ runStep u = .next (noted (accessOf .none i u) u t)) ∧
    (u.race.quiet = false → memHolds u.seen u.proc.cqPtr bs →
      ∃ t, execBeside u.stores i u.seen.seen = .next t ∧
        runStep u = .next (u.afterRace (accessOf u.stores i u.seen.seen) t)) := by
  constructor
  · intro hq h
    obtain ⟨t, ht, -⟩ := runs_exec i u
    exact ⟨t, ht, runStep_quiet_ok hq (fetch_of_decode hd h) ht⟩
  · intro hq h
    obtain ⟨t, ht, -⟩ := runs_execBeside u.stores i u.seen.seen
    exact ⟨t, ht, runStep_raced_ok hq (fetch_of_decode (s := u.seen) hd h) ht⟩

/-- Settles O5: the block's turn, whichever event gives it, is a step of the run. -/
theorem stepRunsTheDecodedCommand : Obligations.StepRunsTheDecodedCommand := by
  intro s bs rest i hbusy hd
  refine ⟨fun he => ?_, fun es he => ?_⟩
  · rw [step_of_no_events he, blockStep_busy hbusy]
    exact runStep_runs hd s
  · rw [step_of_run he, blockStep_busy (s := { s with events := es }) hbusy]
    exact runStep_runs hd { s with events := es }

/-! ### The phases before a command -/

/-- The opcode map of the statements is the model's. -/
theorem opRows_eq : opRows = opTable.map fun r => (r.code.toNat, r.format.words, r.format.rsv.toNat) := rfl

/-- Where at most one element of a list meets one condition, a second one can be asked after the search. -/
theorem find?_and {α : Type} {p q : α → Bool} {l : List α} (h : l.Pairwise fun a b => ¬(p a = true ∧ p b = true)) :
    l.find? (fun a => p a && q a) = (l.find? p).filter q := by
  induction l with
  | nil => rfl
  | cons a l ih =>
    obtain ⟨ha, hl⟩ := List.pairwise_cons.mp h
    cases hpa : p a with
    | false => simpa [List.find?_cons, hpa] using ih hl
    | true =>
      have hnone : l.find? (fun b => p b && q b) = none := by
        rw [List.find?_eq_none]
        intro b hb
        simp [show p b = false by simpa [hpa] using ha b hb]
      cases hqa : q a <;> simp [hpa, hqa, hnone, Option.filter]

/-- Word 0 alone decides the row (R114). -/
theorem decodeWord0_eq_find (w0 : Word) :
    decodeWord0 w0 = opTable.find? fun r => r.code == opField w0 && w0 &&& r.format.rsv == 0 := by
  have hp : opTable.Pairwise fun a b => ¬((a.code == opField w0) = true ∧ (b.code == opField w0) = true) := by
    have : opTable.Pairwise fun a b => a.code ≠ b.code := by decide
    refine this.imp fun hne => ?_
    rintro ⟨ha, hb⟩
    exact hne ((beq_iff_eq.mp ha).trans (beq_iff_eq.mp hb).symm)
  rw [find?_and hp, decodeWord0, rowOf]
  cases opTable.find? fun r => r.code == opField w0 with
  | none => rfl
  | some r => simp [Option.filter]

theorem decodeWord0_eq_opRows (w0 : Word) :
    (decodeWord0 w0).map (fun r => (r.code.toNat, r.format.words)) =
      (opRows.find? fun r => r.1 == w0.toNat / 2 ^ 24 && (w0.toNat &&& r.2.2) == 0).map fun r => (r.1, r.2.1) := by
  rw [opRows_eq, List.find?_map, Option.map_map, decodeWord0_eq_find]
  congr 2
  funext r
  simp only [Function.comp, ← toNat_opField, ← BitVec.toNat_and, Bool.beq_eq_decide_eq, ← BitVec.toNat_inj]
  rfl

/-- What the phases before a command raise, and how many bytes at CQ_PTR have then been read (R344). -/
theorem fetch_phases (u : State) :
    let raises := fun (r : Raise) (n : Nat) => fetch u = .error r ∧ failedFetch r u = wordAccess n u
    (∀ k, k < 4 → (∀ j, j < k → okAt u.params u.proc.cqPtr j) → ¬okAt u.params u.proc.cqPtr k →
      raises ⟨.busError, u.proc.cqPtr + BitVec.ofNat 32 k⟩ k) ∧
    (∀ w0, memHolds u u.proc.cqPtr (wordBytes w0) → decodeWord0 w0 = none → raises ⟨.illegalCommand, w0⟩ 4) ∧
    ∀ w0 r k, memHolds u u.proc.cqPtr (wordBytes w0) → decodeWord0 w0 = some r → 4 ≤ k → k < 4 * r.format.words →
      (∀ j, j < k → okAt u.params u.proc.cqPtr j) → ¬okAt u.params u.proc.cqPtr k →
      raises ⟨.busError, u.proc.cqPtr + BitVec.ofNat 32 k⟩ k := by
  have hread : ∀ k, k ≤ 16 →
      failedFetch ⟨.busError, u.proc.cqPtr + BitVec.ofNat 32 k⟩ u = wordAccess k u := fun k hk => by
    have : u.proc.cqPtr + BitVec.ofNat 32 k - u.proc.cqPtr = BitVec.ofNat 32 k := by
      rw [BitVec.add_comm, BitVec.add_sub_cancel]
    rw [failedFetch, if_pos rfl, this, BitVec.toNat_ofNat, Nat.mod_eq_of_lt (by omega)]
  have hwords : ∀ f : Format, f.words ≤ 4 := fun f => by cases f <;> decide
  refine ⟨fun k hk hok hbad => ⟨fetch_busError_word0 hk hok hbad, hread k (by omega)⟩,
    fun w0 h hw => ⟨fetch_illegal h hw, rfl⟩,
    fun w0 r k h hw h4 hk hok hbad => ⟨fetch_busError_ext h hw h4 hk hok hbad, hread k ?_⟩⟩
  have := hwords r.format
  omega

/-- Settles O3: word 0's row is the one the opcode map finds, and each phase's raise ends the step in the error state. -/
theorem wordZeroDecidesTheCommand : Obligations.WordZeroDecidesTheCommand := by
  refine ⟨decodeWord0_eq_opRows, fun s hev hbusy => ?_⟩
  rw [step_of_no_events hev, blockStep_busy hbusy]
  refine ⟨fun hq => ?_, fun hq => ?_⟩
  · have key : ∀ r n, fetch s = .error r ∧ failedFetch r s = wordAccess n s →
        runStep s = .next (noted (wordAccess n s) s (errorEntry r s)) := fun r n h => h.2 ▸ runStep_quiet_error hq h.1
    obtain ⟨h0, hill, hext⟩ := fetch_phases s
    exact ⟨fun k hk hok hbad => key _ _ (h0 k hk hok hbad), fun w0 h hw => key _ _ (hill w0 h hw),
      fun w0 r k h hw h4 hk hok hbad => key _ _ (hext w0 r k h hw h4 hk hok hbad)⟩
  · have key : ∀ r n, fetch s.seen = .error r ∧ failedFetch r s.seen = wordAccess n s.seen →
        runStep s = .next (s.afterRace (wordAccess n s.seen) (errorEntry r s.seen)) :=
      fun r n h => h.2 ▸ runStep_raced_error hq h.1
    obtain ⟨h0, hill, hext⟩ := fetch_phases s.seen
    exact ⟨fun k hk hok hbad => key _ _ (h0 k hk hok hbad), fun w0 h hw => key _ _ (hill w0 h hw),
      fun w0 r k h hw h4 hk hok hbad => key _ _ (hext w0 r k h hw h4 hk hok hbad)⟩

end Sys2Proof.Cert
end

section
/-! What decoding a row can do (R205 to R214), said once: a chain of small effects. Each invariant of DECROW is then one
case analysis of `Micro`. -/
namespace Sys2Proof.Cert
open Sys2Proof.Machine

/-! ### Small effects -/

/-- Reading keeps memory good and notes no write. -/
def readsMem (v w : MemW) : Prop := keepsGood v w ∧ w.writes = v.writes

theorem closed_readsMem : Closed readsMem :=
  ⟨fun v => ⟨closed_keepsGood.refl v, rfl⟩, fun _ _ _ h1 h2 => ⟨closed_keepsGood.trans _ _ _ h1.1 h2.1, h2.2.trans h1.2⟩⟩

theorem readsMem_readByte (p : Params) (b : Buf) (a : Word) : Keeps readsMem (readByte p b a) := by
  refine fun w => ⟨keepsGood_readByte p b a w, ?_⟩
  rw [readByte_run]
  split <;> rfl

/-- One small effect of decoding a row, which stores only to bytes in `W`: something read, with the bit buffer, MARKER_HIT,
SRC_POS and the warnings moved; a byte stored; or one register of the entropy state written. -/
inductive Micro (e : Env) (W : Word → Prop) : DecW → DecW → Prop
  | reads {w w' : DecW} : OnlyReads w w' → readsMem w.mw w'.mw → (w.ent.bl.toNat ≤ 8 → w'.ent.bl.toNat ≤ 8) →
    Micro e W w w'
  | write (w : DecW) (b : Buf) (a : Word) (v : Byte) : W a →
    Micro e W w { w with mw := stateAfter (writeByte e.params b a v w.mw) }
  | dcpred (w : DecW) (c : Nat) (v : Half) : Micro e W w { w with ent := { w.ent with dcpred := w.ent.dcpred.set c v } }
  | eobrun (w : DecW) (v : Half) : v.toNat ≤ 32767 → Micro e W w { w with ent := { w.ent with eobrun := v } }
  | eobDown (w : DecW) : w.ent.eobrun ≠ 0 → Micro e W w { w with ent := { w.ent with eobrun := w.ent.eobrun - 1 } }
  | restart (w : DecW) : Micro e W w { w with ent := restarted e.ri w.ent }
  | rtg (w : DecW) (v : Half) : Micro e W w { w with ent := { w.ent with rtg := v } }
  | line (w : DecW) (cur : List Half) :
    Micro e W w { w with ent := { w.ent with llprev := w.ent.llprev.writeList 0 cur, llfirst := false } }

/-- Any number of small effects. -/
def Effects (e : Env) (W : Word → Prop) : DecW → DecW → Prop := Relation.ReflTransGen (Micro e W)

/-- Whichever way it ends, a computation has had some small effects. -/
abbrev Does (e : Env) (W : Word → Prop) {α : Type} (m : DM α) : Prop := Keeps (Effects e W) m

theorem closed_effects (e : Env) (W : Word → Prop) : Closed (Effects e W) :=
  ⟨fun _ => .refl, fun _ _ _ h1 h2 => h1.trans h2⟩

/-- What every small effect keeps, every chain of them keeps. -/
theorem Effects.keeps {e : Env} {W : Word → Prop} {R : DecW → DecW → Prop} (hR : Closed R)
    (h : ∀ w w', Micro e W w w' → R w w') {w w' : DecW} (hw : Effects e W w w') : R w w' := by
  induction hw with
  | refl => exact hR.refl w
  | tail _ hm ih => exact hR.trans _ _ _ ih (h _ _ hm)

/-- Nothing but reading has happened. -/
structure Quiet (w w' : DecW) : Prop where
  reads : OnlyReads w w'
  mem : readsMem w.mw w'.mw
  bl : w.ent.bl.toNat ≤ 8 → w'.ent.bl.toNat ≤ 8

theorem closed_quiet : Closed Quiet where
  refl w := ⟨closed_onlyReads.refl w, closed_readsMem.refl w.mw, id⟩
  trans _ _ _ h1 h2 :=
    ⟨closed_onlyReads.trans _ _ _ h1.reads h2.reads, closed_readsMem.trans _ _ _ h1.mem h2.mem, h2.bl ∘ h1.bl⟩

section
variable {e : Env} {W : Word → Prop} {α β : Type}

theorem does_of_quiet {m : DM α} (h : Keeps Quiet m) : Does e W m :=
  keeps_mono (fun _ _ h => .single (.reads h.reads h.mem h.bl)) h

theorem Does.pure (a : α) : Does e W (pure a : DM α) := Keeps.pure (closed_effects e W) a

theorem Does.get : Does e W (get : DM DecW) := Keeps.get (closed_effects e W)

theorem Does.bind {m : DM α} {f : α → DM β} (hm : Does e W m) (hf : ∀ a, Does e W (f a)) : Does e W (m >>= f) :=
  Keeps.bind (closed_effects e W) hm hf

/-- A step taken under a condition, and what follows it either way. -/
theorem Does.when {c : Prop} [Decidable c] {m : DM Unit} {f : Unit → DM α} (hm : Does e W m) (hf : ∀ a, Does e W (f a)) :
    Does e W (if c then m >>= f else f ()) := Keeps.ite (hm.bind hf) (hf ())

theorem Does.unless {c : Prop} [Decidable c] {m : DM Unit} {f : Unit → DM α} (hm : Does e W m) (hf : ∀ a, Does e W (f a)) :
    Does e W (if c then f () else m >>= f) := Keeps.ite (hf ()) (hm.bind hf)

theorem does_modEnt {f : Entropy → Entropy} (h : ∀ w : DecW, Micro e W w { w with ent := f w.ent }) :
    Does e W (modEnt f) := fun w => .single (h w)

/-- Sequencing, where what follows may use what the first part answers. -/
theorem Keeps.bind_ok {ε σ : Type} {P : σ → σ → Prop} (hP : Closed P) {m : EStateM ε σ α} {f : α → EStateM ε σ β}
    (hm : Keeps P m) (hf : ∀ s a t, m s = .ok a t → P t (stateAfter (f a t))) : Keeps P (m >>= f) := by
  intro s
  have h := hm s
  rw [bind_run]
  cases hms : m s with
  | ok a t =>
    rw [hms] at h
    exact hP.trans _ _ _ h (hf s a t hms)
  | error r t =>
    rw [hms] at h
    exact h

/-! ### Reading -/

theorem quiet_modify {f : DecW → DecW} (hm : ∀ w, (f w).mw = w.mw)
    (he : ∀ w, { (f w).ent with bb := w.ent.bb, bl := w.ent.bl, markerHit := w.ent.markerHit } = w.ent)
    (hbl : ∀ w : DecW, w.ent.bl.toNat ≤ 8 → (f w).ent.bl.toNat ≤ 8) : Keeps Quiet (modify f : DM PUnit) := fun w =>
  ⟨onlyReads_modify hm he w, by rw [modify_run, stateAfter_ok, hm]; exact closed_readsMem.refl w.mw, hbl w⟩

theorem quiet_liftMem {m : MM α} (hl : Keeps leavesMem m) (hg : Keeps readsMem m) : Keeps Quiet (liftMem m) := by
  intro w
  rw [stateAfter_liftMem]
  exact ⟨⟨hl w.mw, rfl⟩, hg w.mw, id⟩

theorem quiet_srcByte (q : Nat) : Keeps Quiet (liftMem (srcByte e q)) :=
  quiet_liftMem (Keeps.ite (Keeps.throw closed_leavesMem _) (leavesMem_readByte _ _ _))
    (Keeps.ite (Keeps.throw closed_readsMem _) (readsMem_readByte _ _ _))

theorem quiet_readBlock (a : Word) : Keeps Quiet (liftMem (readBlock e.params .coef a)) :=
  quiet_liftMem (Keeps.readBlock closed_leavesMem (leavesMem_readByte _ _) a)
    (Keeps.readBlock closed_readsMem (readsMem_readByte _ _) a)

theorem quiet_loadByte (pos : Nat) (b : Byte) : Keeps Quiet (loadByte pos b) :=
  quiet_modify (fun _ => rfl) (fun _ => rfl) fun _ _ => Nat.le_refl 8

theorem quiet_warnEnt : Keeps Quiet warnEnt := quiet_modify (fun _ => rfl) (fun _ => rfl) fun _ => id

theorem quiet_warnRst : Keeps Quiet warnRst := quiet_modify (fun _ => rfl) (fun _ => rfl) fun _ => id

theorem quiet_supplyZero : Keeps Quiet supplyZero :=
  Keeps.bind closed_quiet quiet_warnEnt fun _ => quiet_modify (fun _ => rfl) (fun _ => rfl) fun _ _ => Nat.le_refl 8

theorem quiet_skipFill (fuel q : Nat) : Keeps Quiet (skipFill e fuel q) := by
  induction fuel generalizing q with
  | zero => exact Keeps.pure closed_quiet _
  | succ fuel ih =>
    exact Keeps.bind closed_quiet (quiet_srcByte q) fun _ => Keeps.ite (ih (q + 1)) (Keeps.pure closed_quiet _)

theorem quiet_afterFill (q : Nat) : Keeps Quiet (afterFill e q) :=
  Keeps.bind closed_quiet (quiet_srcByte q) fun _ =>
    Keeps.ite (quiet_loadByte _ _) <|
      Keeps.bind closed_quiet (quiet_modify (fun _ => rfl) (fun _ => rfl) fun _ => id) fun _ => quiet_supplyZero

theorem quiet_fillByte : Keeps Quiet (fillByte e) :=
  Keeps.bind closed_quiet (Keeps.get closed_quiet) fun _ =>
    Keeps.ite quiet_supplyZero <|
      Keeps.bind closed_quiet (quiet_srcByte _) fun _ =>
        Keeps.ite (quiet_loadByte _ _) <| Keeps.bind closed_quiet (quiet_skipFill _ _) quiet_afterFill

/-- A byte fill that completes leaves eight bits (R87). -/
theorem bl_of_fillByte {w w' : DecW} (h : fillByte e w = .ok () w') : w'.ent.bl = 8 := by
  have hz : ∀ u u', supplyZero u = .ok () u' → u'.ent.bl = 8 := fun u u' hu => by
    rw [supplyZero_run] at hu
    cases hu
    rfl
  have hl : ∀ p b u u', loadByte p b u = .ok () u' → u'.ent.bl = 8 := fun p b u u' hu => by
    rw [loadByte_run] at hu
    cases hu
    rfl
  cases hm : w.ent.markerHit with
  | true =>
    rw [fillByte_of_markerHit hm] at h
    cases h
    rfl
  | false =>
    rw [fillByte_of_no_markerHit hm] at h
    obtain ⟨b, u, -, h⟩ := bind_eq_ok.mp h
    split at h
    · exact hl _ _ _ _ h
    · obtain ⟨q, v, -, h⟩ := bind_eq_ok.mp h
      obtain ⟨z, x, -, h⟩ := bind_eq_ok.mp h
      split at h
      · exact hl _ _ _ _ h
      · obtain ⟨_, y, -, h⟩ := bind_eq_ok.mp h
        exact hz _ _ h

theorem takeBit_run (w : DecW) :
    takeBit w = .ok (w.ent.bb.getLsbD (w.ent.bl - 1).toNat).toNat
      { w with ent := { w.ent with bl := w.ent.bl - 1 } } := rfl

theorem nextBit_empty {w : DecW} (h : w.ent.bl = 0) : nextBit e w = (fillByte e >>= fun _ => takeBit) w := by
  simp only [nextBit, bind_run, get_run, h, if_true]

theorem nextBit_buffered {w : DecW} (h : w.ent.bl ≠ 0) : nextBit e w = takeBit w := by
  simp only [nextBit, bind_run, get_run, if_neg h]

theorem quiet_takeBit {w : DecW} (h : w.ent.bl ≠ 0) : Quiet w (stateAfter (takeBit w)) := by
  refine ⟨⟨closed_leavesMem.refl w.mw, rfl⟩, closed_readsMem.refl w.mw, fun hbl => ?_⟩
  have h0 : w.ent.bl.toNat ≠ 0 := fun h0 => h (BitVec.eq_of_toNat_eq h0)
  have hle : (1 : BitVec 4) ≤ w.ent.bl := by
    rw [BitVec.le_def]
    exact Nat.one_le_iff_ne_zero.mpr h0
  show (w.ent.bl - 1).toNat ≤ 8
  rw [BitVec.toNat_sub_of_le hle]
  omega

theorem quiet_nextBit : Keeps Quiet (nextBit e) := by
  intro w
  by_cases h : w.ent.bl = 0
  · rw [nextBit_empty h]
    refine Keeps.bind_ok closed_quiet quiet_fillByte (fun u a t ht => quiet_takeBit ?_) w
    rw [bl_of_fillByte ht]
    decide
  · rw [nextBit_buffered h]
    exact quiet_takeBit h

theorem quiet_receiveFrom (t acc : Nat) : Keeps Quiet (receiveFrom e t acc) := by
  induction t generalizing acc with
  | zero => exact Keeps.pure closed_quiet _
  | succ t ih => exact Keeps.bind closed_quiet quiet_nextBit fun _ => ih _

theorem quiet_receive (t : Nat) : Keeps Quiet (receive e t) := quiet_receiveFrom t 0

theorem quiet_raiseInternal : Keeps Quiet (raiseInternal : DM α) := closed_quiet.refl

theorem quiet_decodeSym (h : HuffTab) : Keeps Quiet (decodeSym e h) := by
  have hfrom : ∀ fuel len acc, Keeps Quiet (decodeFrom e h fuel len acc) := by
    intro fuel
    induction fuel with
    | zero => exact fun _ _ => quiet_raiseInternal
    | succ fuel ih =>
      refine fun len acc => Keeps.bind closed_quiet quiet_nextBit fun b => ?_
      cases h.find len (2 * acc + b) with
      | some v => exact Keeps.pure closed_quiet v
      | none => exact ih _ _
  exact hfrom 16 1 0

/-- A bit is 0 or 1. -/
theorem nextBit_lt {w w' : DecW} {b : Nat} (h : nextBit e w = .ok b w') : b < 2 := by
  have htake : ∀ u u', takeBit u = .ok b u' → b < 2 := fun u u' hu => by
    rw [takeBit_run] at hu
    cases hu
    exact Bool.toNat_lt _
  by_cases hbl : w.ent.bl = 0
  · rw [nextBit_empty hbl] at h
    obtain ⟨_, u, -, hu⟩ := bind_eq_ok.mp h
    exact htake _ _ hu
  · rw [nextBit_buffered hbl] at h
    exact htake _ _ h

/-- RECEIVE's number has as many bits as were asked for (R202). -/
theorem receive_lt {w w' : DecW} {t v : Nat} (h : receive e t w = .ok v w') : v < 2 ^ t := by
  have key : ∀ t acc (u : DecW), receiveFrom e t acc u = .ok v w' → v < 2 ^ t * (acc + 1) := by
    intro t
    induction t with
    | zero =>
      intro acc u hu
      cases hu
      omega
    | succ t ih =>
      intro acc u hu
      obtain ⟨b, x, hb, hx⟩ := bind_eq_ok.mp hu
      have hb2 := nextBit_lt hb
      calc v < 2 ^ t * (2 * acc + b + 1) := ih _ _ hx
        _ ≤ 2 ^ t * (2 * (acc + 1)) := Nat.mul_le_mul_left _ (by omega)
        _ = 2 ^ (t + 1) * (acc + 1) := by rw [pow_succ, Nat.mul_assoc]
  simpa using key t 0 w h

/-! ### Restarts -/

theorem quiet_skipPairs (fuel p : Nat) : Keeps Quiet (skipPairs e fuel p) := by
  induction fuel generalizing p with
  | zero => exact Keeps.pure closed_quiet _
  | succ fuel ih =>
    exact Keeps.bind closed_quiet (quiet_srcByte _) fun _ =>
      Keeps.ite (Keeps.bind closed_quiet (quiet_srcByte _) fun _ => Keeps.ite (ih _) (Keeps.pure closed_quiet _))
        (Keeps.pure closed_quiet _)

theorem quiet_expectedRst (p : Nat) (n : BitVec 3) : Keeps Quiet (expectedRst e p n) :=
  Keeps.bind closed_quiet (quiet_srcByte _) fun _ =>
    Keeps.ite (Keeps.bind closed_quiet (quiet_srcByte _) fun _ => Keeps.pure closed_quiet _) (Keeps.pure closed_quiet _)

/-- A restart's last change: SRC_POS after the marker, and the entropy state restarted. -/
theorem does_restarted (p : Nat) :
    Does e W (modify fun w => { w with pos := BitVec.ofNat 32 p, ent := restarted e.ri w.ent } : DM PUnit) := by
  intro w
  have hpos := quiet_modify (f := fun w : DecW => { w with pos := BitVec.ofNat 32 p }) (fun _ => rfl) (fun _ => rfl)
    (fun _ => id) w
  exact .tail (.single (.reads hpos.reads hpos.mem hpos.bl)) (.restart _)

theorem does_processRestart : Does e W (processRestart e) :=
  Does.bind (does_of_quiet (quiet_modify (fun _ => rfl) (fun _ => rfl) fun _ _ => Nat.zero_le 8)) fun _ =>
    Does.bind Does.get fun _ =>
      Does.bind (does_of_quiet (quiet_skipPairs _ _)) fun _ =>
        Does.bind (does_of_quiet (quiet_expectedRst _ _)) fun _ =>
          Does.unless (does_of_quiet quiet_warnRst) fun _ => does_restarted _

theorem does_beforeMcu : Does e W (beforeMcu e) :=
  Keeps.ite (Does.pure _) <| Does.bind Does.get fun _ => Does.when does_processRestart fun _ => does_modEnt fun w => .rtg w _

/-! ### Blocks -/

variable {j : Nat}

theorem does_liftMem_write {m : MM α} {P : MemW → MemW → Prop} (hm : Keeps P m)
    (h : ∀ (w : DecW) mw, P w.mw mw → Effects e W w { w with mw := mw }) : Does e W (liftMem m) := by
  intro w
  rw [stateAfter_liftMem]
  exact h w _ (hm w.mw)

/-- Stores through a buffer, to bytes in `W` only. -/
def MemStores (p : Params) (W : Word → Prop) : MemW → MemW → Prop :=
  Relation.ReflTransGen fun v v' => ∃ b a x, W a ∧ v' = stateAfter (writeByte p b a x v)

theorem closed_memStores (p : Params) (W : Word → Prop) : Closed (MemStores p W) :=
  ⟨fun _ => .refl, fun _ _ _ h1 h2 => h1.trans h2⟩

theorem effects_of_memStores {w : DecW} {mw : MemW} (h : MemStores e.params W w.mw mw) :
    Effects e W w { w with mw := mw } := by
  induction h with
  | refl => exact .refl
  | tail _ hstep ih =>
    obtain ⟨b, a, x, ha, rfl⟩ := hstep
    exact .tail ih (.write _ b a x ha)

theorem memStores_memWrite {p : Params} {b : Buf} {n : Nat} {a : Word} (h : ∀ k, k < n → W (a + BitVec.ofNat 32 k))
    (v : Int) : Keeps (MemStores p W) (memWrite p b n a v) := by
  induction n generalizing a v with
  | zero => exact Keeps.pure (closed_memStores p W) _
  | succ n ih =>
    refine Keeps.bind (closed_memStores p W) (fun w => .single ⟨b, a, _, ?_, rfl⟩) fun _ => ih (fun k hk => ?_) _
    · simpa using h 0 (by omega)
    · rw [addr_succ]
      exact h (k + 1) (by omega)

theorem memStores_writeBlock {p : Params} {b : Buf} {a : Word} (h : ∀ k, k < 128 → W (a + BitVec.ofNat 32 k))
    (blk : Block) : Keeps (MemStores p W) (writeBlock p b a blk) :=
  Keeps.forRange_mem (closed_memStores p W) 0 64 fun n _ hn =>
    memStores_memWrite (fun k hk => by rw [addr_add]; exact h _ (by omega)) _

theorem does_writeBlock {a : Word} (h : ∀ k, k < 128 → W (a + BitVec.ofNat 32 k)) (blk : Block) :
    Does e W (liftMem (writeBlock e.params .coef a blk)) :=
  does_liftMem_write (memStores_writeBlock h blk) fun _ _ => effects_of_memStores

theorem does_dcDiff : Does e W (dcDiff e j) :=
  Does.bind (does_of_quiet (quiet_decodeSym _)) fun _ =>
    Keeps.ite (does_of_quiet quiet_raiseInternal) <|
      Does.bind (does_of_quiet (quiet_receive _)) fun _ =>
        Does.bind Does.get fun _ => Does.bind (does_modEnt fun w => .dcpred w _ _) fun _ => Does.pure _

theorem quiet_seqAc (fuel k : Nat) (b : Block) : Keeps Quiet (seqAc e j fuel k b) := by
  induction fuel generalizing k b with
  | zero => exact Keeps.pure closed_quiet _
  | succ fuel ih =>
    exact Keeps.ite (Keeps.pure closed_quiet _) <|
      Keeps.bind closed_quiet (quiet_decodeSym _) fun _ =>
        Keeps.ite (Keeps.ite (ih _ _) (Keeps.pure closed_quiet _)) <|
          Keeps.ite quiet_raiseInternal (Keeps.bind closed_quiet (quiet_receive _) fun _ => ih _ _)

/-- An end-of-band run as a first pass sets it (R212). -/
theorem does_eobFirst {r v : Nat} (hr : r < 15) (hv : v < 2 ^ r) :
    Does e W (modEnt fun s => { s with eobrun := BitVec.ofNat 16 (2 ^ r + v - 1) }) := by
  refine does_modEnt fun w => .eobrun w _ ?_
  have : 2 ^ r ≤ 2 ^ 14 := Nat.pow_le_pow_right (by omega) (by omega)
  rw [BitVec.toNat_ofNat]
  omega

/-- An end-of-band run as a refinement pass sets it (R213). -/
theorem does_eobRefine {r v : Nat} (hr : r < 15) (hv : v < 2 ^ r) :
    Does e W (modEnt fun s => { s with eobrun := BitVec.ofNat 16 (2 ^ r + v) }) := by
  refine does_modEnt fun w => .eobrun w _ ?_
  have : 2 ^ r ≤ 2 ^ 14 := Nat.pow_le_pow_right (by omega) (by omega)
  rw [BitVec.toNat_ofNat]
  omega

/-- EOBr's run is below 15. -/
theorem run_lt {rs : Byte} (h : (hi4 rs).toNat ≠ 15) : (hi4 rs).toNat < 15 := by
  have := (hi4 rs).isLt
  omega

theorem does_acFirstLoop (fuel k : Nat) (b : Block) : Does e W (acFirstLoop e j fuel k b) := by
  induction fuel generalizing k b with
  | zero => exact Does.pure _
  | succ fuel ih =>
    refine Keeps.ite (Does.pure _) <| Does.bind (does_of_quiet (quiet_decodeSym _)) fun rs => ?_
    refine Keeps.ite (Keeps.ite (does_of_quiet quiet_raiseInternal)
      (Does.bind (does_of_quiet (quiet_receive _)) fun _ => ih _ _)) ?_
    by_cases hr : (hi4 rs).toNat = 15
    · rw [if_pos hr]
      exact ih _ _
    · rw [if_neg hr]
      refine Keeps.bind_ok (closed_effects e W) (does_of_quiet (quiet_receive _)) fun _ v _ hv => ?_
      exact Does.bind (does_eobFirst (run_lt hr) (receive_lt hv)) (fun _ => Does.pure _) _

theorem quiet_refine (b : Block) (z : Nat) : Keeps Quiet (refine e b z) :=
  Keeps.bind closed_quiet (quiet_receive _) fun _ => Keeps.ite (Keeps.pure closed_quiet _) (Keeps.pure closed_quiet _)

theorem quiet_skipZeros (fuel k r : Nat) (b : Block) : Keeps Quiet (skipZeros e fuel k r b) := by
  induction fuel generalizing k r b with
  | zero => exact Keeps.pure closed_quiet _
  | succ fuel ih =>
    exact Keeps.ite (Keeps.pure closed_quiet _) <|
      Keeps.ite (Keeps.bind closed_quiet (quiet_refine _ _) fun _ => ih _ _ _)
        (Keeps.ite (Keeps.pure closed_quiet _) (ih _ _ _))

theorem does_acRefineLoop (fuel k : Nat) (b : Block) : Does e W (acRefineLoop e j fuel k b) := by
  induction fuel generalizing k b with
  | zero => exact Does.pure _
  | succ fuel ih =>
    refine Keeps.ite (Does.pure _) <| Does.bind (does_of_quiet (quiet_decodeSym _)) fun rs => ?_
    refine Keeps.ite (Does.when (does_of_quiet quiet_warnEnt) fun _ => Does.bind (does_of_quiet (quiet_receive _)) fun _ =>
      Does.bind (does_of_quiet (quiet_skipZeros _ _ _ _)) fun _ =>
        Keeps.ite (does_of_quiet quiet_raiseInternal) (ih _ _)) ?_
    by_cases hr : (hi4 rs).toNat = 15
    · rw [if_neg (by simpa using hr)]
      exact Does.bind (does_of_quiet (quiet_skipZeros _ _ _ _)) fun _ => ih _ _
    · rw [if_pos hr]
      refine Keeps.bind_ok (closed_effects e W) (does_of_quiet (quiet_receive _)) fun _ v _ hv => ?_
      exact Does.bind (does_eobRefine (run_lt hr) (receive_lt hv)) (fun _ => Does.pure _) _

theorem quiet_refineRest (fuel k : Nat) (b : Block) : Keeps Quiet (refineRest e fuel k b) := by
  induction fuel generalizing k b with
  | zero => exact Keeps.pure closed_quiet _
  | succ fuel ih =>
    exact Keeps.ite (Keeps.pure closed_quiet _) <|
      Keeps.ite (Keeps.bind closed_quiet (quiet_refine _ _) fun _ => ih _ _) (ih _ _)

theorem OnlyReads.eobrun {w w' : DecW} (h : OnlyReads w w') : w'.ent.eobrun = w.ent.eobrun :=
  (congrArg Entropy.eobrun h.ent :)

/-- One block of an end-of-band run, where it has not run out (R212, R213). -/
theorem effects_eobDown {w : DecW} (h : w.ent.eobrun ≠ 0) {f : Unit → DM α} (hf : ∀ a, Does e W (f a)) :
    Effects e W w (stateAfter (((modEnt fun s => { s with eobrun := s.eobrun - 1 }) >>= f) w)) := by
  rw [bind_run]
  exact .head (.eobDown w h) (hf _ _)

variable {a : Word}

theorem does_acFirstBlock (h : ∀ k, k < 128 → W (a + BitVec.ofNat 32 k)) : Does e W (acFirstBlock e j a) := by
  refine Does.bind (does_of_quiet (quiet_readBlock _)) fun _ =>
    Keeps.bind_ok (closed_effects e W) Does.get fun w v t hv => ?_
  cases hv
  split
  · rename_i hne
    exact effects_eobDown hne fun _ => does_writeBlock h _
  · exact Does.bind (does_acFirstLoop _ _ _) (fun _ => does_writeBlock h _) _

/-- The end of a refinement block (R213): the block written, in an end-of-band run after the corrections of its rest. -/
def refineEnd (e : Env) (a : Word) (kb : Nat × Block) : DM Unit := do
  let w ← get
  if w.ent.eobrun = 0 then liftMem (writeBlock e.params .coef a kb.2)
  else do
    let b ← refineRest e 256 kb.1 kb.2
    modEnt fun s => { s with eobrun := s.eobrun - 1 }
    liftMem (writeBlock e.params .coef a b)

theorem does_refineEnd (h : ∀ k, k < 128 → W (a + BitVec.ofNat 32 k)) (kb : Nat × Block) : Does e W (refineEnd e a kb) := by
  refine Keeps.bind_ok (closed_effects e W) Does.get fun w v t hv => ?_
  cases hv
  split
  · exact does_writeBlock h _ w
  · rename_i hne
    rw [bind_run]
    have hq := quiet_refineRest (e := e) 256 kb.1 kb.2 w
    have hd := does_of_quiet (e := e) (W := W) (quiet_refineRest (e := e) 256 kb.1 kb.2) w
    cases hr : refineRest e 256 kb.1 kb.2 w with
    | error r u => rwa [hr] at hd
    | ok b u =>
      rw [hr] at hd hq
      refine hd.trans (effects_eobDown ?_ fun _ => does_writeBlock h b)
      exact hq.reads.eobrun ▸ hne

theorem does_acRefineBlock (h : ∀ k, k < 128 → W (a + BitVec.ofNat 32 k)) : Does e W (acRefineBlock e j a) :=
  Does.bind (does_of_quiet (quiet_readBlock _)) fun _ =>
    Does.bind Does.get fun _ =>
      Keeps.ite (Does.bind (does_acRefineLoop _ _ _) fun kb => does_refineEnd h kb)
        (Does.bind (Does.pure _) fun kb => does_refineEnd h kb)

/-- A block's decoder stores nowhere but in its block (R206). -/
theorem does_decodeBlock {bx byy : Nat} (h : e.scn.smode ≠ .lossless → ∀ k, k < 128 →
    W (coefAddr e (e.comp j) bx byy + BitVec.ofNat 32 k)) : Does e W (decodeBlock e j bx byy) := by
  unfold decodeBlock
  cases hk : e.scn.smode with
  | none => exact Does.pure _
  | lossless => exact Does.pure _
  | seq =>
    exact Does.bind does_dcDiff fun _ => Does.bind (does_of_quiet (quiet_seqAc _ _ _)) fun _ =>
      does_writeBlock (h (by simp [hk])) _
  | dcFirst =>
    exact Does.bind (does_of_quiet (quiet_readBlock _)) fun _ => Does.bind does_dcDiff fun _ =>
      does_writeBlock (h (by simp [hk])) _
  | dcRefine =>
    exact Does.bind (does_of_quiet (quiet_readBlock _)) fun _ => Does.bind (does_of_quiet (quiet_receive _)) fun _ =>
      does_writeBlock (h (by simp [hk])) _
  | acFirst => exact does_acFirstBlock (h (by simp [hk]))
  | acRefine => exact does_acRefineBlock (h (by simp [hk]))

/-! ### Rows -/

theorem does_decodeMcu {my mx : Nat} (hs : e.scn.smode ≠ .lossless) (hmx : mx < e.scn.scols.toNat)
    (h : ∀ addr, rowStores e my addr → W addr) : Does e W (decodeMcu e my mx) := by
  refine Does.bind does_beforeMcu fun _ => ?_
  split
  · rename_i hns
    refine Keeps.forRange_mem (closed_effects e W) _ _ fun j _ hj => ?_
    refine Keeps.forRange_mem (closed_effects e W) _ _ fun v _ hv => ?_
    refine Keeps.forRange_mem (closed_effects e W) _ _ fun x _ hx => does_decodeBlock fun _ k hk => h _ ?_
    exact .inr (.inl ⟨hs, hns, mx, j, x, v, k, hmx, by omega, hk, by simpa [Env.comp] using hx,
      by simpa [Env.comp] using hv, rfl⟩)
  · rename_i hns
    exact does_decodeBlock fun _ k hk => h _ (.inl ⟨hs, by omega, mx, k, hmx, hk, rfl⟩)

theorem quiet_residual : Keeps Quiet (residual e) :=
  Keeps.bind closed_quiet (quiet_decodeSym _) fun _ =>
    Keeps.ite (Keeps.pure closed_quiet _) <|
      Keeps.ite quiet_raiseInternal <|
        Keeps.bind closed_quiet (quiet_receive _) fun _ => Keeps.pure closed_quiet _

theorem does_losslessFrom {y n x : Nat} (hs : e.scn.smode = .lossless) (hx : x + n ≤ e.frm.x.toNat)
    (h : ∀ addr, rowStores e y addr → W addr) (ra : Half) : Does e W (losslessFrom e y n x ra) := by
  induction n generalizing x ra with
  | zero => exact Does.pure _
  | succ n ih =>
    refine Does.bind does_beforeMcu fun _ => Does.bind Does.get fun _ => Does.bind (does_of_quiet quiet_residual) fun _ => ?_
    refine Does.bind (does_liftMem_write (memStores_memWrite (fun k hk => h _ ?_) _) fun _ _ => effects_of_memStores) fun _ =>
      Does.bind (ih (by omega) _) fun _ => Does.pure _
    exact .inr (.inr ⟨hs, x, k, by omega, hk, rfl⟩)

/-- The work of a row: its line or its MCUs (R205). -/
def rowWork (e : Env) (y : Nat) : DM Unit :=
  if e.scn.smode = .lossless then losslessLine e y else forRange 0 e.scn.scols.toNat fun mx => decodeMcu e y mx

theorem does_rowWork {y : Nat} (h : ∀ addr, rowStores e y addr → W addr) : Does e W (rowWork e y) := by
  unfold rowWork
  split
  · rename_i hs
    exact Does.bind (does_losslessFrom hs (by omega) h _) fun cur => does_modEnt fun w => .line w cur
  · rename_i hs
    exact Keeps.forRange_mem (closed_effects e W) _ _ fun mx _ hmx => does_decodeMcu hs (by omega) h

/-- A row is its work, and SROW one up (R205). -/
theorem decodeRow_run (w : DecW) :
    decodeRow e w = (rowWork e w.ent.srow.toNat >>= fun _ => modEnt fun s => { s with srow := s.srow + 1 }) w := by
  unfold rowWork
  rw [decodeRow, bind_run, get_run]
  by_cases hs : e.scn.smode = .lossless <;> simp only [hs, if_true, if_false]

theorem Micro.srow {w w' : DecW} (h : Micro e W w w') : w'.ent.srow = w.ent.srow := by
  cases h with
  | reads h => exact h.row
  | _ => rfl

theorem Effects.srow {w w' : DecW} (h : Effects e W w w') : w'.ent.srow = w.ent.srow :=
  h.keeps (R := keepsRow) closed_keepsRow fun _ _ hm => hm.srow

/-- The effects of whole rows, SROW counting them: `n` at most. -/
inductive RowEffects (e : Env) (W : Word → Prop) : Nat → DecW → DecW → Prop
  | within {w w' : DecW} (n : Nat) : Effects e W w w' → RowEffects e W n w w'
  | row {n : Nat} {w w1 w' : DecW} : Effects e W w w1 →
    RowEffects e W n { w1 with ent := { w1.ent with srow := w1.ent.srow + 1 } } w' → RowEffects e W (n + 1) w w'

/-- What DECROW's rows do: they store nowhere but where the rows they cover may (R205). -/
theorem rowEffects_decodeRows {n : Nat} {w : DecW} (hn : w.ent.srow.toNat + n < 65536)
    (h : ∀ y, y < n → ∀ addr, rowStores e (w.ent.srow.toNat + y) addr → W addr) :
    RowEffects e W n w (stateAfter (decodeRows e n w)) := by
  have key : ∀ (n lo : Nat) (w : DecW), w.ent.srow.toNat + n < 65536 →
      (∀ y, y < n → ∀ addr, rowStores e (w.ent.srow.toNat + y) addr → W addr) →
      RowEffects e W n w (stateAfter (forRange lo n (fun _ => decodeRow e) w)) := by
    intro n
    induction n with
    | zero => exact fun _ _ _ _ => .within 0 .refl
    | succ n ih =>
      intro lo w hn h
      have hwork := does_rowWork (W := W) (fun addr ha => h 0 (by omega) addr ha) w
      rw [Nat.add_zero] at hwork
      rw [forRange, bind_run, decodeRow_run, bind_run]
      cases hr : rowWork e w.ent.srow.toNat w with
      | error r u =>
        rw [hr] at hwork
        exact .within _ hwork
      | ok _ u =>
        rw [hr] at hwork
        have hsrow : (u.ent.srow + 1).toNat = w.ent.srow.toNat + 1 := by
          have hu : u.ent.srow = w.ent.srow := Effects.srow hwork
          rw [hu, BitVec.toNat_add, show (1 : Half).toNat = 1 from rfl]
          exact Nat.mod_eq_of_lt (by omega)
        refine .row hwork (ih (lo + 1) _ ?_ fun y hy addr ha => h (y + 1) (by omega) addr ?_)
        · show (u.ent.srow + 1).toNat + n < 65536
          omega
        · change rowStores e ((u.ent.srow + 1).toNat + y) addr at ha
          rwa [hsrow, Nat.add_right_comm] at ha
  exact key n 0 w hn h

/-- What every small effect and the counting of a row keep, DECROW's rows keep. -/
theorem RowEffects.keeps {R : DecW → DecW → Prop} (hR : Closed R) (h : ∀ w w', Micro e W w w' → R w w')
    (hrow : ∀ w : DecW, R w { w with ent := { w.ent with srow := w.ent.srow + 1 } }) {n : Nat} {w w' : DecW}
    (hw : RowEffects e W n w w') : R w w' := by
  induction hw with
  | within n hw => exact hw.keeps hR h
  | row h1 _ ih => exact hR.trans _ _ _ (h1.keeps hR h) (hR.trans _ _ _ (hrow _) ih)

/-- SROW passes no more rows than asked for. -/
theorem RowEffects.srow_le {n : Nat} {w w' : DecW} (hw : RowEffects e W n w w') :
    w'.ent.srow.toNat ≤ w.ent.srow.toNat + n := by
  induction hw with
  | within n hw => rw [hw.srow]; omega
  | @row n w w1 w' h1 _ ih =>
    have h1 : w1.ent.srow = w.ent.srow := h1.srow
    have hle : (w1.ent.srow + 1).toNat ≤ w1.ent.srow.toNat + 1 := by
      rw [BitVec.toNat_add, show (1 : Half).toNat = 1 from rfl]
      exact Nat.mod_le _ _
    change w'.ent.srow.toNat ≤ (w1.ent.srow + 1).toNat + n at ih
    rw [h1] at ih hle
    omega

end
end Sys2Proof.Cert
end

section
/-! What the row commands store (R272, R277, R281 to R283), said once for every relation that memory accesses keep; and the
frame that follows. -/
namespace Sys2Proof.Cert
open Sys2Proof.Machine

/-! ### The access log -/

theorem covers_cons (x : Span) (l : List Span) (addr : Word) :
    covers (x :: l) addr = (decide (x.lo ≤ addr.toNat) && decide (addr.toNat ≤ x.hi) || covers l addr) := rfl

/-- A log covers one address more after an access. -/
theorem covers_logAccess (b : Buf) (a addr : Word) (l : List Span) :
    covers (logAccess b a.toNat l) addr = true ↔ covers l addr = true ∨ addr = a := by
  have haddr : addr = a ↔ addr.toNat = a.toNat := BitVec.toNat_inj.symm
  induction l with
  | nil => simp [logAccess, covers, haddr]; omega
  | cons x l ih =>
    unfold logAccess
    split
    · rename_i hx
      simp only [covers_cons, Bool.or_eq_true, Bool.and_eq_true, decide_eq_true_eq, haddr]
      constructor
      · rintro (h | h)
        · by_cases he : addr.toNat = a.toNat
          · exact .inr he
          · exact .inl (.inl (by omega))
        · exact .inl (.inr h)
      · rintro ((h | h) | h)
        · exact .inl (by omega)
        · exact .inr h
        · exact .inl (by omega)
    · rw [covers_cons, Bool.or_eq_true, covers_cons, Bool.or_eq_true, or_assoc]
      exact or_congr_right ih

/-- An overlap lies in what has been written and in what has been read. -/
theorem covers_of_mem_overlap {w : MemW} {addr : Word} (h : addr.toNat ∈ w.overlap) :
    covers w.writes addr = true ∧ covers w.reads addr = true := by
  obtain ⟨x, hx, y, hy, -, hxl, hyl, hxh, hyh⟩ := mem_overlap.mp h
  exact ⟨List.any_eq_true.mpr ⟨x, hx, by simp [hxl, hxh]⟩, List.any_eq_true.mpr ⟨y, hy, by simp [hyl, hyh]⟩⟩

/-- Settling changes no byte that has not been written. -/
theorem settle_read_unwritten {w : MemW} {addr : Word} (h : covers w.writes addr = false) (s : State) :
    (s.settle w).mem.read addr.toNat = w.mem.read addr.toNat :=
  settle_read (fun hm => by rw [(covers_of_mem_overlap hm).1] at h; cases h) s

/-- A byte is neither stored to nor noted as written. -/
def sparesByte (addr : Word) (v w : MemW) : Prop :=
  w.mem.read addr.toNat = v.mem.read addr.toNat ∧ (covers v.writes addr = false → covers w.writes addr = false)

theorem closed_sparesByte (addr : Word) : Closed (sparesByte addr) :=
  ⟨fun _ => ⟨rfl, id⟩, fun _ _ _ h1 h2 => ⟨h2.1.trans h1.1, h2.2 ∘ h1.2⟩⟩

theorem sparesByte_readByte (addr : Word) (p : Params) (b : Buf) (a : Word) : Keeps (sparesByte addr) (readByte p b a) := by
  intro w
  rw [readByte_run]
  split <;> exact ⟨rfl, id⟩

theorem sparesByte_writeByte {addr a : Word} (h : addr ≠ a) (p : Params) (b : Buf) (v : Byte) :
    Keeps (sparesByte addr) (writeByte p b a v) := by
  intro w
  rw [writeByte_run]
  split
  · refine ⟨Memory.read_write_other (fun he => h (BitVec.eq_of_toNat_eq he)) _ _, fun hw => ?_⟩
    rw [Bool.eq_false_iff] at hw ⊢
    exact fun hc => hw (((covers_logAccess b a addr w.writes).mp hc).resolve_right h)
  · exact ⟨rfl, id⟩

theorem settle_read_of_spares {s : State} {op : Op} {w : MemW} {addr : Word} (h : sparesByte addr (MemW.start op s) w)
    (t : State) : (t.settle w).mem.read addr.toNat = s.mem.read addr.toNat :=
  (settle_read_unwritten (h.2 rfl) t).trans h.1

/-! ### The stages of a band -/

/-- A choice, each part under its condition. -/
theorem Keeps.cond {ε σ α : Type} {P : σ → σ → Prop} {c : Prop} [Decidable c] {m n : EStateM ε σ α} (hm : c → Keeps P m)
    (hn : ¬c → Keeps P n) : Keeps P (if c then m else n) := by
  split
  · exact hm (by assumption)
  · exact hn (by assumption)

/-- Addresses of samples side by side (R91). -/
theorem planeAddr_add {e : Env} (hs : e.frm.mode ≠ .sof3) (c x y x' y' : Nat) :
    planeAddr e c x y + BitVec.ofNat 32 y' * e.cfg.planeStride.get c + BitVec.ofNat 32 x' =
      planeAddr e c (x + x') (y + y') := by
  have hb : planeBps e = 1 := if_neg fun h => hs h.1
  simp only [planeAddr, hb, Nat.mul_one, BitVec.ofNat_add]
  ring

theorem ceilDiv_eq_upDiv {a b : Nat} (hb : 0 < b) : ceilDiv a b = upDiv a b := by
  unfold ceilDiv upDiv
  obtain ⟨q, r, hr, rfl⟩ : ∃ q r, r < b ∧ a = b * q + r := ⟨a / b, a % b, Nat.mod_lt _ hb, (Nat.div_add_mod a b).symm⟩
  rw [Nat.mul_add_mod, Nat.mod_eq_of_lt hr, Nat.mul_add_div hb, Nat.div_eq_of_lt hr]
  split
  · subst_vars
    rw [Nat.add_zero, Nat.add_sub_assoc hb, Nat.mul_add_div hb, Nat.div_eq_of_lt (by omega)]
  · rw [show b * q + r + b - 1 = b * (q + 1) + (r - 1) by rw [Nat.mul_add]; omega, Nat.mul_add_div hb,
      Nat.div_eq_of_lt (by omega)]

section
variable {e : Env} {P : MemW → MemW → Prop} {W : Word → Prop} (hP : Closed P)
  (hr : ∀ b a, Keeps P (readByte e.params b a)) (hw : ∀ b a v, W a → Keeps P (writeByte e.params b a v))
include hP hw in
theorem keeps_memWrite_in {b : Buf} {n : Nat} {a : Word} (h : ∀ k, k < n → W (a + BitVec.ofNat 32 k)) (v : Int) :
    Keeps P (memWrite e.params b n a v) := by
  induction n generalizing a v with
  | zero => exact Keeps.pure hP _
  | succ n ih =>
    refine Keeps.bind hP (hw b a _ (by simpa using h 0 (by omega))) fun _ => ih (fun k hk => ?_) _
    rw [addr_succ]
    exact h (k + 1) (by omega)

include hP hw in
theorem keeps_memWrite_one {b : Buf} {a : Word} (h : W a) (v : Int) : Keeps P (memWrite e.params b 1 a v) :=
  keeps_memWrite_in hP hw (fun k hk => by simpa [show k = 0 by omega] using h) v

include hP hr in
theorem keeps_memRead_any (b : Buf) (n : Nat) (a : Word) : Keeps P (memRead e.params b n a) :=
  Keeps.memRead hP (hr b) n a

include hP hr hw

theorem keeps_idctBlock {rd wr : Buf} {t : Nat} {src dst stride : Word}
    (h : ∀ n, n < 64 → W (blkTarget dst stride n)) : Keeps P (idctBlock e rd wr t src dst stride) := by
  refine Keeps.ite (Keeps.throw hP _) <| Keeps.bind hP (Keeps.readBlock hP (hr rd) src) fun blk => ?_
  refine Keeps.forRange_mem hP 0 8 fun y _ hy => Keeps.forRange_mem hP 0 8 fun x _ hx =>
    keeps_memWrite_one hP hw ?_ _
  have := h (8 * y + x) (by omega)
  rwa [blkTarget, show (8 * y + x) / 8 = y by omega, show (8 * y + x) % 8 = x by omega] at this

theorem keeps_idctBand {b : Nat} (h : ∀ addr, idctStores e b addr → W addr) : Keeps P (idctBand e b) := by
  unfold idctBand
  split
  · exact Keeps.pure hP _
  · rename_i hs
    refine Keeps.forRange_mem hP _ _ fun c _ hc => Keeps.forRange_mem hP _ _ fun byy h1 h2 =>
      Keeps.forRange_mem hP _ _ fun bx _ hbx => keeps_idctBlock hP hr hw fun n hn => h _ ?_
    refine ⟨hs, c, byy - b * vOf e c, bx, n, by omega, by simp only [vOf]; omega, by simp only [bwOf]; omega, hn, ?_⟩
    rw [blkTarget, planeAddr_add hs, show b * vOf e c + (byy - b * vOf e c) = byy by simp only [vOf]; omega]

omit hw in
theorem keeps_upSample {c xo yo : Nat} {u : MM Nat} (hu : upSample e c xo yo = some u) : Keeps P u := by
  have hS : ∀ i j, Keeps P (planeS e c i j) := fun i j => keeps_memRead_any hP hr _ _ _
  have hV : ∀ ii j jn, Keeps P (up411V e c ii j jn) := fun ii j jn =>
    Keeps.bind hP (hS _ _) fun _ => Keeps.bind hP (hS _ _) fun _ => Keeps.pure hP _
  unfold upSample at hu
  split at hu
  · cases hu
    exact Keeps.bind hP (hS _ _) fun _ =>
      Keeps.ite (Keeps.bind hP (hS _ _) fun _ => Keeps.pure hP _) (Keeps.bind hP (hS _ _) fun _ => Keeps.pure hP _)
  · cases hu
    exact hS _ _
  · cases hu
    exact Keeps.bind hP (hV _ _ _) fun _ =>
      Keeps.ite (Keeps.bind hP (hV _ _ _) fun _ => Keeps.pure hP _) (Keeps.bind hP (hV _ _ _) fun _ => Keeps.pure hP _)
  · cases hu

theorem keeps_upsBand {b : Nat} (h : ∀ addr, upsStores e b addr → W addr) : Keeps P (upsBand e b) := by
  unfold upsBand
  split
  · exact Keeps.pure hP _
  · rename_i hs
    refine Keeps.ite (Keeps.throw hP _) <| Keeps.forRange_mem hP _ _ fun c _ hc => ?_
    unfold upsComp
    split
    · exact Keeps.pure hP _
    · rename_i hfull
      refine Keeps.forRange_mem hP _ _ fun yo h1 h2 => Keeps.forRange_mem hP _ _ fun xo _ hxo => ?_
      unfold upsSample
      split
      · exact Keeps.pure hP _
      · rename_i u hu
        refine Keeps.bind hP (keeps_upSample hP hr hu) fun _ => keeps_memWrite_one hP hw (h _ ?_) _
        refine ⟨hs, c, yo - 8 * e.frm.vmax.toNat * b, xo, by omega, by simpa using hfull, by omega, by omega, ?_⟩
        rw [Nat.add_sub_cancel' h1]

omit hw in
theorem keeps_fullAll (x y n c : Nat) : Keeps P (fullAll e x y n c) := by
  induction n generalizing c with
  | zero => exact Keeps.pure hP _
  | succ n ih =>
    exact Keeps.bind hP (Keeps.ite (keeps_memRead_any hP hr _ _ _) (keeps_memRead_any hP hr _ _ _)) fun _ =>
      Keeps.bind hP (ih _) fun _ => Keeps.pure hP _

theorem keeps_packPair {y pr : Nat} (h : ∀ j, j < 4 → W (packedAddr e y pr j)) : Keeps P (packPair e y pr) := by
  have hb : ∀ c x a, W a → Keeps P (packByte e c x y a) := fun c x a ha =>
    Keeps.bind hP (keeps_memRead_any hP hr _ _ _) fun _ => keeps_memWrite_one hP hw ha _
  have ha : ∀ j, e.cfg.dstBase + BitVec.ofNat 32 y * e.cfg.dstStride + BitVec.ofNat 32 (4 * pr) + BitVec.ofNat 32 j =
      packedAddr e y pr j := fun j => addr_add _ _ _
  refine Keeps.bind hP (hb _ _ _ ?_) fun _ => Keeps.bind hP (hb _ _ _ ?_) fun _ =>
    Keeps.bind hP (hb _ _ _ ?_) fun _ => hb _ _ _ ?_
  · exact h 0 (by omega)
  · exact ha 1 ▸ h 1 (by omega)
  · exact ha 2 ▸ h 2 (by omega)
  · exact ha 3 ▸ h 3 (by omega)

theorem keeps_ccvBand {b : Nat} (h : ∀ addr, ccvStores e b addr → W addr) : Keeps P (ccvBand e b) := by
  unfold ccvBand
  refine Keeps.ite (Keeps.throw hP _) ?_
  cases hk : ccvDispatch e with
  | none => exact Keeps.throw hP _
  | some k =>
    refine Keeps.forRange_mem hP _ _ fun y h1 h2 => ?_
    have hy : imageRow e b y := ⟨h1, by omega, by omega⟩
    unfold ccvRow
    split
    · rename_i hp
      subst hp
      refine Keeps.forRange_mem hP _ _ fun pr _ hpr => keeps_packPair hP hr hw fun j hj => h _ ⟨y, hy, .inl ⟨hk, pr, j, ?_⟩⟩
      exact ⟨by rw [← ceilDiv_eq_upDiv (by omega)]; omega, hj, rfl⟩
    · rename_i hp
      refine Keeps.forRange_mem hP _ _ fun x _ hx => Keeps.bind hP (keeps_fullAll hP hr _ _ _ _) fun v => ?_
      refine Keeps.forRange_mem hP _ _ fun ch _ hch => keeps_memWrite_in hP hw (fun i hi => h _ ⟨y, hy, .inr ⟨?_, ?_⟩⟩) _
      · simpa [hk] using hp
      · exact ⟨x, ch, i, by omega, by omega, hi, rfl⟩

omit hr hw in
theorem keeps_bandsOf {row n : Nat} {band : Nat → MM Unit}
    (h : ∀ cnt b, rowArgs e row n = .ok cnt → row ≤ b → b < row + cnt → Keeps P (band b)) :
    Keeps P (bandsOf e row n band) := by
  intro w
  cases ha : rowArgs e row n with
  | error r => simpa [bandsOf, bind_run, ha] using hP.refl w
  | ok cnt => simpa [bandsOf, bind_run, ha] using Keeps.forRange_mem hP row cnt (fun b h1 h2 => h cnt b ha h1 h2) w

end

/-- The bands a row command covers, where its arguments are legal (R271). -/
theorem rowArgs_run (s : State) (row n : Nat) :
    rowArgs s.env row n =
      if s.dec.frm.hdrValid = false then .error ⟨.badState, 0⟩
      else if bandsIn s ≤ row ∨ bandCount s row n = 0 ∨ bandsIn s < row + bandCount s row n then
        .error (.at .illegalCommand (n * 65536 + row))
      else .ok (bandCount s row n) := rfl

theorem bandCount_of_rowArgs {s : State} {row n cnt : Nat} (h : rowArgs s.env row n = .ok cnt) :
    cnt = bandCount s row n := by
  rw [rowArgs_run] at h
  split at h
  · cases h
  · split at h
    · cases h
    · exact (Except.ok.inj h).symm

section
variable {s : State} {P : MemW → MemW → Prop} {W : Word → Prop} (hP : Closed P)
  (hr : ∀ b a, Keeps P (readByte s.env.params b a)) (hw : ∀ b a v, W a → Keeps P (writeByte s.env.params b a v))
include hP hr hw

theorem keeps_recBand {b : Nat} (h : ∀ addr, recStores s b addr → W addr) : Keeps P (recBand s.env b) := by
  unfold recBand
  split
  · rename_i hs
    exact keeps_ccvBand hP hr hw fun addr ha => h addr (.inr (.inl ⟨ha, .inl hs⟩))
  · rename_i hs
    have last : Keeps P (if b + 1 = nbands s.env then do
        upsBand s.env b
        ccvBand s.env b
      else pure ()) := by
      split
      · rename_i hb
        exact Keeps.bind hP (keeps_upsBand hP hr hw fun addr ha => h addr (.inr (.inr (.inl ⟨ha, hb⟩)))) fun _ =>
          keeps_ccvBand hP hr hw fun addr ha => h addr (.inr (.inl ⟨ha, .inr hb⟩))
      · exact Keeps.pure hP _
    exact Keeps.bind hP (keeps_idctBand hP hr hw fun addr ha => h addr (.inl ha)) fun _ =>
      Keeps.cond
        (fun hb => Keeps.bind hP (keeps_upsBand hP hr hw fun addr ha => h addr (.inr (.inr (.inr ⟨hb, hs, .inl ha⟩))))
          fun _ => Keeps.bind hP (keeps_ccvBand hP hr hw fun addr ha => h addr (.inr (.inr (.inr ⟨hb, hs, .inr ha⟩))))
            fun _ => last)
        fun _ => last

end

/-- What the commands that change nothing but memory keep, whatever their operands and state. -/
theorem keeps_memBody {P : MemW → MemW → Prop} (hP : Closed P) (hr : ∀ p b a, Keeps P (readByte p b a))
    (hw : ∀ p b a v, Keeps P (writeByte p b a v)) (i : Instr) (s : State) : Keeps P (memBody i s) := by
  have hr' : ∀ b a, Keeps P (readByte s.env.params b a) := hr _
  have hw' : ∀ b a v, True → Keeps P (writeByte s.env.params b a v) := fun b a v _ => hw _ b a v
  cases i with
  | idctblk _ _ _ _ => exact keeps_idctBlock (e := s.env) hP hr' hw' fun _ _ => trivial
  | idctrow _ _ =>
    exact keeps_bandsOf (e := s.env) hP fun _ _ _ _ _ => keeps_idctBand hP hr' hw' fun _ _ => trivial
  | upsrow _ _ =>
    exact keeps_bandsOf (e := s.env) hP fun _ _ _ _ _ => keeps_upsBand hP hr' hw' fun _ _ => trivial
  | ccvrow _ _ =>
    exact keeps_bandsOf (e := s.env) hP fun _ _ _ _ _ => keeps_ccvBand hP hr' hw' fun _ _ => trivial
  | recrow _ _ =>
    exact keeps_bandsOf (e := s.env) hP fun _ _ _ _ _ => keeps_recBand hP hr' hw' fun _ _ => trivial
  | _ => exact Keeps.pure hP _

/-! ### The frame of the row commands -/

/-- A command that changes nothing but memory leaves the bytes that its work spares. -/
theorem runMem_leaves {s t : State} {op : Op} {body : MM Unit} (ht : runMem op body s = .next t) :
    t = { s with proc := t.proc, mem := t.mem, free := t.free } ∧
      ∀ addr : Word, Keeps (sparesByte addr) body → t.mem.read addr.toNat = s.mem.read addr.toNat := by
  refine ⟨?_, fun addr hb => ?_⟩
  · rcases runMem_next op body s with ⟨w, -, h⟩ | ⟨r, w, -, h⟩ <;> cases h.symm.trans ht <;>
      simp only [advance, errorEntry] <;> rw [settle_eq]
  · rw [finishMem_mem ht]
    exact settle_read_of_spares (hb (MemW.start op s)) s

/-- Settles O47: each stage of a band spares the bytes that it may not store to. -/
theorem rowCommandsLeaveTheRestAlone : Obligations.RowCommandsLeaveTheRestAlone := by
  intro s t row n
  have frame : ∀ (op : Op) (band : Nat → MM Unit) (stores : Nat → Word → Prop),
      (∀ (P : MemW → MemW → Prop) (W : Word → Prop) b, Closed P → (∀ b a, Keeps P (readByte s.env.params b a)) →
        (∀ b a v, W a → Keeps P (writeByte s.env.params b a v)) → (∀ addr, stores b addr → W addr) → Keeps P (band b)) →
      runMem op (bandsOf s.env row n band) s = .next t →
      t = { s with proc := t.proc, mem := t.mem, free := t.free } ∧
        ∀ addr : Word, (¬∃ b, row ≤ b ∧ b < row + bandCount s row n ∧ stores b addr) →
          t.mem.read addr.toNat = s.mem.read addr.toNat := by
    intro op band stores hband ht
    obtain ⟨hregs, hmem⟩ := runMem_leaves ht
    refine ⟨hregs, fun addr hfree => hmem addr ?_⟩
    have hP := closed_sparesByte addr
    have hr : ∀ b a, Keeps (sparesByte addr) (readByte s.env.params b a) := sparesByte_readByte addr _
    have hw : ∀ b a v, addr ≠ a → Keeps (sparesByte addr) (writeByte s.env.params b a v) := fun b a v h =>
      sparesByte_writeByte h _ b v
    refine keeps_bandsOf (e := s.env) hP fun cnt b hargs h1 h2 => hband _ _ b hP hr hw ?_
    rintro a ha rfl
    exact hfree ⟨b, h1, bandCount_of_rowArgs hargs ▸ h2, ha⟩
  exact ⟨frame .idctrow _ _ fun P W b hP hr hw h => keeps_idctBand hP hr hw h,
    frame .upsrow _ _ fun P W b hP hr hw h => keeps_upsBand hP hr hw h,
    frame .ccvrow _ _ fun P W b hP hr hw h => keeps_ccvBand hP hr hw h,
    frame .recrow _ _ fun P W b hP hr hw h => keeps_recBand hP hr hw h⟩

end Sys2Proof.Cert
end

section
/-! What every step keeps: the induction over the events, packaged once, and the canonical form of memory (R80), the processor's
states (R322) and the entropy state's ranges (R47, R48). -/
namespace Sys2Proof.Cert
open Sys2Proof.Machine

/-! ### The rows of a DECROW -/

section
variable {s : State} {n : Nat}

/-- What DECROW's rows do, host stores beside them or not. -/
theorem rowEffects_decrowRun (h : Beside) {W : Word → Prop}
    (hW : ∀ y, y < rowsOf s n → ∀ addr, rowStores s.env (s.dec.ent.srow.toNat + y) addr → W addr) :
    RowEffects s.env W (rowsOf s n) ((DecW.start s).beside h) (stateAfter (decrowRun h n s)) := by
  rw [← rowCount_eq_rowsOf] at hW ⊢
  refine rowEffects_decodeRows ?_ hW
  have h1 := s.dec.ent.srow.isLt
  have h2 := s.dec.scn.srows.isLt
  show s.dec.ent.srow.toNat + rowCount s n < 65536
  unfold rowCount
  dsimp only
  split <;> omega

/-- What every small effect of a row and its counting keep, DECROW's rows keep. -/
theorem decrowRun_keeps (h : Beside) {R : DecW → DecW → Prop} (hR : Closed R)
    (hm : ∀ w w', Micro s.env (fun _ => True) w w' → R w w')
    (hrow : ∀ w : DecW, R w { w with ent := { w.ent with srow := w.ent.srow + 1 } }) :
    R ((DecW.start s).beside h) (stateAfter (decrowRun h n s)) :=
  (rowEffects_decrowRun h fun _ _ _ _ => trivial).keeps hR hm hrow

/-- A store changes memory and its log, for the better or not at all. -/
theorem Micro.good {e : Env} {W : Word → Prop} {w w' : DecW} (h : Micro e W w w') : keepsGood w.mw w'.mw := by
  cases h with
  | reads _ h _ => exact h.1
  | write b a v _ => exact keepsGood_writeByte _ b a v w.mw
  | _ => exact closed_keepsGood.refl w.mw

theorem good_decrowRun {h : Beside} (hs : s.mem.wf = true) : (stateAfter (decrowRun h n s)).mw.good :=
  decrowRun_keeps h (R := fun w w' => keepsGood w.mw w'.mw)
    ⟨fun w => closed_keepsGood.refl w.mw, fun _ _ _ h1 h2 => closed_keepsGood.trans _ _ _ h1 h2⟩ (fun _ _ hm => hm.good)
    (fun w => closed_keepsGood.refl w.mw) (good_beside (good_start hs .decrow) h)

theorem sparesByte_micro {e : Env} {addr : Word} {w w' : DecW} (h : Micro e (addr ≠ ·) w w') :
    sparesByte addr w.mw w'.mw := by
  cases h with
  | reads h hm _ => exact ⟨congrArg (·.read addr.toNat) h.mem.1, fun hc => hm.2 ▸ hc⟩
  | write b a v ha => exact sparesByte_writeByte ha _ b v w.mw
  | _ => exact (closed_sparesByte addr).refl w.mw

/-- DECROW's rows spare the bytes that no row they cover may store to. -/
theorem sparesByte_decrowRun {h : Beside} {addr : Word}
    (haddr : ∀ y, y < rowsOf s n → ¬rowStores s.env (s.dec.ent.srow.toNat + y) addr) :
    sparesByte addr (MemW.start .decrow s) (stateAfter (decrowRun h n s)).mw :=
  (rowEffects_decrowRun (W := (addr ≠ ·)) h fun y hy a ha (he : addr = a) => haddr y hy (he ▸ ha)).keeps
    (R := fun w w' => sparesByte addr w.mw w'.mw)
    ⟨fun w => (closed_sparesByte addr).refl w.mw, fun _ _ _ h1 h2 => (closed_sparesByte addr).trans _ _ _ h1 h2⟩
    (fun _ _ => sparesByte_micro) (fun w => (closed_sparesByte addr).refl w.mw)

/-- Settles O40: a row stores nowhere else, and DECROW changes of the decoder state what its rows and R216 do. -/
theorem decrowLeavesTheRestAlone : Obligations.DecrowLeavesTheRestAlone := by
  intro s t n ht
  obtain ⟨hs, -, hd⟩ := execBeside_next ((execBeside_none _ s).trans ht)
  refine ⟨fun addr haddr => ?_, hs.params, hs.cfg, ?_⟩
  · rw [exec_mem ht, workOf, decrowWork]
    split
    · rw [settle_onlyRead]
    · exact settle_read_of_spares (sparesByte_decrowRun haddr) s
  · generalize hi : Instr.decrow n = i at hd
    generalize t.dec = d at hd
    cases hd with
    | same => exact ⟨rfl, rfl, rfl, rfl, rfl⟩
    | decrowRaised n r w ha hw => exact ⟨rfl, rfl, rfl, rfl, rfl⟩
    | decrowDone n w ha hw =>
      rw [scanComplete_eq]
      exact ⟨rfl, rfl, rfl, rfl, rfl⟩
    | _ => cases hi

end

/-! ### The work of a command -/

theorem spansBounded_append {k l : List Span} (hk : spansBounded k) (hl : spansBounded l) : spansBounded (k ++ l) :=
  fun x hx => (List.mem_append.mp hx).elim (hk x) (hl x)

theorem spansBounded_run (b : Buf) (n : Nat) (a : Word) : spansBounded (logRun b n a []) :=
  spansBounded_logRun (fun _ hx => absurd hx List.not_mem_nil) b n a

/-- A command's work on a memory in canonical form leaves it so. -/
theorem good_workOf {s : State} (hs : s.mem.wf = true) (h : Beside) (i : Instr) : (workOf h i s).good := by
  have hread : ∀ {l : List Span}, spansBounded l → (s.onlyRead l).good := fun hl =>
    ⟨hs, hl, fun _ hx => absurd hx List.not_mem_nil⟩
  have hwords : ∀ n, (s.onlyRead (wordSpans n s)).good := fun n => hread (spansBounded_run _ _ _)
  have hsrc : ∀ stop, (sourceWork s stop).good := fun stop =>
    hread (spansBounded_append (spansBounded_run _ _ _) (spansBounded_run _ _ _))
  have hmem : ∀ j, (stateAfter (memRun h j s)).good := fun j =>
    keeps_memBody closed_keepsGood keepsGood_readByte keepsGood_writeByte j s _ (good_beside (good_start hs _) h)
  cases i with
  | nop => exact hwords 4
  | endList => exact hwords 4
  | reset => exact hwords 4
  | seek _ => exact hwords 8
  | ldqt => exact hsrc _
  | ldht => exact hsrc _
  | setri => exact hsrc _
  | setscn => exact hsrc _
  | setfrm k =>
    show (frameWork k s).good
    unfold frameWork
    cases parseFrame s (modeOf k) with
    | error r => exact hsrc _
    | ok f =>
      dsimp only
      split
      · exact hsrc _
      · have hstart := good_start hs .setfrm
        exact Keeps.forRange closed_keepsGood (fun _ => keepsGood_writeByte _ _ _ _) _ _ _
          ⟨hstart.1, spansBounded_logRun hstart.2.1 _ _ _, hstart.2.2⟩
  | decrow n =>
    show (decrowWork h n s).good
    unfold decrowWork
    split
    · exact hwords 4
    · exact good_decrowRun hs
  | idctblk _ _ _ _ => exact hmem _
  | idctrow _ _ => exact hmem _
  | upsrow _ _ => exact hmem _
  | ccvrow _ _ => exact hmem _
  | recrow _ _ => exact hmem _

/-- Every command keeps the canonical form of memory. -/
theorem wf_execBeside {h : Beside} {i : Instr} {s t : State} (hs : s.mem.wf = true) (ht : execBeside h i s = .next t) :
    t.mem.wf = true := by
  rw [execBeside_mem ht]
  exact wf_settle (good_workOf hs h i) s

/-! ### Writes of the window -/

/-- What a write of the window can do (R21, R23 to R25, R28 to R36, R321, R345). -/
inductive WriteEffect (s : State) : State → Prop
  | same : WriteEffect s s
  | cqPtr (v : Word) : WriteEffect s { s with proc := { s.proc with cqPtr := v &&& 0xFFFFFFFC#32 } }
  | cfg (c : Cfg) : WriteEffect s { s with cfg := c }
  | cursor (v : Word) : WriteEffect s (setCursor v s)
  | info (m : Meta) : WriteEffect s { s with dec := { s.dec with info := m } }
  | reset : WriteEffect s (hardReset s)
  | go (c : Cfg) : s.proc.busy = false → s.proc.err = false →
    WriteEffect s { s with cfg := c, proc := { s.proc with done := false, busy := true }, race := s.runStart.race }
  | status (v : Word) : WriteEffect s (writeStatus s v)

theorem WriteEffect.ite {s t u : State} {c : Prop} [Decidable c] (ht : WriteEffect s t) (hu : WriteEffect s u) :
    WriteEffect s (if c then t else u) := by
  split
  · exact ht
  · exact hu

theorem writeEffect_writeCtrl (s : State) (v : Word) : WriteEffect s (writeCtrl s v) := by
  refine .ite .reset (.ite ?_ (.cfg _))
  unfold startRun
  split
  · exact .cfg _
  · rename_i h
    obtain ⟨hbusy, herr⟩ := not_or.mp (fun h' => h (Bool.or_eq_true _ _ ▸ h'))
    exact .go _ (Bool.eq_false_iff.mpr hbusy) (Bool.eq_false_iff.mpr herr)

theorem writeEffect_writeArray (s : State) (off : Nat) (v : Word) : WriteEffect s (writeArray s off v) :=
  .ite (.cfg _) (.ite (.cfg _) (.ite (.cfg _) (.ite (.cfg _) .same)))

theorem writeEffect_csrWrite (s : State) (off : Nat) (v : Word) : WriteEffect s (csrWrite s off v) := by
  refine .ite (writeEffect_writeCtrl s v) (.ite (.status v) (.ite .same ?_))
  exact .ite (.cqPtr v) <| .ite (.cfg _) <| .ite (.cfg _) <| .ite (.cursor v) <| .ite (.info _) <| .ite (.cfg _) <|
    .ite (.cfg _) <| .ite (.cfg _) <| .ite (.cfg _) <| .ite (.cfg _) (writeEffect_writeArray s off v)

/-- A write of STATUS as one update (R24, R345). -/
theorem writeStatus_eq (s : State) (v : Word) :
    writeStatus s v =
      { s with
        proc := { s.proc with done := s.proc.done && !v.getLsbD 1, err := s.proc.err && !v.getLsbD 2 }
        dec :=
          { s.dec with
            warn :=
              { s.dec.warn with
                rst := s.dec.warn.rst && !v.getLsbD 3, ent := s.dec.warn.ent && !v.getLsbD 4 } } } := by
  unfold writeStatus wbit errorReturn
  cases v.getLsbD 2 <;> simp

/-! ### The induction over steps -/

/-- Two states agree on the processor, the decoder state and what the run began with, the second's memory in canonical form if
the first's is. -/
structure SameCore (s t : State) : Prop where
  proc : t.proc = s.proc
  dec : t.dec = s.dec
  start : t.race.start = s.race.start
  wf : s.mem.wf = true → t.mem.wf = true

/-- A property of states that each thing a step can do keeps. -/
structure KeptByAll (I : State → Prop) : Prop where
  command : ∀ {h i s t}, I s → execBeside h i s = .next t → I t
  raise : ∀ {s} r, I s → I (errorEntry r s)
  write : ∀ {s t}, I s → WriteEffect s t → I t
  reset : ∀ {s}, I s → I (hardReset s)
  abandoned : ∀ {s t}, I s → I t → I (abandon s t)
  other : ∀ {s t}, I s → SameCore s t → I t

section
variable {I : State → Prop} (hI : KeptByAll I) {s t : State}
include hI

theorem KeptByAll.runStep (hs : I s) (h : runStep s = .next t) : I t := by
  unfold Machine.runStep at h
  split at h
  · unfold runCommand at h
    cases hf : fetch s with
    | error r =>
      rw [hf] at h
      cases h
      exact hI.other (hI.raise r hs) ⟨rfl, rfl, rfl, id⟩
    | ok i =>
      rw [hf] at h
      obtain ⟨u, hu, hsame, -⟩ := runs_exec i s
      simp only [hu] at h
      cases h
      exact hI.other (hI.command hs ((execBeside_none i s).trans hu)) ⟨rfl, rfl, by rw [hsame.race], id⟩
  · have hseen : ∀ {u}, I u → I u.seen := fun {u} hu => hI.other hu ⟨rfl, rfl, rfl, fun hm => wf_freeBytes hm _ _⟩
    have hafter : ∀ {u} new, I u → u.race.start = s.race.start → I (s.afterRace new u) := fun new hu hr =>
      hI.other hu ⟨rfl, rfl, hr.symm, fun hm => wf_afterRace hm s new⟩
    unfold runRaced at h
    cases hf : fetch s.seen with
    | error r =>
      rw [hf] at h
      cases h
      exact hafter _ (hI.raise r (hseen hs)) rfl
    | ok i =>
      rw [hf] at h
      obtain ⟨u, hu, hsame, -⟩ := runs_execBeside s.stores i s.seen.seen
      simp only [hu] at h
      cases h
      exact hafter _ (hI.command (hseen (hseen hs)) hu) (by rw [hsame.race]; rfl)

theorem KeptByAll.blockStep (hs : I s) (h : blockStep s = .next t) : I t := by
  unfold Machine.blockStep at h
  split at h
  · exact hI.runStep hs h
  · cases h
    exact hs

theorem KeptByAll.hostLoad {a : Word} {w : Width} (hs : I s) (h : hostLoad a w s = .next t) : I t := by
  unfold Machine.hostLoad at h
  have hrec : ∀ v, I (recordLoad a w v s) := fun v =>
    hI.other hs ⟨rfl, rfl, recordLoad_race_start a w v s, id⟩
  split at h
  · split at h
    · dsimp only at h
      split at h <;> cases h
      · exact hI.other hs ⟨rfl, rfl, by simp [recordFree], id⟩
      · exact hrec _
    · cases h
  · split at h <;> cases h
    · exact hI.other hs ⟨rfl, rfl, by simp [racedLoad], id⟩
    · exact hrec _

theorem KeptByAll.hostStore {a : Word} {w : Width} {v : Word} (hs : I s) (h : hostStore a w v s = .next t) : I t := by
  unfold Machine.hostStore at h
  split at h
  · split at h <;> cases h
    exact hI.write hs (writeEffect_csrWrite s _ v)
  · split at h <;> cases h
    · exact hI.other hs ⟨rfl, rfl, rfl, fun hm => wf_racedStore hm a w v⟩
    · exact hI.other hs ⟨rfl, rfl, rfl, fun hm => wf_storeMem hm _ _ _⟩

/-- What each thing a step can do keeps, every step keeps. -/
theorem KeptByAll.step (hs : I s) (h : step s = .next t) : I t := by
  have hes : ∀ es, I { s with events := es } := fun es => hI.other hs ⟨rfl, rfl, rfl, id⟩
  unfold Machine.step at h
  split at h
  · exact hI.blockStep hs h
  · exact hI.blockStep (hes _) h
  · exact hI.hostLoad (hes _) h
  · exact hI.hostStore (hes _) h
  · cases h
    exact hI.reset (hes _)
  · unfold resetDuring at h
    split at h
    · rename_i u hu
      cases h
      exact hI.abandoned (hes _) (hI.blockStep (hes _) hu)
    · cases h
    · cases h

end

/-- A property of the decoder state alone, which each thing a step can do to it keeps. -/
structure DecKept (D : Dec → Prop) : Prop where
  command : ∀ {h i s d}, D s.dec → DecEffect h s i d → D d
  reset : D Dec.reset
  cursor : ∀ {s} pos, D s.dec → D (setCursor pos s).dec
  info : ∀ {d : Dec} (m : Meta), D d → D { d with info := m }
  warn : ∀ {d : Dec} (w : Warn), D d → D { d with warn := w }

theorem DecKept.keptByAll {D : Dec → Prop} (hD : DecKept D) : KeptByAll fun s => D s.dec where
  command hs ht := hD.command hs (execBeside_next ht).2.2
  raise _ hs := hs
  write hs ht := by
    cases ht with
    | cursor v => exact hD.cursor v hs
    | info m => exact hD.info m hs
    | reset => exact hD.reset
    | status v => rw [writeStatus_eq]; exact hD.warn _ hs
    | _ => exact hs
  reset _ := hD.reset
  abandoned _ _ := hD.reset
  other hs ht := ht.dec ▸ hs

/-- What each thing a step can do to the decoder state keeps, every step keeps. -/
theorem DecKept.step {D : Dec → Prop} (hD : DecKept D) {s t : State} (hs : D s.dec) (h : step s = .next t) : D t.dec :=
  hD.keptByAll.step hs h

/-! ### The canonical form -/

/-- LLPREV is in canonical form. -/
def lineCanonical (d : Dec) : Prop := d.ent.llprev.wf = true

theorem lineCanonical_micro {e : Env} {W : Word → Prop} {w w' : DecW} (h : Micro e W w w') :
    w.ent.llprev.wf = true → w'.ent.llprev.wf = true := by
  cases h with
  | reads h _ _ =>
    rw [show w'.ent.llprev = w.ent.llprev from (congrArg Entropy.llprev h.ent :)]
    exact id
  | line cur => exact fun hw => Sparse.wf_writeList hw 0 cur
  | _ => exact id

theorem lineCanonical_kept : DecKept lineCanonical where
  command {h i s d} hs hd := by
    have hrun : ∀ n, (stateAfter (decrowRun h n s)).ent.llprev.wf = true := fun n =>
      decrowRun_keeps h (R := fun w w' => w.ent.llprev.wf = true → w'.ent.llprev.wf = true)
        ⟨fun _ => id, fun _ _ _ h1 h2 => h2 ∘ h1⟩ (fun _ _ => lineCanonical_micro) (fun _ => id) hs
    cases hd with
    | reset => rfl
    | setscn hdr _ => rfl
    | decrowDone n w _ hw =>
      rw [scanComplete_eq]
      exact (hw ▸ hrun n :)
    | decrowRaised n r w _ hw => exact (hw ▸ hrun n :)
    | _ => exact hs
  reset := rfl
  cursor _ hs := hs
  info _ hs := hs
  warn _ hs := hs

theorem memCanonical_iff (s : State) :
    s.memCanonical = true ↔
      s.mem.wf = true ∧ lineCanonical s.dec ∧ s.race.start.mem.wf = true ∧ lineCanonical s.race.start.dec := by
  simp [State.memCanonical, lineCanonical, and_assoc]

theorem memCanonical_kept : KeptByAll fun s => s.memCanonical = true where
  command hs ht := by
    obtain ⟨hm, hl, hrm, hrl⟩ := (memCanonical_iff _).mp hs
    obtain ⟨hsame, -, hd⟩ := execBeside_next ht
    exact (memCanonical_iff _).mpr ⟨wf_execBeside hm ht, lineCanonical_kept.command hl hd, hsame.race ▸ hrm, hsame.race ▸ hrl⟩
  raise _ hs := hs
  write hs ht := by
    cases ht with
    | go c _ _ =>
      obtain ⟨hm, hl, -, -⟩ := (memCanonical_iff _).mp hs
      exact (memCanonical_iff _).mpr ⟨hm, hl, hm, hl⟩
    | reset =>
      obtain ⟨hm, -, -, -⟩ := (memCanonical_iff _).mp hs
      exact (memCanonical_iff _).mpr ⟨hm, rfl, rfl, rfl⟩
    | status v => rw [writeStatus_eq]; exact hs
    | _ => exact hs
  reset hs := by
    obtain ⟨hm, -, -, -⟩ := (memCanonical_iff _).mp hs
    exact (memCanonical_iff _).mpr ⟨hm, rfl, rfl, rfl⟩
  abandoned hs ht := by
    obtain ⟨hm, -, -, -⟩ := (memCanonical_iff _).mp hs
    obtain ⟨hn, -, -, -⟩ := (memCanonical_iff _).mp ht
    exact (memCanonical_iff _).mpr ⟨wf_mixMemory hm hn _, rfl, rfl, rfl⟩
  other hs ht := by
    obtain ⟨hm, hl, hrm, hrl⟩ := (memCanonical_iff _).mp hs
    exact (memCanonical_iff _).mpr ⟨ht.wf hm, ht.dec ▸ hl, ht.start ▸ hrm, ht.start ▸ hrl⟩

/-- Settles O54, by the induction over what a step can do. -/
theorem stepKeepsMemoryCanonical : Obligations.StepKeepsMemoryCanonical := fun _ _ hs h => memCanonical_kept.step hs h

/-! ### The processor's states -/

theorem procLegal_iff (s : State) :
    s.procLegal = true ↔
      s.proc.cqPtr.toNat % 4 = 0 ∧ ¬(s.proc.busy = true ∧ s.proc.err = true) ∧
        ¬(s.proc.busy = true ∧ s.proc.done = true) ∧ s.proc.recordLegal = true := by
  simp [State.procLegal, and_assoc, imp_iff_not_or]

theorem recordLegal_named (p : Proc) (e : ErrName) : { p with errCode := e.code, errClass := e.cls }.recordLegal = true := by
  cases e <;> simp [Proc.recordLegal, ErrName.all, ErrName.code, ErrName.cls]

theorem procLegal_errorEntry {s : State} (hs : s.procLegal = true) (r : Raise) : (errorEntry r s).procLegal = true := by
  obtain ⟨hal, -, -, -⟩ := (procLegal_iff s).mp hs
  exact (procLegal_iff _).mpr ⟨hal, by simp, by simp, recordLegal_named (errorEntry r s).proc r.name⟩

/-- Moving past whole words keeps CQ_PTR aligned. -/
theorem aligned_add {a : Word} (h : a.toNat % 4 = 0) (n : Nat) : (a + BitVec.ofNat 32 (4 * n)).toNat % 4 = 0 := by
  rw [BitVec.toNat_add, BitVec.toNat_ofNat]
  omega

theorem aligned_mask (v : Word) : (v &&& 0xFFFFFFFC#32).toNat % 4 = 0 := by
  have h : (v &&& 0xFFFFFFFC#32).extractLsb' 0 2 = 0#2 := by
    rw [BitVec.extractLsb'_and, show (0xFFFFFFFC#32).extractLsb' 0 2 = 0#2 by decide, BitVec.and_zero]
  have := congrArg BitVec.toNat h
  rw [toNat_extract] at this
  simpa using this

theorem procLegal_kept : KeptByAll fun s => s.procLegal = true where
  command {h i s t} hs ht := by
    obtain ⟨-, hp | ⟨r, hp⟩, -⟩ := execBeside_next ht
    · obtain ⟨hal, he, hd, hr⟩ := (procLegal_iff s).mp hs
      refine (procLegal_iff t).mpr (hp ▸ ⟨aligned_add hal _, ?_, ?_, hr⟩)
      · exact fun hbe => he ⟨(Bool.and_eq_true_iff.mp hbe.1).1, hbe.2⟩
      · rintro ⟨hb, hdone⟩
        simp only [doneProc, Bool.and_eq_true, bne_iff_ne, Bool.or_eq_true, beq_iff_eq] at hb hdone
        exact hdone.elim (fun h => hd ⟨hb.1, h⟩) hb.2
    · have := procLegal_errorEntry hs r
      unfold State.procLegal at this ⊢
      rwa [hp]
  raise r hs := procLegal_errorEntry hs r
  write {s t} hs ht := by
    obtain ⟨hal, he, hd, hr⟩ := (procLegal_iff s).mp hs
    cases ht with
    | cqPtr v => exact (procLegal_iff _).mpr ⟨aligned_mask v, he, hd, hr⟩
    | reset => rfl
    | go c hb herr => exact (procLegal_iff _).mpr ⟨hal, by simp [herr], by simp, hr⟩
    | status v =>
      rw [writeStatus_eq]
      refine (procLegal_iff _).mpr ⟨hal, fun h => he ⟨h.1, (Bool.and_eq_true_iff.mp h.2).1⟩,
        fun h => hd ⟨h.1, (Bool.and_eq_true_iff.mp h.2).1⟩, hr⟩
    | _ => exact hs
  reset _ := rfl
  abandoned _ _ := rfl
  other hs ht := by
    unfold State.procLegal at hs ⊢
    rwa [ht.proc]

/-! ### The entropy state's ranges -/

/-- BL and EOBRUN lie in their ranges (R47, R48). -/
def entropyRanges (s : Entropy) : Prop := s.bl.toNat ≤ 8 ∧ s.eobrun.toNat ≤ 32767

theorem entropyRanges_micro {e : Env} {W : Word → Prop} {w w' : DecW} (h : Micro e W w w') :
    entropyRanges w.ent → entropyRanges w'.ent := by
  rintro ⟨hb, he⟩
  cases h with
  | reads h _ hbl => exact ⟨hbl hb, h.eobrun ▸ he⟩
  | eobrun v hv => exact ⟨hb, hv⟩
  | eobDown h0 =>
    refine ⟨hb, le_trans ?_ he⟩
    have hle : (1 : Half) ≤ w.ent.eobrun := by
      rw [BitVec.le_def]
      exact Nat.one_le_iff_ne_zero.mpr fun h => h0 (BitVec.eq_of_toNat_eq h)
    rw [BitVec.toNat_sub_of_le hle]
    exact Nat.sub_le _ _
  | restart => exact ⟨hb, Nat.zero_le _⟩
  | _ => exact ⟨hb, he⟩

theorem entropyRanges_kept : DecKept fun d => entropyRanges d.ent where
  command {h i s d} hs hd := by
    have hrun : ∀ n, entropyRanges (stateAfter (decrowRun h n s)).ent := fun n =>
      decrowRun_keeps h (R := fun w w' => entropyRanges w.ent → entropyRanges w'.ent)
        ⟨fun _ => id, fun _ _ _ h1 h2 => h2 ∘ h1⟩ (fun _ _ => entropyRanges_micro) (fun _ => id) hs
    cases hd with
    | reset => exact ⟨Nat.zero_le _, Nat.zero_le _⟩
    | seek off => exact ⟨Nat.zero_le _, hs.2⟩
    | setfrm k f _ => exact ⟨hs.1, Nat.zero_le _⟩
    | setscn hdr _ => exact ⟨Nat.zero_le _, Nat.zero_le _⟩
    | decrowDone n w _ hw =>
      rw [scanComplete_eq]
      exact (hw ▸ hrun n :)
    | decrowRaised n r w _ hw => exact (hw ▸ hrun n :)
    | _ => exact hs
  reset := ⟨Nat.zero_le _, Nat.zero_le _⟩
  cursor _ hs := ⟨Nat.zero_le _, hs.2⟩
  info _ hs := hs
  warn _ hs := hs

theorem entropyLegal_iff (s : State) : s.entropyLegal = true ↔ entropyRanges s.dec.ent := by
  simp [State.entropyLegal, entropyRanges]

/-- Settles O55, by the induction over what a step can do. -/
theorem stepKeepsRegistersLegal : Obligations.StepKeepsRegistersLegal := fun s t h =>
  ⟨fun hs => procLegal_kept.step hs h, fun hs =>
    (entropyLegal_iff t).mpr (entropyRanges_kept.step ((entropyLegal_iff s).mp hs) h)⟩

end Sys2Proof.Cert
end

section
/-! Every HCODE follows from its BITS and HUFFVAL (R54, R161): what LDQT and LDHT leave of the tables. -/
namespace Sys2Proof.Cert
open Sys2Proof.Machine

/-- A source read of `n` bytes gives `n` bytes. -/
theorem length_srcBytesIn {p : Params} {c : Cfg} {m : Memory} {n i : Nat} {bs : List Byte}
    (h : srcBytesIn p c m n i = .ok bs) : bs.length = n := by
  induction n generalizing i bs with
  | zero =>
    cases h
    rfl
  | succ n ih =>
    simp only [srcBytesIn, bind, Except.bind] at h
    split at h
    · cases h
    · split at h
      · cases h
      · cases h
        rw [List.length_cons, ih (by assumption)]

/-- What a table of a segment can change. -/
inductive TableStep : Tables → Tables → Prop
  | quant (t : Tables) (tq pq : Nat) (raw : List Nat) : TableStep t (t.commitQuant tq pq raw)
  | huff (t : Tables) (tc th : Nat) (cnt vals : List Byte) (hc : List HEntry) : cnt.length = 16 →
    vals.length = (cnt.map BitVec.toNat).sum → buildHuff (cnt.map BitVec.toNat) vals = some hc →
    TableStep t (t.commitHuff tc th { bits := Vector.ofFn fun i => cnt.getD i.val 0, vals := vals, hcode := hc })

/-- What a segment's tables can change. -/
def TableSteps : Tables → Tables → Prop := Relation.ReflTransGen TableStep

theorem closed_tableSteps : Closed TableSteps := ⟨fun _ => .refl, fun _ _ _ h1 h2 => h1.trans h2⟩

variable {s : State}

theorem tableSteps_ldqtLoop (fuel p rem : Nat) : Keeps TableSteps (ldqtLoop s fuel p rem) := by
  induction fuel generalizing p rem with
  | zero => exact Keeps.pure closed_tableSteps _
  | succ fuel ih =>
    exact Keeps.ite (Keeps.pure closed_tableSteps _) <|
      Keeps.bind closed_tableSteps (Keeps.liftX closed_tableSteps _) fun _ =>
        Keeps.ite (Keeps.throw closed_tableSteps _) <| Keeps.ite (Keeps.throw closed_tableSteps _) <|
          Keeps.bind closed_tableSteps (Keeps.liftX closed_tableSteps _) fun _ =>
            Keeps.bind closed_tableSteps (Keeps.modify fun t => .single (.quant t _ _ _)) fun _ => ih _ _

theorem tableSteps_ldqtBody : Keeps TableSteps (ldqtBody s) :=
  Keeps.bind closed_tableSteps (Keeps.liftX closed_tableSteps _) fun _ =>
    Keeps.ite (Keeps.throw closed_tableSteps _) (tableSteps_ldqtLoop _ _ _)

theorem liftX_eq_ok {σ α : Type} {x : Except Raise α} {a : α} {u v : σ} (h : liftX x u = .ok a v) : x = .ok a ∧ v = u := by
  cases x <;> cases h
  exact ⟨rfl, rfl⟩

theorem tableSteps_ldhtLoop (fuel p rem : Nat) : Keeps TableSteps (ldhtLoop s fuel p rem) := by
  induction fuel generalizing p rem with
  | zero => exact Keeps.pure closed_tableSteps _
  | succ fuel ih =>
    refine Keeps.ite ?_ (Keeps.ite (Keeps.throw closed_tableSteps _) (Keeps.pure closed_tableSteps _))
    refine Keeps.bind closed_tableSteps (Keeps.liftX closed_tableSteps _) fun b => ?_
    refine Keeps.bind_ok closed_tableSteps (Keeps.liftX closed_tableSteps _) fun _ cnt t hcnt => ?_
    have hlen := length_srcBytesIn (liftX_eq_ok hcnt).1
    revert t
    refine fun t _ => (Keeps.ite (Keeps.throw closed_tableSteps _) ?_ : Keeps TableSteps _) t
    refine Keeps.bind_ok closed_tableSteps (Keeps.liftX closed_tableSteps _) fun _ vals t hvals => ?_
    have hvlen := length_srcBytesIn (liftX_eq_ok hvals).1
    refine (Keeps.ite (Keeps.throw closed_tableSteps _) ?_ : Keeps TableSteps _) t
    cases hb : buildHuff (cnt.map BitVec.toNat) vals with
    | none => exact Keeps.throw closed_tableSteps _
    | some hc =>
      exact Keeps.bind closed_tableSteps (Keeps.modify fun t => .single (.huff t _ _ cnt vals hc hlen hvlen hb)) fun _ =>
        ih _ _

theorem tableSteps_ldhtBody : Keeps TableSteps (ldhtBody s) :=
  Keeps.bind closed_tableSteps (Keeps.liftX closed_tableSteps _) fun _ =>
    Keeps.ite (Keeps.throw closed_tableSteps _) (tableSteps_ldhtLoop _ _ _)

/-! ### Derived codes -/

theorem toList_ofFn_getD {cnt : List Byte} (h : cnt.length = 16) :
    (Vector.ofFn fun i : Fin 16 => cnt.getD i.val 0).toList = cnt := by
  refine List.ext_getElem (by simp [h]) fun i h1 h2 => ?_
  simp [List.getD_eq_getElem?_getD, List.getElem?_eq_getElem h2]

/-- Every table's codes are derived. -/
def codesDerived (t : Tables) : Prop := ∀ i, (t.dc.get i).derived = true ∧ (t.ac.get i).derived = true

theorem huffDerived_iff (s : State) : s.huffDerived = true ↔ codesDerived s.dec.tab := by
  simp only [State.huffDerived, List.all_eq_true, List.mem_range, Bool.and_eq_true]
  refine ⟨fun h i => ?_, fun h i _ => h i⟩
  by_cases hi : i < 4
  · exact h i hi
  · have hget : ∀ {α : Type} (q : Quad α), q.get i = q.get 3 := fun q => by
      match i, hi with
      | i + 4, _ => rfl
    rw [hget, hget]
    exact h 3 (by omega)

/-- A property of all four elements is kept where the element written has it. -/
theorem Quad.forall_set {α : Type} {P : α → Prop} {q : Quad α} (h : ∀ i, P (q.get i)) (j : Nat) {v : α} (hv : P v) (i : Nat) :
    P ((q.set j v).get i) := by
  have h0 : P q.c0 := h 0
  have h1 : P q.c1 := h 1
  have h2 : P q.c2 := h 2
  have h3 : P q.c3 := h 3
  refine Quad.forall_get ?_ ?_ ?_ ?_ i <;> unfold Quad.set <;> split <;> assumption

theorem codesDerived_step {t t' : Tables} (h : TableStep t t') (ht : codesDerived t) : codesDerived t' := by
  cases h with
  | quant tq pq raw => exact ht
  | huff tc th cnt vals hc hlen hvals hb =>
    have hnew : HuffTab.derived { bits := Vector.ofFn fun i => cnt.getD i.val 0, vals := vals, hcode := hc } = true := by
      simp only [HuffTab.derived, toList_ofFn_getD hlen, hb, hvals, beq_self_eq_true, Bool.and_self]
    unfold Tables.commitHuff
    split
    · exact fun i => ⟨Quad.forall_set (P := fun h => HuffTab.derived h = true) (fun i => (ht i).1) th hnew i, (ht i).2⟩
    · exact fun i => ⟨(ht i).1, Quad.forall_set (P := fun h => HuffTab.derived h = true) (fun i => (ht i).2) th hnew i⟩

theorem codesDerived_steps {t t' : Tables} (h : TableSteps t t') (ht : codesDerived t) : codesDerived t' := by
  induction h with
  | refl => exact ht
  | tail _ hstep ih => exact codesDerived_step hstep ih

theorem codesDerived_reset : codesDerived Tables.reset := fun i => by
  rw [Tables.reset, Quad.get_all, and_self]
  rfl

theorem codesDerived_kept : DecKept fun d => codesDerived d.tab where
  command {h i s d} hs hd := by
    cases hd with
    | reset => exact codesDerived_reset
    | ldqt => exact codesDerived_steps (tableSteps_ldqtBody s.dec.tab) hs
    | ldht => exact codesDerived_steps (tableSteps_ldhtBody s.dec.tab) hs
    | decrowDone n w _ _ =>
      rw [scanComplete_eq]
      exact hs
    | _ => exact hs
  reset := codesDerived_reset
  cursor _ hs := hs
  info _ hs := hs
  warn _ hs := hs

/-- Settles O56: a table is loaded with the codes that `buildHuff` gives its counts and values. -/
theorem stepKeepsCodesDerived : Obligations.StepKeepsCodesDerived := fun s t hs h =>
  (huffDerived_iff t).mpr (codesDerived_kept.step ((huffDerived_iff s).mp hs) h)

end Sys2Proof.Cert
end

section
/-! The frame and scan registers stay those of a committed frame and scan (R37 to R45, R170, R181): what the header parses
accept, and the header that the committed registers hold. -/
namespace Sys2Proof.Cert
open Sys2Proof.Machine

/-! ### What the header parses accept -/

/-- A computation that may raise answers `b` exactly when its first part answers and the rest answers `b`. -/
theorem except_bind_eq_ok {ε α β : Type} {x : Except ε α} {f : α → Except ε β} {b : β} :
    (x >>= f) = .ok b ↔ ∃ a, x = .ok a ∧ f a = .ok b := by
  cases x with
  | error e => simp [bind, Except.bind]
  | ok a => simp [bind, Except.bind]

/-- A check that has passed. -/
theorem ite_throw_eq_ok {ε α : Type} {c : Prop} [Decidable c] {e : ε} {x : Except ε α} {a : α} :
    (if c then throw e else x) = .ok a ↔ ¬c ∧ x = .ok a := by
  split <;> simp_all [throw, throwThe, MonadExceptOf.throw]

theorem be16_lt {s : State} {i v : Nat} (h : s.be16 i = .ok v) : v < 65536 := by
  obtain ⟨hi, -, h⟩ := except_bind_eq_ok.mp h
  obtain ⟨lo, -, h⟩ := except_bind_eq_ok.mp h
  obtain rfl : hi.toNat * 256 + lo.toNat = v := Except.ok.inj h
  omega

theorem parseComps_ok {s : State} {n p : Nat} {cs : List CompHdr} (h : parseComps s n p = .ok cs) :
    cs.length = n ∧ ∀ c ∈ cs, compOk c := by
  induction n generalizing p cs with
  | zero =>
    obtain rfl : [] = cs := Except.ok.inj h
    exact ⟨rfl, nofun⟩
  | succ n ih =>
    simp only [parseComps, except_bind_eq_ok, ite_throw_eq_ok] at h
    obtain ⟨ci, -, b, -, tq, -, hc, rest, hrest, h⟩ := h
    obtain rfl := Except.ok.inj h
    obtain ⟨hlen, hall⟩ := ih hrest
    refine ⟨by rw [List.length_cons, hlen], List.forall_mem_cons.mpr ⟨?_, hall⟩⟩
    have h1 := (hi4 b).isLt
    have h2 := (lo4 b).isLt
    exact ⟨by show 1 ≤ (hi4 b).toNat; omega, by show (hi4 b).toNat ≤ 15; omega, by show 1 ≤ (lo4 b).toNat; omega,
      by show (lo4 b).toNat ≤ 15; omega, by show tq.toNat ≤ 3; omega⟩

/-- What the frame header's checks leave (R170). -/
structure HeaderOk (m : Mode) (f : FrameHdr) : Prop where
  one_le : 1 ≤ f.comps.length
  le_four : f.comps.length ≤ 4
  comps : ∀ c ∈ f.comps, compOk c
  x_pos : 1 ≤ f.x
  x_lt : f.x < 65536
  y_pos : 1 ≤ f.y
  y_lt : f.y < 65536
  precision : precisionLegal m f.p = true
  single : m = .sof3 → f.comps.length = 1

theorem headerOk_of_parseFrame {s : State} {m : Mode} {f : FrameHdr} (h : parseFrame s m = .ok f) : HeaderOk m f := by
  simp only [parseFrame, except_bind_eq_ok, ite_throw_eq_ok] at h
  obtain ⟨len, -, prec, -, y, hy, x, hx, nf, -, hnf, comps, hcomps, -, hp, hone, hp3, hx0, hy0, h⟩ := h
  obtain rfl := Except.ok.inj h
  obtain ⟨hlen, hall⟩ := parseComps_ok hcomps
  refine ⟨by dsimp only; omega, by dsimp only; omega, hall, Nat.pos_of_ne_zero hx0, be16_lt hx, Nat.pos_of_ne_zero hy0,
    be16_lt hy, ?_, fun hm => ?_⟩
  · unfold precisionLegal
    by_cases hm : m = .sof3
    · rw [if_pos hm, Bool.and_eq_true, decide_eq_true_eq, decide_eq_true_eq]
      have hp3 := not_and.mp hp3 hm
      exact ⟨by show 2 ≤ prec.toNat; omega, by show prec.toNat ≤ 16; omega⟩
    · rw [if_neg hm, beq_iff_eq]
      exact BitVec.eq_of_toNat_eq (by simpa using fun h => hp ⟨hm, h⟩)
  · show comps.length = 1
    rw [hlen]
    by_contra hne
    exact hone ⟨hm, hne⟩

/-! ### The header that the frame registers hold -/

section
variable {m : Mode} {f : FrameHdr} (g : Geom)

theorem frameOf_ncomp (hle : f.comps.length ≤ 4) : (frameOf m f g).ncomp.toNat = f.comps.length := by
  show (BitVec.ofNat 3 f.comps.length).toNat = _
  rw [BitVec.toNat_ofNat]
  omega

theorem frameOf_comp {c : Nat} (hle : f.comps.length ≤ 4) (hc : c < f.comps.length) :
    (frameOf m f g).comp.get c =
      { id := f.comps[c].id, h := BitVec.ofNat 4 f.comps[c].h, v := BitVec.ofNat 4 f.comps[c].v
        tq := BitVec.ofNat 2 f.comps[c].tq, uph := BitVec.ofNat 4 (g.hmax / f.comps[c].h)
        upv := BitVec.ofNat 4 (g.vmax / f.comps[c].v) } := by
  show (Quad.ofFn (compOf g f.comps)).get c = _
  rw [Quad.get_ofFn _ (by omega), compOf, List.getElem?_eq_getElem hc]

theorem frameOf_header (hle : f.comps.length ≤ 4) (hall : ∀ c ∈ f.comps, compOk c) (hx : f.x < 65536)
    (hy : f.y < 65536) : (frameOf m f g).header = { f with pos := 0 } := by
  have hcomps : (frameOf m f g).header.comps = f.comps := by
    show (List.range (frameOf m f g).ncomp.toNat).map _ = _
    rw [frameOf_ncomp g hle]
    refine List.ext_getElem (by simp) fun c h1 h2 => ?_
    obtain ⟨h3, h4, h5, h6, h7⟩ := hall _ (List.getElem_mem h2)
    rw [List.getElem_map, List.getElem_range, frameOf_comp g hle h2]
    dsimp only
    rw [BitVec.toNat_ofNat, BitVec.toNat_ofNat, BitVec.toNat_ofNat, Nat.mod_eq_of_lt (by omega),
      Nat.mod_eq_of_lt (by omega), Nat.mod_eq_of_lt (by omega)]
  have hX : (frameOf m f g).header.x = f.x := by
    show (BitVec.ofNat 16 f.x).toNat = _
    rw [BitVec.toNat_ofNat, Nat.mod_eq_of_lt hx]
  have hY : (frameOf m f g).header.y = f.y := by
    show (BitVec.ofNat 16 f.y).toNat = _
    rw [BitVec.toNat_ofNat, Nat.mod_eq_of_lt hy]
  have hP : (frameOf m f g).header.p = f.p := rfl
  have hpos : (frameOf m f g).header.pos = 0 := rfl
  generalize (frameOf m f g).header = d at hcomps hX hY hP hpos
  cases d
  simp_all

end

/-- The registers SETFRM commits are legal. -/
theorem legal_frameOf {m : Mode} {f : FrameHdr} (hm : m ≠ .none) (h : HeaderOk m f) :
    (frameOf m f (geometry m f)).legal = true := by
  have hn := frameOf_ncomp (m := m) (geometry m f) h.le_four
  have hderived : (frameOf m f (geometry m f)).derived = frameOf m f (geometry m f) := by
    unfold Frame.derived
    rw [frameOf_header _ h.le_four h.comps h.x_lt h.y_lt]
    rfl
  have hX : (frameOf m f (geometry m f)).x.toNat = f.x := by
    show (BitVec.ofNat 16 f.x).toNat = _
    rw [BitVec.toNat_ofNat, Nat.mod_eq_of_lt h.x_lt]
  have hY : (frameOf m f (geometry m f)).y.toNat = f.y := by
    show (BitVec.ofNat 16 f.y).toNat = _
    rw [BitVec.toNat_ofNat, Nat.mod_eq_of_lt h.y_lt]
  have hsingle : (m != .sof3 || (frameOf m f (geometry m f)).ncomp == 1) = true := by
    by_cases hm3 : m = .sof3
    · rw [Bool.or_eq_true, beq_iff_eq]
      exact .inr (BitVec.eq_of_toNat_eq (hn.trans (h.single hm3)))
    · simp [hm3]
  have hcomps : ((List.range f.comps.length).all fun c =>
      decide (1 ≤ ((frameOf m f (geometry m f)).comp.get c).h.toNat)
        && decide (1 ≤ ((frameOf m f (geometry m f)).comp.get c).v.toNat)) = true := by
    rw [List.all_eq_true]
    intro c hc
    have hc := List.mem_range.mp hc
    obtain ⟨h3, h4, h5, h6, -⟩ := h.comps _ (List.getElem_mem hc)
    rw [frameOf_comp _ h.le_four hc, Bool.and_eq_true, decide_eq_true_eq, decide_eq_true_eq]
    dsimp only
    rw [BitVec.toNat_ofNat, BitVec.toNat_ofNat]
    omega
  have hone := h.one_le
  have hfour := h.le_four
  have hxpos := h.x_pos
  have hypos := h.y_pos
  unfold Frame.legal
  rw [if_pos (show (frameOf m f (geometry m f)).hdrValid = true from rfl), hn, hX, hY, hcomps, hderived]
  show (_ && (m != .none) && (m != .sof3 || _) && precisionLegal m f.p && _ && _) = true
  rw [hsingle, h.precision]
  simp [hone, hfour, hxpos, hypos, hm]

/-- COEF_NEED is free. -/
theorem legal_coefNeed (f : Frame) (n : Word) : Frame.legal { f with coefNeed := n } = f.legal := by
  have hderived : Frame.derived { f with coefNeed := n } = { f.derived with coefNeed := n } := rfl
  have heq : (({ f with coefNeed := n } : Frame) == { f.derived with coefNeed := n }) = (f == f.derived) := by
    have h1 : f.derived.coefNeed = f.coefNeed := rfl
    rw [Bool.eq_iff_iff, beq_iff_eq, beq_iff_eq]
    refine ⟨fun h => ?_, fun h => by rw [← h]⟩
    have h2 : ({ f with coefNeed := f.coefNeed } : Frame) = { f.derived with coefNeed := f.derived.coefNeed } := by
      rw [h1]
      exact congrArg (fun x : Frame => { x with coefNeed := f.coefNeed }) h
    exact h2
  unfold Frame.legal
  rw [hderived, heq]

/-! ### What the scan header's parse accepts -/

theorem findComp_lt {f : Frame} {id : Byte} {c : Nat} (h : f.findComp id = some c) : c < f.ncomp.toNat :=
  List.mem_range.mp (List.mem_of_find?_eq_some h)

theorem parseScanComps_ok {s : State} {n p : Nat} {seen : List Nat} {cs : List ScanComp}
    (h : parseScanComps s n p seen = .ok cs) :
    cs.length = n ∧ (cs.map ScanComp.c).Nodup ∧ (∀ c ∈ cs, c.c ∉ seen) ∧
      ∀ c ∈ cs, c.c < s.dec.frm.ncomp.toNat ∧ c.td ≤ 3 ∧ c.ta ≤ 3 := by
  induction n generalizing p seen cs with
  | zero =>
    obtain rfl : [] = cs := Except.ok.inj h
    exact ⟨rfl, List.nodup_nil, nofun, nofun⟩
  | succ n ih =>
    simp only [parseScanComps, except_bind_eq_ok] at h
    obtain ⟨id, -, b, -, h⟩ := h
    cases hfind : s.dec.frm.findComp id with
    | none =>
      rw [hfind] at h
      cases h
    | some c =>
      simp only [hfind, except_bind_eq_ok, ite_throw_eq_ok] at h
      obtain ⟨hseen, hids, rest, hrest, h⟩ := h
      obtain rfl := Except.ok.inj h
      obtain ⟨hlen, hnodup, hnew, hall⟩ := ih hrest
      refine ⟨by rw [List.length_cons, hlen], ?_, ?_, ?_⟩
      · rw [List.map_cons, List.nodup_cons, List.mem_map]
        exact ⟨fun ⟨d, hd, he⟩ => hnew d hd (he ▸ List.mem_cons_self), hnodup⟩
      · exact List.forall_mem_cons.mpr
          ⟨by simpa using hseen, fun d hd he => hnew d hd (List.mem_cons_of_mem _ he)⟩
      · exact List.forall_mem_cons.mpr
          ⟨⟨findComp_lt hfind, by show (hi4 b).toNat ≤ 3; omega, by show (lo4 b).toNat ≤ 3; omega⟩, hall⟩

/-- What the scan header's checks leave (R180). -/
structure ScanHdrOk (s : State) (h : ScanHdr) : Prop where
  frame : s.dec.frm.hdrValid = true
  one_le : 1 ≤ h.comps.length
  le_four : h.comps.length ≤ 4
  nodup : (h.comps.map ScanComp.c).Nodup
  comps : ∀ c ∈ h.comps, c.c < s.dec.frm.ncomp.toNat ∧ c.td ≤ 3 ∧ c.ta ≤ 3
  seq : s.dec.frm.mode.isSeq = true → h.comps.length = s.dec.frm.ncomp.toNat ∨ h.comps.length = 1
  kind : scanKind s.dec.frm h.comps.length h.ss h.se h.ah h.al = some h.kind

theorem scanHdrOk_of_parseScan {s : State} {h : ScanHdr} (hp : parseScan s = .ok h) : ScanHdrOk s h := by
  simp only [parseScan, except_bind_eq_ok, ite_throw_eq_ok] at hp
  obtain ⟨hv, len, -, nsb, -, hns, hseq, comps, hcomps, ss, -, se, -, b, -, -, hp⟩ := hp
  obtain ⟨hlen, hnodup, -, hall⟩ := parseScanComps_ok hcomps
  cases hk : scanKind s.dec.frm nsb.toNat ss se (hi4 b) (lo4 b) with
  | none =>
    rw [hk] at hp
    cases hp
  | some k =>
    simp only [hk, ite_throw_eq_ok] at hp
    obtain ⟨-, -, hp⟩ := hp
    obtain rfl := Except.ok.inj hp
    refine ⟨by simpa using hv, by dsimp only; omega, by dsimp only; omega, hnodup, hall, fun hs => ?_, ?_⟩
    · show comps.length = _ ∨ comps.length = 1
      rw [hlen]
      by_contra hne
      rw [not_or] at hne
      exact hseq ⟨hs, hne⟩
    · show scanKind s.dec.frm comps.length ss se (hi4 b) (lo4 b) = some k
      rw [hlen, hk]

/-! ### The extent of a scan -/

theorem ceilDiv_le {a b n : Nat} (hb : 0 < b) (h : a ≤ n * b) : ceilDiv a b ≤ n := by
  rw [ceilDiv, ← Nat.lt_succ_iff, Nat.div_lt_iff_lt_mul hb, Nat.succ_mul]
  omega

theorem le_maxOf {l : List Nat} {a : Nat} (h : a ∈ l) : a ≤ maxOf l := by
  unfold maxOf
  rw [List.foldl_eq_foldr]
  induction l with
  | nil => exact absurd h List.not_mem_nil
  | cons b l ih =>
    rw [List.foldr_cons]
    rcases List.mem_cons.mp h with rfl | h
    · exact Nat.le_max_left ..
    · exact (ih h).trans (Nat.le_max_right ..)

/-- No component is larger than the image. -/
theorem geoList_le {lossless : Bool} {x y hmax vmax mcux mcuy coff : Nat} {cs : List CompHdr}
    (h : ∀ c ∈ cs, c.h ≤ hmax ∧ c.v ≤ vmax) (hh : 0 < hmax) (hv : 0 < vmax) :
    ∀ g ∈ (geoList lossless x y hmax vmax mcux mcuy cs coff).1, g.cw ≤ x ∧ g.ch ≤ y := by
  induction cs generalizing coff with
  | nil => nofun
  | cons c cs ih =>
    obtain ⟨⟨hch, hcv⟩, hcs⟩ := List.forall_mem_cons.mp h
    exact List.forall_mem_cons.mpr
      ⟨⟨ceilDiv_le hh (Nat.mul_le_mul_left x hch), ceilDiv_le hv (Nat.mul_le_mul_left y hcv)⟩, ih hcs⟩

/-- A committed frame's registers. -/
structure FrameOk (f : Frame) : Prop where
  one_le : 1 ≤ f.ncomp.toNat
  le_four : f.ncomp.toNat ≤ 4
  x_pos : 1 ≤ f.x.toNat
  y_pos : 1 ≤ f.y.toNat
  mode : f.mode ≠ .none
  single : f.mode = .sof3 → f.ncomp = 1
  precision : precisionLegal f.mode f.p = true
  comps : ∀ c, c < f.ncomp.toNat → 1 ≤ (f.comp.get c).h.toNat ∧ 1 ≤ (f.comp.get c).v.toNat
  derived : f = f.derived

theorem frameOk_of_legal {f : Frame} (hv : f.hdrValid = true) (h : f.legal = true) : FrameOk f := by
  unfold Frame.legal at h
  rw [if_pos hv] at h
  simp only [Bool.and_eq_true, decide_eq_true_eq, Bool.or_eq_true, bne_iff_ne, beq_iff_eq, List.all_eq_true,
    List.mem_range] at h
  obtain ⟨⟨⟨⟨⟨⟨⟨⟨h1, h2⟩, h3⟩, h4⟩, h5⟩, h6⟩, h7⟩, h8⟩, h9⟩ := h
  exact ⟨h1, h2, h3, h4, h5, fun hm => h6.resolve_left (absurd hm), h7, h8, h9⟩

/-- No component of a committed frame is larger than the image. -/
theorem FrameOk.geo_le {f : Frame} (h : FrameOk f) {c : Nat} (hc : c < 4) :
    (f.geo.get c).cw < 65536 ∧ (f.geo.get c).ch < 65536 := by
  have hx := f.x.isLt
  have hy := f.y.isLt
  have hmem : ∀ d ∈ f.header.comps,
      d.h ≤ maxOf (f.header.comps.map CompHdr.h) ∧ d.v ≤ maxOf (f.header.comps.map CompHdr.v) :=
    fun d hd => ⟨le_maxOf (List.mem_map_of_mem hd), le_maxOf (List.mem_map_of_mem hd)⟩
  have hfirst : ∃ d ∈ f.header.comps, 1 ≤ d.h ∧ 1 ≤ d.v :=
    ⟨_, List.mem_map_of_mem (List.mem_range.mpr h.one_le), h.comps 0 h.one_le⟩
  obtain ⟨d, hd, hdh, hdv⟩ := hfirst
  have hle := geoList_le (lossless := f.mode == .sof3) (x := f.header.x) (y := f.header.y)
    (mcux := (geometry f.mode f.header).mcux) (mcuy := (geometry f.mode f.header).mcuy) (coff := 0) hmem
    (hdh.trans (hmem d hd).1) (hdv.trans (hmem d hd).2)
  have hgeo : f.geo.get c = (geometry f.mode f.header).geos.getD c Geo.reset := by
    refine Eq.trans (congrArg (fun f => f.geo.get c) h.derived) ?_
    exact Quad.get_ofFn _ hc
  rw [hgeo, List.getD_eq_getElem?_getD]
  by_cases hcl : c < (geometry f.mode f.header).geos.length
  · rw [List.getElem?_eq_getElem hcl]
    obtain ⟨h1, h2⟩ := hle _ (List.getElem_mem hcl)
    exact ⟨h1.trans_lt hx, h2.trans_lt hy⟩
  · rw [List.getElem?_eq_none (by omega)]
    exact ⟨Nat.zero_lt_succ _, Nat.zero_lt_succ _⟩

theorem scanSize_lt {f : Frame} (hf : FrameOk f) {h : ScanHdr} (hc : ∀ c ∈ h.comps, c.c < f.ncomp.toNat) :
    (scanSize f h).1 < 65536 ∧ (scanSize f h).2 < 65536 := by
  have hx := f.x.isLt
  have hy := f.y.isLt
  have hmx := f.mcux.isLt
  have hmy := f.mcuy.isLt
  unfold scanSize
  split
  · exact ⟨hy, hx⟩
  · rename_i c hcs _
    obtain ⟨h1, h2⟩ := hf.geo_le ((hc c (hcs ▸ List.mem_singleton_self c)).trans_le hf.le_four)
    exact ⟨(ceilDiv_le (by omega) (by omega)).trans_lt h2, (ceilDiv_le (by omega) (by omega)).trans_lt h1⟩
  · exact ⟨hmy, hmx⟩

theorem resolveCs_mem (m : Meta) (n : Nat) : resolveCs m n ∈ spacesOf n := by
  unfold resolveCs spacesOf
  dsimp only
  split_ifs <;> simp_all

/-! ### The registers SETSCN commits -/

section
variable {s : State} {h : ScanHdr}

theorem scanOf_ns (h4 : h.comps.length ≤ 4) : (scanOf s h).ns.toNat = h.comps.length := by
  show (BitVec.ofNat 3 h.comps.length).toNat = _
  rw [BitVec.toNat_ofNat]
  omega

/-- A register of four fields of two bits reads back the values it was built from. -/
theorem toNat_quad_ofFn {l : List Nat} (hl : ∀ a ∈ l, a < 4) {j : Nat} (hj : j < 4) :
    ((Quad.ofFn fun j => BitVec.ofNat 2 (l.getD j 0)).get j).toNat = l.getD j 0 := by
  rw [Quad.get_ofFn _ hj, BitVec.toNat_ofNat]
  refine Nat.mod_eq_of_lt ?_
  rw [List.getD_eq_getElem?_getD]
  by_cases hjl : j < l.length
  · rw [List.getElem?_eq_getElem hjl]
    exact hl _ (List.getElem_mem hjl)
  · rw [List.getElem?_eq_none (by omega)]
    exact Nat.zero_lt_succ 3

theorem scanOf_header (h4 : h.comps.length ≤ 4) (hc : ∀ c ∈ h.comps, c.c < 4 ∧ c.td ≤ 3 ∧ c.ta ≤ 3) :
    (scanOf s h).header = { h with pos := 0 } := by
  have hcomps : (scanOf s h).header.comps = h.comps := by
    show (List.range (scanOf s h).ns.toNat).map _ = _
    rw [scanOf_ns h4]
    refine List.ext_getElem (by simp) fun j h1 h2 => ?_
    have hlt : ∀ {F : ScanComp → Nat}, (∀ c ∈ h.comps, F c < 4) →
        ((Quad.ofFn fun j => BitVec.ofNat 2 ((h.comps.map F).getD j 0)).get j).toNat = F h.comps[j] := fun {F} hF => by
      rw [toNat_quad_ofFn (List.forall_mem_map.mpr hF) (by omega), List.getD_eq_getElem?_getD, List.getElem?_map,
        List.getElem?_eq_getElem h2]
      rfl
    rw [List.getElem_map, List.getElem_range]
    dsimp only [scanOf]
    rw [hlt fun c hcs => (hc c hcs).1, hlt fun c hcs => Nat.lt_succ_of_le (hc c hcs).2.1,
      hlt fun c hcs => Nat.lt_succ_of_le (hc c hcs).2.2]
  unfold Scan.header at hcomps ⊢
  dsimp only at hcomps
  rw [hcomps]
  rfl

theorem scanOf_comps (h4 : h.comps.length ≤ 4) (hc : ∀ c ∈ h.comps, c.c < 4) :
    (scanOf s h).comps = h.comps.map ScanComp.c := by
  unfold Scan.comps
  rw [scanOf_ns h4]
  refine List.ext_getElem (by simp) fun j h1 h2 => ?_
  rw [List.length_map] at h2
  rw [List.getElem_map, List.getElem_map, List.getElem_range]
  dsimp only [scanOf]
  rw [toNat_quad_ofFn (List.forall_mem_map.mpr hc) (by omega), List.getD_eq_getElem?_getD, List.getElem?_map,
    List.getElem?_eq_getElem h2]
  rfl

/-- The fields past the last component are 0. -/
theorem quad_ofFn_past {l : List Nat} {j : Nat} (hj : j < 4) (hl : l.length ≤ j) :
    (Quad.ofFn fun j => BitVec.ofNat 2 (l.getD j 0)).get j = 0 := by
  rw [Quad.get_ofFn _ hj, List.getD_eq_getElem?_getD, List.getElem?_eq_none hl]
  rfl

end

/-- The scan registers SETSCN commits are legal for the frame. -/
theorem legal_scanOf {s : State} {h : ScanHdr} (hf : FrameOk s.dec.frm) (hh : ScanHdrOk s h) :
    (scanOf s h).legal s.dec.frm = true := by
  have hlt4 : ∀ c ∈ h.comps, c.c < 4 := fun c hc => (hh.comps c hc).1.trans_le hf.le_four
  have hns := scanOf_ns (s := s) hh.le_four
  obtain ⟨hrows, hcols⟩ := scanSize_lt hf (h := h) fun c hc => (hh.comps c hc).1
  have hsize : scanSize s.dec.frm { h with pos := 0 } = scanSize s.dec.frm h := rfl
  have hle : h.comps.length ≤ s.dec.frm.ncomp.toNat := by
    have hsub := hh.nodup.subperm (l₂ := List.range s.dec.frm.ncomp.toNat) fun c hc => by
      obtain ⟨d, hd, rfl⟩ := List.mem_map.mp hc
      exact List.mem_range.mpr (hh.comps d hd).1
    simpa using hsub.length_le
  have hpast : ∀ j ∈ List.range 4, (decide (j < (scanOf s h).ns.toNat) ||
      ((scanOf s h).cidx.get j == 0 && (scanOf s h).td.get j == 0 && (scanOf s h).ta.get j == 0)) = true := by
    intro j hj
    have hj := List.mem_range.mp hj
    rw [hns]
    by_cases hjl : j < h.comps.length
    · simp [hjl]
    · have hp : ∀ F : ScanComp → Nat, (Quad.ofFn fun j => BitVec.ofNat 2 ((h.comps.map F).getD j 0)).get j = 0 :=
        fun F => quad_ofFn_past hj (by rw [List.length_map]; omega)
      dsimp only [scanOf]
      rw [hp, hp, hp]
      simp
  have hseq : (!s.dec.frm.mode.isSeq || (scanOf s h).ns == s.dec.frm.ncomp || (scanOf s h).ns == 1) = true := by
    cases hs : s.dec.frm.mode.isSeq with
    | false => simp
    | true =>
      rcases hh.seq hs with he | he
      · simp [BitVec.eq_of_toNat_eq (hns.trans he)]
      · simp [BitVec.eq_of_toNat_eq (y := 1#3) (hns.trans he)]
  have hkind : (scanKind s.dec.frm (scanOf s h).ns.toNat (scanOf s h).ss (scanOf s h).se (scanOf s h).ah (scanOf s h).al
      == some (scanOf s h).smode) = true := by
    rw [hns, beq_iff_eq]
    exact hh.kind
  have hsr : ((scanOf s h).srows.toNat == (scanSize s.dec.frm (scanOf s h).header).1) = true := by
    rw [scanOf_header hh.le_four fun c hc => ⟨hlt4 c hc, (hh.comps c hc).2⟩, hsize, beq_iff_eq]
    exact (BitVec.toNat_ofNat ..).trans (Nat.mod_eq_of_lt hrows)
  have hsc : ((scanOf s h).scols.toNat == (scanSize s.dec.frm (scanOf s h).header).2) = true := by
    rw [scanOf_header hh.le_four fun c hc => ⟨hlt4 c hc, (hh.comps c hc).2⟩, hsize, beq_iff_eq]
    exact (BitVec.toNat_ofNat ..).trans (Nat.mod_eq_of_lt hcols)
  have hcs : (spacesOf s.dec.frm.ncomp.toNat).contains (scanOf s h).cs = true :=
    List.contains_iff_mem.mpr (resolveCs_mem ..)
  unfold Scan.legal
  rw [hseq, hkind, hsr, hsc, hcs, List.all_eq_true.mpr hpast, hns, scanOf_comps hh.le_four hlt4]
  simpa [hh.one_le, hle, hh.nodup] using fun c hc => (hh.comps c hc).1

/-! ### The invariant -/

/-- The scan registers are those of a committed scan of the frame, or clear. -/
def scanClearOrLegal (d : Dec) : Prop :=
  (d.scn.csValid = true → d.frm.hdrValid = true ∧ d.scn.legal d.frm = true) ∧
  (d.scn.csValid = false → d.scn = Scan.reset)

/-- The frame and scan registers are legal together, by parts. -/
structure HeadersOk (d : Dec) : Prop where
  frame : d.frm.legal = true
  scan : scanClearOrLegal d
  srow : d.ent.srow.toNat ≤ d.scn.srows.toNat
  acmask : ∀ c, c < 4 → (d.prog.acmask.get c).getLsbD 0 = false

theorem headersLegal_iff (s : State) : s.headersLegal = true ↔ HeadersOk s.dec := by
  unfold State.headersLegal Dec.scanLegal
  rw [Bool.and_eq_true, Bool.and_eq_true, Bool.and_eq_true, decide_eq_true_eq, List.all_eq_true]
  have hscan : (if s.dec.scn.csValid then s.dec.frm.hdrValid && s.dec.scn.legal s.dec.frm else s.dec.scn == Scan.reset) = true
      ↔ scanClearOrLegal s.dec := by
    unfold scanClearOrLegal
    cases s.dec.scn.csValid <;> simp
  rw [hscan]
  refine ⟨fun ⟨h1, ⟨h2, h3⟩, h4⟩ => ⟨h1, h2, h3, fun c hc => ?_⟩,
    fun h => ⟨h.frame, ⟨h.scan, h.srow⟩, fun c hc => ?_⟩⟩
  · simpa using h4 c (List.mem_range.mpr hc)
  · simpa using h.acmask c (List.mem_range.mp hc)

theorem headersOk_reset : HeadersOk Dec.reset := (headersLegal_iff State.reset).mp (by decide +kernel)

/-- A first pass of AC coefficients does not start at the DC coefficient (R184). -/
theorem scanKind_acFirst {f : Frame} {ns : Nat} {ss se : Byte} {ah al : BitVec 4}
    (h : scanKind f ns ss se ah al = some .acFirst) : ss.toNat ≠ 0 := by
  intro h0
  cases hm : f.mode <;> simp only [scanKind, hm, reduceCtorEq, Option.some.injEq] at h
  · rw [if_pos h0] at h
    split_ifs at h <;> cases h
  · split at h <;> cases h

/-- Completing a scan of the frame sets no flag of the DC coefficient. -/
theorem complete_acmask_zero {f : Frame} {s : Scan} {p : Progress} (hs : s.legal f = true) {c : Nat} (hc : c < 4)
    (hp : (p.acmask.get c).getLsbD 0 = false) : ((p.complete s).acmask.get c).getLsbD 0 = false := by
  unfold Scan.legal at hs
  simp only [Bool.and_eq_true, beq_iff_eq] at hs
  obtain ⟨⟨⟨⟨-, hkind⟩, -⟩, -⟩, -⟩ := hs
  rw [Bool.eq_false_iff, ne_eq, complete_acmask hc (by omega)]
  rintro (h | ⟨hac, -, hss, -⟩)
  · rw [hp] at h
    cases h
  · exact scanKind_acFirst (hac ▸ hkind) (by omega)

/-- The parts of the decoder state that the invariant reads. -/
theorem HeadersOk.congr {d d' : Dec} (h : HeadersOk d) (hf : d'.frm = d.frm) (hs : d'.scn = d.scn)
    (hp : d'.prog = d.prog) (hr : d'.ent.srow = d.ent.srow) : HeadersOk d' :=
  ⟨hf ▸ h.frame, by unfold scanClearOrLegal; rw [hf, hs]; exact h.scan, by rw [hr, hs]; exact h.srow,
    by rw [hp]; exact h.acmask⟩

theorem headersOk_noteNeed {s : State} (n : Nat) (h : HeadersOk s.dec) : HeadersOk (noteNeed n s).dec :=
  ⟨(legal_coefNeed _ _).trans h.frame, h.scan, h.srow, h.acmask⟩

theorem headersOk_commitFrame {s : State} {m : Mode} {f : FrameHdr} (hm : m ≠ .none) (hf : HeaderOk m f) :
    HeadersOk (commitFrame m f (geometry m f) s).dec where
  frame := legal_frameOf hm hf
  scan := ⟨nofun, fun _ => rfl⟩
  srow := le_refl 0
  acmask := headersOk_reset.acmask

theorem headersOk_commitScan {s : State} {h : ScanHdr} (hs : HeadersOk s.dec) (hh : ScanHdrOk s h) :
    HeadersOk (commitScan h s).dec where
  frame := hs.frame
  scan := ⟨fun _ => ⟨hh.frame, legal_scanOf (s := s) (frameOk_of_legal hh.frame hs.frame) hh⟩, nofun⟩
  srow := Nat.zero_le _
  acmask := hs.acmask

/-- DECROW counts no row past the scan's last. -/
theorem srow_le_decrowRun {s : State} (h : Beside) (n : Nat) (hs : s.dec.ent.srow.toNat ≤ s.dec.scn.srows.toNat) :
    (stateAfter (decrowRun h n s)).ent.srow.toNat ≤ s.dec.scn.srows.toNat := by
  have hle : (stateAfter (decrowRun h n s)).ent.srow.toNat ≤ s.dec.ent.srow.toNat + rowsOf s n :=
    (rowEffects_decrowRun (W := fun _ => True) h fun _ _ _ _ => trivial).srow_le
  unfold rowsOf at hle
  split at hle <;> omega

theorem headersOk_rows {s : State} {w : DecW} (hs : HeadersOk s.dec) (hw : w.ent.srow.toNat ≤ s.dec.scn.srows.toNat) :
    HeadersOk (s.withDec w).dec := ⟨hs.frame, hs.scan, hw, hs.acmask⟩

theorem headersOk_scanComplete {s : State} (hact : s.dec.scn.active = true) (hs : HeadersOk s.dec) :
    HeadersOk (scanComplete s).dec := by
  have hv : s.dec.scn.csValid = true := by
    by_contra hv
    rw [hs.scan.2 (by simpa using hv)] at hact
    cases hact
  obtain ⟨hframe, hlegal⟩ := hs.scan.1 hv
  unfold scanComplete
  split
  · exact ⟨hs.frame, ⟨fun _ => ⟨hframe, hlegal⟩, fun h => absurd hv (by simp [show s.dec.scn.csValid = false from h])⟩,
      hs.srow, fun c hc => complete_acmask_zero hlegal hc (hs.acmask c hc)⟩
  · exact hs

theorem modeOf_ne_none (k : SofKind) : modeOf k ≠ .none := by cases k <;> decide

theorem headersOk_kept : DecKept HeadersOk where
  command {h i s d} hs hd := by
    cases hd with
    | reset => exact headersOk_reset
    | setfrm k f hf => exact headersOk_commitFrame (modeOf_ne_none k) (headerOk_of_parseFrame hf)
    | need k n => exact headersOk_noteNeed n hs
    | setscn hdr hp => exact headersOk_commitScan hs (scanHdrOk_of_parseScan hp)
    | decrowDone n w hact hw =>
      have hrow := srow_le_decrowRun h n hs.srow
      rw [hw] at hrow
      exact headersOk_scanComplete (s := s.withDec w) hact (headersOk_rows hs hrow)
    | decrowRaised n r w _ hw =>
      have hrow := srow_le_decrowRun h n hs.srow
      rw [hw] at hrow
      exact headersOk_rows hs hrow
    | _ => exact hs.congr rfl rfl rfl rfl
  reset := headersOk_reset
  cursor _ hs := hs.congr rfl rfl rfl rfl
  info _ hs := hs.congr rfl rfl rfl rfl
  warn _ hs := hs.congr rfl rfl rfl rfl

/-- Settles O57: a header's registers derive from the header its parse accepts; DECROW counts no row past SROWS. -/
theorem stepKeepsHeadersLegal : Obligations.StepKeepsHeadersLegal := fun s t hs h =>
  (headersLegal_iff t).mpr (headersOk_kept.step ((headersLegal_iff s).mp hs) h)

/-- Settles O58: the registers of the reset state are clear. -/
theorem resetMeetsTheInvariants : Obligations.ResetMeetsTheInvariants := by
  unfold Obligations.ResetMeetsTheInvariants
  decide +kernel

end Sys2Proof.Cert
end

section
/-! What a command reads and stores of memory, with the values: the accesses it logs, the bytes it leaves as they were, and
the bytes it stores. Whether it completes is said apart (`Completes`). -/
namespace Sys2Proof.Cert
open Sys2Proof.Machine

/-! ### The access log, buffer by buffer -/

/-- A log holds an access of a byte through a buffer. -/
def logged (l : List Span) (b : Buf) (a : Word) : Prop := ∃ x ∈ l, x.buf = b ∧ x.lo ≤ a.toNat ∧ a.toNat ≤ x.hi

theorem logged_cons (x : Span) (l : List Span) (b : Buf) (a : Word) :
    logged (x :: l) b a ↔ (x.buf = b ∧ x.lo ≤ a.toNat ∧ a.toNat ≤ x.hi) ∨ logged l b a := by
  simp [logged]

/-- A log holds one access more after an access. -/
theorem logged_logAccess {b b' : Buf} {a a' : Word} {l : List Span} (h : logged (logAccess b a.toNat l) b' a') :
    logged l b' a' ∨ (b' = b ∧ a' = a) := by
  have haddr : a' = a ↔ a'.toNat = a.toNat := BitVec.toNat_inj.symm
  rw [haddr]
  induction l with
  | nil =>
    obtain ⟨x, hx, rfl, hlo, hhi⟩ := h
    obtain rfl := List.mem_singleton.mp hx
    exact .inr ⟨rfl, le_antisymm hhi hlo⟩
  | cons x l ih =>
    unfold logAccess at h
    split at h
    · rename_i hx
      rw [logged_cons] at h ⊢
      rcases h with ⟨hb, hlo, hhi⟩ | h
      · dsimp only at hb hlo hhi
        by_cases he : a'.toNat = a.toNat
        · exact .inr ⟨hb ▸ hx.1, he⟩
        · exact .inl (.inl ⟨hb, hlo, by omega⟩)
      · exact .inl (.inr h)
    · rw [logged_cons] at h ⊢
      rcases h with h | h
      · exact .inl (.inl h)
      · exact (ih h).imp_left .inr

theorem logged_logRun {b b' : Buf} {n : Nat} {a a' : Word} {l : List Span} (h : logged (logRun b n a l) b' a') :
    logged l b' a' ∨ (b' = b ∧ ∃ k, k < n ∧ a' = a + BitVec.ofNat 32 k) := by
  induction n generalizing a l with
  | zero => exact .inl h
  | succ n ih =>
    rcases ih h with h | ⟨hb, k, hk, rfl⟩
    · exact (logged_logAccess h).imp_right fun ⟨hb, he⟩ => ⟨hb, 0, by omega, by simpa using he⟩
    · exact .inr ⟨hb, k + 1, by omega, addr_succ a k⟩

/-- Where no byte is both written and read through different buffers, nothing overlaps. -/
theorem overlap_eq_nil {w : MemW} (hg : w.good)
    (h : ∀ b b' a, logged w.writes b a → logged w.reads b' a → b = b') : w.overlap = [] := by
  refine List.eq_nil_iff_forall_not_mem.mpr fun a ha => ?_
  obtain ⟨x, hx, y, hy, hne, hxl, hyl, hxh, hyh⟩ := mem_overlap.mp ha
  have ha32 : a < 2 ^ 32 := lt_of_le_of_lt hxh (hg.2.2 x hx)
  have hto : (BitVec.ofNat 32 a).toNat = a := by rw [BitVec.toNat_ofNat, Nat.mod_eq_of_lt ha32]
  exact hne (h _ _ (BitVec.ofNat 32 a) ⟨x, hx, rfl, by rw [hto]; exact hxl, by rw [hto]; exact hxh⟩
    ⟨y, hy, rfl, by rw [hto]; exact hyl, by rw [hto]; exact hyh⟩)

/-! ### Completing -/

/-- A computation completes from every state. -/
def Completes {ε σ α : Type} (m : EStateM ε σ α) : Prop := ∀ w, ∃ v w', m w = .ok v w'

section
variable {ε σ α β : Type}

theorem Completes.pure (a : α) : Completes (pure a : EStateM ε σ α) := fun w => ⟨a, w, rfl⟩

theorem Completes.bind {m : EStateM ε σ α} {f : α → EStateM ε σ β} (hm : Completes m) (hf : ∀ a, Completes (f a)) :
    Completes (m >>= f) := by
  intro w
  obtain ⟨v, w', hw'⟩ := hm w
  obtain ⟨u, w'', hw''⟩ := hf v w'
  exact ⟨u, w'', by rw [bind_run, hw']; exact hw''⟩

theorem Completes.cond {c : Prop} [Decidable c] {m n : EStateM ε σ α} (hm : c → Completes m) (hn : ¬c → Completes n) :
    Completes (if c then m else n) := by
  split
  · exact hm (by assumption)
  · exact hn (by assumption)

theorem Completes.forRange {f : Nat → EStateM ε σ Unit} (lo n : Nat) (hf : ∀ i, lo ≤ i → i < lo + n → Completes (f i)) :
    Completes (Sys2Proof.Machine.forRange lo n f) := by
  intro w
  obtain ⟨w', hw', -⟩ := forRange_ok (f := f) (fun _ _ => True) lo n
    (fun i s hlo hhi _ => by
      obtain ⟨v, s', h⟩ := hf i hlo hhi s
      exact ⟨s', h, trivial⟩) w trivial
  exact ⟨(), w', hw'⟩

end

section
variable {p : Params} {b : Buf} {a : Word}

theorem completes_readByte (h : p.memOk a.toNat = true) : Completes (readByte p b a) := by
  intro w
  rw [readByte, if_pos h]
  exact ⟨_, _, rfl⟩

theorem completes_writeByte (h : p.memOk a.toNat = true) (v : Byte) : Completes (writeByte p b a v) := by
  intro w
  rw [writeByte_run, if_pos h]
  exact ⟨_, _, rfl⟩

theorem completes_memRead {n : Nat} (h : ∀ k, k < n → okAt p a k) : Completes (memRead p b n a) := by
  induction n generalizing a with
  | zero => exact Completes.pure 0
  | succ n ih =>
    refine Completes.bind (completes_readByte (by simpa [okAt] using h 0 (by omega))) fun x => ?_
    refine Completes.bind (ih fun k hk => ?_) fun r => Completes.pure _
    simpa only [okAt, addr_succ] using h (k + 1) (by omega)

theorem completes_memWrite {n : Nat} (h : ∀ k, k < n → okAt p a k) (v : Int) : Completes (memWrite p b n a v) := by
  induction n generalizing a v with
  | zero => exact Completes.pure ()
  | succ n ih =>
    refine Completes.bind (completes_writeByte (by simpa [okAt] using h 0 (by omega)) _) fun x => ih (fun k hk => ?_) _
    simpa only [okAt, addr_succ] using h (k + 1) (by omega)

end

/-! ### What is stored -/

/-- Of the numbers below a bound that meet a condition, one is the last. -/
theorem exists_last {P : Nat → Prop} {n : Nat} (h : ∃ i, i < n ∧ P i) :
    ∃ i, (i < n ∧ P i) ∧ ∀ j, i < j → j < n → ¬P j := by
  induction n with
  | zero => exact absurd h (by simp)
  | succ n ih =>
    by_cases hn : P n
    · exact ⟨n, ⟨by omega, hn⟩, fun j h1 h2 => by omega⟩
    · obtain ⟨i, hi, hP⟩ := h
      have hin : i ≠ n := fun he => hn (he ▸ hP)
      obtain ⟨k, ⟨hk, hPk⟩, hmax⟩ := ih ⟨i, by omega, hP⟩
      refine ⟨k, ⟨by omega, hPk⟩, fun j h1 h2 hj => ?_⟩
      have hjn : j ≠ n := fun he => hn (he ▸ hj)
      exact hmax j h1 (by omega) hj


/-- What a command may access through each buffer, and the bytes it leaves as they are in a memory. -/
structure Access where
  writes : Buf → Word → Prop
  reads : Buf → Word → Prop
  kept : Word → Prop
  mem : Memory

/-- A command has kept to its accesses. -/
structure Access.Ok (x : Access) (w : MemW) : Prop where
  good : w.good
  host : w.host = .none
  writes : ∀ b a, logged w.writes b a → x.writes b a
  reads : ∀ b a, logged w.reads b a → x.reads b a
  kept : ∀ a, x.kept a → w.mem.read a.toNat = x.mem.read a.toNat

/-- A computation, where it completes, answers a value and changes nothing of memory. -/
def Access.Gives {α : Type} (x : Access) (m : MM α) (v : α) : Prop :=
  ∀ w v' w', x.Ok w → m w = .ok v' w' → v' = v ∧ x.Ok w' ∧ w'.mem = w.mem

/-- A computation, where it completes, stores the bytes of `A`, each with its value, and leaves every other byte. -/
def Access.Stores {α : Type} (x : Access) (m : MM α) (A : Word → Byte → Prop) : Prop :=
  ∀ w v' w', x.Ok w → m w = .ok v' w' → x.Ok w' ∧ (∀ a v, A a v → w'.mem.read a.toNat = v) ∧
    ∀ a, (∀ v, ¬A a v) → w'.mem.read a.toNat = w.mem.read a.toNat

section
variable {x : Access}

/-- A command starts with its own words read. -/
theorem Access.Ok.start {op : Op} {s : State} (hm : s.mem.wf = true)
    (hc : ∀ k, k < 4 * op.words → x.reads .cmd (s.proc.cqPtr + BitVec.ofNat 32 k)) (hx : x.mem = s.mem) :
    x.Ok (MemW.start op s) where
  good := good_start hm op
  host := rfl
  writes := fun _ _ h => by
    obtain ⟨y, hy, -⟩ := h
    exact absurd hy List.not_mem_nil
  reads := fun b a h => by
    rcases logged_logRun h with h | ⟨rfl, k, hk, rfl⟩
    · obtain ⟨y, hy, -⟩ := h
      exact absurd hy List.not_mem_nil
    · exact hc k hk
  kept := fun a _ => by
    rw [hx]
    rfl

/-- Where the accesses share no byte through different buffers, settling leaves memory as it is. -/
theorem Access.Ok.settle {w : MemW} (h : x.Ok w) (hd : ∀ b b' a, x.writes b a → x.reads b' a → b = b') (s : State) :
    s.settle w = { s with mem := w.mem } :=
  settle_of_no_overlap (overlap_eq_nil h.good fun b b' a hb hb' => hd b b' a (h.writes b a hb) (h.reads b' a hb')) s

theorem Access.Gives.pure {α : Type} (v : α) : x.Gives (pure v) v := fun w v' w' hw h => by
  cases h
  exact ⟨rfl, hw, rfl⟩

theorem Access.Gives.bind {α β : Type} {m : MM α} {f : α → MM β} {v : α} {u : β} (hm : x.Gives m v)
    (hf : x.Gives (f v) u) : x.Gives (m >>= f) u := fun w u' w' hw h => by
  obtain ⟨v1, w1, h1, h2⟩ := bind_eq_ok.mp h
  obtain ⟨rfl, hw1, hm1⟩ := hm _ _ _ hw h1
  obtain ⟨hu, hw2, hm2⟩ := hf _ _ _ hw1 h2
  exact ⟨hu, hw2, hm2.trans hm1⟩

theorem Access.gives_readByte {p : Params} {b : Buf} {a : Word} (hr : x.reads b a) (hk : x.kept a) :
    x.Gives (readByte p b a) (x.mem.read a.toNat) := fun w v w' hw h => by
  rw [readByte_none hw.host] at h
  split at h
  · cases h
    refine ⟨hw.kept a hk, ⟨⟨hw.good.1, spansBounded_logAccess hw.good.2.1 b a.isLt, hw.good.2.2⟩, hw.host, hw.writes,
      fun b' a' hl => ?_, hw.kept⟩, rfl⟩
    rcases logged_logAccess hl with hl | ⟨rfl, rfl⟩
    · exact hw.reads b' a' hl
    · exact hr
  · cases h

theorem Access.gives_memRead {p : Params} {b : Buf} {n : Nat} {a : Word}
    (hr : ∀ k, k < n → x.reads b (a + BitVec.ofNat 32 k)) (hk : ∀ k, k < n → x.kept (a + BitVec.ofNat 32 k)) :
    x.Gives (memRead p b n a) (leValue x.mem a n) := by
  induction n generalizing a with
  | zero => exact Access.Gives.pure 0
  | succ n ih =>
    rw [leValue_succ]
    refine Access.Gives.bind (Access.gives_readByte (by simpa using hr 0 (by omega)) (by simpa using hk 0 (by omega)))
      (Access.Gives.bind (ih (fun k hlt => ?_) fun k hlt => ?_) (Access.Gives.pure _))
    · simpa only [addr_succ] using hr (k + 1) (by omega)
    · simpa only [addr_succ] using hk (k + 1) (by omega)

theorem Access.Stores.congr {α : Type} {m : MM α} {A B : Word → Byte → Prop} (h : x.Stores m A)
    (hAB : ∀ a v, A a v ↔ B a v) : x.Stores m B := by
  rwa [show A = B from funext fun a => funext fun v => propext (hAB a v)] at h

theorem Access.Stores.pure {α : Type} (v : α) : x.Stores (pure v) fun _ _ => False := fun w v' w' hw h => by
  cases h
  exact ⟨hw, nofun, fun _ _ => rfl⟩

theorem Access.Stores.of_gives {α β : Type} {m : MM α} {f : α → MM β} {v : α} {A : Word → Byte → Prop} (hm : x.Gives m v)
    (hf : x.Stores (f v) A) : x.Stores (m >>= f) A := fun w u' w' hw h => by
  obtain ⟨v1, w1, h1, h2⟩ := bind_eq_ok.mp h
  obtain ⟨rfl, hw1, hm1⟩ := hm _ _ _ hw h1
  obtain ⟨hw2, hA, hrest⟩ := hf _ _ _ hw1 h2
  exact ⟨hw2, hA, fun a ha => (hrest a ha).trans (by rw [hm1])⟩

/-- Stores one after the other: a byte that both store to holds what the later one stored. -/
theorem Access.Stores.bind {α β : Type} {m : MM α} {f : α → MM β} {A B : Word → Byte → Prop} (hm : x.Stores m A)
    (hf : ∀ v, x.Stores (f v) B) : x.Stores (m >>= f) fun a v => B a v ∨ (A a v ∧ ∀ v', ¬B a v') :=
  fun w u' w' hw h => by
    obtain ⟨v1, w1, h1, h2⟩ := bind_eq_ok.mp h
    obtain ⟨hw1, hA, hrest⟩ := hm _ _ _ hw h1
    obtain ⟨hw2, hB, hrest'⟩ := hf v1 _ _ _ hw1 h2
    refine ⟨hw2, fun a v => ?_, fun a ha => ?_⟩
    · rintro (hav | ⟨hav, hB⟩)
      · exact hB a v hav
      · rw [hrest' a hB, hA a v hav]
    · have hnB : ∀ v, ¬B a v := fun v hv => ha v (.inl hv)
      rw [hrest' a hnB, hrest a fun v hv => ha v (.inr ⟨hv, hnB⟩)]

theorem Access.Stores.cond {α : Type} {c : Prop} [Decidable c] {m n : MM α} {A : Word → Byte → Prop}
    (hm : c → x.Stores m A) (hn : ¬c → x.Stores n A) : x.Stores (if c then m else n) A := by
  split
  · exact hm (by assumption)
  · exact hn (by assumption)

theorem Access.stores_writeByte {p : Params} {b : Buf} {a : Word} (v : Byte) (hw : x.writes b a) (hk : ¬x.kept a) :
    x.Stores (writeByte p b a v) fun a' v' => a' = a ∧ v' = v := fun w u w' hok h => by
  rw [writeByte_run] at h
  split at h
  · cases h
    refine ⟨⟨⟨Memory.wf_write hok.good.1 a.isLt v, hok.good.2.1, spansBounded_logAccess hok.good.2.2 b a.isLt⟩, hok.host,
      fun b' a' hl => ?_, hok.reads, fun a' ha' => ?_⟩, ?_, fun a' ha' => ?_⟩
    · rcases logged_logAccess hl with hl | ⟨rfl, rfl⟩
      · exact hok.writes b' a' hl
      · exact hw
    · rw [← hok.kept a' ha']
      exact Memory.read_write_other (fun he => hk ((BitVec.eq_of_toNat_eq he : a' = a) ▸ ha')) _ _
    · rintro a' v' ⟨rfl, rfl⟩
      show (w.mem.write a'.toNat v').read a'.toNat = v'
      rw [Memory.read_write hok.good.1, if_pos rfl]
    · exact Memory.read_write_other (fun he => ha' v ⟨BitVec.eq_of_toNat_eq he, rfl⟩) _ _
  · cases h

theorem Access.stores_memWrite {p : Params} {b : Buf} {n : Nat} {a : Word} (v : Int) (hn : n < 2 ^ 32)
    (hw : ∀ k, k < n → x.writes b (a + BitVec.ofNat 32 k)) (hk : ∀ k, k < n → ¬x.kept (a + BitVec.ofNat 32 k)) :
    x.Stores (memWrite p b n a v) fun a' v' =>
      ∃ k, k < n ∧ a' = a + BitVec.ofNat 32 k ∧ v' = BitVec.ofInt 8 (v / 256 ^ k) := by
  induction n generalizing a v with
  | zero => exact (Access.Stores.pure ()).congr fun _ _ => by simp
  | succ n ih =>
    refine (Access.Stores.bind (Access.stores_writeByte (BitVec.ofInt 8 v) (by simpa using hw 0 (by omega))
      (by simpa using hk 0 (by omega))) (fun _ => ih (a := a + 1) (v / 256) (by omega)
        (fun k hk => by simpa only [addr_succ] using hw (k + 1) (by omega))
        (fun k hlt => by simpa only [addr_succ] using hk (k + 1) (by omega)))).congr fun a' v' => ?_
    constructor
    · rintro (⟨k, hk', rfl, rfl⟩ | ⟨⟨rfl, rfl⟩, -⟩)
      · exact ⟨k + 1, by omega, addr_succ a k, by rw [Int.ediv_ediv_of_nonneg (by norm_num), ← pow_succ']⟩
      · exact ⟨0, by omega, by simp, by simp⟩
    · rintro ⟨k, hk', rfl, rfl⟩
      cases k with
      | zero =>
        refine .inr ⟨by simp, fun v' ⟨k, hk', he, _⟩ => ?_⟩
        rw [addr_succ] at he
        exact addr_ne a (j := 0) (k := k + 1) (by omega) (by omega) (by omega) he
      | succ k =>
        exact .inl ⟨k, by omega, (addr_succ a k).symm, by rw [Int.ediv_ediv_of_nonneg (by norm_num), ← pow_succ']⟩

/-- Rounds of stores: a byte holds what the last round that stores to it has stored. -/
theorem Access.Stores.forRange_last {f : Nat → MM Unit} {A : Nat → Word → Byte → Prop} (lo n : Nat)
    (hf : ∀ i, lo ≤ i → i < lo + n → x.Stores (f i) (A i)) :
    x.Stores (Sys2Proof.Machine.forRange lo n f) fun a v =>
      ∃ i, lo ≤ i ∧ i < lo + n ∧ A i a v ∧ ∀ j, i < j → j < lo + n → ∀ v', ¬A j a v' := by
  induction n generalizing lo with
  | zero => exact (Access.Stores.pure ()).congr fun _ _ => ⟨nofun, fun ⟨i, h1, h2, _⟩ => by omega⟩
  | succ n ih =>
    refine (Access.Stores.bind (hf lo le_rfl (by omega)) fun _ =>
      ih (lo + 1) fun i h1 h2 => hf i (by omega) (by omega)).congr fun a v => ?_
    constructor
    · rintro (⟨i, h1, h2, hA, hlast⟩ | ⟨hA, hB⟩)
      · exact ⟨i, by omega, by omega, hA, fun j h3 h4 => hlast j h3 (by omega)⟩
      · refine ⟨lo, le_rfl, by omega, hA, fun j h3 h4 v' hj => ?_⟩
        obtain ⟨k, hk, hmax⟩ := exists_last (P := fun j => ∃ v', A j a v') (n := lo + 1 + n) ⟨j, by omega, v', hj⟩
        obtain ⟨hklt, vk, hAk⟩ := hk
        have hjk : j ≤ k := by
          by_contra hlt
          exact hmax j (by omega) (by omega) ⟨v', hj⟩
        exact hB vk ⟨k, by omega, hklt, hAk, fun i h5 h6 v'' hi => hmax i h5 h6 ⟨v'', hi⟩⟩
    · rintro ⟨i, h1, h2, hA, hlast⟩
      rcases Nat.eq_or_lt_of_le h1 with rfl | h1
      · exact .inr ⟨hA, fun v' ⟨j, h3, h4, hj, _⟩ => hlast j h3 (by omega) v' hj⟩
      · exact .inl ⟨i, h1, by omega, hA, fun j h3 h4 => hlast j h3 (by omega)⟩

/-- Rounds of stores to different bytes. -/
theorem Access.Stores.forRange {f : Nat → MM Unit} {A : Nat → Word → Byte → Prop} (lo n : Nat)
    (hf : ∀ i, lo ≤ i → i < lo + n → x.Stores (f i) (A i))
    (hd : ∀ i j a v v', lo ≤ i → i < lo + n → lo ≤ j → j < lo + n → A i a v → A j a v' → i = j) :
    x.Stores (Sys2Proof.Machine.forRange lo n f) fun a v => ∃ i, lo ≤ i ∧ i < lo + n ∧ A i a v :=
  (Access.Stores.forRange_last lo n hf).congr fun a v =>
    ⟨fun ⟨i, h1, h2, hA, _⟩ => ⟨i, h1, h2, hA⟩, fun ⟨i, h1, h2, hA⟩ =>
      ⟨i, h1, h2, hA, fun j h3 h4 v' hj => by
        have := hd i j a v v' h1 h2 (by omega) h4 hA hj
        omega⟩⟩

end

end Sys2Proof.Cert
end

section
/-! SETFRM (R142, R163, R170, R171): what the parse of an SOF body answers or raises, its geometry, the zero fill and the
registers it commits. -/
namespace Sys2Proof.Cert
open Sys2Proof.Machine

/-! ### Bytes and fields of a segment body -/

section
variable {s : State} {pos i : Nat} {bs : List Byte} {r : Raise}

theorem src_ok (h : srcHolds s pos bs) (hi : i < bs.length) : s.src (pos + i) = .ok bs[i] :=
  srcByteIn_eq_ok.mpr ⟨(h i hi).1, (h i hi).2.1, (h i hi).2.2.trans (by simp [hi])⟩

theorem src_error (hr : srcStops s (pos + bs.length) r) (hi : i = bs.length) : s.src (pos + i) = .error r := by
  rw [hi]
  exact srcByteIn_of_noByteAt hr s.mem

theorem be16_ok (h : srcHolds s pos bs) (hi : i + 1 < bs.length) :
    s.be16 (pos + i) = .ok (bs[i].toNat * 256 + bs[i + 1].toNat) := by
  have h1 : srcByteIn s.params s.cfg s.mem (pos + i) = .ok bs[i] := src_ok h (by omega)
  have h2 : srcByteIn s.params s.cfg s.mem (pos + i + 1) = .ok bs[i + 1] := src_ok (i := i + 1) h hi
  rw [State.be16, be16In, h1, h2]
  rfl

theorem be16_error (h : srcHolds s pos bs) (hr : srcStops s (pos + bs.length) r) (h1 : i ≤ bs.length)
    (h2 : bs.length < i + 2) : s.be16 (pos + i) = .error r := by
  rcases Nat.eq_or_lt_of_le h1 with he | hlt
  · have hb : srcByteIn s.params s.cfg s.mem (pos + i) = .error r := src_error hr he
    rw [State.be16, be16In, hb]
    rfl
  · have hb : srcByteIn s.params s.cfg s.mem (pos + i) = .ok bs[i] := src_ok h hlt
    have hb' : srcByteIn s.params s.cfg s.mem (pos + i + 1) = .error r := src_error (i := i + 1) hr (by omega)
    rw [State.be16, be16In, hb, hb']
    rfl

theorem be16_be16Bytes {v : Nat} (h : srcHolds s pos (be16Bytes v)) (hv : v < 65536) : s.be16 pos = .ok v := by
  rw [State.be16, be16In_be16Bytes h, Nat.mod_eq_of_lt hv]

end

theorem toNat_hi4 (b : Byte) : (hi4 b).toNat = b.toNat / 16 := by
  rw [hi4, toNat_extract]
  omega

theorem toNat_lo4 (b : Byte) : (lo4 b).toNat = b.toNat % 16 := by
  rw [lo4, toNat_extract, pow_zero, Nat.div_one]
  rfl

theorem toNat_nibbles {hi lo : Nat} (h1 : hi < 16) (h2 : lo < 16) : (nibbles hi lo).toNat = 16 * hi + lo := by
  rw [nibbles, BitVec.toNat_ofNat, Nat.mod_eq_of_lt (by omega)]

theorem toNat_hi4_nibbles {hi lo : Nat} (h1 : hi < 16) (h2 : lo < 16) : (hi4 (nibbles hi lo)).toNat = hi := by
  rw [toNat_hi4, toNat_nibbles h1 h2]
  omega

theorem toNat_lo4_nibbles {hi lo : Nat} (h1 : hi < 16) (h2 : lo < 16) : (lo4 (nibbles hi lo)).toNat = lo := by
  rw [toNat_lo4, toNat_nibbles h1 h2]
  omega

theorem toNat_byte {v : Nat} (h : v < 256) : (BitVec.ofNat 8 v : Byte).toNat = v := by
  rw [BitVec.toNat_ofNat, Nat.mod_eq_of_lt h]

/-! ### The parse of a frame header -/

section
variable {s : State} {m : Mode} {pos : Nat}

/-- The checks of a frame header's fields once `nf` components have been read, and the header. -/
def frameTail (m : Mode) (L p y x nf pos : Nat) (cs : List CompHdr) : Except Raise FrameHdr :=
  if L ≠ 8 + 3 * nf then throw (.at .badSegmentLength pos)
  else if m ≠ .sof3 ∧ p ≠ 8 then throw (.at .notImplemented pos)
  else if m = .sof3 ∧ nf ≠ 1 then throw (.at .notImplemented pos)
  else if m = .sof3 ∧ (p < 2 ∨ 16 < p) then throw (.at .badFrameSegment pos)
  else if x = 0 then throw (.at .badFrameSegment pos)
  else if y = 0 then throw (.at .notImplemented pos)
  else pure { p := BitVec.ofNat 8 p, y := y, x := x, comps := cs, pos := pos }

theorem length_compBytes (cs : List CompHdr) : (compBytes cs).length = 3 * cs.length := by
  induction cs with
  | nil => rfl
  | cons c cs ih =>
    rw [compBytes, List.flatMap_cons, List.length_append, ← compBytes, ih, List.length_cons, List.length_cons,
      List.length_cons, List.length_cons, List.length_nil]
    omega

theorem length_sofHead (L p y x nf : Nat) : (sofHead L p y x nf).length = 8 := rfl

/-- The first eight bytes read. -/
theorem parseFrame_of_head {L p y x nf : Nat} (hL : L < 65536) (hp : p < 256) (hy : y < 65536) (hx : x < 65536)
    (hnf : nf < 256) (h : srcHolds s s.srcPos.toNat (sofHead L p y x nf)) :
    parseFrame s m =
      if nf < 1 ∨ 4 < nf then .error (.at .badFrameSegment (s.srcPos.toNat + 8))
      else
        parseComps s nf (s.srcPos.toNat + 8) >>= frameTail m L p y x nf (s.srcPos.toNat + 8 + 3 * nf) := by
  obtain ⟨h1, h2⟩ := srcIs_append.mp h
  obtain ⟨h1, h3⟩ := srcIs_append.mp h1
  obtain ⟨h1, h4⟩ := srcIs_append.mp h1
  obtain ⟨h1, h5⟩ := srcIs_append.mp h1
  have e1 := be16_be16Bytes h1 hL
  have e2 : s.src (s.srcPos.toNat + 2) = .ok (BitVec.ofNat 8 p) := (srcIs_cons.mp h5).1
  have e3 : s.be16 (s.srcPos.toNat + 3) = .ok y := be16_be16Bytes h4 hy
  have e4 : s.be16 (s.srcPos.toNat + 5) = .ok x := be16_be16Bytes h3 hx
  have e5 : s.src (s.srcPos.toNat + 7) = .ok (BitVec.ofNat 8 nf) := (srcIs_cons.mp h2).1
  rw [parseFrame]
  simp only [e1, e2, e3, e4, e5, toNat_byte hp, toNat_byte hnf, bind, Except.bind]
  rfl

theorem parseFrame_of_headStops {bs : List Byte} {r : Raise} (hlen : bs.length < 8) (h : srcHolds s s.srcPos.toNat bs)
    (hr : srcStops s (s.srcPos.toNat + bs.length) r) : parseFrame s m = .error r := by
  rw [parseFrame]
  by_cases h1 : bs.length < 2
  · have e1 : s.be16 s.srcPos.toNat = .error r := be16_error (i := 0) h hr (by omega) (by omega)
    simp only [e1, bind, Except.bind]
  have e1 : s.be16 s.srcPos.toNat = .ok _ := be16_ok (i := 0) h (by omega)
  by_cases h2 : bs.length = 2
  · simp only [e1, src_error hr h2.symm, bind, Except.bind]
  have e2 := src_ok (i := 2) h (by omega)
  by_cases h3 : bs.length < 5
  · simp only [e1, e2, be16_error (i := 3) h hr (by omega) (by omega), bind, Except.bind]
  have e3 := be16_ok (i := 3) h (by omega)
  by_cases h4 : bs.length < 7
  · simp only [e1, e2, e3, be16_error (i := 5) h hr (by omega) (by omega), bind, Except.bind]
  · have e4 := be16_ok (i := 5) h (by omega)
    simp only [e1, e2, e3, e4, src_error (i := 7) hr (by omega), bind, Except.bind]

/-- One more component read. -/
theorem parseComps_cons {id b tq : Byte} (h : srcHolds s pos [id, b, tq]) (n : Nat) :
    parseComps s (n + 1) pos =
      if (hi4 b).toNat = 0 ∨ (lo4 b).toNat = 0 ∨ 3 < tq.toNat then .error (.at .badFrameSegment (pos + 3))
      else (parseComps s n (pos + 3)).map (⟨id, (hi4 b).toNat, (lo4 b).toNat, tq.toNat⟩ :: ·) := by
  have e1 : s.src pos = .ok id := src_ok (i := 0) h (by simp)
  have e2 : s.src (pos + 1) = .ok b := src_ok (i := 1) h (by simp)
  have e3 : s.src (pos + 2) = .ok tq := src_ok (i := 2) h (by simp)
  rw [parseComps]
  simp only [e1, e2, e3, bind, Except.bind]
  split
  · rfl
  · cases parseComps s n (pos + 3) <;> rfl

theorem parseComps_stops {bs : List Byte} {r : Raise} (hlen : bs.length < 3) (h : srcHolds s pos bs)
    (hr : srcStops s (pos + bs.length) r) (n : Nat) : parseComps s (n + 1) pos = .error r := by
  rw [parseComps]
  by_cases h1 : bs.length = 0
  · have e1 : s.src pos = .error r := src_error (i := 0) hr h1.symm
    simp only [e1, bind, Except.bind]
  have e1 : s.src pos = .ok _ := src_ok (i := 0) h (by omega)
  by_cases h2 : bs.length = 1
  · simp only [e1, src_error (i := 1) hr h2.symm, bind, Except.bind]
  · simp only [e1, src_ok (i := 1) h (by omega), src_error (i := 2) hr (by omega), bind, Except.bind]

/-- The components that a body holds, read. -/
theorem parseComps_compBytes {cs : List CompHdr} (hcs : ∀ c ∈ cs, compOk c) (h : srcHolds s pos (compBytes cs)) (n : Nat) :
    parseComps s (cs.length + n) pos = (parseComps s n (pos + 3 * cs.length)).map (cs ++ ·) := by
  induction cs generalizing pos with
  | nil =>
    simp only [List.length_nil, Nat.zero_add, Nat.mul_zero, Nat.add_zero, List.nil_append]
    cases parseComps s n pos <;> rfl
  | cons c cs ih =>
    obtain ⟨⟨h1, h2, h3, h4, h5⟩, hcs⟩ := List.forall_mem_cons.mp hcs
    obtain ⟨hc, hrest⟩ := (srcIs_append (as := [c.id, nibbles c.h c.v, BitVec.ofNat 8 c.tq])).mp h
    rw [List.length_cons, Nat.add_right_comm, parseComps_cons hc, toNat_hi4_nibbles (by omega) (by omega),
      toNat_lo4_nibbles (by omega) (by omega), toNat_byte (by omega), if_neg (by omega), ih (pos := pos + 3) hcs hrest,
      show pos + 3 + 3 * cs.length = pos + 3 * (cs.length + 1) by omega]
    cases parseComps s n (pos + 3 * (cs.length + 1)) <;> rfl

/-- A body whose components are accepted. -/
theorem parseFrame_sofBytes {k : SofKind} {L p y x : Nat} {cs : List CompHdr} (hL : L < 65536) (hp : p < 256)
    (hy : y < 65536) (hx : x < 65536) (h1 : 1 ≤ cs.length) (h4 : cs.length ≤ 4) (hcs : ∀ c ∈ cs, compOk c)
    (h : srcHolds s s.srcPos.toNat (sofBytes L p y x cs)) :
    parseFrame s (modeOf k) =
      match frameError k L p y x cs with
      | some e => .error (.at e (s.srcPos.toNat + 8 + 3 * cs.length))
      | none =>
        .ok { p := BitVec.ofNat 8 p, y := y, x := x, comps := cs, pos := s.srcPos.toNat + 8 + 3 * cs.length } := by
  obtain ⟨hhead, hcomps⟩ := srcIs_append.mp h
  have hmode : modeOf k = .sof3 ↔ k = .sof3 := by cases k <;> simp [modeOf]
  have hread := parseComps_compBytes hcs hcomps 0
  rw [length_sofHead] at hread
  rw [parseFrame_of_head hL hp hy hx (by omega) hhead, if_neg (by omega), show cs.length = cs.length + 0 from rfl, hread]
  simp only [parseComps, Except.map, pure, Except.pure, bind, Except.bind, List.append_nil, Nat.add_zero, frameTail,
    frameError, ne_eq, hmode]
  split_ifs <;> rfl

end

/-! ### Geometry -/

theorem maxOf_eq_foldr (l : List Nat) : maxOf l = l.foldr max 0 := List.foldl_eq_foldr

section
variable {k : SofKind} {p : Byte} {x y pos : Nat} {cs : List CompHdr}

/-- The frame header that a body's fields are. -/
abbrev headerOf (p : Byte) (y x : Nat) (cs : List CompHdr) (pos : Nat) : FrameHdr :=
  { p := p, y := y, x := x, comps := cs, pos := pos }

theorem geometry_hmax : (geometry (modeOf k) (headerOf p y x cs pos)).hmax = hMax cs := maxOf_eq_foldr _

theorem geometry_vmax : (geometry (modeOf k) (headerOf p y x cs pos)).vmax = vMax cs := maxOf_eq_foldr _

theorem le_hMax {c : CompHdr} (h : c ∈ cs) : c.h ≤ hMax cs :=
  (le_maxOf (List.mem_map_of_mem h)).trans_eq (maxOf_eq_foldr _)

theorem le_vMax {c : CompHdr} (h : c ∈ cs) : c.v ≤ vMax cs :=
  (le_maxOf (List.mem_map_of_mem h)).trans_eq (maxOf_eq_foldr _)

theorem foldr_max_lt {l : List Nat} {n : Nat} (hn : 0 < n) (h : ∀ a ∈ l, a < n) : l.foldr max 0 < n := by
  induction l with
  | nil => exact hn
  | cons a l ih =>
    obtain ⟨ha, hl⟩ := List.forall_mem_cons.mp h
    exact max_lt ha (ih hl)

theorem modeOf_eq_sof3 : modeOf k = .sof3 ↔ k = .sof3 := by cases k <;> simp [modeOf]

theorem geometry_mcux (hh : 0 < hMax cs) : (geometry (modeOf k) (headerOf p y x cs pos)).mcux = mcuX k x cs := by
  show (if modeOf k = .sof3 then x else ceilDiv x (8 * (geometry (modeOf k) (headerOf p y x cs pos)).hmax)) = _
  rw [geometry_hmax, ceilDiv_eq_upDiv (by omega), mcuX]
  simp only [modeOf_eq_sof3]

theorem geometry_mcuy (hv : 0 < vMax cs) : (geometry (modeOf k) (headerOf p y x cs pos)).mcuy = mcuY k y cs := by
  show (if modeOf k = .sof3 then y else ceilDiv y (8 * (geometry (modeOf k) (headerOf p y x cs pos)).vmax)) = _
  rw [geometry_vmax, ceilDiv_eq_upDiv (by omega), mcuY]
  simp only [modeOf_eq_sof3]

/-- The bytes of one component's coefficients. -/
def compNeed (lossless : Bool) (mcux mcuy : Nat) (c : CompHdr) : Nat :=
  if lossless then 0 else mcux * c.h * (mcuy * c.v) * 128

theorem geoList_need (lossless : Bool) (x y hmax vmax mcux mcuy : Nat) (cs : List CompHdr) (coff : Nat) :
    (geoList lossless x y hmax vmax mcux mcuy cs coff).2 = coff + (cs.map (compNeed lossless mcux mcuy)).sum := by
  induction cs generalizing coff with
  | nil => rfl
  | cons c cs ih =>
    rw [geoList, List.map_cons, List.sum_cons]
    dsimp only
    rw [ih]
    cases lossless <;> simp [compNeed, Nat.add_assoc]

/-- The geometry of the component at a place of the list. -/
theorem geoList_get (lossless : Bool) (x y hmax vmax mcux mcuy : Nat) {cs : List CompHdr} (coff : Nat) {c : Nat}
    {d : CompHdr} (hd : cs[c]? = some d) :
    (geoList lossless x y hmax vmax mcux mcuy cs coff).1[c]? =
      some
        { bw := mcux * d.h, bh := mcuy * d.v, cw := ceilDiv (x * d.h) hmax, ch := ceilDiv (y * d.v) vmax
          coff := coff + ((cs.take c).map (compNeed lossless mcux mcuy)).sum } := by
  induction cs generalizing coff c with
  | nil => simp at hd
  | cons e cs ih =>
    cases c with
    | zero =>
      obtain rfl : e = d := by simpa using hd
      rfl
    | succ c =>
      rw [geoList]
      dsimp only
      rw [List.getElem?_cons_succ, ih _ (by simpa using hd), List.take_succ_cons, List.map_cons, List.sum_cons]
      cases lossless <;> simp [compNeed, Nat.add_assoc]

theorem sum_compNeed (k : SofKind) (x y : Nat) (all cs : List CompHdr) :
    (cs.map (compNeed (modeOf k == .sof3) (mcuX k x all) (mcuY k y all))).sum = needOf k x y all cs := by
  unfold needOf
  by_cases hk : k = .sof3
  · subst hk
    rw [if_pos rfl]
    refine List.sum_eq_zero fun n hn => ?_
    obtain ⟨c, -, rfl⟩ := List.mem_map.mp hn
    rfl
  · have hm : (modeOf k == Mode.sof3) = false := by simpa [modeOf_eq_sof3] using hk
    rw [if_neg hk, hm]
    rfl

/-- The components' geometry and the size of all, in R171's terms. -/
theorem geoList_geometry (hh : 0 < hMax cs) (hv : 0 < vMax cs) :
    ((geometry (modeOf k) (headerOf p y x cs pos)).geos, (geometry (modeOf k) (headerOf p y x cs pos)).need) =
      geoList (modeOf k == .sof3) x y (hMax cs) (vMax cs) (mcuX k x cs) (mcuY k y cs) cs 0 := by
  rw [← geometry_hmax (k := k) (p := p) (y := y) (x := x) (pos := pos),
    ← geometry_vmax (k := k) (p := p) (y := y) (x := x) (pos := pos),
    ← geometry_mcux (p := p) (y := y) (pos := pos) hh, ← geometry_mcuy (p := p) (x := x) (pos := pos) hv]
  rfl

theorem geometry_need (hh : 0 < hMax cs) (hv : 0 < vMax cs) :
    (geometry (modeOf k) (headerOf p y x cs pos)).need = needOf k x y cs cs := by
  refine (congrArg Prod.snd (geoList_geometry hh hv)).trans ?_
  rw [geoList_need, sum_compNeed, Nat.zero_add]

theorem geometry_geo (hh : 0 < hMax cs) (hv : 0 < vMax cs) {c : Nat} {d : CompHdr} (hd : cs[c]? = some d) :
    (geometry (modeOf k) (headerOf p y x cs pos)).geos.getD c Geo.reset =
      { bw := mcuX k x cs * d.h, bh := mcuY k y cs * d.v, cw := upDiv (x * d.h) (hMax cs)
        ch := upDiv (y * d.v) (vMax cs), coff := needOf k x y cs (cs.take c) } := by
  rw [List.getD_eq_getElem?_getD, show (geometry (modeOf k) (headerOf p y x cs pos)).geos = _ from
    congrArg Prod.fst (geoList_geometry hh hv), geoList_get _ _ _ _ _ _ _ _ hd, sum_compNeed, Nat.zero_add,
    ceilDiv_eq_upDiv hh, ceilDiv_eq_upDiv hv]
  rfl

theorem geoList_length (lossless : Bool) (x y hmax vmax mcux mcuy : Nat) (cs : List CompHdr) (coff : Nat) :
    (geoList lossless x y hmax vmax mcux mcuy cs coff).1.length = cs.length := by
  induction cs generalizing coff with
  | nil => rfl
  | cons c cs ih => rw [geoList, List.length_cons, List.length_cons, ih]

theorem geometry_geo_none {c : Nat} (hd : cs[c]? = none) :
    (geometry (modeOf k) (headerOf p y x cs pos)).geos.getD c Geo.reset = Geo.reset := by
  rw [List.getD_eq_getElem?_getD, List.getElem?_eq_none]
  · rfl
  · exact (geoList_length ..).trans_le (List.getElem?_eq_none_iff.mp hd)

theorem upDiv_le {a b n : Nat} (hb : 0 < b) (h : a ≤ n * b) : upDiv a b ≤ n := ceilDiv_eq_upDiv hb ▸ ceilDiv_le hb h

theorem mcuX_le (hh : 0 < hMax cs) : mcuX k x cs ≤ x := by
  unfold mcuX
  split
  · exact le_rfl
  · exact upDiv_le (by omega) (Nat.le_mul_of_pos_right x (by omega))

end

/-! ### The layout -/

theorem code_layout3 (h0 v0 : Nat) :
    (layout3 h0 v0).code =
      BitVec.ofNat 3
        (if h0 = 1 ∧ v0 = 1 then 0 else if h0 = 2 ∧ v0 = 1 then 1 else if h0 = 1 ∧ v0 = 2 then 2
          else if h0 = 2 ∧ v0 = 2 then 3 else 7) := by
  unfold layout3
  split_ifs <;> rfl

theorem toNat_layoutCode {cs : List CompHdr} (h4 : cs.length ≤ 4) : (layoutOf cs).code.toNat = layoutNum cs := by
  match cs, h4 with
  | [], _ => rfl
  | [c0], _ =>
    simp only [layoutOf, layoutNum, CompHdr.isUnit]
    by_cases hu : c0.h = 1 ∧ c0.v = 1 <;> simp [hu, Layout.code]
  | [c0, c1], _ => simp [layoutOf, layoutNum, Layout.code]
  | [c0, c1, c2], _ =>
    simp only [layoutOf, layoutNum, CompHdr.isUnit]
    by_cases hu : (c1.h = 1 ∧ c1.v = 1) ∧ c2.h = 1 ∧ c2.v = 1
    · simp only [hu, beq_self_eq_true, Bool.and_self, if_true, code_layout3, List.map_cons, List.map_nil]
      split_ifs <;> simp_all
    · simp [hu, Layout.code]
  | [c0, c1, c2, c3], _ =>
    simp only [layoutOf, layoutNum, CompHdr.isUnit]
    by_cases hu : ((c1.h = 1 ∧ c1.v = 1) ∧ c2.h = 1 ∧ c2.v = 1) ∧ c3.h = c0.h ∧ c3.v = c0.v
    · simp only [hu, beq_self_eq_true, Bool.and_self, if_true, code_layout3, List.map_cons, List.map_nil]
      split_ifs <;> simp_all
    · simp [Layout.code]
      split_ifs <;> simp_all

end Sys2Proof.Cert
end

section
/-! SETFRM (R170, R171): the zero fill, and the registers a read of the window gives after it. -/
namespace Sys2Proof.Cert
open Sys2Proof.Machine

/-! ### The zero fill -/

/-- Rounds in two parts. -/
theorem forRange_add {ε σ : Type} (f : Nat → EStateM ε σ Unit) (lo n d : Nat) (w : σ) :
    forRange lo (n + d) f w = (forRange lo n f >>= fun _ => forRange (lo + n) d f) w := by
  induction n generalizing lo w with
  | zero => simp [forRange, bind_run, pure_run]
  | succ n ih =>
    rw [Nat.add_right_comm, forRange, forRange, bind_run, bind_run, bind_run]
    cases hf : f lo w with
    | error e w' => rfl
    | ok _ w' =>
      dsimp only
      rw [ih, bind_run, Nat.add_right_comm lo 1 n, Nat.add_assoc lo n 1]

section
variable {s : State} {n len : Nat}

/-- SETFRM's accesses: its own word, a header of `len` bytes, and the first `n` bytes of the coefficient region. -/
def fillAccess (s : State) (n len : Nat) : Access where
  writes b a := b = .coef ∧ ∃ i, i < n ∧ a = coefByteAddr s i
  reads b a := (∃ k, k < 4 ∧ a = s.proc.cqPtr + BitVec.ofNat 32 k) ∨ (b = .src ∧ ∃ j, j < len ∧ a = srcAddr s.cfg (s.srcPos.toNat + j))
  kept a := ∀ i, i < n → a ≠ coefByteAddr s i
  mem := s.mem

/-- The header's bytes and the command's own word are no bytes of the region. -/
theorem fillAccess_disjoint (h : fillable s n len) {b b' : Buf} {a : Word} (hw : (fillAccess s n len).writes b a)
    (hr : (fillAccess s n len).reads b' a) : b = b' := by
  obtain ⟨-, i, hi, rfl⟩ := hw
  obtain ⟨-, hcmd, hsrc⟩ := h i hi
  rcases hr with ⟨k, hk, he⟩ | ⟨-, j, hj, he⟩
  · exact absurd he (hcmd k hk)
  · exact absurd he (hsrc j hj)

theorem fillAccess_frameMem {f : FrameHdr} (hm : s.mem.wf = true) (hf : f.pos = s.srcPos.toNat + len) :
    (fillAccess s n len).Ok (frameMem s f) := by
  have h : (fillAccess s n len).Ok (MemW.start .setfrm s) := Access.Ok.start hm (fun k hk => .inl ⟨k, hk, rfl⟩) rfl
  refine ⟨⟨h.good.1, spansBounded_logRun h.good.2.1 .src _ _, h.good.2.2⟩, h.host, h.writes, fun b a hl => ?_, h.kept⟩
  rcases logged_logRun hl with hl | ⟨rfl, j, hj, rfl⟩
  · exact h.reads b a hl
  · refine .inr ⟨rfl, j, by omega, ?_⟩
    rw [srcAddr, srcAddr, addr_add]

theorem stores_fill (hn : n < 2 ^ 32) :
    (fillAccess s n len).Stores (zeroFill s n) fun a v => ∃ i, 0 ≤ i ∧ i < 0 + n ∧ a = coefByteAddr s i ∧ v = 0 := by
  refine Access.Stores.forRange 0 n (fun i _ hi => ?_) ?_
  · exact Access.stores_writeByte 0 ⟨rfl, i, by omega, rfl⟩ fun hk => hk i (by omega) rfl
  · rintro i j a v v' - hi - hj ⟨rfl, -⟩ ⟨he, -⟩
    by_contra hne
    exact addr_ne s.cfg.coefBase (by omega) (by omega) hne he

/-- Filling the first bytes of the region. -/
theorem zeroFill_ok {f : FrameHdr} (hm : s.mem.wf = true) (hf : f.pos = s.srcPos.toNat + len) (h : fillable s n len)
    (hn : n < 2 ^ 32) :
    ∃ w, zeroFill s n (frameMem s f) = .ok () w ∧ s.settle w = { s with mem := w.mem } ∧ zeroedTo s n w.mem := by
  have hc : Completes (zeroFill s n) :=
    Completes.forRange 0 n fun i _ hi => completes_writeByte (h i (by omega)).1 0
  obtain ⟨v, w, hw⟩ := hc (frameMem s f)
  obtain ⟨hok, hval, -⟩ := stores_fill (len := len) hn _ _ _ (fillAccess_frameMem hm hf) hw
  exact ⟨w, hw, hok.settle (fun _ _ _ => fillAccess_disjoint h) s,
    fun a ha => hval _ _ ⟨a, by omega, by omega, rfl, rfl⟩, fun b hb => hok.kept b hb⟩

/-- Filling stops at the first byte that is not accessible. -/
theorem zeroFill_busError {need : Nat} {w w' : MemW} (hlt : n < need) (hw : zeroFill s n w = .ok () w')
    (hbad : ¬s.params.memOk (coefByteAddr s n).toNat = true) :
    zeroFill s need w = .error ⟨.busError, coefByteAddr s n⟩ w' := by
  obtain ⟨d, rfl⟩ : ∃ d, need = n + (d + 1) := ⟨need - n - 1, by omega⟩
  unfold zeroFill at hw ⊢
  rw [forRange_add, bind_run, hw]
  dsimp only
  have hstop : writeByte s.params .coef (s.cfg.coefBase + BitVec.ofNat 32 n) 0 w' = .error ⟨.busError, coefByteAddr s n⟩ w' := by
    rw [writeByte_run]
    exact if_neg hbad
  rw [Nat.zero_add, forRange, bind_run, hstop]

end

/-! ### The command -/

section
variable {s : State} {k : SofKind} {f : FrameHdr}

theorem exec_setfrm_of_error {r : Raise} (h : parseFrame s (modeOf k) = .error r) :
    exec (.setfrm k) s = .next (errorEntry r s) := by
  rw [exec, execSetfrm, h]

theorem exec_setfrm_outOfMemory (h : parseFrame s (modeOf k) = .ok f) (hk : k ≠ .sof3)
    (hneed : s.cfg.coefSize.toNat < (geometry (modeOf k) f).need) :
    exec (.setfrm k) s =
      .next (errorEntry (.at .outOfMemory f.pos) (noteNeed (geometry (modeOf k) f).need s)) := by
  rw [exec, execSetfrm, h]
  exact if_pos ⟨fun hm => hk (modeOf_eq_sof3.mp hm), hneed⟩

theorem exec_setfrm_ok (h : parseFrame s (modeOf k) = .ok f)
    (hneed : (geometry (modeOf k) f).need ≤ s.cfg.coefSize.toNat) {w : MemW}
    (hw : zeroFill s (geometry (modeOf k) f).need (frameMem s f) = .ok () w) :
    exec (.setfrm k) s =
      .next (advance .setfrm (commitFrame (modeOf k) f (geometry (modeOf k) f) (s.settle w))) := by
  rw [exec, execSetfrm, h]
  dsimp only
  rw [if_neg (fun hlt => absurd hlt.2 (by omega)), hw]

theorem exec_setfrm_fillError (h : parseFrame s (modeOf k) = .ok f)
    (hneed : (geometry (modeOf k) f).need ≤ s.cfg.coefSize.toNat) {r : Raise} {w : MemW}
    (hw : zeroFill s (geometry (modeOf k) f).need (frameMem s f) = .error r w) :
    exec (.setfrm k) s = .next (errorEntry r (s.settle w)) := by
  rw [exec, execSetfrm, h]
  dsimp only
  rw [if_neg (fun hlt => absurd hlt.2 (by omega)), hw]

end

/-! ### The registers -/

section
variable {k : SofKind} {p y x pos : Nat} {cs : List CompHdr} {t : State}

theorem toNat_modeCode (k : SofKind) : (modeOf k).code.toNat = modeNum k := by cases k <;> rfl

theorem layoutNum_lt (cs : List CompHdr) : layoutNum cs < 8 := by
  unfold layoutNum
  dsimp only
  split_ifs <;> omega

/-- The word of a frame's second register. -/
theorem frame1Word_commit {d : Dec} (hd : d.frm = frameOf (modeOf k) (headerOf (BitVec.ofNat 8 p) y x cs pos)
      (geometry (modeOf k) (headerOf (BitVec.ofNat 8 p) y x cs pos)))
    (hs : d.scn = Scan.reset) (hp : p < 256) (h4 : cs.length ≤ 4) (hh : hMax cs < 16) (hv : vMax cs < 16) :
    frame1Word d =
      BitVec.ofNat 32 (p + 2 ^ 8 * cs.length + 2 ^ 12 * modeNum k + 2 ^ 16 * layoutNum cs + 2 ^ 20 * hMax cs
        + 2 ^ 24 * vMax cs) := by
  have hl := layoutNum_lt cs
  have hm : modeNum k < 5 := by cases k <;> decide
  refine BitVec.eq_of_toNat_eq ?_
  rw [frame1Word, hd, hs]
  simp only [frameOf, toNat_append, BitVec.toNat_ofNat, geometry_hmax, geometry_vmax, toNat_layoutCode h4, toNat_modeCode,
    show Scan.reset.cs.code.toNat = 0 from rfl]
  omega

theorem compWord_compOf_none {g : Geom} {c : Nat} (hc : cs[c]? = none) : compWord (compOf g cs c) = 0 := by
  have hreset : compWord Comp.reset = 0 := by decide
  rw [compOf, hc, hreset]

theorem compWord_compOf_some {g : Geom} {c : Nat} {d : CompHdr} (hc : cs[c]? = some d) (hd : compOk d)
    (hg : g.hmax < 16) (hg' : g.vmax < 16) :
    compWord (compOf g cs c) =
      BitVec.ofNat 32 (d.id.toNat + 2 ^ 8 * d.h + 2 ^ 12 * d.v + 2 ^ 16 * d.tq + 2 ^ 20 * (g.hmax / d.h)
        + 2 ^ 24 * (g.vmax / d.v)) := by
  obtain ⟨h1, h2, h3, h4, h5⟩ := hd
  have hu : g.hmax / d.h < 16 := lt_of_le_of_lt (Nat.div_le_self _ _) hg
  have hu' : g.vmax / d.v < 16 := lt_of_le_of_lt (Nat.div_le_self _ _) hg'
  have hid := d.id.isLt
  refine BitVec.eq_of_toNat_eq ?_
  rw [compOf, hc]
  simp only [compWord, toNat_append, BitVec.toNat_ofNat]
  generalize g.hmax / d.h = u at hu ⊢
  generalize g.vmax / d.v = u' at hu' ⊢
  omega

end

section
variable {s t : State} {k : SofKind} {p y x pos : Nat} {cs : List CompHdr}

/-- The decoder state SETFRM commits from a header's fields. -/
abbrev committed (s : State) (k : SofKind) (p y x : Nat) (cs : List CompHdr) (pos : Nat) : Dec :=
  (commitFrame (modeOf k) (headerOf (BitVec.ofNat 8 p) y x cs pos)
    (geometry (modeOf k) (headerOf (BitVec.ofNat 8 p) y x cs pos)) s).dec

/-- The state SETFRM completes in, with the memory its zero fill leaves. -/
def frameDone (s : State) (k : SofKind) (p y x : Nat) (cs : List CompHdr) (pos : Nat) (m : Memory) : State :=
  advance .setfrm (commitFrame (modeOf k) (headerOf (BitVec.ofNat 8 p) y x cs pos)
    (geometry (modeOf k) (headerOf (BitVec.ofNat 8 p) y x cs pos)) { s with mem := m })

theorem frameDone_dec (m : Memory) : (frameDone s k p y x cs pos m).dec = committed s k p y x cs pos := rfl

theorem csrRead_committed_size (hd : t.dec = committed s k p y x cs pos) (hx : x < 65536) :
    csrRead t 0x090 = BitVec.ofNat 32 (65536 * y + x) := by
  refine BitVec.eq_of_toNat_eq ?_
  show (t.dec.frm.y ++ t.dec.frm.x).toNat = _
  rw [hd]
  show (BitVec.ofNat 16 y ++ BitVec.ofNat 16 x).toNat = _
  simp only [toNat_append, BitVec.toNat_ofNat]
  omega

theorem csrRead_committed_mcus (hd : t.dec = committed s k p y x cs pos) (hx : x < 65536) (hh : 0 < hMax cs)
    (hv : 0 < vMax cs) : csrRead t 0x098 = BitVec.ofNat 32 (65536 * mcuY k y cs + mcuX k x cs) := by
  have hmx : mcuX k x cs ≤ x := mcuX_le hh
  refine BitVec.eq_of_toNat_eq ?_
  show (t.dec.frm.mcuy ++ t.dec.frm.mcux).toNat = _
  rw [hd]
  show (BitVec.ofNat 16 (geometry (modeOf k) (headerOf (BitVec.ofNat 8 p) y x cs pos)).mcuy
    ++ BitVec.ofNat 16 (geometry (modeOf k) (headerOf (BitVec.ofNat 8 p) y x cs pos)).mcux).toNat = _
  rw [geometry_mcux hh, geometry_mcuy hv]
  simp only [toNat_append, BitVec.toNat_ofNat]
  omega

/-- COMP[c] reads the components of the frame. -/
theorem csrRead_comp (t : State) {c : Nat} (hc : c < 4) : csrRead t (0x0A0 + 4 * c) = compWord (t.dec.frm.comp.get c) := by
  match c, hc with
  | 0, _ | 1, _ | 2, _ | 3, _ => rfl

theorem committed_comp (hd : t.dec = committed s k p y x cs pos) {c : Nat} (hc : c < 4) :
    t.dec.frm.comp.get c = compOf (geometry (modeOf k) (headerOf (BitVec.ofNat 8 p) y x cs pos)) cs c := by
  rw [hd]
  exact Quad.get_ofFn _ hc

theorem committed_geo (hd : t.dec = committed s k p y x cs pos) {c : Nat} (hc : c < 4) :
    t.dec.frm.geo.get c =
      (geometry (modeOf k) (headerOf (BitVec.ofNat 8 p) y x cs pos)).geos.getD c Geo.reset := by
  rw [hd]
  exact Quad.get_ofFn _ hc

/-- STATUS shows a frame and no scan. -/
theorem csrRead_committed_status (hd : t.dec = committed s k p y x cs pos) :
    (csrRead t 0x008).extractLsb' 8 3 = 1#3 := by
  refine BitVec.eq_of_getLsbD_eq fun i hi => ?_
  rw [BitVec.getLsbD_extractLsb', csrRead_status, getLsbD_statusWord, hd]
  match i, hi with
  | 0, _ | 1, _ | 2, _ => rfl

/-- The scan, restart, predictor and completion registers read 0. -/
theorem csrRead_committed_clear (hd : t.dec = committed s k p y x cs pos) :
    ∀ off ∈ [0x0C0, 0x0C4, 0x0C8, 0x0DC, 0x0D4, 0x0B0, 0x0B4, 0x0B8, 0x0BC, 0x0E0], csrRead t off = 0 := by
  have hs : t.dec.scn = Scan.reset := by rw [hd]; rfl
  have hp : t.dec.prog = Progress.reset := by rw [hd]; rfl
  have hc : t.dec.ent.dcpred = .all 0 := by rw [hd]; rfl
  have he : t.dec.ent.eobrun = 0 := by rw [hd]; rfl
  have hr : t.dec.ent.srow = 0 := by rw [hd]; rfl
  have h1 : scan0Word Scan.reset = 0 ∧ scan1Word Scan.reset = 0 ∧ compDoneWord Progress.reset = 0 := by decide
  obtain ⟨h1, h2, h3⟩ := h1
  have hpred : ∀ c, (t.dec.ent.dcpred.get c).zeroExtend 32 = 0#32 := fun c => by
    rw [hc, Quad.get_all]
    rfl
  simp only [List.forall_mem_cons, List.not_mem_nil, false_imp_iff, implies_true, and_true]
  refine ⟨?_, ?_, ?_, ?_, ?_, ?_, ?_, ?_, ?_, ?_⟩
  · exact (congrArg scan0Word hs).trans h1
  · exact (congrArg scan1Word hs).trans h2
  · show t.dec.scn.srows ++ t.dec.ent.srow = 0#32
    rw [hs, hr]
    rfl
  · show t.dec.scn.scols.zeroExtend 32 = 0
    rw [hs]
    rfl
  · show t.dec.ent.eobrun.zeroExtend 32 = 0
    rw [he]
    rfl
  · exact hpred 0
  · exact hpred 1
  · exact hpred 2
  · exact hpred 3
  · exact (congrArg compDoneWord hp).trans h3

/-- ACMASK reads 0. -/
theorem csrRead_committed_acmask (hd : t.dec = committed s k p y x cs pos) {off : Nat} (h1 : 0x100 ≤ off)
    (h2 : off < 0x120) : csrRead t off = 0 := by
  rw [csrRead_eq_csrArray t (.inr h1), csrArray, if_neg (by omega), if_neg (by omega), if_neg (by omega),
    if_neg (by omega), if_neg (by omega), if_neg (by omega), if_pos ⟨h1, h2⟩, hd]
  show ((Quad.all 0#64).get _).extractLsb' _ 32 = 0
  rw [Quad.get_all, BitVec.extractLsb'_zero]
  rfl

end

/-- What `SETFRM` needs of a list of accepted components. -/
theorem hMax_vMax_bounds {cs : List CompHdr} (h1 : 1 ≤ cs.length) (hall : ∀ c ∈ cs, compOk c) :
    (0 < hMax cs ∧ hMax cs < 16) ∧ 0 < vMax cs ∧ vMax cs < 16 := by
  have hmem : cs[0] ∈ cs := List.getElem_mem _
  obtain ⟨hh, -, hv, -⟩ := hall _ hmem
  refine ⟨⟨hh.trans (le_hMax hmem), foldr_max_lt (by omega) (List.forall_mem_map.mpr fun c hc => ?_)⟩,
    hv.trans (le_vMax hmem), foldr_max_lt (by omega) (List.forall_mem_map.mpr fun c hc => ?_)⟩
  · have := hall c hc
    omega
  · have := hall c hc
    omega

/-- Settles O23: the parse accepts the body, the fill zeroes the region, and each register holds a field of the header. -/
theorem setfrmCommitsTheFrame : Obligations.SetfrmCommitsTheFrame := by
  intro s k L p y x cs hm hfields hbody herr hneed hfill
  obtain ⟨hL, hp, hy, hx, h1, h4, hall⟩ := hfields
  obtain ⟨⟨hh, hh16⟩, hv, hv16⟩ := hMax_vMax_bounds h1 hall
  have hparse := parseFrame_sofBytes (k := k) hL hp hy hx h1 h4 hall hbody
  rw [herr] at hparse
  have hgneed := geometry_need (k := k) (p := BitVec.ofNat 8 p) (y := y) (x := x)
    (pos := s.srcPos.toNat + 8 + 3 * cs.length) hh hv
  have hsize := s.cfg.coefSize.isLt
  obtain ⟨w, hw, hsettle, hzero⟩ := zeroFill_ok
    (f := headerOf (BitVec.ofNat 8 p) y x cs (s.srcPos.toNat + 8 + 3 * cs.length))
    ((memCanonical_iff s).mp hm).1 (len := 8 + 3 * cs.length) (Nat.add_assoc ..) hfill (by omega)
  have hexec := exec_setfrm_ok hparse (by rw [hgneed]; exact hneed) (by rw [hgneed]; exact hw)
  rw [hsettle] at hexec
  have hdec := frameDone_dec (s := s) (k := k) (p := p) (y := y) (x := x) (cs := cs)
    (pos := s.srcPos.toNat + 8 + 3 * cs.length) w.mem
  refine ⟨_, hexec, csrRead_committed_size hdec hx, frame1Word_commit rfl rfl hp h4 hh16 hv16,
    csrRead_committed_mcus hdec hx hh hv, congrArg (BitVec.ofNat 32) hgneed, fun c hc => ?_, fun c hc => ?_,
    csrRead_committed_status hdec, csrRead_committed_clear hdec,
    fun off hlo hhi => csrRead_committed_acmask hdec hlo hhi, hzero, ?_⟩
  · refine (csrRead_comp _ hc).trans ((congrArg compWord (committed_comp hdec hc)).trans ?_)
    cases hd : cs[c]? with
    | none => exact compWord_compOf_none hd
    | some d =>
      rw [compWord_compOf_some hd (hall d (List.mem_of_getElem? hd)) (geometry_hmax.trans_lt hh16)
        (geometry_vmax.trans_lt hv16), geometry_hmax, geometry_vmax]
  · have hgeo := committed_geo hdec hc
    cases hd : cs[c]? with
    | none => exact hgeo.trans (geometry_geo_none hd)
    | some d =>
      have hgeo := hgeo.trans (geometry_geo hh hv hd)
      exact ⟨congrArg Geo.cw hgeo, congrArg Geo.ch hgeo, congrArg Geo.bw hgeo, congrArg Geo.bh hgeo,
        congrArg Geo.coff hgeo⟩
  · have hpos : BitVec.ofNat 32 (s.srcPos.toNat + 8 + 3 * cs.length) = s.srcPos + BitVec.ofNat 32 (8 + 3 * cs.length) := by
      rw [Nat.add_assoc, BitVec.ofNat_add, BitVec.ofNat_toNat, BitVec.setWidth_eq]
    rw [← hpos]
    rfl

/-- Settles O24: each check raises where R170 has it, with nothing committed before the zero fill. -/
theorem setfrmErrorsCommitNothing : Obligations.SetfrmErrorsCommitNothing := by
  intro s k L p y x cs hL hp hy hx h4 hall
  have hhead : ∀ {nf : Nat}, 1 ≤ nf → nf ≤ 4 → srcHolds s s.srcPos.toNat (sofHead L p y x nf) →
      ∀ {r : Raise}, parseComps s nf (s.srcPos.toNat + 8) = .error r → exec (.setfrm k) s = .next (errorEntry r s) := by
    intro nf h1 hnf hb r hr
    refine exec_setfrm_of_error ?_
    rw [parseFrame_of_head hL hp hy hx (by omega) hb, if_neg (by omega), hr]
    rfl
  have hcomps : ∀ {bs : List Byte} {nf : Nat}, cs.length < nf → nf ≤ 4 →
      srcHolds s s.srcPos.toNat (sofHead L p y x nf ++ compBytes cs ++ bs) → ∀ {r : Raise},
      parseComps s (nf - cs.length) (s.srcPos.toNat + 8 + 3 * cs.length) = .error r →
      exec (.setfrm k) s = .next (errorEntry r s) := by
    intro bs nf hlt hnf hb r hr
    obtain ⟨hb1, -⟩ := srcIs_append.mp hb
    obtain ⟨hb1, hb2⟩ := srcIs_append.mp hb1
    refine hhead (by omega) hnf hb1 ?_
    obtain ⟨n, rfl⟩ : ∃ n, nf = cs.length + n := ⟨nf - cs.length, by omega⟩
    rw [Nat.add_sub_cancel_left] at hr
    rw [parseComps_compBytes (pos := s.srcPos.toNat + 8) hall hb2]
    exact congrArg (Except.map _) hr
  refine ⟨fun nf hnf hbad hb => ?_, fun nf id h v tq hnf hlt hh hv htq hbad hb => ?_, fun e h1 he hb => ?_,
    fun h1 he hb hneed => ?_, fun n hm h1 he hb hneed hn hfill hbad => ?_, fun bs r hlen hb hr => ?_,
    fun nf part r hnf hlt hlen hb hr => ?_⟩
  · exact exec_setfrm_of_error (by rw [parseFrame_of_head hL hp hy hx hnf hb, if_pos hbad])
  · refine hcomps hlt hnf hb ?_
    obtain ⟨-, hb3⟩ := srcIs_append.mp hb
    rw [List.length_append, length_sofHead, length_compBytes, ← Nat.add_assoc] at hb3
    obtain ⟨n, hn⟩ : ∃ n, nf - cs.length = n + 1 := ⟨nf - cs.length - 1, by omega⟩
    rw [hn, parseComps_cons hb3, toNat_hi4_nibbles hh hv, toNat_lo4_nibbles hh hv, toNat_byte htq, if_pos hbad]
    rfl
  · refine exec_setfrm_of_error ?_
    rw [parseFrame_sofBytes hL hp hy hx h1 h4 hall hb, he]
  · obtain ⟨⟨hh, -⟩, hv, -⟩ := hMax_vMax_bounds h1 hall
    have hparse := parseFrame_sofBytes (k := k) hL hp hy hx h1 h4 hall hb
    rw [he] at hparse
    have hk : k ≠ .sof3 := fun hk => by
      rw [needOf, if_pos hk] at hneed
      omega
    rw [exec_setfrm_outOfMemory hparse hk (by rw [geometry_need hh hv]; exact hneed), geometry_need hh hv]
    rfl
  · obtain ⟨⟨hh, -⟩, hv, -⟩ := hMax_vMax_bounds h1 hall
    have hparse := parseFrame_sofBytes (k := k) hL hp hy hx h1 h4 hall hb
    rw [he] at hparse
    have hsize := s.cfg.coefSize.isLt
    obtain ⟨w, hw, hsettle, hzero⟩ := zeroFill_ok
      (f := headerOf (BitVec.ofNat 8 p) y x cs (s.srcPos.toNat + 8 + 3 * cs.length))
      ((memCanonical_iff s).mp hm).1 (len := 8 + 3 * cs.length) (Nat.add_assoc ..) hfill (by omega)
    refine ⟨w.mem, hzero, ?_⟩
    rw [exec_setfrm_fillError hparse (by rw [geometry_need hh hv]; exact hneed)
      (by rw [geometry_need hh hv]; exact zeroFill_busError hn hw hbad), hsettle]
  · exact exec_setfrm_of_error (parseFrame_of_headStops hlen hb hr)
  · refine hcomps hlt hnf hb ?_
    obtain ⟨-, hb3⟩ := srcIs_append.mp hb
    rw [List.length_append, length_sofHead, length_compBytes, ← Nat.add_assoc] at hb3
    obtain ⟨n, hn⟩ : ∃ n, nf - cs.length = n + 1 := ⟨nf - cs.length - 1, by omega⟩
    rw [hn]
    exact parseComps_stops hlen hb3 hr n

end Sys2Proof.Cert
end

section
/-! SETSCN (R142, R180 to R184): what the parse of an SOS body answers or raises, and the registers it commits. -/
namespace Sys2Proof.Cert
open Sys2Proof.Machine

/-! ### The parse of a scan header -/

section
variable {s : State} {pos : Nat}

/-- The component that a scan names is the first with its id. -/
theorem findComp_eq_some {f : Frame} {id : Byte} {c : Nat} (hc : c < f.ncomp.toNat) (hid : (f.comp.get c).id = id)
    (hfirst : ∀ c', c' < c → (f.comp.get c').id ≠ id) : f.findComp id = some c := by
  rw [Frame.findComp, List.find?_range_eq_some]
  exact ⟨by simpa using hid, List.mem_range.mpr hc, fun j hj => by simpa using hfirst j hj⟩

theorem findComp_of_scanCompOk {c : ScanComp} (h : scanCompOk s c) :
    s.dec.frm.findComp (s.dec.frm.comp.get c.c).id = some c.c :=
  findComp_eq_some h.1 rfl h.2.2.2

theorem findComp_eq_none {f : Frame} {id : Byte} (h : ∀ c, c < f.ncomp.toNat → (f.comp.get c).id ≠ id) :
    f.findComp id = none := by
  rw [Frame.findComp, List.find?_eq_none]
  exact fun c hc => by simpa using h c (List.mem_range.mp hc)

/-- One more component read. -/
theorem parseScanComps_cons {id b : Byte} (h : srcHolds s pos [id, b]) (n : Nat) (seen : List Nat) :
    parseScanComps s (n + 1) pos seen =
      match s.dec.frm.findComp id with
      | none => .error (.at .badComponentId (pos + 2))
      | some c =>
        if seen.contains c = true ∨ 3 < (hi4 b).toNat ∨ 3 < (lo4 b).toNat then .error (.at .badScanSegment (pos + 2))
        else (parseScanComps s n (pos + 2) (c :: seen)).map (⟨c, (hi4 b).toNat, (lo4 b).toNat⟩ :: ·) := by
  have e1 : s.src pos = .ok id := src_ok (i := 0) h (by simp)
  have e2 : s.src (pos + 1) = .ok b := src_ok (i := 1) h (by simp)
  rw [parseScanComps]
  simp only [e1, e2, bind, Except.bind]
  cases s.dec.frm.findComp id with
  | none => rfl
  | some c =>
    dsimp only
    by_cases h1 : seen.contains c = true
    · rw [if_pos h1, if_pos (.inl h1)]
      rfl
    · by_cases h2 : 3 < (hi4 b).toNat ∨ 3 < (lo4 b).toNat
      · rw [if_neg h1, if_pos h2, if_pos (.inr h2)]
        rfl
      · rw [if_neg h1, if_neg h2, if_neg (by tauto)]
        cases parseScanComps s n (pos + 2) (c :: seen) <;> rfl

theorem parseScanComps_stops {bs : List Byte} {r : Raise} (hlen : bs.length < 2) (h : srcHolds s pos bs)
    (hr : srcStops s (pos + bs.length) r) (n : Nat) (seen : List Nat) :
    parseScanComps s (n + 1) pos seen = .error r := by
  rw [parseScanComps]
  by_cases h1 : bs.length = 0
  · have e1 : s.src pos = .error r := src_error (i := 0) hr h1.symm
    simp only [e1, bind, Except.bind]
  · have e1 : s.src pos = .ok _ := src_ok (i := 0) h (by omega)
    simp only [e1, src_error (i := 1) hr (by omega), bind, Except.bind]

theorem length_scanCompBytes (s : State) (cs : List ScanComp) : (scanCompBytes s cs).length = 2 * cs.length := by
  induction cs with
  | nil => rfl
  | cons c cs ih =>
    rw [scanCompBytes, List.flatMap_cons, List.length_append, ← scanCompBytes, ih, List.length_cons, List.length_cons,
      List.length_cons, List.length_nil]
    omega

/-- The components that a body holds, read. -/
theorem parseScanComps_bytes {cs : List ScanComp} (hcs : ∀ c ∈ cs, scanCompOk s c) {seen : List Nat}
    (hnd : (cs.map ScanComp.c).Nodup) (hseen : ∀ c ∈ cs, c.c ∉ seen) (h : srcHolds s pos (scanCompBytes s cs)) (n : Nat) :
    parseScanComps s (cs.length + n) pos seen =
      (parseScanComps s n (pos + 2 * cs.length) ((cs.map ScanComp.c).reverse ++ seen)).map (cs ++ ·) := by
  induction cs generalizing pos seen with
  | nil =>
    simp only [List.length_nil, Nat.zero_add, Nat.mul_zero, Nat.add_zero, List.nil_append, List.map_nil, List.reverse_nil]
    cases parseScanComps s n pos seen <;> rfl
  | cons c cs ih =>
    obtain ⟨hc, hcs⟩ := List.forall_mem_cons.mp hcs
    obtain ⟨hcseen, hseen⟩ := List.forall_mem_cons.mp hseen
    obtain ⟨hnew, hnd⟩ := List.nodup_cons.mp hnd
    obtain ⟨hb, hrest⟩ := (srcIs_append (as := [(s.dec.frm.comp.get c.c).id, nibbles c.td c.ta])).mp h
    have hids := hc.2
    rw [List.length_cons, Nat.add_right_comm, parseScanComps_cons hb, findComp_of_scanCompOk hc]
    dsimp only
    rw [toNat_hi4_nibbles (by omega) (by omega), toNat_lo4_nibbles (by omega) (by omega),
      if_neg (by rw [List.contains_iff_mem]; rintro (h | h | h) <;> [exact hcseen h; omega; omega]),
      ih (pos := pos + 2) hcs hnd (fun d hd => ?_) hrest, show pos + 2 + 2 * cs.length = pos + 2 * (cs.length + 1) by omega,
      List.map_cons, List.reverse_cons, List.append_assoc, List.singleton_append]
    · cases parseScanComps s n (pos + 2 * (cs.length + 1)) ((cs.map ScanComp.c).reverse ++ c.c :: seen) <;> rfl
    · rw [List.mem_cons, not_or]
      exact ⟨fun he => hnew (he ▸ List.mem_map_of_mem hd), hseen d hd⟩

/-- The checks of a scan header's fields once everything has been read, and the header. -/
def scanTail (s : State) (L ns pos : Nat) (ss se b : Byte) (cs : List ScanComp) : Except Raise ScanHdr :=
  if L ≠ 6 + 2 * ns then throw (.at .badSegmentLength pos)
  else
    match scanKind s.dec.frm ns ss se (hi4 b) (lo4 b) with
    | none => throw (.at .badScanSegment pos)
    | some k =>
      if !tablesLoaded s.dec.tab k cs then throw (.at .badHuffTbl pos)
      else if k = .lossless ∧ s.dec.ri.toNat % s.dec.frm.x.toNat ≠ 0 then throw (.at .notImplemented pos)
      else pure { comps := cs, ss := ss, se := se, ah := hi4 b, al := lo4 b, kind := k, pos := pos }

/-- The last three bytes of a scan header, then its checks. -/
def scanEnd (s : State) (L ns q : Nat) (cs : List ScanComp) : Except Raise ScanHdr := do
  let ss ← s.src q
  let se ← s.src (q + 1)
  let b ← s.src (q + 2)
  scanTail s L ns (q + 3) ss se b cs

theorem parseScan_of_no_frame (h : s.dec.frm.hdrValid = false) : parseScan s = .error ⟨.badState, 0⟩ := by
  rw [parseScan]
  exact if_pos h

/-- The length and the count read. -/
theorem parseScan_of_head {L ns : Nat} (hv : s.dec.frm.hdrValid = true) (hL : L < 65536) (hns : ns < 256)
    (h : srcHolds s s.srcPos.toNat (be16Bytes L ++ [BitVec.ofNat 8 ns])) :
    parseScan s =
      if ns < 1 ∨ 4 < ns then .error (.at .badScanSegment (s.srcPos.toNat + 3))
      else if s.dec.frm.mode.isSeq = true ∧ ns ≠ s.dec.frm.ncomp.toNat ∧ ns ≠ 1 then
        .error (.at .notImplemented (s.srcPos.toNat + 3))
      else
        parseScanComps s ns (s.srcPos.toNat + 3) [] >>= scanEnd s L ns (s.srcPos.toNat + 3 + 2 * ns) := by
  obtain ⟨h1, h2⟩ := srcIs_append.mp h
  have e1 := be16_be16Bytes h1 hL
  have e2 : s.src (s.srcPos.toNat + 2) = .ok (BitVec.ofNat 8 ns) := (srcIs_cons.mp h2).1
  rw [parseScan]
  dsimp only
  rw [if_neg (by simp [hv])]
  simp only [e1, e2, toNat_byte hns, bind, Except.bind]
  rfl

theorem parseScan_of_headStops {bs : List Byte} {r : Raise} (hv : s.dec.frm.hdrValid = true) (hlen : bs.length < 3)
    (h : srcHolds s s.srcPos.toNat bs) (hr : srcStops s (s.srcPos.toNat + bs.length) r) : parseScan s = .error r := by
  rw [parseScan]
  dsimp only
  rw [if_neg (by simp [hv])]
  by_cases h1 : bs.length < 2
  · have e1 : s.be16 s.srcPos.toNat = .error r := be16_error (i := 0) h hr (by omega) (by omega)
    simp only [e1, bind, Except.bind]
  · have e1 : s.be16 s.srcPos.toNat = .ok _ := be16_ok (i := 0) h (by omega)
    simp only [e1, src_error (i := 2) hr (by omega), bind, Except.bind]

theorem scanEnd_stops {L ns q : Nat} {bs : List Byte} {r : Raise} (hlen : bs.length < 3) (h : srcHolds s q bs)
    (hr : srcStops s (q + bs.length) r) (cs : List ScanComp) : scanEnd s L ns q cs = .error r := by
  rw [scanEnd]
  by_cases h1 : bs.length = 0
  · have e1 : s.src q = .error r := src_error (i := 0) hr h1.symm
    simp only [e1, bind, Except.bind]
  have e1 : s.src q = .ok _ := src_ok (i := 0) h (by omega)
  by_cases h2 : bs.length = 1
  · simp only [e1, src_error (i := 1) hr h2.symm, bind, Except.bind]
  · simp only [e1, src_ok (i := 1) h (by omega), src_error (i := 2) hr (by omega), bind, Except.bind]

/-! ### The checks -/

theorem isSeq_iff (m : Mode) : m.isSeq = true ↔ m = .sof0 ∨ m = .sof1 := by cases m <;> simp [Mode.isSeq]

theorem scanKind_eq {f : Frame} (hm : f.mode ≠ .none) {ns ss se ah al : Nat} (hss : ss < 256) (hse : se < 256)
    (hah : ah < 16) (hal : al < 16) :
    scanKind f ns (BitVec.ofNat 8 ss) (BitVec.ofNat 8 se) (hi4 (nibbles ah al)) (lo4 (nibbles ah al)) =
      scanKindNum f.mode f.p.toNat ns ss se ah al := by
  unfold scanKind scanKindNum
  rw [toNat_byte hss, toNat_byte hse, toNat_hi4_nibbles hah hal, toNat_lo4_nibbles hah hal]
  cases hmode : f.mode with
  | none => exact absurd hmode hm
  | sof0 => rfl
  | sof1 => rfl
  | sof2 =>
    dsimp only
    have hcond : (se < ss ∨ 63 < se ∨ (ss = 0 ∧ se ≠ 0) ∨ (0 < ss ∧ ns ≠ 1) ∨ (ah ≠ 0 ∧ al + 1 ≠ ah) ∨ 13 < al) ↔
        ¬(ss ≤ se ∧ se ≤ 63 ∧ (ss = 0 → se = 0) ∧ (0 < ss → ns = 1) ∧ (ah = 0 ∨ ah = al + 1) ∧ al ≤ 13) := by
      omega
    by_cases hc : ss ≤ se ∧ se ≤ 63 ∧ (ss = 0 → se = 0) ∧ (0 < ss → ns = 1) ∧ (ah = 0 ∨ ah = al + 1) ∧ al ≤ 13
    · rw [if_pos hc, if_neg (fun h => hcond.mp h hc)]
    · rw [if_neg hc, if_pos (hcond.mpr hc)]
  | sof3 =>
    dsimp only
    by_cases hc : 1 ≤ ss ∧ ss ≤ 7 ∧ al < f.p.toNat
    · rw [if_pos hc, if_neg (by omega)]
    · rw [if_neg hc, if_pos (by omega)]

theorem tablesLoaded_iff (t : Tables) (k : ScanKind) (cs : List ScanComp) :
    tablesLoaded t k cs = true ↔ scanTables t k cs := by
  have hdc : k.usesDc = true ↔ k = .seq ∨ k = .dcFirst ∨ k = .lossless := by cases k <;> simp [ScanKind.usesDc]
  have hac : k.usesAc = true ↔ k = .seq ∨ k = .acFirst ∨ k = .acRefine := by cases k <;> simp [ScanKind.usesAc]
  unfold tablesLoaded scanTables
  rw [List.all_eq_true, ← hdc, ← hac]
  refine forall₂_congr fun c _ => ?_
  cases k.usesDc <;> cases k.usesAc <;> simp

/-- The header that a body's fields are. -/
abbrev scanHdrOf (cs : List ScanComp) (ss se ah al : Nat) (k : ScanKind) (pos : Nat) : ScanHdr :=
  { comps := cs, ss := BitVec.ofNat 8 ss, se := BitVec.ofNat 8 se, ah := hi4 (nibbles ah al), al := lo4 (nibbles ah al)
    kind := k, pos := pos }

theorem scanTail_eq {L ss se ah al : Nat} {cs : List ScanComp} (hm : s.dec.frm.mode ≠ .none) (hss : ss < 256)
    (hse : se < 256) (hah : ah < 16) (hal : al < 16) (pos : Nat) :
    scanTail s L cs.length pos (BitVec.ofNat 8 ss) (BitVec.ofNat 8 se) (nibbles ah al) cs =
      match scanChecks s L cs ss se ah al with
      | .inl e => .error (.at e pos)
      | .inr k => .ok (scanHdrOf cs ss se ah al k pos) := by
  unfold scanTail scanChecks
  rw [scanKind_eq hm hss hse hah hal]
  by_cases hL : L ≠ 6 + 2 * cs.length
  · rw [if_pos hL, if_pos hL]
    rfl
  rw [if_neg hL, if_neg hL]
  cases scanKindNum s.dec.frm.mode s.dec.frm.p.toNat cs.length ss se ah al with
  | none => rfl
  | some k =>
    dsimp only
    have htab : (!tablesLoaded s.dec.tab k cs) = true ↔ ¬scanTables s.dec.tab k cs := by
      rw [← tablesLoaded_iff, Bool.not_eq_true', Bool.not_eq_true]
    by_cases ht : scanTables s.dec.tab k cs
    · rw [if_neg (fun h => htab.mp h ht), if_neg (not_not_intro ht)]
      split_ifs <;> rfl
    · rw [if_pos (htab.mpr ht), if_pos ht]
      rfl

/-- A body whose components are accepted. -/
theorem parseScan_sosBytes {L ss se ah al : Nat} {cs : List ScanComp} (hv : s.dec.frm.hdrValid = true)
    (hm : s.dec.frm.mode ≠ .none) (hf : scanFields s L cs ss se ah al)
    (h : srcHolds s s.srcPos.toNat (sosBytes s L cs ss se ah al)) :
    parseScan s =
      match scanChecks s L cs ss se ah al with
      | .inl e => .error (.at e (s.srcPos.toNat + 6 + 2 * cs.length))
      | .inr k => .ok (scanHdrOf cs ss se ah al k (s.srcPos.toNat + 6 + 2 * cs.length)) := by
  obtain ⟨hL, hss, hse, hah, hal, h1, h4, hnd, hcs, hseq⟩ := hf
  obtain ⟨hb, htail⟩ := srcIs_append.mp h
  obtain ⟨hb, hcomps⟩ := srcIs_append.mp hb
  have hlen : (be16Bytes L ++ [BitVec.ofNat 8 cs.length]).length = 3 := rfl
  rw [List.length_append, hlen, length_scanCompBytes, ← Nat.add_assoc] at htail
  rw [hlen] at hcomps
  have e1 : s.src (s.srcPos.toNat + 3 + 2 * cs.length) = .ok _ := src_ok (i := 0) htail (by simp)
  have e2 : s.src (s.srcPos.toNat + 3 + 2 * cs.length + 1) = .ok _ := src_ok (i := 1) htail (by simp)
  have e3 : s.src (s.srcPos.toNat + 3 + 2 * cs.length + 2) = .ok _ := src_ok (i := 2) htail (by simp)
  have hread := parseScanComps_bytes hcs hnd (fun _ _ => List.not_mem_nil) hcomps 0
  rw [Nat.add_zero] at hread
  rw [parseScan_of_head hv hL (by omega) hb, if_neg (by omega), if_neg fun hbad => ?_, hread]
  · show scanEnd s L cs.length _ (cs ++ []) = _
    rw [List.append_nil, scanEnd, e1, e2, e3]
    exact (scanTail_eq hm hss hse hah hal _).trans (by rw [show s.srcPos.toNat + 3 + 2 * cs.length + 3 = s.srcPos.toNat + 6 + 2 * cs.length by omega])
  · have := hseq ((isSeq_iff _).mp hbad.1)
    omega

/-! ### The registers -/

variable {t : State} {L ss se ah al : Nat} {cs : List ScanComp} {k : ScanKind}

theorem exec_setscn_of_error {r : Raise} (h : parseScan s = .error r) : exec .setscn s = .next (errorEntry r s) := by
  rw [exec, execSetscn, h]

theorem exec_setscn_of_ok {h : ScanHdr} (hp : parseScan s = .ok h) :
    exec .setscn s = .next (advance .setscn (commitScan h s)) := by
  rw [exec, execSetscn, hp]

/-- Up to four fields of two bits in one byte. -/
theorem toNat_bytes2 {l : List Nat} (hl : ∀ a ∈ l, a < 4) (h4 : l.length ≤ 4) :
    (bytes2 (Quad.ofFn fun j => BitVec.ofNat 2 (l.getD j 0))).toNat = packed2 l := by
  have h : ∀ j, j < 4 → l.getD j 0 < 4 := fun j _ => by
    rw [List.getD_eq_getElem?_getD]
    by_cases hj : j < l.length
    · rw [List.getElem?_eq_getElem hj]
      exact hl _ (List.getElem_mem hj)
    · rw [List.getElem?_eq_none (by omega)]
      exact Nat.zero_lt_succ 3
  have hsum : packed2 l = l.getD 0 0 + 4 * (l.getD 1 0 + 4 * (l.getD 2 0 + 4 * l.getD 3 0)) := by
    match l, h4 with
    | [], _ | [_], _ | [_, _], _ | [_, _, _], _ | [_, _, _, _], _ => simp [packed2]
  have h0 := h 0 (by omega)
  have h1 := h 1 (by omega)
  have h2 := h 2 (by omega)
  have h3 := h 3 (by omega)
  rw [hsum]
  simp only [bytes2, Quad.ofFn, toNat_append, BitVec.toNat_ofNat]
  omega

theorem toNat_kindCode (k : ScanKind) : k.code.toNat = kindNum k := by cases k <;> rfl

theorem scan0Word_scanOf (hss : ss < 256) (h4 : cs.length ≤ 4) (hc : ∀ c ∈ cs, c.c < 4) :
    scan0Word (scanOf s (scanHdrOf cs ss se ah al k pos)) =
      BitVec.ofNat 32 (cs.length + 2 ^ 8 * packed2 (cs.map ScanComp.c) + 2 ^ 16 * ss + 2 ^ 24 * se) := by
  have hb := toNat_bytes2 (List.forall_mem_map.mpr hc) (by rw [List.length_map]; exact h4)
  refine BitVec.eq_of_toNat_eq ?_
  simp only [scan0Word, scanOf, toNat_append, hb, BitVec.toNat_ofNat]
  omega

theorem scan1Word_scanOf (hah : ah < 16) (hal : al < 16) (h4 : cs.length ≤ 4)
    (hc : ∀ c ∈ cs, c.td < 4 ∧ c.ta < 4) :
    scan1Word (scanOf s (scanHdrOf cs ss se ah al k pos)) =
      BitVec.ofNat 32 (ah + 2 ^ 4 * al + 2 ^ 8 * packed2 (cs.map ScanComp.td) + 2 ^ 16 * packed2 (cs.map ScanComp.ta)
        + 2 ^ 24 * kindNum k) := by
  have hb := toNat_bytes2 (List.forall_mem_map.mpr fun c h => (hc c h).1) (by rw [List.length_map]; exact h4)
  have hb' := toNat_bytes2 (List.forall_mem_map.mpr fun c h => (hc c h).2) (by rw [List.length_map]; exact h4)
  have hlt := (bytes2 (Quad.ofFn fun j => BitVec.ofNat 2 ((cs.map ScanComp.td).getD j 0))).isLt
  have hlt' := (bytes2 (Quad.ofFn fun j => BitVec.ofNat 2 ((cs.map ScanComp.ta).getD j 0))).isLt
  rw [hb] at hlt
  rw [hb'] at hlt'
  refine BitVec.eq_of_toNat_eq ?_
  simp only [scan1Word, scanOf, toNat_append, hb, hb', toNat_kindCode, toNat_hi4_nibbles hah hal,
    toNat_lo4_nibbles hah hal, BitVec.toNat_ofNat]
  have hk : kindNum k < 8 := by cases k <;> decide
  omega

/-- FRAME1 shows the colour space in its highest bits. -/
theorem extract_frame1Word (d : Dec) : (frame1Word d).extractLsb' 28 4 = d.scn.cs.code := by
  refine BitVec.eq_of_toNat_eq ?_
  have h1 := d.scn.cs.code.isLt
  have h2 := d.frm.vmax.isLt
  have h3 := d.frm.hmax.isLt
  have h4 := d.frm.layout.code.isLt
  have h5 := d.frm.mode.code.isLt
  have h6 := d.frm.ncomp.isLt
  have h7 := d.frm.p.isLt
  rw [toNat_extract, frame1Word]
  simp only [toNat_append, BitVec.toNat_ofNat]
  omega

theorem spaceCode_eq (c : CSpace) : c.code = BitVec.ofNat 4 (spaceNum c) := by cases c <;> rfl

theorem scanSize_scanHdrOf (f : Frame) :
    scanSize f (scanHdrOf cs ss se ah al k pos) = ((scanExtent f k cs).2, (scanExtent f k cs).1) := by
  unfold scanSize scanExtent
  cases k
  all_goals
    match cs with
    | [] => rfl
    | [c] => simp [ceilDiv_eq_upDiv]
    | _ :: _ :: _ => rfl

theorem scanOf_srows :
    (scanOf s (scanHdrOf cs ss se ah al k pos)).srows = BitVec.ofNat 16 (scanExtent s.dec.frm k cs).2 :=
  congrArg (fun n : Nat × Nat => BitVec.ofNat 16 n.1) (scanSize_scanHdrOf _)

theorem scanOf_scols :
    (scanOf s (scanHdrOf cs ss se ah al k pos)).scols = BitVec.ofNat 16 (scanExtent s.dec.frm k cs).1 :=
  congrArg (fun n : Nat × Nat => BitVec.ofNat 16 n.2) (scanSize_scanHdrOf _)

/-- Setting the predictors of a list of components. -/
theorem foldl_set_get {cs : List ScanComp} (hcs : ∀ d ∈ cs, d.c < 4) {q : Quad (BitVec 16)} {c : Nat} (hc : c < 4) :
    (cs.foldl (fun q d => q.set d.c 0) q).get c = if c ∈ cs.map ScanComp.c then 0 else q.get c := by
  induction cs generalizing q with
  | nil => simp
  | cons d cs ih =>
    obtain ⟨hd, hcs⟩ := List.forall_mem_cons.mp hcs
    rw [List.foldl_cons, ih hcs, Quad.get_set hd hc, List.map_cons]
    by_cases h1 : c ∈ cs.map ScanComp.c <;> by_cases h2 : c = d.c <;> simp [h1, h2]

/-- A committed frame has a coding mode and at most four components. -/
theorem frameOk_of_headersLegal (h : s.headersLegal = true) (hv : s.dec.frm.hdrValid = true) : FrameOk s.dec.frm :=
  frameOk_of_legal hv ((headersLegal_iff s).mp h).frame

end

/-- Settles O25: the parse accepts the body, and each register holds a field of the header. -/
theorem setscnStartsTheScan : Obligations.SetscnStartsTheScan := by
  intro s L cs ss se ah al k hleg hv hf hbody hchk
  have hfrm := frameOk_of_headersLegal hleg hv
  have hparse := parseScan_sosBytes hv hfrm.mode hf hbody
  rw [hchk] at hparse
  obtain ⟨hL, hss, hse, hah, hal, h1, h4, hnd, hcs, hseq⟩ := hf
  have hc4 : ∀ c ∈ cs, c.c < 4 := fun c hc => (hcs c hc).1.trans_le hfrm.le_four
  have hids : ∀ c ∈ cs, c.td < 4 ∧ c.ta < 4 := fun c hc =>
    ⟨Nat.lt_succ_of_le (hcs c hc).2.1, Nat.lt_succ_of_le (hcs c hc).2.2.1⟩
  refine ⟨_, exec_setscn_of_ok hparse, scan0Word_scanOf hss h4 hc4, scan1Word_scanOf hah hal h4 hids, ?_, ?_, ?_,
    fun c hc => foldl_set_get hc4 hc, fun x => rfl, ?_⟩
  · refine (extract_frame1Word _).trans ?_
    rw [spaceCode_eq, ← resolveCs_eq_colourSpace]
    rfl
  · exact congrArg (· ++ 0#16) scanOf_srows
  · refine (congrArg (·.zeroExtend 32) scanOf_scols).trans (BitVec.eq_of_toNat_eq ?_)
    rw [toNat_append, BitVec.toNat_setWidth, BitVec.toNat_ofNat, BitVec.toNat_ofNat]
    omega
  · have hpos : BitVec.ofNat 32 (s.srcPos.toNat + 6 + 2 * cs.length) = s.srcPos + BitVec.ofNat 32 (6 + 2 * cs.length) := by
      rw [Nat.add_assoc, BitVec.ofNat_add, BitVec.ofNat_toNat, BitVec.setWidth_eq]
    rw [← hpos]
    rfl

/-- Settles O26: each check raises where R180 has it, and nothing is committed before the last. -/
theorem setscnErrorsCommitNothing : Obligations.SetscnErrorsCommitNothing := by
  intro s L cs ss se ah al hleg hL hss hse hah hal h4 hnd hcs
  refine ⟨fun hv => exec_setscn_of_error (parseScan_of_no_frame hv), fun hv => ?_⟩
  have hfrm := frameOk_of_headersLegal hleg hv
  have hseqIff : (s.dec.frm.mode = .sof0 ∨ s.dec.frm.mode = .sof1) ↔ s.dec.frm.mode.isSeq = true := (isSeq_iff _).symm
  have hhead : ∀ {ns : Nat} {bs : List Byte}, 1 ≤ ns → ns ≤ 4 →
      ((s.dec.frm.mode = .sof0 ∨ s.dec.frm.mode = .sof1) → ns = s.dec.frm.ncomp.toNat ∨ ns = 1) →
      srcHolds s s.srcPos.toNat (be16Bytes L ++ [BitVec.ofNat 8 ns] ++ scanCompBytes s cs ++ bs) →
      parseScan s = parseScanComps s ns (s.srcPos.toNat + 3) [] >>= scanEnd s L ns (s.srcPos.toNat + 3 + 2 * ns) := by
    intro ns bs h1 hns hseq hb
    obtain ⟨hb, -⟩ := srcIs_append.mp hb
    obtain ⟨hb, -⟩ := srcIs_append.mp hb
    rw [parseScan_of_head hv hL (by omega) hb, if_neg (by omega), if_neg fun hbad => ?_]
    have := hseq (hseqIff.mpr hbad.1)
    omega
  have hlen : ∀ ns, (be16Bytes L ++ [BitVec.ofNat 8 ns]).length = 3 := fun _ => rfl
  have hread : ∀ {ns : Nat} {bs : List Byte}, cs.length ≤ ns →
      srcHolds s s.srcPos.toNat (be16Bytes L ++ [BitVec.ofNat 8 ns] ++ scanCompBytes s cs ++ bs) →
      parseScanComps s ns (s.srcPos.toNat + 3) [] =
        (parseScanComps s (ns - cs.length) (s.srcPos.toNat + 3 + 2 * cs.length) (cs.map ScanComp.c).reverse).map (cs ++ ·) ∧
      srcHolds s (s.srcPos.toNat + 3 + 2 * cs.length) bs := by
    intro ns bs hle hb
    obtain ⟨hb, hb3⟩ := srcIs_append.mp hb
    obtain ⟨hb, hb2⟩ := srcIs_append.mp hb
    rw [List.length_append, hlen, length_scanCompBytes, ← Nat.add_assoc] at hb3
    obtain ⟨n, rfl⟩ : ∃ n, ns = cs.length + n := ⟨ns - cs.length, by omega⟩
    rw [Nat.add_sub_cancel_left]
    have h := parseScanComps_bytes (pos := s.srcPos.toNat + 3) hcs hnd (fun _ _ => List.not_mem_nil) hb2 n
    rw [List.append_nil] at h
    exact ⟨h, hb3⟩
  have hcomp : ∀ {ns : Nat} {bs : List Byte} {r : Raise}, cs.length < ns → ns ≤ 4 →
      ((s.dec.frm.mode = .sof0 ∨ s.dec.frm.mode = .sof1) → ns = s.dec.frm.ncomp.toNat ∨ ns = 1) →
      srcHolds s s.srcPos.toNat (be16Bytes L ++ [BitVec.ofNat 8 ns] ++ scanCompBytes s cs ++ bs) →
      (∀ n, parseScanComps s (n + 1) (s.srcPos.toNat + 3 + 2 * cs.length) (cs.map ScanComp.c).reverse = .error r) →
      exec .setscn s = .next (errorEntry r s) := by
    intro ns bs r hlt hns hseq hb hr
    refine exec_setscn_of_error ?_
    obtain ⟨n, hn⟩ : ∃ n, ns - cs.length = n + 1 := ⟨ns - cs.length - 1, by omega⟩
    rw [hhead (by omega) hns hseq hb, (hread (by omega) hb).1, hn, hr]
    rfl
  refine ⟨fun ns hns hbad hb => ?_, fun ns h1 hns hseq hne hne1 hb => ?_, fun ns id b hlt hns hseq hb => ?_,
    fun e hf hchk hb => ?_, fun bs r hlt hb hr => ?_, fun ns part r hlt hns hseq hp hb hr => ?_,
    fun part r h1 hseq hp hb hr => ?_⟩
  · exact exec_setscn_of_error (by rw [parseScan_of_head hv hL hns hb, if_pos hbad])
  · refine exec_setscn_of_error ?_
    rw [parseScan_of_head hv hL (by omega) hb, if_neg (by omega), if_pos ⟨hseqIff.mp hseq, hne, hne1⟩]
  · have hb3 := (hread (by omega) hb).2
    refine ⟨fun hnone => ?_, fun ⟨c, hc, hid⟩ => ?_, fun ⟨c, hc, hid⟩ hnib => ?_⟩
    · refine hcomp hlt hns hseq hb fun n => ?_
      rw [parseScanComps_cons hb3, findComp_eq_none hnone]
      rfl
    · refine hcomp hlt hns hseq hb fun n => ?_
      rw [parseScanComps_cons hb3, ← hid, findComp_of_scanCompOk (hcs c hc)]
      dsimp only
      refine if_pos (.inl ?_)
      rw [List.contains_iff_mem, List.mem_reverse]
      exact List.mem_map_of_mem hc
    · refine hcomp hlt hns hseq hb fun n => ?_
      rw [parseScanComps_cons hb3]
      cases hfind : s.dec.frm.findComp id with
      | none =>
        have := List.find?_eq_none.mp hfind c (List.mem_range.mpr hc)
        simp [hid] at this
      | some c0 =>
        dsimp only
        refine if_pos (.inr ?_)
        rw [toNat_hi4, toNat_lo4]
        exact hnib
  · refine exec_setscn_of_error ?_
    rw [parseScan_sosBytes hv hfrm.mode hf hb, hchk]
  · exact exec_setscn_of_error (parseScan_of_headStops hv hlt hb hr)
  · exact hcomp hlt hns hseq hb fun n => parseScanComps_stops hp (hread (by omega) hb).2 hr n _
  · obtain ⟨hcs', hb3⟩ := hread le_rfl hb
    refine exec_setscn_of_error ?_
    rw [hhead h1 h4 hseq hb, hcs', Nat.sub_self]
    exact scanEnd_stops hp hb3 hr _

/-! ### What the headers depend on -/

section
variable {s s' : State}

theorem be16_eq_src (s : State) (i : Nat) :
    s.be16 i = (do
      let hi ← s.src i
      let lo ← s.src (i + 1)
      pure (hi.toNat * 256 + lo.toNat)) := rfl

theorem parseComps_congr {n p : Nat} (h : ∀ i, i < 3 * n → s.src (p + i) = s'.src (p + i)) :
    parseComps s n p = parseComps s' n p := by
  induction n generalizing p with
  | zero => rfl
  | succ n ih =>
    have h0 := h 0 (by omega)
    have hrest : parseComps s n (p + 3) = parseComps s' n (p + 3) :=
      ih fun i hi => by simpa only [Nat.add_assoc] using h (3 + i) (by omega)
    rw [Nat.add_zero] at h0
    rw [parseComps, parseComps, h0, h 1 (by omega), h 2 (by omega), hrest]

/-- What SETFRM's parse answers or raises depends only on the bytes of the body. -/
theorem parseFrame_congr (m : Mode) (hp : s.srcPos = s'.srcPos)
    (h8 : ∀ i, i < 8 → s.src (s.srcPos.toNat + i) = s'.src (s.srcPos.toNat + i))
    (hn : ∀ nf, s.src (s.srcPos.toNat + 7) = .ok nf → ∀ i, i < 8 + 3 * nf.toNat →
      s.src (s.srcPos.toNat + i) = s'.src (s.srcPos.toNat + i)) : parseFrame s m = parseFrame s' m := by
  have h0 := h8 0 (by omega)
  rw [Nat.add_zero] at h0
  have hb : ∀ i, i + 1 < 8 → s.be16 (s.srcPos.toNat + i) = s'.be16 (s.srcPos.toNat + i) := fun i hi => by
    rw [be16_eq_src, be16_eq_src, h8 i (by omega), Nat.add_assoc, h8 (i + 1) hi]
  have hb0 := hb 0 (by omega)
  rw [Nat.add_zero] at hb0
  unfold parseFrame
  rw [← hp]
  dsimp only
  rw [hb0, h8 2 (by omega), hb 3 (by omega), hb 5 (by omega), ← h8 7 (by omega)]
  cases hnf : s.src (s.srcPos.toNat + 7) with
  | error r => rfl
  | ok nf =>
    have hcomps : parseComps s nf.toNat (s.srcPos.toNat + 8) = parseComps s' nf.toNat (s.srcPos.toNat + 8) :=
      parseComps_congr fun i hi => by simpa only [Nat.add_assoc] using hn nf hnf (8 + i) (by omega)
    simp only [bind, Except.bind, hcomps]

theorem parseScanComps_congr {n p : Nat} {seen : List Nat} (hf : s.dec.frm = s'.dec.frm)
    (h : ∀ i, i < 2 * n → s.src (p + i) = s'.src (p + i)) : parseScanComps s n p seen = parseScanComps s' n p seen := by
  induction n generalizing p seen with
  | zero => rfl
  | succ n ih =>
    have h0 := h 0 (by omega)
    have hrest : ∀ seen, parseScanComps s n (p + 2) seen = parseScanComps s' n (p + 2) seen := fun seen =>
      ih fun i hi => by simpa only [Nat.add_assoc] using h (2 + i) (by omega)
    rw [Nat.add_zero] at h0
    simp only [parseScanComps, h0, h 1 (by omega), hrest, hf]

/-- What SETSCN's parse answers or raises depends only on the bytes of the body, the frame, RI and the tables loaded. -/
theorem parseScan_congr (hp : s.srcPos = s'.srcPos)
    (h3 : ∀ i, i < 3 → s.src (s.srcPos.toNat + i) = s'.src (s.srcPos.toNat + i))
    (hn : ∀ ns, s.src (s.srcPos.toNat + 2) = .ok ns → ∀ i, i < 6 + 2 * ns.toNat →
      s.src (s.srcPos.toNat + i) = s'.src (s.srcPos.toNat + i))
    (hf : s.dec.frm = s'.dec.frm) (hri : s.dec.ri = s'.dec.ri) (hdc : s.dec.tab.dcv = s'.dec.tab.dcv)
    (hac : s.dec.tab.acv = s'.dec.tab.acv) : parseScan s = parseScan s' := by
  have h0 := h3 0 (by omega)
  rw [Nat.add_zero] at h0
  have hb0 : s.be16 s.srcPos.toNat = s'.be16 s.srcPos.toNat := by
    rw [be16_eq_src, be16_eq_src, h0, h3 1 (by omega)]
  unfold parseScan
  rw [← hp, ← hf, ← hri]
  dsimp only
  rw [hb0, ← h3 2 (by omega)]
  cases hns : s.src (s.srcPos.toNat + 2) with
  | error r => rfl
  | ok ns =>
    have hcomps : parseScanComps s ns.toNat (s.srcPos.toNat + 3) [] = parseScanComps s' ns.toNat (s.srcPos.toNat + 3) [] :=
      parseScanComps_congr hf fun i hi => by simpa only [Nat.add_assoc] using hn ns hns (3 + i) (by omega)
    have hq : ∀ j, j < 3 → s.src (s.srcPos.toNat + 3 + 2 * ns.toNat + j) = s'.src (s.srcPos.toNat + 3 + 2 * ns.toNat + j) :=
      fun j hj => by simpa only [Nat.add_assoc] using hn ns hns (3 + (2 * ns.toNat + j)) (by omega)
    have hq0 := hq 0 (by omega)
    rw [Nat.add_zero] at hq0
    have htab : ∀ k cs, tablesLoaded s.dec.tab k cs = tablesLoaded s'.dec.tab k cs := fun k cs => by
      unfold tablesLoaded
      rw [hdc, hac]
    simp only [bind, Except.bind, hcomps, hq0, hq 1 (by omega), hq 2 (by omega), htab]

/-- Where SETFRM has entered no error, it has committed what its parse answers. -/
theorem setfrm_commits {t : State} {k : SofKind} (h : exec (.setfrm k) s = .next t) (he : t.proc.err = false) :
    ∃ f, parseFrame s (modeOf k) = .ok f ∧ t.dec.frm = frameOf (modeOf k) f (geometry (modeOf k) f) ∧
      t.dec.scn = Scan.reset ∧ t.srcPos = BitVec.ofNat 32 f.pos := by
  rw [exec, execSetfrm] at h
  cases hp : parseFrame s (modeOf k) with
  | error r =>
    rw [hp] at h
    obtain rfl := Host.Outcome.next.inj h
    cases he
  | ok f =>
    rw [hp] at h
    dsimp only at h
    split at h
    · obtain rfl := Host.Outcome.next.inj h
      cases he
    · split at h
      · obtain rfl := Host.Outcome.next.inj h
        exact ⟨f, rfl, rfl, rfl, rfl⟩
      · obtain rfl := Host.Outcome.next.inj h
        cases he

end

/-- Settles O28: equal bytes parse to equal headers, and the registers committed are the header's. -/
theorem headersDependOnlyOnTheirBody : Obligations.HeadersDependOnlyOnTheirBody := by
  refine ⟨fun s s' t t' k hp _ h8 hn ht ht' _ _ he he' => ?_, fun s s' t t' hp h3 hn hf hi hri hdc hac ht ht' hs hs' => ?_⟩
  · obtain ⟨f, hparse, hfrm, hscn, hpos⟩ := setfrm_commits ht he
    obtain ⟨f', hparse', hfrm', hscn', hpos'⟩ := setfrm_commits ht' he'
    rw [parseFrame_congr _ hp h8 hn, hparse'] at hparse
    obtain rfl := Except.ok.inj hparse
    exact ⟨hfrm.trans hfrm'.symm, hscn.trans hscn'.symm, hpos.trans hpos'.symm⟩
  · have hparse := parseScan_congr hp h3 hn hf hri hdc hac
    rw [exec, execSetscn] at ht ht'
    rw [hparse] at ht
    cases hp' : parseScan s' with
    | error r =>
      rw [hp'] at ht ht'
      obtain rfl := Host.Outcome.next.inj ht
      obtain rfl := Host.Outcome.next.inj ht'
      exact ⟨rfl, nofun⟩
    | ok hdr =>
      rw [hp'] at ht ht'
      obtain rfl := Host.Outcome.next.inj ht
      obtain rfl := Host.Outcome.next.inj ht'
      refine ⟨hs.trans hs'.symm, fun _ => ⟨?_, rfl⟩⟩
      show scanOf s hdr = scanOf s' hdr
      rw [scanOf, scanOf, hf, hi]

end Sys2Proof.Cert
end

section
/-! LDQT (R141, R142, R150): what the loop over a DQT body loads, table by table, and where it stops. -/
namespace Sys2Proof.Cert
open Sys2Proof.Machine

/-! ### Runs of source bytes and fields -/

section
variable {p : Params} {c : Cfg} {m : Memory} {i : Nat} {r : Raise}

theorem srcBytesIn_ok {bs : List Byte} (h : srcIs p c m i bs) : srcBytesIn p c m bs.length i = .ok bs := by
  induction bs generalizing i with
  | nil => rfl
  | cons b bs ih =>
    obtain ⟨hb, hbs⟩ := srcIs_cons.mp h
    rw [List.length_cons, srcBytesIn, hb, ih hbs]
    rfl

theorem srcBytesIn_stops {bs : List Byte} {n : Nat} (hlen : bs.length < n) (h : srcIs p c m i bs)
    (hr : noByteAt p c (i + bs.length) r) : srcBytesIn p c m n i = .error r := by
  induction bs generalizing i n with
  | nil =>
    obtain ⟨n, rfl⟩ : ∃ k, n = k + 1 := ⟨n - 1, by simp at hlen; omega⟩
    have hb : srcByteIn p c m i = .error r := srcByteIn_of_noByteAt hr m
    rw [srcBytesIn, hb]
    rfl
  | cons b bs ih =>
    rw [List.length_cons] at hlen hr
    obtain ⟨n, rfl⟩ : ∃ k, n = k + 1 := ⟨n - 1, by omega⟩
    obtain ⟨hb, hbs⟩ := srcIs_cons.mp h
    rw [srcBytesIn, hb, ih (by omega) hbs (by rwa [Nat.add_assoc, Nat.add_comm 1])]
    rfl

theorem srcFieldsIn_ok {vs : List Nat} (hv : ∀ v ∈ vs, v < 65536) (h : srcIs p c m i (vs.flatMap be16Bytes)) :
    srcFieldsIn p c m vs.length i = .ok vs := by
  induction vs generalizing i with
  | nil => rfl
  | cons v vs ih =>
    obtain ⟨hv, hvs⟩ := List.forall_mem_cons.mp hv
    obtain ⟨hb, hbs⟩ := srcIs_append.mp h
    rw [List.length_cons, srcFieldsIn, be16In_be16Bytes hb, ih (i := i + 2) hvs hbs, Nat.mod_eq_of_lt hv]
    rfl

theorem srcFieldsIn_stops {n : Nat} {bs : List Byte} (hlen : bs.length < 2 * n) (h : srcIs p c m i bs)
    (hr : noByteAt p c (i + bs.length) r) : srcFieldsIn p c m n i = .error r := by
  induction n generalizing i bs with
  | zero => omega
  | succ n ih =>
    match bs with
    | [] =>
      rw [srcFieldsIn, be16In_of_noByteAt (by simp) h hr]
      rfl
    | [b] =>
      rw [srcFieldsIn, be16In_of_noByteAt (by simp) h hr]
      rfl
    | b :: b' :: bs =>
      rw [List.length_cons, List.length_cons] at hlen hr
      obtain ⟨hb, hbs⟩ := (srcIs_append (as := [b, b'])).mp h
      rw [srcFieldsIn, be16In_ok hb, ih (i := i + 2) (by omega) hbs (by rwa [Nat.add_assoc, Nat.add_comm 2])]
      rfl

end

/-! ### The values at their natural places -/

theorem zz_inj : ∀ i, i < 64 → ∀ j, j < 64 → zz i = zz j → i = j := by decide +kernel

theorem zz_lt : ∀ k, k < 64 → zz k < 64 := by decide +kernel

theorem placeQuant_at {k : Nat} {vs : List Nat} (hk : k + vs.length ≤ 64) (q : Vector Half 64) {j : Nat} (hj : j < 64) :
    (placeQuant k vs q).toList.getD (zz j) 0 =
      if k ≤ j ∧ j < k + vs.length then BitVec.ofNat 16 (vs.getD (j - k) 0) else q.toList.getD (zz j) 0 := by
  induction vs generalizing k q with
  | nil => rw [placeQuant, if_neg (by simp)]
  | cons v vs ih =>
    rw [List.length_cons] at hk
    have hset : (q.setIfInBounds (zz k) (BitVec.ofNat 16 v)).toList.getD (zz j) 0 =
        if j = k then BitVec.ofNat 16 v else q.toList.getD (zz j) 0 := by
      rw [Vector.toList_setIfInBounds, List.getD_eq_getElem?_getD, List.getD_eq_getElem?_getD, List.getElem?_set]
      by_cases hjk : j = k
      · rw [if_pos hjk, if_pos (by rw [hjk]), if_pos (by simpa using zz_lt k (by omega))]
        rfl
      · rw [if_neg hjk, if_neg fun he => hjk (zz_inj k (by omega) j hj he).symm]
    rw [placeQuant, ih (by omega), hset, List.length_cons]
    rcases Nat.lt_trichotomy j k with hlt | rfl | hgt
    · rw [if_neg (by omega), if_neg (by omega), if_neg (by omega)]
    · rw [if_neg (by omega), if_pos rfl, if_pos (by omega), Nat.sub_self, List.getD_cons_zero]
    · by_cases hin : j < k + (vs.length + 1)
      · rw [if_pos (by omega), if_pos (by omega), show j - k = j - (k + 1) + 1 by omega, List.getD_cons_succ]
      · rw [if_neg (by omega), if_neg (by omega), if_neg (by omega)]

/-! ### The tables loaded -/

/-- Tables committed one after the other. -/
def loadQuants (ts : List DqtTable) (t : Tables) : Tables := ts.foldl (fun t d => t.commitQuant d.tq d.pq d.vals) t

theorem loadQuants_append (ts : List DqtTable) (d : DqtTable) (t : Tables) :
    loadQuants (ts ++ [d]) t = (loadQuants ts t).commitQuant d.tq d.pq d.vals := List.foldl_append ..

theorem lastQuant_append (ts : List DqtTable) (d : DqtTable) (id : Nat) :
    lastQuant (ts ++ [d]) id = if d.tq = id then some d else lastQuant ts id := by
  rw [lastQuant, List.reverse_append, List.reverse_singleton, List.singleton_append, List.find?_cons]
  by_cases h : d.tq = id
  · rw [if_pos h, h, beq_self_eq_true]
  · rw [if_neg h, beq_eq_false_iff_ne.mpr h, lastQuant]

theorem quantLoaded_loadQuants {ts : List DqtTable} (hts : ∀ t ∈ ts, t.ok) (old : Tables) :
    quantLoaded ts old (loadQuants ts old) := by
  induction ts using List.reverseRecOn with
  | nil => exact ⟨fun id _ => ⟨fun k _ => rfl, by simp [lastQuant, loadQuants], rfl⟩, rfl⟩
  | append_singleton ts d ih =>
    obtain ⟨hids, hrest⟩ := ih fun t ht => hts t (List.mem_append_left _ ht)
    obtain ⟨hpq, htq, hlen, hvals⟩ := hts d (List.mem_append_right _ List.mem_cons_self)
    rw [loadQuants_append]
    refine ⟨fun id hid => ?_, hrest⟩
    obtain ⟨h1, h2, h3⟩ := hids id hid
    rw [lastQuant_append, Tables.commitQuant]
    dsimp only
    rw [Quad.get_set (by omega) hid, Quad.get_set (by omega) hid, Quad.get_set (by omega) hid]
    by_cases hd : d.tq = id
    · simp only [hd, if_true]
      refine ⟨fun k hk => ?_, by simp, trivial⟩
      rw [placeQuant_at (by omega) _ hk, if_pos (by omega), Nat.sub_zero]
    · rw [if_neg hd, if_neg (Ne.symm hd), if_neg (Ne.symm hd), if_neg (Ne.symm hd)]
      exact ⟨h1, h2, h3⟩

/-! ### The loop -/

section
variable {s : State} {p : Nat} {r : Raise}

theorem length_dqt_bytes {t : DqtTable} (h : t.ok) : t.bytes.length = 1 + 64 * (t.pq + 1) := by
  obtain ⟨hpq, -, hlen, -⟩ := h
  have h2 : ∀ vs : List Nat, (vs.flatMap be16Bytes).length = 2 * vs.length := fun vs => by
    induction vs with
    | nil => rfl
    | cons v vs ih =>
      rw [List.flatMap_cons, List.length_append, ih, List.length_cons, show (be16Bytes v).length = 2 from rfl]
      omega
  have h1 : ∀ vs : List Nat, (vs.flatMap fun v => [BitVec.ofNat 8 v]).length = vs.length := fun vs => by simp
  rw [DqtTable.bytes, List.length_cons]
  by_cases h0 : t.pq = 0
  · simp only [h0, if_true]
    rw [h1, hlen]
  · simp only [h0, if_false]
    rw [h2, hlen]
    omega

theorem readQuant_ok {t : DqtTable} (ht : t.ok) (h : srcHolds s p t.bytes) : readQuant s t.pq (p + 1) = .ok t.vals := by
  obtain ⟨hpq, -, hlen, hvals⟩ := ht
  obtain ⟨-, hv⟩ := srcIs_cons.mp h
  unfold readQuant
  by_cases h0 : t.pq = 0
  · simp only [h0, if_true, zero_add, pow_one] at hv hvals ⊢
    have hmap : t.vals.flatMap (fun v => [BitVec.ofNat 8 v]) = t.vals.map (BitVec.ofNat 8) :=
      List.flatMap_pure_eq_map ..
    rw [hmap] at hv
    have hread := srcBytesIn_ok hv
    rw [List.length_map, hlen] at hread
    rw [hread]
    refine congrArg Except.ok ?_
    rw [List.map_map]
    exact (List.map_congr_left fun v hv => toNat_byte (hvals v hv)).trans (List.map_id' _)
  · have hpq1 : t.pq = 1 := by omega
    simp only [hpq1, one_ne_zero, if_false] at hv hvals ⊢
    have hread := srcFieldsIn_ok (vs := t.vals) hvals hv
    rwa [hlen] at hread

theorem readQuant_stops {pq : Nat} {bs : List Byte} (hpq : pq ≤ 1) (hlen : bs.length < 64 * (pq + 1))
    (h : srcHolds s p bs) (hr : srcStops s (p + bs.length) r) : readQuant s pq p = .error r := by
  unfold readQuant
  by_cases h0 : pq = 0
  · rw [if_pos h0, srcBytesIn_stops (by rw [h0] at hlen; omega) h hr]
    rfl
  · rw [if_neg h0]
    exact srcFieldsIn_stops (by rw [show pq = 1 by omega] at hlen; omega) h hr

/-- One more table's first byte read. -/
theorem ldqtLoop_step {pq tq rem : Nat} (hpq : pq < 16) (htq : tq < 16) (hb : s.src p = .ok (nibbles pq tq))
    (hrem : rem ≠ 0) (fuel : Nat) (t : Tables) :
    ldqtLoop s (fuel + 1) p rem t =
      if 3 < tq ∨ 1 < pq then .error (.at .badQuantSegment (p + 1)) t
      else if rem - 1 < 64 * (pq + 1) then .error (.at .badSegmentLength (p + 1)) t
      else
        match readQuant s pq (p + 1) with
        | .error r => .error r t
        | .ok raw =>
          ldqtLoop s fuel (p + 1 + 64 * (pq + 1)) (rem - 1 - 64 * (pq + 1)) (t.commitQuant tq pq raw) := by
  rw [ldqtLoop, if_neg hrem, hb, bind_run, liftX_ok]
  dsimp only
  rw [toNat_hi4_nibbles hpq htq, toNat_lo4_nibbles hpq htq]
  by_cases h1 : 3 < tq ∨ 1 < pq
  · rw [if_pos h1, if_pos h1]
    rfl
  rw [if_neg h1, if_neg h1]
  by_cases h2 : rem - 1 < 64 * (pq + 1)
  · rw [if_pos h2, if_pos h2]
    rfl
  rw [if_neg h2, if_neg h2, bind_run]
  cases readQuant s pq (p + 1) <;> rfl

/-- The tables that a body holds, loaded. -/
theorem ldqtLoop_tables {ts : List DqtTable} (hts : ∀ t ∈ ts, t.ok) (h : srcHolds s p (dqtBytes ts)) (fuel rem : Nat)
    (t : Tables) :
    ldqtLoop s (ts.length + fuel) p ((dqtBytes ts).length + rem) t =
      ldqtLoop s fuel (p + (dqtBytes ts).length) rem (loadQuants ts t) := by
  induction ts generalizing p t with
  | nil => rw [List.length_nil, Nat.zero_add, show (dqtBytes []).length = 0 from rfl, Nat.zero_add, Nat.add_zero]; rfl
  | cons d ts ih =>
    obtain ⟨hd, hts⟩ := List.forall_mem_cons.mp hts
    obtain ⟨hb, hrest⟩ := srcIs_append.mp (show srcHolds s p (d.bytes ++ dqtBytes ts) from h)
    have hlen := length_dqt_bytes hd
    have hbytes : (dqtBytes (d :: ts)).length = 1 + 64 * (d.pq + 1) + (dqtBytes ts).length := by
      rw [← hlen]
      exact List.length_append
    have hread := readQuant_ok hd hb
    have hok := hd
    obtain ⟨hpq, htq, -⟩ := hok
    rw [List.length_cons, Nat.add_right_comm, ldqtLoop_step (by omega) (by omega) (srcIs_cons.mp hb).1 (by omega),
      if_neg (by omega), if_neg (by omega), hread]
    dsimp only
    rw [hbytes, show 1 + 64 * (d.pq + 1) + (dqtBytes ts).length + rem - 1 - 64 * (d.pq + 1) = (dqtBytes ts).length + rem by omega,
      show p + 1 + 64 * (d.pq + 1) = p + d.bytes.length by omega, ih hts hrest, hlen, Nat.add_assoc p]
    rfl

theorem length_le_dqtBytes (ts : List DqtTable) : ts.length ≤ (dqtBytes ts).length := by
  induction ts with
  | nil => exact le_rfl
  | cons d ts ih =>
    have hlen : (dqtBytes (d :: ts)).length = d.bytes.length + (dqtBytes ts).length := List.length_append
    have h1 : 1 ≤ d.bytes.length := Nat.le_add_left ..
    rw [hlen, List.length_cons]
    omega

/-! ### The command -/

theorem exec_ldqt_of_be16 {L : Nat} (hL : s.be16 s.srcPos.toNat = .ok L) :
    exec .ldqt s =
      finishTables .ldqt s
        (if L < 2 then .error (.at .badSegmentLength (s.srcPos.toNat + 2)) s.dec.tab
         else ldqtLoop s (L - 2) (s.srcPos.toNat + 2) (L - 2) s.dec.tab) := by
  rw [exec, execLdqt, ldqtBody]
  rw [hL, bind_run, liftX_ok]
  refine congrArg (finishTables .ldqt s) ?_
  by_cases h : L < 2
  · rw [if_pos h]
    exact congrArg (fun m : EStateM Raise Tables Nat => m s.dec.tab) (if_pos h)
  · rw [if_neg h]
    exact congrArg (fun m : EStateM Raise Tables Nat => m s.dec.tab) (if_neg h)

theorem exec_ldqt_of_be16_error (hL : s.be16 s.srcPos.toNat = .error r) :
    exec .ldqt s = .next (errorEntry r s) := by
  rw [exec, execLdqt, ldqtBody]
  rw [hL, bind_run, liftX_error]
  rfl

/-- LDQT has loaded the tables that stand first in the body, and goes on in it. -/
theorem exec_ldqt_tables {L : Nat} {ts : List DqtTable} (hts : ∀ t ∈ ts, t.ok) (hL : L < 65536)
    (hle : 2 + (dqtBytes ts).length ≤ L) (h : srcHolds s s.srcPos.toNat (be16Bytes L ++ dqtBytes ts)) :
    exec .ldqt s =
      finishTables .ldqt s
        (ldqtLoop s (L - 2 - ts.length) (s.srcPos.toNat + (2 + (dqtBytes ts).length)) (L - (2 + (dqtBytes ts).length))
          (loadQuants ts s.dec.tab)) := by
  obtain ⟨hb, hrest⟩ := srcIs_append.mp h
  have hfuel := length_le_dqtBytes ts
  rw [exec_ldqt_of_be16 (be16_be16Bytes hb hL), if_neg (by omega)]
  have hloop := ldqtLoop_tables (p := s.srcPos.toNat + 2) hts hrest (L - 2 - ts.length) (L - (2 + (dqtBytes ts).length))
    s.dec.tab
  rw [show ts.length + (L - 2 - ts.length) = L - 2 by omega,
    show (dqtBytes ts).length + (L - (2 + (dqtBytes ts).length)) = L - 2 by omega] at hloop
  rw [hloop, Nat.add_assoc]

end

/-- Settles O18: the loop loads the tables one by one and ends with the body. -/
theorem ldqtLoadsEveryTable : Obligations.LdqtLoadsEveryTable := by
  intro s ts hts hL h
  refine ⟨loadQuants ts s.dec.tab, quantLoaded_loadQuants hts _, ?_⟩
  have hend : ∀ fuel p t, ldqtLoop s fuel p 0 t = .ok p t := fun fuel p t => by cases fuel <;> rfl
  rw [exec_ldqt_tables hts hL le_rfl h, Nat.sub_self, hend, finishTables, BitVec.ofNat_add, BitVec.ofNat_toNat,
    BitVec.setWidth_eq]
  rfl

/-- Settles O19: what the loop meets after the tables it has loaded. -/
theorem ldqtErrorsKeepEarlierTables : Obligations.LdqtErrorsKeepEarlierTables := by
  intro s ts L hts hL pos used pre raises fails
  have hloaded := quantLoaded_loadQuants hts s.dec.tab
  have hfuel := length_le_dqtBytes ts
  have hraise : ∀ {bs : List Byte} {r : Raise}, used ≤ L → srcHolds s pos (pre ++ bs) →
      ldqtLoop s (L - 2 - ts.length) (pos + used) (L - used) (loadQuants ts s.dec.tab) =
        .error r (loadQuants ts s.dec.tab) → raises r := fun {bs r} hle h hr =>
    ⟨_, hloaded, by rw [exec_ldqt_tables hts hL hle (srcIs_append.mp h).1, hr]; rfl⟩
  have hafter : ∀ {bs : List Byte}, srcHolds s pos (pre ++ bs) → srcHolds s (pos + used) bs := fun {bs} h => by
    have := (srcIs_append.mp h).2
    rwa [List.length_append] at this
  have hstep : used < L → ∃ k, L - 2 - ts.length = k + 1 := fun h => ⟨L - 2 - ts.length - 1, by omega⟩
  refine ⟨fun h2 h => ?_, fun pq tq hpq htq hbad hlt h => ?_, fun pq tq hpq htq hlt hshort h => ?_,
    fun pq tq part r hpq htq hle hpart h hr => ?_, fun r hlt h hr => ?_, fun bs r hlen h hr => ?_⟩
  · rw [exec_ldqt_of_be16 (be16_be16Bytes h hL), if_pos h2]
    rfl
  · obtain ⟨k, hk⟩ := hstep hlt
    refine hraise hlt.le h ?_
    rw [hk, ldqtLoop_step hpq htq (srcIs_cons.mp (hafter h)).1 (by omega), if_pos hbad.symm]
  · obtain ⟨k, hk⟩ := hstep hlt
    refine hraise hlt.le h ?_
    rw [hk, ldqtLoop_step (by omega) (by omega) (srcIs_cons.mp (hafter h)).1 (by omega), if_neg (by omega),
      if_pos (by omega)]
  · obtain ⟨k, hk⟩ := hstep (by omega)
    obtain ⟨hb, hpartb⟩ := srcIs_cons.mp (hafter h)
    refine hraise (by omega) h ?_
    rw [hk, ldqtLoop_step (by omega) (by omega) hb (by omega), if_neg (by omega), if_neg (by omega),
      readQuant_stops hpq hpart hpartb hr]
  · obtain ⟨k, hk⟩ := hstep hlt
    refine hraise (bs := []) hlt.le (by rwa [List.append_nil]) ?_
    have hb : s.src (pos + used) = .error r := srcByteIn_of_noByteAt hr s.mem
    rw [hk, ldqtLoop, if_neg (by omega), hb, bind_run, liftX_error]
  · exact exec_ldqt_of_be16_error (be16_error (i := 0) h hr (by omega) (by omega))

end Sys2Proof.Cert
end

section
/-! The canonical codes (R161): what `buildHuff` assigns, and that no code begins another. -/
namespace Sys2Proof.Cert
open Sys2Proof.Machine

/-- The codes of one length, from a first code and the values left. -/
def codesOf (len code n : Nat) (vals : List Byte) : List HEntry :=
  (List.range n).map fun j => { len := len, code := code + j, sym := vals.getD j 0 }

theorem codesOf_succ (len code n : Nat) (vals : List Byte) :
    codesOf len code (n + 1) vals = ⟨len, code, vals.headD 0⟩ :: codesOf len (code + 1) n vals.tail := by
  rw [codesOf, List.range_succ_eq_map, List.map_cons, List.map_map, codesOf]
  congr 1
  · cases vals <;> rfl
  · refine List.map_congr_left fun j _ => ?_
    rw [Function.comp, Nat.add_right_comm, Nat.add_assoc code j 1]
    cases vals <;> rfl

theorem assignCodes_eq (len n code : Nat) (vals : List Byte) :
    assignCodes len n code vals =
      if n = 0 ∨ code + n ≤ 2 ^ len then some (codesOf len code n vals, code + n, vals.drop n) else none := by
  induction n generalizing code vals with
  | zero => rfl
  | succ n ih =>
    rw [assignCodes, ih, codesOf_succ]
    by_cases hc : 2 ^ len ≤ code
    · rw [if_pos hc, if_neg (by omega)]
    · rw [if_neg hc]
      by_cases hn : n = 0 ∨ code + 1 + n ≤ 2 ^ len
      · rw [if_pos hn, if_pos (by omega), List.drop_tail, Nat.add_right_comm, Nat.add_assoc]
      · rw [if_neg hn, if_neg (by omega)]

theorem getD_drop (vals : List Byte) (b j : Nat) : (vals.drop b).getD j 0 = vals.getD (b + j) 0 := by
  rw [List.getD_eq_getElem?_getD, List.getD_eq_getElem?_getD, List.getElem?_drop]

/-- The canonical codes of lengths `L + 1` to 16. -/
def codesFrom (counts : List Nat) (vals : List Byte) (L : Nat) : List HEntry :=
  (List.range' L (16 - L)).flatMap fun L =>
    codesOf (L + 1) (firstCode counts L) (counts.getD L 0) (vals.drop (codesBefore counts L))

theorem codesFrom_zero (counts : List Nat) (vals : List Byte) : codesFrom counts vals 0 = canonicalCodes counts vals := by
  rw [codesFrom, canonicalCodes, List.range_eq_range']
  refine List.flatMap_congr fun L _ => List.map_congr_left fun j _ => ?_
  rw [getD_drop]

theorem codesFrom_lt {counts : List Nat} {vals : List Byte} {L : Nat} (hL : L < 16) :
    codesFrom counts vals L =
      codesOf (L + 1) (firstCode counts L) (counts.getD L 0) (vals.drop (codesBefore counts L))
        ++ codesFrom counts vals (L + 1) := by
  rw [codesFrom, show 16 - L = 16 - (L + 1) + 1 by omega, List.range'_succ, List.flatMap_cons, codesFrom]

theorem codesBefore_succ {counts : List Nat} {L : Nat} (hL : L < counts.length) :
    codesBefore counts (L + 1) = codesBefore counts L + counts.getD L 0 := by
  rw [codesBefore, List.take_succ_eq_append_getElem hL, List.sum_append, codesBefore, List.getD_eq_getElem _ _ hL,
    List.sum_singleton]

/-- Table construction from a length on. -/
theorem buildFrom_eq {counts : List Nat} (hlen : counts.length = 16) (vals : List Byte) {k L : Nat} (hk : L + k = 16) :
    buildFrom (counts.drop L) (L + 1) (firstCode counts L) (vals.drop (codesBefore counts L)) =
      if ∀ M, L ≤ M → M < 16 → counts.getD M 0 = 0 ∨ firstCode counts M + counts.getD M 0 ≤ 2 ^ (M + 1) then
        some (codesFrom counts vals L)
      else none := by
  induction k generalizing L with
  | zero =>
    rw [List.drop_eq_nil_of_le (by omega), buildFrom, if_pos fun M h1 h2 => by omega, codesFrom,
      show 16 - L = 0 by omega]
    rfl
  | succ k ih =>
    have hL : L < counts.length := by omega
    have hget : counts[L] = counts.getD L 0 := (List.getD_eq_getElem _ _ hL).symm
    rw [List.drop_eq_getElem_cons hL, buildFrom, hget, assignCodes_eq]
    by_cases hfit : counts.getD L 0 = 0 ∨ firstCode counts L + counts.getD L 0 ≤ 2 ^ (L + 1)
    · rw [if_pos hfit]
      have hnext := ih (L := L + 1) (by omega)
      rw [firstCode, codesBefore_succ hL, Nat.mul_comm] at hnext
      dsimp only
      rw [List.drop_drop, hnext]
      by_cases hall : ∀ M, L + 1 ≤ M → M < 16 → counts.getD M 0 = 0 ∨ firstCode counts M + counts.getD M 0 ≤ 2 ^ (M + 1)
      · rw [if_pos hall, if_pos fun M h1 h2 => ?_]
        · exact congrArg some (codesFrom_lt (by omega)).symm
        · rcases Nat.eq_or_lt_of_le h1 with rfl | h1
          · exact hfit
          · exact hall M h1 h2
      · rw [if_neg hall, if_neg fun h => hall fun M h1 h2 => h M (by omega) h2]
    · rw [if_neg hfit, if_neg fun h => hfit (h L le_rfl (by omega))]

theorem buildHuff_eq {counts : List Nat} (hlen : counts.length = 16) (vals : List Byte) :
    buildHuff counts vals = if codesFit counts then some (canonicalCodes counts vals) else none := by
  have h := buildFrom_eq hlen vals (L := 0) (k := 16) rfl
  rw [codesFrom_zero] at h
  refine h.trans ?_
  by_cases hfit : codesFit counts
  · rw [if_pos hfit, if_pos fun M _ => hfit M]
  · rw [if_neg hfit, if_neg fun h => hfit fun M => h M (Nat.zero_le M)]

/-! ### No code begins another -/

/-- A canonical code's length, place in its length, and symbol. -/
theorem mem_canonicalCodes {counts : List Nat} {vals : List Byte} {x : HEntry} :
    x ∈ canonicalCodes counts vals ↔
      ∃ L j, L < 16 ∧ j < counts.getD L 0 ∧
        x = { len := L + 1, code := firstCode counts L + j, sym := vals.getD (codesBefore counts L + j) 0 } := by
  simp only [canonicalCodes, List.mem_flatMap, List.mem_map, List.mem_range]
  exact ⟨fun ⟨L, hL, j, hj, he⟩ => ⟨L, j, hL, hj, he.symm⟩, fun ⟨L, j, hL, hj, he⟩ => ⟨L, hL, j, hj, he.symm⟩⟩

/-- The first code of a longer length lies past the codes of a shorter one. -/
theorem firstCode_ge (counts : List Nat) (L d : Nat) :
    2 ^ (d + 1) * (firstCode counts L + counts.getD L 0) ≤ firstCode counts (L + (d + 1)) := by
  induction d with
  | zero => rw [pow_one, firstCode]
  | succ d ih =>
    rw [← Nat.add_assoc L, firstCode, pow_succ', Nat.mul_assoc]
    omega

theorem canonicalCodes_bounds {counts : List Nat} {vals : List Byte} (hfit : codesFit counts) {x : HEntry}
    (hx : x ∈ canonicalCodes counts vals) : 1 ≤ x.len ∧ x.len ≤ 16 ∧ x.code < 2 ^ x.len := by
  obtain ⟨L, j, hL, hj, rfl⟩ := mem_canonicalCodes.mp hx
  refine ⟨Nat.le_add_left .., hL, ?_⟩
  rcases hfit L hL with h0 | h
  · omega
  · exact lt_of_lt_of_le (Nat.add_lt_add_left hj _) h

theorem canonicalCodes_prefix_free {counts : List Nat} {vals : List Byte} {x y : HEntry}
    (hx : x ∈ canonicalCodes counts vals) (hy : y ∈ canonicalCodes counts vals) (hne : x ≠ y) (hle : x.len ≤ y.len) :
    y.code / 2 ^ (y.len - x.len) ≠ x.code := by
  obtain ⟨L, j, hL, hj, rfl⟩ := mem_canonicalCodes.mp hx
  obtain ⟨M, i, hM, hi, rfl⟩ := mem_canonicalCodes.mp hy
  dsimp only at hle ⊢
  rw [Nat.add_sub_add_right]
  rcases Nat.eq_or_lt_of_le (Nat.le_of_add_le_add_right hle) with rfl | hlt
  · rw [Nat.sub_self, pow_zero, Nat.div_one]
    intro he
    obtain rfl : i = j := by omega
    exact hne rfl
  · obtain ⟨d, rfl⟩ : ∃ d, M = L + (d + 1) := ⟨M - L - 1, by omega⟩
    rw [Nat.add_sub_cancel_left]
    have hge := firstCode_ge counts L d
    have hdiv : firstCode counts L + counts.getD L 0 ≤ (firstCode counts (L + (d + 1)) + i) / 2 ^ (d + 1) := by
      rw [Nat.le_div_iff_mul_le (Nat.two_pow_pos _), Nat.mul_comm]
      omega
    omega

/-- Settles O20: the construction length by length; the codes of a longer length begin past those of a shorter one. -/
theorem canonicalCodesAreBuilt : Obligations.CanonicalCodesAreBuilt :=
  ⟨fun _ vals hlen => buildHuff_eq hlen vals,
    fun _ _ _ hfit => ⟨fun _ hx => canonicalCodes_bounds hfit hx, fun _ hx _ hy => canonicalCodes_prefix_free hx hy⟩,
    by decide +kernel⟩

end Sys2Proof.Cert
end

section
/-! LDHT (R141, R142, R160): what the loop over a DHT body loads, table by table, and where it stops. -/
namespace Sys2Proof.Cert
open Sys2Proof.Machine

/-! ### The tables loaded -/

/-- The registers of a table with its canonical codes. -/
def DhtTable.loaded (d : DhtTable) : HuffTab :=
  { bits := Vector.ofFn fun i => (d.counts.map fun n => BitVec.ofNat 8 n).getD i.val 0, vals := d.vals
    hcode := canonicalCodes d.counts d.vals }

theorem DhtTable.is_loaded {d : DhtTable} (hlen : d.counts.length = 16) : d.is d.loaded := by
  refine ⟨fun L hL => ?_, fun i _ => rfl, rfl⟩
  rw [DhtTable.loaded, toList_ofFn_getD (by rw [List.length_map, hlen]), List.getD_eq_getElem?_getD, List.getElem?_map,
    List.getElem?_eq_getElem (by omega), List.getD_eq_getElem?_getD, List.getElem?_eq_getElem (by omega)]
  rfl

/-- Tables committed one after the other. -/
def loadHuffs (ts : List DhtTable) (t : Tables) : Tables := ts.foldl (fun t d => t.commitHuff d.tc d.th d.loaded) t

theorem loadHuffs_append (ts : List DhtTable) (d : DhtTable) (t : Tables) :
    loadHuffs (ts ++ [d]) t = (loadHuffs ts t).commitHuff d.tc d.th d.loaded := List.foldl_append ..

theorem lastHuff_append (ts : List DhtTable) (d : DhtTable) (tc th : Nat) :
    lastHuff (ts ++ [d]) tc th = if d.tc = tc ∧ d.th = th then some d else lastHuff ts tc th := by
  rw [lastHuff, List.reverse_append, List.reverse_singleton, List.singleton_append, List.find?_cons]
  by_cases h : d.tc = tc ∧ d.th = th
  · rw [if_pos h, h.1, h.2, beq_self_eq_true, beq_self_eq_true, Bool.and_self]
  · rw [if_neg h, show (d.tc == tc && d.th == th) = false by simpa using h, lastHuff]

theorem huffLoaded_loadHuffs {ts : List DhtTable} (hts : ∀ t ∈ ts, t.ok) (old : Tables) :
    huffLoaded ts old (loadHuffs ts old) := by
  induction ts using List.reverseRecOn with
  | nil => exact ⟨fun id _ => ⟨⟨rfl, rfl⟩, rfl, rfl⟩, rfl⟩
  | append_singleton ts d ih =>
    obtain ⟨hids, hrest⟩ := ih fun t ht => hts t (List.mem_append_left _ ht)
    obtain ⟨htc, hth, hlen, -⟩ := hts d (List.mem_append_right _ List.mem_cons_self)
    have his := DhtTable.is_loaded hlen
    have hth4 : d.th < 4 := by omega
    rw [loadHuffs_append, Tables.commitHuff]
    by_cases h0 : d.tc = 0
    · rw [if_pos h0]
      refine ⟨fun id hid => ?_, hrest⟩
      obtain ⟨hdc, hac⟩ := hids id hid
      have hother : lastHuff (ts ++ [d]) 1 id = lastHuff ts 1 id := by
        rw [lastHuff_append, if_neg (by omega)]
      rw [hother, lastHuff_append]
      refine ⟨?_, hac⟩
      dsimp only
      rw [Quad.get_set hth4 hid, Quad.get_set hth4 hid]
      by_cases hd : d.th = id
      · rw [if_pos ⟨h0, hd⟩, if_pos hd.symm, if_pos hd.symm]
        exact ⟨his, rfl⟩
      · rw [if_neg fun h => hd h.2, if_neg (Ne.symm hd), if_neg (Ne.symm hd)]
        exact hdc
    · rw [if_neg h0]
      refine ⟨fun id hid => ?_, hrest⟩
      obtain ⟨hdc, hac⟩ := hids id hid
      have hother : lastHuff (ts ++ [d]) 0 id = lastHuff ts 0 id := by
        rw [lastHuff_append, if_neg (by omega)]
      rw [hother, lastHuff_append]
      refine ⟨hdc, ?_⟩
      dsimp only
      rw [Quad.get_set hth4 hid, Quad.get_set hth4 hid]
      by_cases hd : d.th = id
      · rw [if_pos ⟨by omega, hd⟩, if_pos hd.symm, if_pos hd.symm]
        exact ⟨his, rfl⟩
      · rw [if_neg fun h => hd h.2, if_neg (Ne.symm hd), if_neg (Ne.symm hd)]
        exact hac

/-! ### The loop -/

section
variable {s : State} {p : Nat} {r : Raise}

theorem length_dht_head {t : DhtTable} (h : t.counts.length = 16) : t.head.length = 17 := by
  rw [DhtTable.head, List.length_cons, List.length_map, h]

theorem map_toNat_ofNat {l : List Nat} (h : ∀ n ∈ l, n < 256) :
    (l.map fun n => (BitVec.ofNat 8 n : Byte)).map BitVec.toNat = l := by
  rw [List.map_map]
  exact (List.map_congr_left fun n hn => toNat_byte (h n hn)).trans (List.map_id' _)

/-- One more table, its class, id and counts read. -/
theorem ldhtLoop_step {t : DhtTable} {rem : Nat} (htc : t.tc < 16) (hth : t.th < 16) (hlen : t.counts.length = 16)
    (hcounts : ∀ n ∈ t.counts, n < 256) (h : srcHolds s p t.head) (hrem : 16 < rem) (fuel : Nat) (tab : Tables) :
    ldhtLoop s (fuel + 1) p rem tab =
      if 256 < t.counts.sum ∨ rem - 17 < t.counts.sum then .error (.at .badHuffTbl (p + 17)) tab
      else
        match srcBytesIn s.params s.cfg s.mem t.counts.sum (p + 17) with
        | .error r => .error r tab
        | .ok vals =>
          if 1 < t.tc ∨ 3 < t.th then .error (.at .badHuffTbl (p + 17 + t.counts.sum)) tab
          else
            match buildHuff t.counts vals with
            | none => .error (.at .internalError (p + 17 + t.counts.sum)) tab
            | some hc =>
              ldhtLoop s fuel (p + 17 + t.counts.sum) (rem - 17 - t.counts.sum)
                (tab.commitHuff t.tc t.th { t.loaded with vals := vals, hcode := hc }) := by
  obtain ⟨hb, hcnt⟩ := srcIs_cons.mp h
  have hb : s.src p = .ok (nibbles t.tc t.th) := hb
  have hread := srcBytesIn_ok hcnt
  rw [List.length_map, hlen] at hread
  rw [ldhtLoop, if_pos hrem, hb, bind_run, liftX_ok]
  dsimp only
  rw [hread, bind_run, liftX_ok]
  dsimp only
  rw [map_toNat_ofNat hcounts, toNat_hi4_nibbles htc hth, toNat_lo4_nibbles htc hth]
  by_cases h1 : 256 < t.counts.sum ∨ rem - 17 < t.counts.sum
  · rw [if_pos h1, if_pos h1]
    rfl
  rw [if_neg h1, if_neg h1, bind_run]
  cases srcBytesIn s.params s.cfg s.mem t.counts.sum (p + 17) with
  | error r => rfl
  | ok vals =>
    rw [liftX_ok]
    dsimp only
    by_cases h2 : 1 < t.tc ∨ 3 < t.th
    · rw [if_pos h2, if_pos h2]
      rfl
    rw [if_neg h2, if_neg h2]
    cases buildHuff t.counts vals <;> rfl

/-- The tables that a body holds, loaded. -/
theorem ldhtLoop_tables {ts : List DhtTable} (hts : ∀ t ∈ ts, t.ok) (h : srcHolds s p (dhtBytes ts)) (fuel rem : Nat)
    (t : Tables) :
    ldhtLoop s (ts.length + fuel) p ((dhtBytes ts).length + rem) t =
      ldhtLoop s fuel (p + (dhtBytes ts).length) rem (loadHuffs ts t) := by
  induction ts generalizing p t with
  | nil => rw [List.length_nil, Nat.zero_add, show (dhtBytes []).length = 0 from rfl, Nat.zero_add, Nat.add_zero]; rfl
  | cons d ts ih =>
    obtain ⟨hd, hts⟩ := List.forall_mem_cons.mp hts
    obtain ⟨htc, hth, hlen, hcounts, hsum, hmax, hfit⟩ := hd
    obtain ⟨hb, hrest⟩ := srcIs_append.mp (show srcHolds s p (d.bytes ++ dhtBytes ts) from h)
    obtain ⟨hhead, hvals⟩ := srcIs_append.mp (show srcHolds s p (d.head ++ d.vals) from hb)
    have hdlen : d.bytes.length = 17 + d.vals.length := by
      rw [← length_dht_head hlen]
      exact List.length_append
    have hbytes : (dhtBytes (d :: ts)).length = 17 + d.vals.length + (dhtBytes ts).length := by
      rw [← hdlen]
      exact List.length_append
    rw [length_dht_head hlen] at hvals
    rw [hdlen] at hrest
    have hread := srcBytesIn_ok hvals
    have hbuild : buildHuff d.counts d.vals = some (canonicalCodes d.counts d.vals) := by
      rw [buildHuff_eq hlen, if_pos hfit]
    rw [List.length_cons, Nat.add_right_comm, ldhtLoop_step (by omega) (by omega) hlen hcounts hhead (by omega), hsum,
      if_neg (by omega), hread]
    dsimp only
    rw [if_neg (by omega), hbuild]
    dsimp only
    rw [hbytes, show 17 + d.vals.length + (dhtBytes ts).length + rem - 17 - d.vals.length = (dhtBytes ts).length + rem by omega,
      Nat.add_assoc p, ih hts hrest, Nat.add_assoc p]
    rfl

theorem length_le_dhtBytes (ts : List DhtTable) : ts.length ≤ (dhtBytes ts).length := by
  induction ts with
  | nil => exact le_rfl
  | cons d ts ih =>
    have hlen : (dhtBytes (d :: ts)).length = d.bytes.length + (dhtBytes ts).length := List.length_append
    have h1 : 1 ≤ d.bytes.length := by
      rw [DhtTable.bytes, DhtTable.head, List.cons_append]
      exact Nat.le_add_left ..
    rw [hlen, List.length_cons]
    omega

/-! ### The command -/

theorem exec_ldht_of_be16 {L : Nat} (hL : s.be16 s.srcPos.toNat = .ok L) :
    exec .ldht s =
      finishTables .ldht s
        (if L < 2 then .error (.at .badSegmentLength (s.srcPos.toNat + 2)) s.dec.tab
         else ldhtLoop s (L - 1) (s.srcPos.toNat + 2) (L - 2) s.dec.tab) := by
  rw [exec, execLdht, ldhtBody]
  rw [hL, bind_run, liftX_ok]
  refine congrArg (finishTables .ldht s) ?_
  by_cases h : L < 2
  · rw [if_pos h]
    exact congrArg (fun m : EStateM Raise Tables Nat => m s.dec.tab) (if_pos h)
  · rw [if_neg h]
    exact congrArg (fun m : EStateM Raise Tables Nat => m s.dec.tab) (if_neg h)

theorem exec_ldht_of_be16_error (hL : s.be16 s.srcPos.toNat = .error r) :
    exec .ldht s = .next (errorEntry r s) := by
  rw [exec, execLdht, ldhtBody]
  rw [hL, bind_run, liftX_error]
  rfl

/-- LDHT has loaded the tables that stand first in the body, and goes on in it. -/
theorem exec_ldht_tables {L : Nat} {ts : List DhtTable} (hts : ∀ t ∈ ts, t.ok) (hL : L < 65536)
    (hle : 2 + (dhtBytes ts).length ≤ L) (h : srcHolds s s.srcPos.toNat (be16Bytes L ++ dhtBytes ts)) :
    exec .ldht s =
      finishTables .ldht s
        (ldhtLoop s (L - 2 - ts.length + 1) (s.srcPos.toNat + (2 + (dhtBytes ts).length))
          (L - (2 + (dhtBytes ts).length)) (loadHuffs ts s.dec.tab)) := by
  obtain ⟨hb, hrest⟩ := srcIs_append.mp h
  have hfuel := length_le_dhtBytes ts
  rw [exec_ldht_of_be16 (be16_be16Bytes hb hL), if_neg (by omega)]
  have hloop := ldhtLoop_tables (p := s.srcPos.toNat + 2) hts hrest (L - 2 - ts.length + 1)
    (L - (2 + (dhtBytes ts).length)) s.dec.tab
  rw [show ts.length + (L - 2 - ts.length + 1) = L - 1 by omega,
    show (dhtBytes ts).length + (L - (2 + (dhtBytes ts).length)) = L - 2 by omega] at hloop
  rw [hloop, Nat.add_assoc]

end

/-- Settles O21: the loop loads the tables one by one and ends with the body. -/
theorem ldhtLoadsEveryTable : Obligations.LdhtLoadsEveryTable := by
  intro s ts hts hL h
  refine ⟨loadHuffs ts s.dec.tab, huffLoaded_loadHuffs hts _, ?_⟩
  have hend : ∀ fuel p t, ldhtLoop s (fuel + 1) p 0 t = .ok p t := fun fuel p t => rfl
  rw [exec_ldht_tables hts hL le_rfl h, Nat.sub_self, hend, finishTables, BitVec.ofNat_add, BitVec.ofNat_toNat,
    BitVec.setWidth_eq]
  rfl

/-- Settles O22: what the loop meets after the tables it has loaded. -/
theorem ldhtErrorsKeepEarlierTables : Obligations.LdhtErrorsKeepEarlierTables := by
  intro s ts L hts hL pos used pre raises fails
  have hloaded := huffLoaded_loadHuffs hts s.dec.tab
  have hraise : ∀ {bs : List Byte} {r : Raise}, used ≤ L → srcHolds s pos (pre ++ bs) →
      (∀ fuel, ldhtLoop s (fuel + 1) (pos + used) (L - used) (loadHuffs ts s.dec.tab) =
        .error r (loadHuffs ts s.dec.tab)) → raises r := fun {bs r} hle h hr =>
    ⟨_, hloaded, by rw [exec_ldht_tables hts hL hle (srcIs_append.mp h).1, hr]; rfl⟩
  have hafter : ∀ {bs : List Byte}, srcHolds s pos (pre ++ bs) → srcHolds s (pos + used) bs := fun {bs} h => by
    have := (srcIs_append.mp h).2
    rwa [List.length_append] at this
  refine ⟨fun h2 h => ?_, fun t htc hth hlen hcounts hle hbad h => ?_,
    fun t htc hth hlen hcounts hsum hmax hle h => ?_, fun hlt hle h => ?_, fun part r hpart hle h hr => ?_,
    fun t part r htc hth hlen hcounts hmax hle hpart h hr => ?_, fun bs r hlen h hr => ?_⟩
  · rw [exec_ldht_of_be16 (be16_be16Bytes h hL), if_pos h2]
    rfl
  · refine hraise (by omega) h fun fuel => ?_
    rw [ldhtLoop_step htc hth hlen hcounts (hafter h) (by omega), if_pos (by omega)]
  · obtain ⟨hhead, hvals⟩ := srcIs_append.mp (show srcHolds s (pos + used) (t.head ++ t.vals) from hafter h)
    have hdlen : t.bytes.length = 17 + t.vals.length := by
      rw [← length_dht_head hlen]
      exact List.length_append
    rw [length_dht_head hlen] at hvals
    have hread := srcBytesIn_ok hvals
    refine ⟨fun hbad => ?_, fun htc1 hth3 hfit => ?_⟩
    · refine hraise (by omega) h fun fuel => ?_
      rw [ldhtLoop_step htc hth hlen hcounts hhead (by omega), hsum, if_neg (by omega), hread]
      dsimp only
      rw [if_pos hbad, hdlen, Nat.add_assoc (pos + used) 17]
    · have hbuild : buildHuff t.counts t.vals = none := by rw [buildHuff_eq hlen, if_neg hfit]
      refine hraise (by omega) h fun fuel => ?_
      rw [ldhtLoop_step htc hth hlen hcounts hhead (by omega), hsum, if_neg (by omega), hread]
      dsimp only
      rw [if_neg (by omega), hbuild, hdlen, Nat.add_assoc (pos + used) 17]
  · refine hraise (bs := []) hlt.le (by rwa [List.append_nil]) fun fuel => ?_
    rw [ldhtLoop, if_neg (by omega), if_pos (by omega)]
    rfl
  · refine hraise (by omega) h fun fuel => ?_
    have hb := hafter h
    rw [ldhtLoop, if_pos (by omega), bind_run]
    match part with
    | [] =>
      have hsrc : s.src (pos + used) = .error r := srcByteIn_of_noByteAt hr s.mem
      rw [hsrc, liftX_error]
    | b :: part =>
      obtain ⟨hsrc, hcnt⟩ := srcIs_cons.mp hb
      have hsrc : s.src (pos + used) = .ok b := hsrc
      rw [List.length_cons] at hpart hr
      have hstop : srcBytesIn s.params s.cfg s.mem 16 (pos + used + 1) = .error r :=
        srcBytesIn_stops (by omega) hcnt (by rwa [Nat.add_assoc (pos + used), Nat.add_comm 1])
      rw [hsrc, liftX_ok]
      dsimp only
      rw [bind_run, hstop, liftX_error]
  · rw [List.append_assoc] at h
    obtain ⟨hhead, hvals⟩ := srcIs_append.mp (hafter h)
    rw [length_dht_head hlen] at hvals
    refine hraise (by omega) h fun fuel => ?_
    rw [ldhtLoop_step htc hth hlen hcounts hhead (by omega), if_neg (by omega), srcBytesIn_stops hpart hvals hr]
  · exact exec_ldht_of_be16_error (be16_error (i := 0) h hr (by omega) (by omega))

end Sys2Proof.Cert
end

section
/-! The host's side of the register window (R20 to R36, R321): what a write of a register leaves to be read. -/
namespace Sys2Proof.Cert
open Sys2Proof.Machine

/-! ### Addresses of the window -/

section
variable {s : State} {off : Nat}

theorem toNat_jrbBase_le (p : Params) : p.jrbBase.toNat + 0x2000 ≤ 2 ^ 32 := by
  have h := p.jrbPage.isLt
  rw [Params.jrbBase, toNat_append]
  simp only [BitVec.toNat_ofNat]
  omega

theorem jrbBase_mod (p : Params) : p.jrbBase.toNat % 4 = 0 := by
  rw [Params.jrbBase, toNat_append]
  simp only [BitVec.toNat_ofNat]
  omega

theorem toNat_csrAddr (hoff : off < 0x2000) : (csrAddr s off).toNat = s.params.jrbBase.toNat + off := by
  have h := toNat_jrbBase_le s.params
  rw [csrAddr, BitVec.toNat_add, BitVec.toNat_ofNat, Nat.mod_eq_of_lt (a := off) (by omega), Nat.mod_eq_of_lt (by omega)]

theorem csrOffset_csrAddr (hoff : off < 0x2000) : csrOffset s.params (csrAddr s off) = off := by
  rw [csrOffset, toNat_csrAddr hoff, Nat.add_sub_cancel_left]

theorem alignedWord_csrAddr (hoff : off < 0x2000) (h4 : off % 4 = 0) : alignedWord (csrAddr s off) .w32 = true := by
  have h := jrbBase_mod s.params
  rw [alignedWord, toNat_csrAddr hoff]
  simp only [beq_self_eq_true, Bool.true_and, beq_iff_eq]
  omega

theorem touchesWindow_iff (p : Params) (a : Word) (w : Width) :
    touchesWindow p a w = true ↔ ∃ k, k < w.bytes ∧ p.inWindow (a + BitVec.ofNat 32 k).toNat = true := by
  rw [touchesWindow, List.any_eq_true]
  exact exists_congr fun k => by rw [List.mem_range]

theorem touchesWindow_csrAddr (hoff : off < 0x2000) : touchesWindow s.params (csrAddr s off) .w32 = true := by
  refine (touchesWindow_iff ..).mpr ⟨0, by decide, ?_⟩
  rw [BitVec.add_zero, Params.inWindow, toNat_csrAddr hoff]
  simp [hoff]

theorem hostStore_csrAddr (hoff : off < 0x2000) (h4 : off % 4 = 0) (v : Word) :
    hostStore (csrAddr s off) .w32 v s = .next (csrWrite s off v) := by
  rw [hostStore, if_pos (touchesWindow_csrAddr hoff), if_pos (alignedWord_csrAddr hoff h4), csrOffset_csrAddr hoff]

end

/-! ### CTRL -/

theorem csrWrite_ctrl (s : State) (v : Word) : csrWrite s 0x004 v = writeCtrl s v := rfl

theorem csrWrite_status (s : State) (v : Word) : csrWrite s 0x008 v = writeStatus s v := rfl

theorem writeCtrl_srst {v : Word} (h : v.getLsbD 1 = true) (s : State) : writeCtrl s v = hardReset s := if_pos h

theorem writeCtrl_of_not_srst {v : Word} (h : v.getLsbD 1 = false) (s : State) :
    writeCtrl s v = if v.getLsbD 0 = true then startRun (withEnables v s) else withEnables v s :=
  if_neg (by simpa [wbit] using h)

theorem startRun_ignored {s : State} (h : s.proc.busy = true ∨ s.proc.err = true) : startRun s = s :=
  if_pos (by simpa using h)

theorem startRun_started {s : State} (hb : s.proc.busy = false) (he : s.proc.err = false) :
    startRun s = { s with proc := { s.proc with done := false, busy := true }, race := s.runStart.race } :=
  if_neg (by simp [hb, he])

theorem step_of_store {s : State} {es : List BusEvent} {a v : Word} {w : Width} (h : s.events = .store a w v :: es) :
    step s = hostStore a w v { s with events := es } := by
  rw [step, h]

/-- Settles O10: the cases of a write of CTRL. -/
theorem goStartsTheRun : Obligations.GoStartsTheRun := by
  intro s v
  refine ⟨fun h => writeCtrl_srst h s, fun h hign => ?_, fun h hgo hb he => ?_, fun es hes => ?_⟩
  · rw [csrWrite_ctrl, writeCtrl_of_not_srst h]
    split
    · rename_i hgo
      exact startRun_ignored (hign.resolve_left (by simp [hgo]))
    · rfl
  · rw [csrWrite_ctrl, writeCtrl_of_not_srst h, if_pos hgo]
    exact startRun_started hb he
  · rw [step_of_store hes]
    exact hostStore_csrAddr (s := { s with events := es }) (by decide) (by decide) v

/-! ### The registers that are RW while idle -/

section
variable {s : State} {off : Nat} {v : Word}

theorem csrWrite_idle (hb : s.proc.busy = false) (h4 : off ≠ 0x004) (h8 : off ≠ 0x008) :
    csrWrite s off v = writeIdle s off v := by
  rw [csrWrite, if_neg h4, if_neg h8, if_neg (by simp [hb])]

theorem csrWrite_busy (hb : s.proc.busy = true) (h4 : off ≠ 0x004) (h8 : off ≠ 0x008) : csrWrite s off v = s := by
  rw [csrWrite, if_neg h4, if_neg h8, if_pos hb]

/-- The registers that are RW while idle, but for the buffers' arrays. -/
def rwScalars : List Nat := [0x018, 0x020, 0x024, 0x028, 0x02C, 0x030, 0x034, 0x080, 0x084, 0x088]

/-- A write outside the registers that are RW while idle is ignored. -/
theorem writeIdle_ignored (h : off ∉ rwScalars) (ha : ¬(0x040 ≤ off ∧ off < 0x080)) : writeIdle s off v = s := by
  simp only [rwScalars, List.mem_cons, List.not_mem_nil, not_or, or_false] at h
  obtain ⟨h1, h2, h3, h4, h5, h6, h7, h8, h9, h10⟩ := h
  rw [writeIdle, if_neg h1, if_neg h2, if_neg h3, if_neg h4, if_neg h5, if_neg h6, if_neg h7, if_neg h8, if_neg h9,
    if_neg h10, writeArray, if_neg (by omega), if_neg (by omega), if_neg (by omega), if_neg (by omega)]

theorem rwMask_ignored (h : off ∉ rwScalars) (ha : ¬(0x040 ≤ off ∧ off < 0x080)) : rwMask off = 0 := by
  simp only [rwScalars, List.mem_cons, List.not_mem_nil, not_or, or_false] at h
  obtain ⟨h1, h2, h3, h4, h5, h6, h7, h8, h9, h10⟩ := h
  rw [rwMask, if_neg h1, if_neg h5, if_neg h10, if_neg (by simp [h2, h3, h4, h6, h7, h8, h9]), if_neg ha]

theorem rwMask_ne_zero (h : off ∈ rwScalars ∨ (0x040 ≤ off ∧ off < 0x080)) : rwMask off ≠ 0 := by
  rcases h with h | h
  · exact (by decide : ∀ off ∈ rwScalars, rwMask off ≠ 0) off h
  · rw [rwMask, if_neg (by omega), if_neg (by omega), if_neg (by omega)]
    split
    · decide
    · simp

theorem mask_all (x v : Word) : (x &&& ~~~0xFFFFFFFF#32) ||| (v &&& 0xFFFFFFFF#32) = v := by
  rw [show ~~~0xFFFFFFFF#32 = 0#32 by decide, BitVec.and_zero, BitVec.zero_or,
    show 0xFFFFFFFF#32 = BitVec.allOnes 32 by decide, BitVec.and_allOnes]

theorem mask_none (x v : Word) : (x &&& ~~~0#32) ||| (v &&& 0#32) = x := by
  rw [show ~~~0#32 = BitVec.allOnes 32 by decide, BitVec.and_allOnes, BitVec.and_zero, BitVec.or_zero]

/-- An aligned CQ_PTR has no bit of the two lowest. -/
theorem mask_cqPtr {x : Word} (hx : x.toNat % 4 = 0) (v : Word) :
    v &&& 0xFFFFFFFC#32 = (x &&& ~~~0xFFFFFFFC#32) ||| (v &&& 0xFFFFFFFC#32) := by
  have h0 : x &&& ~~~0xFFFFFFFC#32 = 0#32 := by
    refine BitVec.eq_of_toNat_eq ?_
    rw [BitVec.toNat_and, show (~~~0xFFFFFFFC#32 : Word).toNat = 2 ^ 2 - 1 by decide, Nat.and_two_pow_sub_one_eq_mod]
    exact hx
  rw [h0, BitVec.zero_or]

theorem mask_meta (m : Meta) (v : Word) :
    metaWord { jfif := v.getLsbD 0, adobe := v.getLsbD 1, adobeXform := v.extractLsb' 8 2 } =
      (metaWord m &&& ~~~0x00000303#32) ||| (v &&& 0x00000303#32) := by
  refine BitVec.eq_of_getLsbD_eq fun i hi => ?_
  simp only [metaWord, BitVec.getLsbD_or, BitVec.getLsbD_and, BitVec.getLsbD_not, BitVec.getLsbD_append, bit,
    BitVec.getLsbD_extractLsb']
  interval_cases i <;> simp

theorem mask_dstCfg (c : Cfg) (v : Word) :
    dstCfgWord
        { c with
          dstCs := v.extractLsb' 0 4, dstNch := v.extractLsb' 4 3, dst422 := v.getLsbD 8, dstPrec16 := v.getLsbD 12 } =
      (dstCfgWord c &&& ~~~0x0000117F#32) ||| (v &&& 0x0000117F#32) := by
  refine BitVec.eq_of_getLsbD_eq fun i hi => ?_
  simp only [dstCfgWord, BitVec.getLsbD_or, BitVec.getLsbD_and, BitVec.getLsbD_not, BitVec.getLsbD_append, bit,
    BitVec.getLsbD_extractLsb']
  interval_cases i <;> simp

/-! ### What a write leaves of the other registers -/

variable {off' : Nat}

theorem csrRead_cqPtr_other (p : Word) (h : off' ≠ 0x018) :
    csrRead { s with proc := { s.proc with cqPtr := p } } off' = csrRead s off' := by
  simp only [csrRead, if_neg h]
  rfl

theorem csrRead_srcBase_other (v : Word) (h : off' ≠ 0x020) :
    csrRead { s with cfg := { s.cfg with srcBase := v } } off' = csrRead s off' := by
  simp only [csrRead, if_neg h]
  rfl

theorem csrRead_srcLen_other (v : Word) (h : off' ≠ 0x024) :
    csrRead { s with cfg := { s.cfg with srcLen := v } } off' = csrRead s off' := by
  simp only [csrRead, if_neg h]
  rfl

theorem csrRead_coefBase_other (v : Word) (h : off' ≠ 0x030) :
    csrRead { s with cfg := { s.cfg with coefBase := v } } off' = csrRead s off' := by
  simp only [csrRead, if_neg h]
  rfl

theorem csrRead_coefSize_other (v : Word) (h : off' ≠ 0x034) :
    csrRead { s with cfg := { s.cfg with coefSize := v } } off' = csrRead s off' := by
  simp only [csrRead, if_neg h]
  rfl

theorem csrRead_dstBase_other (v : Word) (h : off' ≠ 0x080) :
    csrRead { s with cfg := { s.cfg with dstBase := v } } off' = csrRead s off' := by
  simp only [csrRead, if_neg h]
  rfl

theorem csrRead_dstStride_other (v : Word) (h : off' ≠ 0x084) :
    csrRead { s with cfg := { s.cfg with dstStride := v } } off' = csrRead s off' := by
  simp only [csrRead, if_neg h]
  rfl

theorem csrRead_dstCfg_other (cs : BitVec 4) (n : BitVec 3) (b b' : Bool) (h : off' ≠ 0x088) :
    csrRead { s with cfg := { s.cfg with dstCs := cs, dstNch := n, dst422 := b, dstPrec16 := b' } } off' =
      csrRead s off' := by
  simp only [csrRead, if_neg h]
  rfl

theorem csrRead_info_other (m : Meta) (h : off' ≠ 0x02C) :
    csrRead { s with dec := { s.dec with info := m } } off' = csrRead s off' := by
  simp only [csrRead, if_neg h]
  rfl

/-- SRC_POS resets the bit reader: BITRD.BL and STATUS.MARKER_HIT read 0. -/
theorem csrRead_setCursor_other (h : off' ≠ 0x028) :
    csrRead (setCursor v s) off' =
      if off' = 0x0D8 then csrRead s off' &&& 0x000000FF#32
      else if off' = 0x008 then csrRead s off' &&& ~~~0x00000800#32
      else csrRead s off' := by
  by_cases h1 : off' = 0x0D8
  · rw [if_pos h1, h1]
    show 0#20 ++ 0#4 ++ s.dec.ent.bb = (0#20 ++ s.dec.ent.bl ++ s.dec.ent.bb) &&& 0x000000FF#32
    refine BitVec.eq_of_toNat_eq ?_
    have := s.dec.ent.bb.isLt
    rw [BitVec.toNat_and, show (0x000000FF#32 : Word).toNat = 2 ^ 8 - 1 by decide, Nat.and_two_pow_sub_one_eq_mod]
    simp only [toNat_append, BitVec.toNat_ofNat]
    omega
  rw [if_neg h1]
  by_cases h2 : off' = 0x008
  · rw [if_pos h2, h2, csrRead_status, csrRead_status]
    refine BitVec.eq_of_getLsbD_eq fun i hi => ?_
    rw [BitVec.getLsbD_and, BitVec.getLsbD_not, getLsbD_statusWord, getLsbD_statusWord]
    interval_cases i <;> simp [irq, reconReady]
  · rw [if_neg h2]
    simp only [csrRead, if_neg h, if_neg h1, if_neg h2]
    rfl

/-- A register of the buffers' arrays, while idle. -/
theorem csrRead_buffer (s : State) {off : Nat} (h : 0x040 ≤ off ∧ off < 0x080) : csrRead s off = csrArray s off := by
  rw [csrRead]
  repeat rw [if_neg (by omega)]

theorem csrArray_planeBase (s : State) {off : Nat} (h : 0x040 ≤ off ∧ off < 0x050) :
    csrArray s off = s.cfg.planeBase.get ((off - 0x040) / 4) := if_pos h

theorem csrArray_planeStride (s : State) {off : Nat} (h : 0x050 ≤ off ∧ off < 0x060) :
    csrArray s off = s.cfg.planeStride.get ((off - 0x050) / 4) := by
  rw [csrArray, if_neg (by omega), if_pos h]

theorem csrArray_uplaneBase (s : State) {off : Nat} (h : 0x060 ≤ off ∧ off < 0x070) :
    csrArray s off = s.cfg.uplaneBase.get ((off - 0x060) / 4) := by
  rw [csrArray, if_neg (by omega), if_neg (by omega), if_pos h]

theorem csrArray_uplaneStride (s : State) {off : Nat} (h : 0x070 ≤ off ∧ off < 0x080) :
    csrArray s off = s.cfg.uplaneStride.get ((off - 0x070) / 4) := by
  rw [csrArray, if_neg (by omega), if_neg (by omega), if_neg (by omega), if_pos h]

theorem csrRead_planeBase_other (q : Quad Word) (h : ¬(0x040 ≤ off' ∧ off' < 0x050)) :
    csrRead { s with cfg := { s.cfg with planeBase := q } } off' = csrRead s off' := by
  simp only [csrRead, csrArray, if_neg h]
  rfl

theorem csrRead_planeStride_other (q : Quad Word) (h : ¬(0x050 ≤ off' ∧ off' < 0x060)) :
    csrRead { s with cfg := { s.cfg with planeStride := q } } off' = csrRead s off' := by
  simp only [csrRead, csrArray, if_neg h]
  rfl

theorem csrRead_uplaneBase_other (q : Quad Word) (h : ¬(0x060 ≤ off' ∧ off' < 0x070)) :
    csrRead { s with cfg := { s.cfg with uplaneBase := q } } off' = csrRead s off' := by
  simp only [csrRead, csrArray, if_neg h]
  rfl

theorem csrRead_uplaneStride_other (q : Quad Word) (h : ¬(0x070 ≤ off' ∧ off' < 0x080)) :
    csrRead { s with cfg := { s.cfg with uplaneStride := q } } off' = csrRead s off' := by
  simp only [csrRead, csrArray, if_neg h]
  rfl

/-- A write of a buffer register reads back, and no other register changes. -/
theorem csrRead_writeArray (h : 0x040 ≤ off ∧ off < 0x080) (h4 : off % 4 = 0) (h4' : off' % 4 = 0) :
    csrRead (writeArray s off v) off' = if off' = off then v else csrRead s off' := by
  have hidx : ∀ b, b ≤ off → off < b + 16 → b ≤ off' → off' < b + 16 → b % 4 = 0 →
      ((off' - b) / 4 = (off - b) / 4 ↔ off' = off) := by omega
  have hset : ∀ (q : Quad Word) (b : Nat), b ≤ off → off < b + 16 → b ≤ off' → off' < b + 16 → b % 4 = 0 →
      (q.set ((off - b) / 4) v).get ((off' - b) / 4) = if off' = off then v else q.get ((off' - b) / 4) := by
    intro q b h1 h2 h3 h5 hb
    rw [Quad.get_set (by omega) (by omega)]
    simp only [hidx b h1 h2 h3 h5 hb]
  unfold writeArray
  by_cases h1 : 0x040 ≤ off ∧ off < 0x050
  · rw [if_pos h1]
    by_cases h' : 0x040 ≤ off' ∧ off' < 0x050
    · rw [csrRead_buffer _ (by omega), csrRead_buffer _ (by omega), csrArray_planeBase _ h', csrArray_planeBase _ h']
      exact hset _ 0x040 h1.1 h1.2 h'.1 h'.2 rfl
    · rw [csrRead_planeBase_other _ h', if_neg (by omega)]
  rw [if_neg h1]
  by_cases h2 : 0x050 ≤ off ∧ off < 0x060
  · rw [if_pos h2]
    by_cases h' : 0x050 ≤ off' ∧ off' < 0x060
    · rw [csrRead_buffer _ (by omega), csrRead_buffer _ (by omega), csrArray_planeStride _ h', csrArray_planeStride _ h']
      exact hset _ 0x050 h2.1 h2.2 h'.1 h'.2 rfl
    · rw [csrRead_planeStride_other _ h', if_neg (by omega)]
  rw [if_neg h2]
  by_cases h3 : 0x060 ≤ off ∧ off < 0x070
  · rw [if_pos h3]
    by_cases h' : 0x060 ≤ off' ∧ off' < 0x070
    · rw [csrRead_buffer _ (by omega), csrRead_buffer _ (by omega), csrArray_uplaneBase _ h', csrArray_uplaneBase _ h']
      exact hset _ 0x060 h3.1 h3.2 h'.1 h'.2 rfl
    · rw [csrRead_uplaneBase_other _ h', if_neg (by omega)]
  rw [if_neg h3, if_pos (by omega)]
  by_cases h' : 0x070 ≤ off' ∧ off' < 0x080
  · rw [csrRead_buffer _ (by omega), csrRead_buffer _ (by omega), csrArray_uplaneStride _ h', csrArray_uplaneStride _ h']
    exact hset _ 0x070 (by omega) (by omega) h'.1 h'.2 rfl
  · rw [csrRead_uplaneStride_other _ h', if_neg (by omega)]

theorem writeIdle_array (h : 0x040 ≤ off ∧ off < 0x080) : writeIdle s off v = writeArray s off v := by
  rw [writeIdle]
  repeat rw [if_neg (by omega)]

theorem rwMask_array (h : 0x040 ≤ off ∧ off < 0x080) : rwMask off = 0xFFFFFFFF#32 := by
  rw [rwMask, if_neg (by omega), if_neg (by omega), if_neg (by omega), if_pos h]
  exact ite_self _

/-- What a write while idle leaves as it is. -/
structure IdleKept (s t : State) : Prop where
  mem : t.mem = s.mem
  params : t.params = s.params
  tab : t.dec.tab = s.dec.tab
  frm : t.dec.frm = s.dec.frm
  llprev : t.dec.ent.llprev = s.dec.ent.llprev
  llfirst : t.dec.ent.llfirst = s.dec.ent.llfirst

theorem IdleKept.ite {t u : State} {c : Prop} [Decidable c] (ht : IdleKept s t) (hu : IdleKept s u) :
    IdleKept s (if c then t else u) := by
  split
  · exact ht
  · exact hu

theorem idleKept_writeIdle (s : State) (off : Nat) (v : Word) : IdleKept s (writeIdle s off v) := by
  have hcfg : ∀ c, IdleKept s { s with cfg := c } := fun c => ⟨rfl, rfl, rfl, rfl, rfl, rfl⟩
  have harray : IdleKept s (writeArray s off v) :=
    .ite (hcfg _) (.ite (hcfg _) (.ite (hcfg _) (.ite (hcfg _) ⟨rfl, rfl, rfl, rfl, rfl, rfl⟩)))
  exact .ite ⟨rfl, rfl, rfl, rfl, rfl, rfl⟩ <| .ite (hcfg _) <| .ite (hcfg _) <|
    .ite ⟨rfl, rfl, rfl, rfl, rfl, rfl⟩ <| .ite ⟨rfl, rfl, rfl, rfl, rfl, rfl⟩ <| .ite (hcfg _) <| .ite (hcfg _) <|
    .ite (hcfg _) <| .ite (hcfg _) <| .ite (hcfg _) harray

/-- Each register reads back its writable bits. -/
theorem csrRead_writeIdle_same (hptr : s.proc.cqPtr.toNat % 4 = 0) (h4 : off % 4 = 0) :
    csrRead (writeIdle s off v) off = (csrRead s off &&& ~~~rwMask off) ||| (v &&& rwMask off) := by
  by_cases ha : 0x040 ≤ off ∧ off < 0x080
  · rw [writeIdle_array ha, csrRead_writeArray ha h4 h4, if_pos rfl, rwMask_array ha, mask_all]
  by_cases h : off ∈ rwScalars
  · simp only [rwScalars, List.mem_cons, List.not_mem_nil, or_false] at h
    rcases h with rfl | rfl | rfl | rfl | rfl | rfl | rfl | rfl | rfl | rfl
    · exact mask_cqPtr hptr v
    · exact (mask_all _ v).symm
    · exact (mask_all _ v).symm
    · exact (mask_all _ v).symm
    · exact mask_meta s.dec.info v
    · exact (mask_all _ v).symm
    · exact (mask_all _ v).symm
    · exact (mask_all _ v).symm
    · exact (mask_all _ v).symm
    · exact mask_dstCfg s.cfg v
  · rw [writeIdle_ignored h ha, rwMask_ignored h ha]
    exact (mask_none _ v).symm

/-- No other register changes, but for the reset of the bit reader. -/
theorem csrRead_writeIdle_other (h4 : off % 4 = 0) (h4' : off' % 4 = 0) (hne : off' ≠ off) :
    csrRead (writeIdle s off v) off' =
      if off = 0x028 ∧ off' = 0x0D8 then csrRead s off' &&& 0x000000FF#32
      else if off = 0x028 ∧ off' = 0x008 then csrRead s off' &&& ~~~0x00000800#32
      else csrRead s off' := by
  by_cases ha : 0x040 ≤ off ∧ off < 0x080
  · rw [writeIdle_array ha, csrRead_writeArray ha h4 h4', if_neg hne, if_neg (by omega), if_neg (by omega)]
  by_cases h : off ∈ rwScalars
  · simp only [rwScalars, List.mem_cons, List.not_mem_nil, or_false] at h
    rcases h with rfl | rfl | rfl | rfl | rfl | rfl | rfl | rfl | rfl | rfl
    · exact csrRead_cqPtr_other _ hne
    · exact csrRead_srcBase_other _ hne
    · exact csrRead_srcLen_other _ hne
    · refine (csrRead_setCursor_other hne).trans ?_
      simp only [true_and]
    · exact csrRead_info_other _ hne
    · exact csrRead_coefBase_other _ hne
    · exact csrRead_coefSize_other _ hne
    · exact csrRead_dstBase_other _ hne
    · exact csrRead_dstStride_other _ hne
    · exact csrRead_dstCfg_other _ _ _ _ hne
  · have h28 : off ≠ 0x028 := fun he => h (he ▸ by decide)
    rw [writeIdle_ignored h ha, if_neg (by omega), if_neg (by omega)]

end

/-- Settles O11: register by register. -/
theorem csrWritesReadBack : Obligations.CsrWritesReadBack := by
  intro s off v hleg hb h4 hne4 hne8
  have hptr : s.proc.cqPtr.toNat % 4 = 0 := ((procLegal_iff s).mp hleg).1
  have hk := idleKept_writeIdle s off v
  rw [csrWrite_idle hb hne4 hne8]
  exact ⟨csrRead_writeIdle_same hptr h4, fun off' h4' hne => csrRead_writeIdle_other h4 h4' hne, hk.mem, hk.params, hk.tab,
    hk.frm, hk.llprev, hk.llfirst⟩

/-! ### The access rules -/

section
variable {s : State} {off : Nat}

theorem htWord_reserved (h : HuffTab) {o : Nat} (h1 : 16 ≤ o) (h2 : o + 3 < 256) : htWord h o = 0 := by
  have hbyte : ∀ j, j < 4 → htByte h (o + j) = 0 := fun j hj => by
    rw [htByte, if_neg (by omega), if_pos (by omega)]
  have h0 := hbyte 0 (by omega)
  rw [Nat.add_zero] at h0
  rw [htWord, hbyte 3 (by omega), hbyte 2 (by omega), hbyte 1 (by omega), h0]
  rfl

/-- A reserved offset reads 0. -/
theorem csrRead_reserved (h4 : off % 4 = 0) (h : reservedOffset off = true) : csrRead s off = 0 := by
  simp only [reservedOffset, Bool.or_eq_true, Bool.and_eq_true, beq_iff_eq, decide_eq_true_eq] at h
  have harray : csrArray s off = 0 := by
    unfold csrArray
    rw [if_neg (by omega), if_neg (by omega), if_neg (by omega), if_neg (by omega), if_neg (by omega),
      if_neg (by omega), if_neg (by omega), if_neg (by omega)]
    split
    · exact htWord_reserved _ (by omega) (by omega)
    · rfl
  unfold csrRead
  repeat rw [if_neg (by omega)]
  exact harray

theorem csrWrite_readOnly {v : Word} (hm : rwMask off = 0) (h4 : off ≠ 0x004) (h8 : off ≠ 0x008) : csrWrite s off v = s := by
  cases hb : s.proc.busy with
  | true => exact csrWrite_busy hb h4 h8
  | false =>
    have hnot := mt (rwMask_ne_zero (off := off)) (not_not_intro hm)
    rw [not_or] at hnot
    rw [csrWrite_idle hb h4 h8, writeIdle_ignored hnot.1 hnot.2]

theorem hostLoad_csrAddr (hoff : off < 0x2000) (h4 : off % 4 = 0) :
    hostLoad (csrAddr s off) .w32 s =
      if s.proc.busy && off != 0x008 then .next (recordFree (csrAddr s off) s)
      else .next (recordLoad (csrAddr s off) .w32 (csrRead s off) s) := by
  rw [hostLoad, if_pos (touchesWindow_csrAddr hoff), if_pos (alignedWord_csrAddr hoff h4), csrOffset_csrAddr hoff]

theorem alignedWord_eq_false {a : Word} {w : Width} (h : w ≠ .w32 ∨ a.toNat % 4 ≠ 0) : ¬alignedWord a w = true := by
  rw [alignedWord, Bool.and_eq_true, beq_iff_eq, beq_iff_eq]
  exact fun ⟨h1, h2⟩ => h.elim (· h1) (· h2)

end

/-- Settles O12: the branches of the host's loads, stores and register writes. -/
theorem hostAccessRules : Obligations.HostAccessRules := by
  intro s
  refine ⟨fun a w v hin hbad => ?_, fun off h4 _ hr => csrRead_reserved h4 hr,
    fun off v _ _ hm hne4 hne8 => csrWrite_readOnly hm hne4 hne8, fun hb off v hne4 hne8 => csrWrite_busy hb hne4 hne8,
    fun hb v => ?_, fun v => writeStatus_eq s v, fun hb => ⟨?_, ?_, fun off hoff h4 hne => ?_⟩,
    fun hb off hoff h4 => ?_, fun off v hoff h4 => hostStore_csrAddr hoff h4 v⟩
  · have ht := (touchesWindow_iff ..).mpr hin
    rw [hostLoad, hostStore, if_pos ht, if_pos ht, if_neg (alignedWord_eq_false hbad), if_neg (alignedWord_eq_false hbad)]
    exact ⟨rfl, rfl⟩
  · rw [csrWrite_ctrl]
    cases hv : v.getLsbD 1 with
    | true => exact writeCtrl_srst hv s
    | false =>
      rw [writeCtrl_of_not_srst hv, startRun_ignored (s := withEnables v s) (.inl hb), ite_self, if_neg (by decide)]
  · rw [csrRead_status, getLsbD_statusWord]
    exact hb
  · rw [hostLoad_csrAddr (by decide) (by decide), if_neg (by simp)]
    rfl
  · refine ⟨Config.freeWord s.free, ?_⟩
    rw [hostLoad_csrAddr hoff h4, if_pos (by simp [hb, hne])]
    rfl
  · rw [hostLoad_csrAddr hoff h4, if_neg (by simp [hb])]
    rfl

/-! ### Errors -/

theorem code_mem_errorCodes (e : ErrName) :
    ∃ code cls, (e, code, cls) ∈ errorCodes ∧ e.code = BitVec.ofNat 8 code ∧ e.cls = BitVec.ofNat 2 cls ∧
      code < 256 ∧ cls < 4 := by
  cases e
  all_goals exact ⟨_, _, by simp [errorCodes], rfl, rfl, by decide, by decide⟩

/-- Settles O14: the record is the raise's; GO waits for the host's write of STATUS. -/
theorem errorEntryRecordsTheRaise : Obligations.ErrorEntryRecordsTheRaise := by
  refine ⟨fun e data s => ?_, fun r s v h1 h0 => ⟨?_, ?_⟩⟩
  · obtain ⟨code, cls, hmem, hcode, hcls, hlt, hlt'⟩ := code_mem_errorCodes e
    refine ⟨code, cls, hmem, ?_, rfl, rfl, ?_⟩
    · show 0#22 ++ e.cls ++ e.code = _
      rw [hcode, hcls]
      refine BitVec.eq_of_toNat_eq ?_
      simp only [toNat_append, BitVec.toNat_ofNat]
      omega
    · rw [← hcode, ← hcls]
      rfl
  · rw [csrWrite_ctrl, writeCtrl_of_not_srst h1, if_pos h0, startRun_ignored (s := withEnables v (errorEntry r s)) (.inr rfl)]
    rfl
  · rw [csrWrite_ctrl, writeCtrl_of_not_srst h1, if_pos h0, csrWrite_status, writeStatus_eq,
      startRun_started (by rfl) (by simp [withEnables])]
    simp [withEnables, State.runStart, errorEntry]

/-! ### Resets -/

/-- Mixing two memories gives each byte its value in one of them. -/
theorem mixMemory_read {free : Nat} {old new : Memory} (ho : old.wf = true) (hn : new.wf = true) (a : Nat) :
    (mixMemory free old new).read a = old.read a ∨ (mixMemory free old new).read a = new.read a := by
  have key : ∀ (l : List Nat) (m : Memory), (∀ b ∈ l, b < 2 ^ 32) → m.wf = true →
      (m.read a = old.read a ∨ m.read a = new.read a) →
      (l.foldl (fun m b => if old.read b = new.read b ∨ Config.freeBit free b = false then m else m.write b (new.read b))
          m).read a = old.read a ∨
        (l.foldl (fun m b => if old.read b = new.read b ∨ Config.freeBit free b = false then m else m.write b (new.read b))
          m).read a = new.read a := by
    intro l
    induction l with
    | nil => exact fun m _ _ h => h
    | cons b l ih =>
      intro m hl hm h
      obtain ⟨hb, hl⟩ := List.forall_mem_cons.mp hl
      rw [List.foldl_cons]
      split
      · exact ih m hl hm h
      · refine ih _ hl (Memory.wf_write hm hb _) ?_
        rw [Memory.read_write hm]
        split
        · rename_i hab
          exact .inr (by rw [hab])
        · exact h
  refine key _ old (fun b hb => ?_) ho (.inl rfl)
  rcases List.mem_append.mp hb with hb | hb
  · obtain ⟨x, hx, rfl⟩ := List.mem_map.mp hb
    exact ((Memory.wf_iff old).mp ho).2 x hx
  · obtain ⟨x, hx, rfl⟩ := List.mem_map.mp hb
    exact ((Memory.wf_iff new).mp hn).2 x hx

/-- The block's turn always goes on. -/
theorem blockStep_goes_on (s : State) : ∃ u, blockStep s = .next u := by
  unfold blockStep
  split
  · unfold runStep
    split
    · obtain ⟨u, hu⟩ : ∃ u, runCommand s = .next u := by
        unfold runCommand
        cases fetch s with
        | error r => exact ⟨_, rfl⟩
        | ok i =>
          obtain ⟨u, hu, -⟩ := runs_exec i s
          exact ⟨u, hu⟩
      exact ⟨_, by rw [hu]⟩
    · obtain ⟨u, hu⟩ : ∃ u, runRaced s = .next u := by
        unfold runRaced
        cases fetch s.seen with
        | error r => exact ⟨_, rfl⟩
        | ok i =>
          obtain ⟨u, hu, -⟩ := runs_execBeside s.stores i s.seen.seen
          exact ⟨u, hu⟩
      exact ⟨_, by rw [hu]⟩
  · exact ⟨_, rfl⟩

/-- Settles O15: a reset is a hardware reset, on memory mixed from before and after the command it abandons. -/
theorem resetTakesEffectAtAnyTime : Obligations.ResetTakesEffectAtAnyTime := by
  intro s hm
  refine ⟨fun es hes => by rw [step, hes], fun es v hes hv => ?_, fun es hes => ?_⟩
  · rw [step_of_store hes]
    exact (hostStore_csrAddr (s := { s with events := es }) (by decide) (by decide) v).trans
      (congrArg Host.Outcome.next (writeCtrl_srst hv _))
  · obtain ⟨u, hu⟩ := blockStep_goes_on { s with events := es }
    have hum : u.memCanonical = true := memCanonical_kept.blockStep (s := { s with events := es }) hm hu
    refine ⟨abandon { s with events := es } u, u, ?_, hu, csrCleared_hardReset _, hiddenCleared_of_dec_reset rfl, rfl, rfl,
      fun a => mixMemory_read ((memCanonical_iff s).mp hm).1 ((memCanonical_iff u).mp hum).1 a⟩
    rw [step, hes]
    dsimp only
    rw [resetDuring, hu]

end Sys2Proof.Cert
end

section
/-! The inverse transform of one block (R265) and the row commands' arguments (R271): what is read, what is stored, and when
they complete. -/
namespace Sys2Proof.Cert
open Sys2Proof.Machine

/-! ### Rounds -/

section
variable {ε σ : Type}

theorem forRange_shift (f : Nat → EStateM ε σ Unit) (lo n : Nat) :
    forRange lo n f = forRange 0 n fun i => f (lo + i) := by
  have key : ∀ n lo d, forRange (lo + d) n f = forRange d n fun i => f (lo + i) := by
    intro n
    induction n with
    | zero => exact fun _ _ => rfl
    | succ n ih =>
      intro lo d
      rw [forRange, forRange, Nat.add_assoc, ih]
  exact key n lo 0

theorem forRange_congr {f g : Nat → EStateM ε σ Unit} (lo n : Nat) (h : ∀ i, lo ≤ i → i < lo + n → f i = g i) :
    forRange lo n f = forRange lo n g := by
  induction n generalizing lo with
  | zero => rfl
  | succ n ih =>
    rw [forRange, forRange, h lo le_rfl (by omega), ih (lo + 1) fun i h1 h2 => h i (by omega) (by omega)]

theorem forRange_pure (lo n : Nat) (w : σ) : forRange (ε := ε) lo n (fun _ => pure ()) w = .ok () w := by
  induction n generalizing lo with
  | zero => rfl
  | succ n ih =>
    rw [forRange, bind_run, pure_run]
    exact ih _

/-- Rounds of rounds, as one run of rounds. -/
theorem forRange_flatten (g : Nat → Nat → EStateM ε σ Unit) (a : Nat) {b : Nat} (hb : 0 < b) :
    (forRange 0 a fun y => forRange 0 b (g y)) = forRange 0 (a * b) fun n => g (n / b) (n % b) := by
  funext w
  induction a generalizing w with
  | zero => rw [Nat.zero_mul]; rfl
  | succ a ih =>
    rw [Nat.succ_mul, forRange_add, forRange_add, bind_run, bind_run, ih]
    cases forRange 0 (a * b) (fun n => g (n / b) (n % b)) w with
    | error e w' => rfl
    | ok _ w' =>
      dsimp only
      have hrow : forRange (0 + a * b) b (fun n => g (n / b) (n % b)) = forRange 0 b (g a) := by
        rw [forRange_shift, Nat.zero_add]
        refine forRange_congr 0 b fun i _ hi => ?_
        rw [Nat.mul_comm a, Nat.mul_add_div hb, Nat.mul_add_mod, Nat.div_eq_of_lt (by omega), Nat.mod_eq_of_lt (by omega),
          Nat.add_zero]
      rw [hrow, Nat.zero_add, forRange, bind_run]
      cases forRange 0 b (g a) w' <;> rfl

end

/-! ### Reading a block -/

/-- A computation has stored nothing. -/
def sameStores (v w : MemW) : Prop := w.mem = v.mem ∧ w.writes = v.writes

theorem closed_sameStores : Closed sameStores :=
  ⟨fun _ => ⟨rfl, rfl⟩, fun _ _ _ h1 h2 => ⟨h2.1.trans h1.1, h2.2.trans h1.2⟩⟩

theorem sameStores_readByte (p : Params) (b : Buf) (a : Word) : Keeps sameStores (readByte p b a) := by
  intro w
  rw [readByte_run]
  split <;> exact ⟨rfl, rfl⟩

/-- A command that has stored nothing leaves the state as it was. -/
theorem settle_of_sameStores {s : State} {op : Op} {w : MemW} (h : sameStores (MemW.start op s) w) : s.settle w = s := by
  have hover : w.overlap = [] := by
    rw [MemW.overlap, h.2]
    rfl
  rw [settle_of_no_overlap hover, h.1]
  rfl

section
variable {p : Params} {b : Buf} {a : Word}

theorem completes_readCoefs {k n : Nat} (hkn : n + k = 64) (acc : Block) (h : blockOk p a) :
    Completes (readCoefs p b a k n acc) := by
  induction k generalizing n acc with
  | zero => exact Completes.pure acc
  | succ k ih =>
    refine Completes.bind (completes_memRead fun i hi => ?_) fun v => ih (by omega) _
    rw [okAt, addr_add]
    exact h _ (by omega)

theorem completes_readBlock (h : blockOk p a) : Completes (readBlock p b a) := completes_readCoefs rfl _ h

/-- Reading a block raises at the first byte that is not accessible. -/
theorem readCoefs_busError {k n i : Nat} (hi : 2 * n ≤ i) (hik : i < 2 * (n + k)) (acc : Block)
    (hok : ∀ j, j < i → okAt p a j) (hbad : ¬okAt p a i) {w : MemW} (hn : w.host = .none) :
    ∃ w', readCoefs p b a k n acc w = .error ⟨.busError, a + BitVec.ofNat 32 i⟩ w' := by
  induction k generalizing n acc w with
  | zero => omega
  | succ k ih =>
    have haddr : ∀ j, okAt p (a + BitVec.ofNat 32 (2 * n)) j ↔ okAt p a (2 * n + j) := fun j => by rw [okAt, okAt, addr_add]
    rw [readCoefs, bind_run]
    by_cases hlt : i < 2 * n + 2
    · obtain ⟨w', hw', -⟩ := memRead_busError (b := b) (p := p) (a := a + BitVec.ofNat 32 (2 * n)) (n := 2)
        (i := i - 2 * n) hn (by omega) (fun j hj => (haddr j).mpr (hok _ (by omega)))
        (by rw [haddr, show 2 * n + (i - 2 * n) = i by omega]; exact hbad)
      refine ⟨w', ?_⟩
      rw [hw', addr_add, show 2 * n + (i - 2 * n) = i by omega]
    · obtain ⟨w', hw', -, hh⟩ := memRead_ok (b := b) (p := p) (a := a + BitVec.ofNat 32 (2 * n)) (n := 2) hn
        fun j hj => (haddr j).mpr (hok _ (by omega))
      rw [hw']
      exact ih (by omega) (by omega) _ hh

variable {x : Access}

/-- Reading a block gives the coefficients that memory holds. -/
theorem Access.gives_readBlock (hr : ∀ k, k < 128 → x.reads b (a + BitVec.ofNat 32 k))
    (hk : ∀ k, k < 128 → x.kept (a + BitVec.ofNat 32 k)) :
    ∃ blk, x.Gives (readBlock p b a) blk ∧ ∀ n, n < 64 → blk.at n = coefIn x.mem a n := by
  have key : ∀ k n, n + k = 64 → ∀ acc : Block, (∀ j, j < n → acc.at j = coefIn x.mem a j) →
      ∃ blk, x.Gives (readCoefs p b a k n acc) blk ∧ ∀ j, j < 64 → blk.at j = coefIn x.mem a j := by
    intro k
    induction k with
    | zero => exact fun n hn acc hacc => ⟨acc, Access.Gives.pure acc, fun j hj => hacc j (by omega)⟩
    | succ k ih =>
      intro n hn acc hacc
      obtain ⟨blk, hblk, hat⟩ := ih (n + 1) (by omega) (acc.put n (coefIn x.mem a n)) fun j hj => by
        rw [blockAt_put acc (by omega)]
        split
        · subst_vars; rfl
        · exact hacc j (by omega)
      refine ⟨blk, ?_, hat⟩
      refine Access.Gives.bind (v := leValue x.mem (a + BitVec.ofNat 32 (2 * n)) 2)
        (Access.gives_memRead (fun i hi => ?_) fun i hi => ?_) ?_
      · rw [addr_add]
        exact hr _ (by omega)
      · rw [addr_add]
        exact hk _ (by omega)
      · rw [ofNat_leValue_two]
        exact hblk
  exact key 64 0 rfl Block.zero fun _ hj => absurd hj (Nat.not_lt_zero _)

end

theorem dequant_eq_dequantAt {s : State} {m : Memory} {t : Nat} {a : Word} {blk : Block}
    (h : ∀ n, n < 64 → blk.at n = coefIn m a n) : dequant blk (s.dec.tab.qt.get t) = dequantAt s m t a := by
  refine List.ext_getElem (by simp [dequant, dequantAt]) fun n h1 h2 => ?_
  have hn : n < 64 := by simpa [dequantAt] using h2
  have hat := h n hn
  rw [Block.at, List.getD_eq_getElem?_getD, List.getElem?_eq_getElem (by simpa using hn)] at hat
  simp only [dequant, dequantAt, List.getElem_zipWith, List.getElem_map, List.getElem_range, ← hat]
  congr 2
  simp [List.getD_eq_getElem?_getD, hn]

/-! ### One block -/

section
variable {e : Env} {rd wr : Buf} {t : Nat} {src dst stride : Word}

/-- The stores of a transformed block, in order. -/
def writeSamples (p : Params) (b : Buf) (f : List Int) (dst stride : Word) (n : Nat) : MM Unit :=
  forRange 0 n fun i => memWrite p b 1 (blkTarget dst stride i) (idctSample p f (i % 8) (i / 8))

theorem idctBlock_eq (h : e.tab.qtv.get t = true) :
    idctBlock e rd wr t src dst stride =
      readBlock e.params rd src >>= fun c => writeSamples e.params wr (dequant c (e.tab.qt.get t)) dst stride 64 := by
  rw [idctBlock, if_neg (by simp [h])]
  refine congrArg (readBlock e.params rd src >>= ·) (funext fun c => ?_)
  exact forRange_flatten
    (fun y x => memWrite e.params wr 1 (dst + BitVec.ofNat 32 y * stride + BitVec.ofNat 32 x)
      (idctSample e.params (dequant c (e.tab.qt.get t)) x y)) 8 (by decide)

theorem completes_writeSamples {p : Params} {f : List Int} {n : Nat}
    (h : ∀ i, i < n → p.memOk (blkTarget dst stride i).toNat = true) : Completes (writeSamples p wr f dst stride n) :=
  Completes.forRange 0 n fun i _ hi => completes_memWrite (fun k hk => by
    obtain rfl : k = 0 := by omega
    simpa [okAt] using h i (by omega)) _

theorem completes_idctBlock (ht : e.tab.qtv.get t = true) (hsrc : blockOk e.params src)
    (hdst : ∀ i, i < 64 → e.params.memOk (blkTarget dst stride i).toNat = true) :
    Completes (idctBlock e rd wr t src dst stride) := by
  rw [idctBlock_eq ht]
  exact Completes.bind (completes_readBlock hsrc) fun c => completes_writeSamples hdst

variable {x : Access}

/-- The stores of a block's samples: a later one wins. -/
theorem Access.stores_writeSamples {p : Params} {f : List Int} {n : Nat}
    (hw : ∀ i, i < n → x.writes wr (blkTarget dst stride i)) (hk : ∀ i, i < n → ¬x.kept (blkTarget dst stride i)) :
    x.Stores (writeSamples p wr f dst stride n) fun a v =>
      ∃ i, i < n ∧ a = blkTarget dst stride i ∧ v = BitVec.ofInt 8 (idctSample p f (i % 8) (i / 8)) ∧
        ∀ j, i < j → j < n → blkTarget dst stride j ≠ blkTarget dst stride i := by
  refine (Access.Stores.forRange_last (A := fun i a v =>
    a = blkTarget dst stride i ∧ v = BitVec.ofInt 8 (idctSample p f (i % 8) (i / 8))) 0 n fun i _ hi => ?_).congr
    fun a v => ?_
  · refine (Access.stores_memWrite _ (by omega) (fun k hk' => ?_) fun k hk' => ?_).congr fun a v => ?_
    · obtain rfl : k = 0 := by omega
      simpa using hw i (by omega)
    · obtain rfl : k = 0 := by omega
      simpa using hk i (by omega)
    · constructor
      · rintro ⟨k, hk', rfl, rfl⟩
        obtain rfl : k = 0 := by omega
        exact ⟨by simp, by simp⟩
      · rintro ⟨rfl, rfl⟩
        exact ⟨0, by omega, by simp, by simp⟩
  · constructor
    · rintro ⟨i, -, hi, ⟨rfl, rfl⟩, hlast⟩
      exact ⟨i, by omega, rfl, rfl, fun j hij hj he => hlast j hij (by omega) _ ⟨he.symm, rfl⟩⟩
    · rintro ⟨i, hi, rfl, rfl, hlast⟩
      exact ⟨i, by omega, by omega, ⟨rfl, rfl⟩, fun j hij hj v' h => hlast j hij (by omega) h.1.symm⟩

end

/-! ### IDCTBLK -/

section
variable {s : State} {tq n : Nat} {src dst stride : Word}

/-- IDCTBLK's accesses: its own words, its source block, and its first `n` samples. -/
def blkAccess (s : State) (src dst stride : Word) (n : Nat) : Access where
  writes b a := b = .blkDst ∧ ∃ i, i < n ∧ a = blkTarget dst stride i
  reads _ a := (∃ k, k < 16 ∧ a = s.proc.cqPtr + BitVec.ofNat 32 k) ∨ ∃ k, k < 128 ∧ a = src + BitVec.ofNat 32 k
  kept a := ∀ i, i < n → a ≠ blkTarget dst stride i
  mem := s.mem

/-- The same before its stores. -/
def blkReading (s : State) (src dst stride : Word) (n : Nat) : Access :=
  { blkAccess s src dst stride n with kept := fun _ => True }

theorem exec_idctblk (tq : Nat) (src dst stride : Word) (s : State) :
    exec (.idctblk tq src dst stride) s =
      finishMem .idctblk s (idctBlock s.env .blkSrc .blkDst tq src dst stride (MemW.start .idctblk s)) := rfl

theorem ok_blkReading (hm : s.mem.wf = true) : (blkReading s src dst stride n).Ok (MemW.start .idctblk s) :=
  Access.Ok.start hm (fun k hk => .inl ⟨k, hk, rfl⟩) rfl

/-- The block read, IDCTBLK stores its samples. -/
theorem exec_idctblk_read (hm : s.mem.wf = true) (ht : s.dec.tab.qtv.get tq = true) (hsrc : blockOk s.params src)
    (n : Nat) :
    ∃ w, (blkAccess s src dst stride n).Ok w ∧
      exec (.idctblk tq src dst stride) s =
        finishMem .idctblk s (writeSamples s.params .blkDst (dequantAt s s.mem tq src) dst stride 64 w) := by
  obtain ⟨blk, hgives, hat⟩ := Access.gives_readBlock (x := blkReading s src dst stride n) (p := s.params) (b := .blkSrc)
    (a := src) (fun k hk => .inr ⟨k, hk, rfl⟩) fun _ _ => trivial
  obtain ⟨v, w, hw⟩ := completes_readBlock (b := .blkSrc) hsrc (MemW.start .idctblk s)
  obtain ⟨rfl, hok, -⟩ := hgives _ _ _ (ok_blkReading hm) hw
  refine ⟨w, ⟨hok.good, hok.host, hok.writes, hok.reads, fun a _ => hok.kept a trivial⟩, ?_⟩
  rw [exec_idctblk, idctBlock_eq (e := s.env) ht, bind_run,
    show readBlock s.env.params .blkSrc src (MemW.start .idctblk s) = .ok v w from hw]
  exact congrArg (fun f => finishMem .idctblk s (writeSamples s.params .blkDst f dst stride 64 w)) (dequant_eq_dequantAt hat)

/-- What the samples stored read as once the command has ended. -/
theorem idctblk_samples {f : List Int} {w w' : MemW} (hw : (blkAccess s src dst stride n).Ok w)
    (h : writeSamples s.params .blkDst f dst stride n w = .ok () w') :
    (∀ i, i < n → (∀ j, i < j → j < n → blkTarget dst stride j ≠ blkTarget dst stride i) →
      (∀ k, k < 128 → blkTarget dst stride i ≠ src + BitVec.ofNat 32 k) → notCommand s 16 (blkTarget dst stride i) →
      (s.settle w').mem.read (blkTarget dst stride i).toNat = BitVec.ofInt 8 (idctSample s.params f (i % 8) (i / 8))) ∧
    ∀ addr : Word, (∀ i, i < n → addr ≠ blkTarget dst stride i) →
      (s.settle w').mem.read addr.toNat = s.mem.read addr.toNat := by
  obtain ⟨hok, hval, hrest⟩ := Access.stores_writeSamples (x := blkAccess s src dst stride n) (p := s.params) (f := f)
    (fun i hi => ⟨rfl, i, hi, rfl⟩) (fun i hi hk => hk i hi rfl) _ _ _ hw h
  have hout : ∀ a : Word, a.toNat ∈ w'.overlap →
      (∃ i, i < n ∧ a = blkTarget dst stride i) ∧
        ((∃ k, k < 16 ∧ a = s.proc.cqPtr + BitVec.ofNat 32 k) ∨ ∃ k, k < 128 ∧ a = src + BitVec.ofNat 32 k) := by
    intro a ha
    obtain ⟨x, hx, y, hy, -, hxl, hyl, hxh, hyh⟩ := mem_overlap.mp ha
    exact ⟨(hok.writes x.buf a ⟨x, hx, rfl, hxl, hxh⟩).2, hok.reads y.buf a ⟨y, hy, rfl, hyl, hyh⟩⟩
  refine ⟨fun i hi hlast hsrc hcmd => ?_, fun addr hne => ?_⟩
  · rw [settle_read fun ha => ?_]
    · exact hval _ _ ⟨i, hi, rfl, rfl, hlast⟩
    · rcases (hout _ ha).2 with ⟨k, hk, he⟩ | ⟨k, hk, he⟩
      · exact hcmd k hk he
      · exact hsrc k hk he
  · rw [settle_read fun ha => ?_]
    · exact hok.kept addr hne
    · obtain ⟨i, hi, he⟩ := (hout _ ha).1
      exact hne i hi he

end

/-- Settles O44: the block is read, then its samples are stored in order. -/
theorem idctblkWritesTheBlock : Obligations.IdctblkWritesTheBlock := by
  intro s tq src dst stride hm _
  have hwf := ((memCanonical_iff s).mp hm).1
  refine ⟨fun ht => ?_, fun k ht hk hok hbad => ?_, fun ht hsrc hdst => ?_, fun i ht hsrc hi hdst hbad => ?_⟩
  · have hbody : idctBlock s.env .blkSrc .blkDst tq src dst stride (MemW.start .idctblk s) =
        .error ⟨.badQuantSegment, 0⟩ (MemW.start .idctblk s) := by
      rw [idctBlock, if_pos (show s.env.tab.qtv.get tq = false from ht)]
      rfl
    rw [exec_idctblk, hbody, finishMem, settle_of_sameStores (closed_sameStores.refl _)]
  · obtain ⟨w, hw⟩ := readCoefs_busError (b := .blkSrc) (k := 64) (n := 0) (by omega) (by omega) Block.zero hok hbad
      (w := MemW.start .idctblk s) rfl
    have hkeep := Keeps.readBlock closed_sameStores (fun a => sameStores_readByte s.params .blkSrc a) src
      (MemW.start .idctblk s)
    have hread : readBlock s.params .blkSrc src (MemW.start .idctblk s) = _ := hw
    rw [hread, stateAfter_error] at hkeep
    rw [exec_idctblk, idctBlock_eq (e := s.env) ht, bind_run,
      show readBlock s.env.params .blkSrc src (MemW.start .idctblk s) = _ from hw]
    dsimp only
    rw [finishMem, settle_of_sameStores hkeep]
  · obtain ⟨w, hok, hexec⟩ := exec_idctblk_read (dst := dst) (stride := stride) hwf ht hsrc 64
    obtain ⟨⟨⟩, w', hw'⟩ := completes_writeSamples (wr := .blkDst) (f := dequantAt s s.mem tq src) hdst w
    rw [hw', finishMem, settle_eq] at hexec
    obtain ⟨hval, hrest⟩ := idctblk_samples hok hw'
    exact ⟨_, hexec, hval, hrest, rfl⟩
  · obtain ⟨w, hok, hexec⟩ := exec_idctblk_read (dst := dst) (stride := stride) hwf ht hsrc i
    obtain ⟨⟨⟩, w', hw'⟩ := completes_writeSamples (wr := .blkDst) (f := dequantAt s s.mem tq src) hdst w
    have hstop : writeSamples s.params .blkDst (dequantAt s s.mem tq src) dst stride 64 w =
        .error ⟨.busError, blkTarget dst stride i⟩ w' := by
      have hsplit : writeSamples s.params .blkDst (dequantAt s s.mem tq src) dst stride 64 w =
          ((forRange 0 i fun n => memWrite s.params .blkDst 1 (blkTarget dst stride n)
              (idctSample s.params (dequantAt s s.mem tq src) (n % 8) (n / 8))) >>= fun _ =>
            forRange (0 + i) (63 - i + 1) fun n => memWrite s.params .blkDst 1 (blkTarget dst stride n)
              (idctSample s.params (dequantAt s s.mem tq src) (n % 8) (n / 8))) w := by
        rw [writeSamples, show 64 = i + (63 - i + 1) by omega]
        exact forRange_add ..
      have hone : memWrite s.params .blkDst 1 (blkTarget dst stride i)
          (idctSample s.params (dequantAt s s.mem tq src) (i % 8) (i / 8)) w' = .error ⟨.busError, blkTarget dst stride i⟩ w' := by
        rw [memWrite, bind_run, writeByte_run, if_neg hbad]
      rw [hsplit, bind_run, show forRange 0 i _ w = _ from hw']
      dsimp only
      rw [Nat.zero_add, forRange, bind_run, hone]
    rw [hstop, finishMem, settle_eq] at hexec
    obtain ⟨hval, hrest⟩ := idctblk_samples hok hw'
    exact ⟨_, hexec, hval, hrest, rfl⟩

end Sys2Proof.Cert
end

section
/-! The row commands (R271, R272, R277, R281, R283): when the stages of a band complete. -/
namespace Sys2Proof.Cert
open Sys2Proof.Machine

theorem Completes.rounds {ε σ : Type} {f : Nat → EStateM ε σ Unit} {n : Nat} (hf : ∀ i, i < n → Completes (f i)) :
    Completes (Sys2Proof.Machine.forRange 0 n f) := Completes.forRange 0 n fun i _ hi => hf i (by omega)

section
variable {s : State} {b : Nat}

theorem blkTarget_planeAddr {e : Env} (hs : e.frm.mode ≠ .sof3) (c bx byy i : Nat) :
    blkTarget (planeAddr e c (8 * bx) (8 * byy)) (e.cfg.planeStride.get c) i =
      planeAddr e c (8 * bx + i % 8) (8 * byy + i / 8) := by
  rw [blkTarget, planeAddr_add hs]

theorem completes_idctBand (h : idctReady s b) : Completes (idctBand s.env b) := by
  unfold idctBand
  refine Completes.cond (fun _ => Completes.pure _) fun hs => ?_
  refine Completes.rounds fun c hc => Completes.forRange _ _ fun byy h1 h2 => Completes.rounds fun bx hbx => ?_
  obtain ⟨hq, hblocks⟩ := h hs c hc
  obtain ⟨hsrc, hdst⟩ := hblocks (byy - b * vOf s.env c) (by simp only [vOf]; omega) bx hbx
  rw [Nat.add_sub_cancel' (by simpa using h1)] at hsrc hdst
  refine completes_idctBlock (e := s.env) hq hsrc fun i hi => ?_
  rw [blkTarget_planeAddr hs]
  exact hdst i hi

theorem okAt_one {p : Params} {a : Word} (h : p.memOk a.toNat = true) (k : Nat) (hk : k < 1) : okAt p a k := by
  obtain rfl : k = 0 := by omega
  simpa [okAt] using h

theorem clampIdx_eq (i : Int) (n : Nat) : clampIdx i n = (min (max i 0) ((n : Int) - 1)).toNat := rfl

/-- A clamped index lies in its component (R273). -/
theorem clampIdx_lt {n : Nat} (h : 1 ≤ n) (i : Int) : clampIdx i n < n := by
  rw [clampIdx_eq]
  omega

/-- The filters read the plane's samples, and nothing else. -/
theorem upSample_induct {e : Env} {c : Nat} {Q : MM Nat → Prop} (hpure : ∀ v, Q (pure v))
    (hread : ∀ i j (f : Nat → MM Nat), (∀ v, Q (f v)) → Q (planeS e c i j >>= f)) {xo yo : Nat} {u : MM Nat}
    (hu : upSample e c xo yo = some u) : Q u := by
  have hlast : ∀ i j, Q (planeS e c i j) := fun i j => by
    have := hread i j pure hpure
    rwa [bind_pure] at this
  unfold upSample at hu
  split at hu
  · cases hu
    refine hread _ _ _ fun _ => ?_
    split <;> exact hread _ _ _ fun _ => hpure _
  · cases hu
    exact hlast _ _
  · cases hu
    simp only [up411, up411V, bind_assoc, pure_bind]
    refine hread _ _ _ fun _ => hread _ _ _ fun _ => ?_
    split <;> exact hread _ _ _ fun _ => hread _ _ _ fun _ => hpure _
  · cases hu

theorem completes_upsBand (h : upsReady s b) : Completes (upsBand s.env b) := by
  unfold upsBand
  refine Completes.cond (fun _ => Completes.pure _) fun hs => ?_
  obtain ⟨hlayout, hcomp⟩ := h hs
  refine Completes.cond (fun he => absurd he hlayout) fun _ => Completes.rounds fun c hc =>
    Completes.cond (fun _ => Completes.pure _) fun hfull => ?_
  obtain ⟨hcw, hch, hplane, huplane⟩ := hcomp c hc (by simpa using hfull)
  refine Completes.forRange _ _ fun yo h1 h2 => Completes.rounds fun xo hxo => ?_
  unfold upsSample
  split
  · exact Completes.pure _
  · rename_i u hu
    refine Completes.bind (upSample_induct (Q := Completes) Completes.pure (fun i j f hf => ?_) hu) fun v => ?_
    · exact Completes.bind (completes_memRead (okAt_one (hplane _ (clampIdx_lt hcw i) _ (clampIdx_lt hch j)))) hf
    · have := huplane (yo - 8 * s.dec.frm.vmax.toNat * b) (by simp only [State.env] at h1 h2; omega) xo hxo
      rw [Nat.add_sub_cancel' (show 8 * s.dec.frm.vmax.toNat * b ≤ yo from h1)] at this
      exact completes_memWrite (okAt_one this) _

theorem fullAt_eq (e : Env) (c x y : Nat) :
    fullAt e c x y =
      memRead e.params (if e.frm.mode = .sof3 ∨ fullRes e c = true then .plane c else .uplane c) (inputBytes e c)
        (inputAddr e c x y) := by
  unfold fullAt inputBytes inputAddr
  split <;> rfl

theorem completes_fullAll {x y n c : Nat}
    (h : ∀ c', c ≤ c' → c' < c + n → ∀ k, k < inputBytes s.env c' → okAt s.params (inputAddr s.env c' x y) k) :
    Completes (fullAll s.env x y n c) := by
  induction n generalizing c with
  | zero => exact Completes.pure []
  | succ n ih =>
    refine Completes.bind ?_ fun v => Completes.bind (ih fun c' h1 h2 => h c' (by omega) (by omega)) fun _ => Completes.pure _
    rw [fullAt_eq]
    exact completes_memRead (h c le_rfl (by omega))

/-- The bytes of a pair, in order (R282). -/
theorem packedAddr_eq (e : Env) (y pr j : Nat) :
    e.cfg.dstBase + BitVec.ofNat 32 y * e.cfg.dstStride + BitVec.ofNat 32 (4 * pr) + BitVec.ofNat 32 j =
      packedAddr e y pr j := addr_add _ _ _

theorem packPair_eq (e : Env) (y pr : Nat) :
    packPair e y pr =
      packByte e 0 (2 * pr) y (packedAddr e y pr 0) >>= fun _ => packByte e 1 pr y (packedAddr e y pr 1) >>= fun _ =>
        packByte e 0 (2 * pr + 1) y (packedAddr e y pr 2) >>= fun _ => packByte e 2 pr y (packedAddr e y pr 3) := by
  simp only [← packedAddr_eq, BitVec.add_zero]
  rfl

theorem completes_packPair {y pr : Nat}
    (h : ∀ j, j < 4 →
      s.params.memOk (packedFrom s.env y pr j).toNat = true ∧ s.params.memOk (packedAddr s.env y pr j).toNat = true) :
    Completes (packPair s.env y pr) := by
  have hbyte : ∀ (c x : Nat) (a : Word), s.params.memOk (planeAddr s.env c x y).toNat = true →
      s.params.memOk a.toNat = true → Completes (packByte s.env c x y a) := fun c x a hfrom hto =>
    Completes.bind (completes_memRead (okAt_one hfrom)) fun _ => completes_memWrite (okAt_one hto) _
  rw [packPair_eq]
  exact Completes.bind (hbyte _ _ _ (h 0 (by omega)).1 (h 0 (by omega)).2) fun _ =>
    Completes.bind (hbyte _ _ _ (h 1 (by omega)).1 (h 1 (by omega)).2) fun _ =>
      Completes.bind (hbyte _ _ _ (h 2 (by omega)).1 (h 2 (by omega)).2) fun _ =>
        hbyte _ _ _ (h 3 (by omega)).1 (h 3 (by omega)).2

theorem ccvBand_eq {e : Env} {k : CcvKind} (hv : e.scn.csValid = true) (hk : ccvDispatch e = some k) (b : Nat) :
    ccvBand e b =
      forRange (b * bandHeight e) (min ((b + 1) * bandHeight e) e.frm.y.toNat - b * bandHeight e) (ccvRow e k) := by
  rw [ccvBand, if_neg (by simp [hv]), hk]

theorem completes_ccvBand (h : ccvReady s b) : Completes (ccvBand s.env b) := by
  obtain ⟨hv, hd, hrows⟩ := h
  obtain ⟨k, hk⟩ := Option.ne_none_iff_exists'.mp hd
  rw [ccvBand_eq (e := s.env) hv hk]
  refine Completes.forRange _ _ fun y h1 h2 => ?_
  have hy := hrows y (by simp only [State.env] at h1 h2; omega) ⟨h1, by omega, by omega⟩
  rw [hk] at hy
  refine Completes.cond (fun hp => ?_) fun hp => ?_
  · subst hp
    rw [if_pos rfl] at hy
    refine Completes.rounds fun pr hpr => completes_packPair (hy pr ?_)
    rwa [← ceilDiv_eq_upDiv (by omega)]
  · rw [if_neg fun he => hp (Option.some.inj he)] at hy
    refine Completes.rounds fun x hx => ?_
    obtain ⟨hin, hout⟩ := hy x hx
    refine Completes.bind (completes_fullAll fun c _ hc => hin c (lt_of_lt_of_eq hc (Nat.zero_add _))) fun v => ?_
    exact Completes.rounds fun ch hch => completes_memWrite (hout ch hch) _

theorem completes_recBand (h : recReady s b) : Completes (recBand s.env b) := by
  unfold recBand
  refine Completes.cond (fun hs => ?_) fun hs => ?_
  · rw [recReady, if_pos (show s.dec.frm.mode = .sof3 from hs)] at h
    exact completes_ccvBand h
  · rw [recReady, if_neg (show ¬s.dec.frm.mode = .sof3 from hs)] at h
    obtain ⟨hidct, hbefore, hlast⟩ := h
    have last : Completes (if b + 1 = nbands s.env then do
        upsBand s.env b
        ccvBand s.env b
      else pure ()) :=
      Completes.cond (fun hb => Completes.bind (completes_upsBand (hlast hb).1) fun _ => completes_ccvBand (hlast hb).2)
        fun _ => Completes.pure _
    exact Completes.bind (completes_idctBand hidct) fun _ =>
      Completes.cond
        (fun hb => Completes.bind (completes_upsBand (hbefore hb).1) fun _ =>
          Completes.bind (completes_ccvBand (hbefore hb).2) fun _ => last)
        fun _ => last

end

/-! ### The commands -/

section
variable {s : State} {row n : Nat} {band : Nat → MM Unit}

theorem bandCount_pos (h : rowOk s row n) : 0 < bandCount s row n := by
  obtain ⟨-, hrow, -⟩ := h
  unfold bandCount
  split <;> omega

theorem bandsOf_eq (h : rowOk s row n) : bandsOf s.env row n band = forRange row (bandCount s row n) band := by
  obtain ⟨hv, hrow, hcnt⟩ := h
  have hargs : rowArgs s.env row n = .ok (bandCount s row n) := by
    rw [rowArgs_run, if_neg (by simp [hv]), if_neg (by have := bandCount_pos ⟨hv, hrow, hcnt⟩; omega)]
  rw [bandsOf, hargs]
  rfl

theorem bandsOf_error {r : Raise} (h : rowArgs s.env row n = .error r) (w : MemW) :
    bandsOf s.env row n band w = .error r w := by
  rw [bandsOf, h]
  rfl

/-- A command that raises before it has stored anything only enters the error state. -/
theorem runMem_raises {op : Op} {body : MM Unit} {r : Raise} {w : MemW} (h : body (MemW.start op s) = .error r w)
    (hw : sameStores (MemW.start op s) w) : runMem op body s = .next (errorEntry r s) := by
  rw [runMem, h, finishMem, settle_of_sameStores hw]

theorem runMem_completes {op : Op} {body : MM Unit} (hop : op.words = 2) (h : Completes body) :
    ∃ m k, runMem op body s = .next { ranPast 8 s with mem := m, free := k } := by
  obtain ⟨⟨⟩, w, hw⟩ := h (MemW.start op s)
  refine ⟨(s.settle w).mem, (s.settle w).free, ?_⟩
  rw [runMem, hw, finishMem, advance, hop, settle_eq]
  rfl

/-- The row commands, each with its band. -/
theorem exec_rowCommand {mk : Nat → Nat → Instr} (h : mk ∈ rowCommands) :
    ∃ (op : Op) (band : State → Nat → MM Unit), ∀ s row n, exec (mk row n) s = runMem op (bandsOf s.env row n (band s)) s := by
  simp only [rowCommands, List.mem_cons, List.not_mem_nil, or_false] at h
  rcases h with rfl | rfl | rfl | rfl
  · exact ⟨.idctrow, fun s => idctBand s.env, fun _ _ _ => rfl⟩
  · exact ⟨.upsrow, fun s => upsBand s.env, fun _ _ _ => rfl⟩
  · exact ⟨.ccvrow, fun s => ccvBand s.env, fun _ _ _ => rfl⟩
  · exact ⟨.recrow, fun s => recBand s.env, fun _ _ _ => rfl⟩

end

/-- Settles O45: the arguments are checked before anything is read or stored. -/
theorem rowArgumentsAreChecked : Obligations.RowArgumentsAreChecked := by
  intro s mk row n hmk _
  obtain ⟨op, band, hexec⟩ := exec_rowCommand hmk
  have raises : ∀ r, rowArgs s.env row n = .error r → exec (mk row n) s = .next (errorEntry r s) := fun r hr => by
    rw [hexec]
    exact runMem_raises (bandsOf_error hr _) (closed_sameStores.refl _)
  refine ⟨fun hv => raises _ ?_, fun hv hbad => raises _ ?_⟩
  · rw [rowArgs_run, if_pos hv]
  · have hcnt : bandsIn s ≤ row ∨ bandCount s row n = 0 ∨ bandsIn s < row + bandCount s row n := by
      unfold bandCount
      split <;> omega
    rw [rowArgs_run, if_neg (by simp [hv]), if_pos hcnt]

/-- Settles O46: each band completes, so the bands do. -/
theorem rowCommandsComplete : Obligations.RowCommandsComplete := by
  intro s row n hrow all completes
  have bands : ∀ {band : Nat → MM Unit} {ready : Nat → Prop}, (∀ b, ready b → Completes (band b)) → all ready →
      Completes (bandsOf s.env row n band) := fun hband hall => by
    rw [bandsOf_eq hrow]
    exact Completes.forRange _ _ fun b h1 h2 => hband b (hall b h1 h2)
  exact ⟨fun h => runMem_completes rfl (bands (fun _ => completes_idctBand) h),
    fun h => runMem_completes rfl (bands (fun _ => completes_upsBand) h),
    fun h => runMem_completes rfl (bands (fun _ => completes_ccvBand) h),
    fun h => runMem_completes rfl (bands (fun _ => completes_recBand) h)⟩

end Sys2Proof.Cert
end

section
/-! What the stages of a band store (R272, R277, R281, R282): each stage fills its bytes with the values of its rule. -/
namespace Sys2Proof.Cert
open Sys2Proof.Machine

/-! ### Filling bytes -/

/-- A computation, where it completes, leaves in each byte of `W` a value that `F` allows, and every other byte as it was. -/
def Access.Fills {α : Type} (x : Access) (F : Word → Byte → Prop) (m : MM α) (W : Word → Prop) : Prop :=
  ∀ w v' w', x.Ok w → m w = .ok v' w' → x.Ok w' ∧ (∀ a, W a → F a (w'.mem.read a.toNat)) ∧
    ∀ a, ¬W a → w'.mem.read a.toNat = w.mem.read a.toNat

section
variable {x : Access} {F : Word → Byte → Prop}

theorem Access.Fills.congr {α : Type} {m : MM α} {V W : Word → Prop} (h : x.Fills F m V) (hVW : ∀ a, V a ↔ W a) :
    x.Fills F m W := by
  rwa [show V = W from funext fun a => propext (hVW a)] at h

theorem Access.Fills.of_stores {α : Type} {m : MM α} {A : Word → Byte → Prop} {W : Word → Prop} (h : x.Stores m A)
    (hW : ∀ a, W a ↔ ∃ v, A a v) (hF : ∀ a v, A a v → F a v) : x.Fills F m W := fun w v' w' hw hm => by
  obtain ⟨hok, hA, hrest⟩ := h w v' w' hw hm
  refine ⟨hok, fun a ha => ?_, fun a ha => hrest a fun v hv => ha ((hW a).mpr ⟨v, hv⟩)⟩
  obtain ⟨v, hv⟩ := (hW a).mp ha
  rw [hA a v hv]
  exact hF a v hv

theorem Access.Fills.pure {α : Type} (v : α) : x.Fills F (pure v) fun _ => False := fun w v' w' hw h => by
  cases h
  exact ⟨hw, nofun, fun _ _ => rfl⟩

theorem Access.Fills.of_gives {α β : Type} {m : MM α} {f : α → MM β} {v : α} {W : Word → Prop} (hm : x.Gives m v)
    (hf : x.Fills F (f v) W) : x.Fills F (m >>= f) W := fun w u' w' hw h => by
  obtain ⟨v1, w1, h1, h2⟩ := bind_eq_ok.mp h
  obtain ⟨rfl, hw1, hm1⟩ := hm _ _ _ hw h1
  obtain ⟨hw2, hW, hrest⟩ := hf _ _ _ hw1 h2
  exact ⟨hw2, hW, fun a ha => (hrest a ha).trans (by rw [hm1])⟩

theorem Access.Fills.bind {α β : Type} {m : MM α} {f : α → MM β} {V W : Word → Prop} (hm : x.Fills F m V)
    (hf : ∀ v, x.Fills F (f v) W) : x.Fills F (m >>= f) fun a => V a ∨ W a := fun w u' w' hw h => by
  obtain ⟨v1, w1, h1, h2⟩ := bind_eq_ok.mp h
  obtain ⟨hw1, hV, hrest⟩ := hm _ _ _ hw h1
  obtain ⟨hw2, hW, hrest'⟩ := hf v1 _ _ _ hw1 h2
  refine ⟨hw2, fun a ha => ?_, fun a ha => ?_⟩
  · by_cases haW : W a
    · exact hW a haW
    · rw [hrest' a haW]
      exact hV a (ha.resolve_right haW)
  · rw [hrest' a fun hW => ha (.inr hW), hrest a fun hV => ha (.inl hV)]

theorem Access.Fills.cond {α : Type} {c : Prop} [Decidable c] {m n : MM α} {W : Word → Prop} (hm : c → x.Fills F m W)
    (hn : ¬c → x.Fills F n W) : x.Fills F (if c then m else n) W := by
  split
  · exact hm (by assumption)
  · exact hn (by assumption)

theorem Access.Fills.throw {α : Type} (r : Raise) (W : Word → Prop) : x.Fills F (throw r : MM α) W := fun w v' w' _ h => by
  cases h

theorem Access.Fills.forRange {f : Nat → MM Unit} {W : Nat → Word → Prop} (lo n : Nat)
    (hf : ∀ i, lo ≤ i → i < lo + n → x.Fills F (f i) (W i)) :
    x.Fills F (Sys2Proof.Machine.forRange lo n f) fun a => ∃ i, lo ≤ i ∧ i < lo + n ∧ W i a := by
  induction n generalizing lo with
  | zero => exact (Access.Fills.pure ()).congr fun _ => ⟨nofun, fun ⟨i, h1, h2, _⟩ => by omega⟩
  | succ n ih =>
    refine (Access.Fills.bind (hf lo le_rfl (by omega)) fun _ =>
      ih (lo + 1) fun i h1 h2 => hf i (by omega) (by omega)).congr fun a => ?_
    constructor
    · rintro (h | ⟨i, h1, h2, h⟩)
      · exact ⟨lo, le_rfl, by omega, h⟩
      · exact ⟨i, by omega, by omega, h⟩
    · rintro ⟨i, h1, h2, h⟩
      rcases Nat.eq_or_lt_of_le h1 with rfl | h1
      · exact .inl h
      · exact .inr ⟨i, h1, by omega, h⟩

theorem Access.Fills.rounds {f : Nat → MM Unit} {W : Nat → Word → Prop} {n : Nat}
    (hf : ∀ i, i < n → x.Fills F (f i) (W i)) :
    x.Fills F (Sys2Proof.Machine.forRange 0 n f) fun a => ∃ i, i < n ∧ W i a :=
  (Access.Fills.forRange 0 n fun i _ hi => hf i (by omega)).congr fun a => by simp

/-- A command may store to a byte through a buffer. -/
def Access.mayWrite (x : Access) (b : Buf) (a : Word) : Prop := x.writes b a ∧ ¬x.kept a

/-- A command may read a byte through a buffer, and finds there what the memory held. -/
def Access.mayRead (x : Access) (b : Buf) (a : Word) : Prop := x.reads b a ∧ x.kept a

theorem Access.fills_memWrite {p : Params} {b : Buf} {n : Nat} {a : Word} {v : Int} (hn : n < 2 ^ 32)
    (hw : ∀ k, k < n → x.mayWrite b (a + BitVec.ofNat 32 k))
    (hF : ∀ k, k < n → F (a + BitVec.ofNat 32 k) (BitVec.ofInt 8 (v / 256 ^ k))) :
    x.Fills F (memWrite p b n a v) fun a' => ∃ k, k < n ∧ a' = a + BitVec.ofNat 32 k := by
  refine Access.Fills.of_stores (Access.stores_memWrite v hn (fun k hk => (hw k hk).1) fun k hk => (hw k hk).2) ?_ ?_
  · exact fun a' => ⟨fun ⟨k, hk, he⟩ => ⟨_, k, hk, he, rfl⟩, fun ⟨_, k, hk, he, _⟩ => ⟨k, hk, he⟩⟩
  · rintro _ _ ⟨k, hk, rfl, rfl⟩
    exact hF k hk

theorem Access.fills_memWrite_one {p : Params} {b : Buf} {a : Word} {v : Int} (hw : x.mayWrite b a)
    (hF : F a (BitVec.ofInt 8 v)) : x.Fills F (memWrite p b 1 a v) fun a' => a' = a := by
  refine (Access.fills_memWrite (by omega) (fun k hk => ?_) fun k hk => ?_).congr fun a' => ⟨?_, fun he => ⟨0, by omega, ?_⟩⟩
  · obtain rfl : k = 0 := by omega
    simpa using hw
  · obtain rfl : k = 0 := by omega
    simpa using hF
  · rintro ⟨k, hk, rfl⟩
    obtain rfl : k = 0 := by omega
    simp
  · simpa using he

theorem Access.gives_memRead_one {p : Params} {b : Buf} {a : Word} (hr : x.mayRead b a) :
    x.Gives (memRead p b 1 a) (x.mem.read a.toNat).toNat := by
  have h := Access.gives_memRead (x := x) (p := p) (b := b) (n := 1) (a := a) (fun k hk => by
    obtain rfl : k = 0 := by omega
    simpa using hr.1) fun k hk => by
      obtain rfl : k = 0 := by omega
      simpa using hr.2
  rwa [leValue_succ, show leValue x.mem (a + 1) 0 = 0 from rfl, Nat.mul_zero, Nat.add_zero] at h

end

/-! ### The inverse transform -/

section
variable {x : Access} {F : Word → Byte → Prop} {s : State} {b : Nat}

/-- The sample of a component's block in the plane's memory (R272). -/
def planeSample (s : State) (m : Memory) (c r bx i : Nat) : Int :=
  idctSample s.params (dequantAt s m (s.dec.frm.comp.get c).tq.toNat (coefAddr s.env c bx r)) (i % 8) (i / 8)

theorem Access.fills_idctBlock {rd wr : Buf} {t : Nat} {src dst stride : Word}
    (hr : ∀ k, k < 128 → x.mayRead rd (src + BitVec.ofNat 32 k))
    (hw : ∀ i, i < 64 → x.mayWrite wr (blkTarget dst stride i))
    (hF : ∀ i, i < 64 → F (blkTarget dst stride i)
      (BitVec.ofInt 8 (idctSample s.params (dequantAt s x.mem t src) (i % 8) (i / 8)))) :
    x.Fills F (idctBlock s.env rd wr t src dst stride) fun a => ∃ i, i < 64 ∧ a = blkTarget dst stride i := by
  cases ht : s.dec.tab.qtv.get t with
  | false =>
    rw [idctBlock, if_pos (show s.env.tab.qtv.get t = false from ht)]
    exact Access.Fills.throw _ _
  | true =>
    obtain ⟨blk, hgives, hat⟩ := Access.gives_readBlock (x := x) (p := s.params) (fun k hk => (hr k hk).1)
      fun k hk => (hr k hk).2
    rw [idctBlock_eq (e := s.env) ht]
    refine Access.Fills.of_gives hgives (Access.Fills.rounds fun i hi => Access.fills_memWrite_one (hw i hi) ?_)
    rw [show dequant blk (s.env.tab.qt.get t) = _ from dequant_eq_dequantAt hat]
    exact hF i hi

/-- IdctBand fills the plane samples of its blocks. -/
theorem Access.fills_idctBand
    (hr : ∀ c r bx k, c < s.dec.frm.ncomp.toNat → b * vOf s.env c ≤ r → r < b * vOf s.env c + vOf s.env c →
      bx < bwOf s.env c → k < 128 → x.mayRead .coef (coefAddr s.env c bx r + BitVec.ofNat 32 k))
    (hw : ∀ c r bx i, c < s.dec.frm.ncomp.toNat → b * vOf s.env c ≤ r → r < b * vOf s.env c + vOf s.env c →
      bx < bwOf s.env c → i < 64 → x.mayWrite (.plane c) (planeAddr s.env c (8 * bx + i % 8) (8 * r + i / 8)) ∧
        F (planeAddr s.env c (8 * bx + i % 8) (8 * r + i / 8)) (BitVec.ofInt 8 (planeSample s x.mem c r bx i))) :
    x.Fills F (idctBand s.env b) (idctStores s.env b) := by
  unfold idctBand
  by_cases hs : s.dec.frm.mode = .sof3
  · rw [if_pos (show s.env.frm.mode = .sof3 from hs)]
    exact (Access.Fills.pure ()).congr fun a => ⟨nofun, fun h => h.1 hs⟩
  · rw [if_neg (show ¬s.env.frm.mode = .sof3 from hs)]
    refine (Access.Fills.rounds fun c hc => Access.Fills.forRange _ _ fun r h1 h2 => Access.Fills.rounds fun bx hbx =>
      Access.fills_idctBlock (s := s) (fun k hk => hr c r bx k hc h1 h2 hbx hk) (fun i hi => ?_) fun i hi => ?_).congr
      fun a => ⟨?_, ?_⟩
    · rw [blkTarget_planeAddr hs]
      exact (hw c r bx i hc h1 h2 hbx hi).1
    · rw [blkTarget_planeAddr hs]
      exact (hw c r bx i hc h1 h2 hbx hi).2
    · rintro ⟨c, hc, r, h1, h2, bx, hbx, i, hi, rfl⟩
      refine ⟨hs, c, r - b * vOf s.env c, bx, i, hc, by simp only [vOf] at h1 h2 ⊢; omega, hbx, hi, ?_⟩
      rw [blkTarget_planeAddr hs, Nat.add_sub_cancel' h1]
    · rintro ⟨-, c, r, bx, i, hc, hr', hbx, hi, rfl⟩
      exact ⟨c, hc, b * vOf s.env c + r, by simp, by simp only [vOf] at hr' ⊢; omega, bx, hbx, i, hi,
        (blkTarget_planeAddr hs ..).symm⟩

/-! ### Upsampling -/

section
variable {c : Nat} (hx : x.mem = s.mem) (hcw : 1 ≤ (s.dec.frm.geo.get c).cw) (hch : 1 ≤ (s.dec.frm.geo.get c).ch)
  (hr : ∀ i j, i < (s.dec.frm.geo.get c).cw → j < (s.dec.frm.geo.get c).ch → x.mayRead (.plane c) (planeAddr s.env c i j))
include hx hcw hch hr

theorem Access.gives_planeS (i j : Int) : x.Gives (planeS s.env c i j) (planeClamped s c i j) := by
  have h := Access.gives_memRead_one (p := s.env.params) (hr _ _ (clampIdx_lt hcw i) (clampIdx_lt hch j))
  rw [hx] at h
  exact h

theorem Access.gives_up411V (i j jn : Int) :
    x.Gives (up411V s.env c i j jn) (3 * planeClamped s c i j + planeClamped s c i jn) :=
  Access.Gives.bind (gives_planeS hx hcw hch hr i j)
    (Access.Gives.bind (gives_planeS hx hcw hch hr i jn) (Access.Gives.pure _))

/-- The filters give their rules' values. -/
theorem Access.gives_upSample (hfac : factorsOk s c) (xo yo : Nat) :
    ∃ u, upSample s.env c xo yo = some u ∧ x.Gives u (upValue s c xo yo) := by
  have hS := Access.gives_planeS hx hcw hch hr
  have hV := Access.gives_up411V hx hcw hch hr
  rcases hfac with ⟨hu, hv⟩ | ⟨hu, hv⟩ | ⟨hu, hv⟩
  · refine ⟨up422 s.env c xo yo, by simp [upSample, State.env, hu, hv], ?_⟩
    simp only [upValue, hu, hv, and_self, if_true]
    refine Access.Gives.bind (hS _ _) ?_
    split
    · exact Access.Gives.bind (hS _ _) (Access.Gives.pure _)
    · exact Access.Gives.bind (hS _ _) (Access.Gives.pure _)
  · refine ⟨up244 s.env c xo yo, by simp [upSample, State.env, hu, hv], ?_⟩
    simp only [upValue, hu, hv]
    exact hS _ _
  · refine ⟨up411 s.env c xo yo, by simp [upSample, State.env, hu, hv], ?_⟩
    simp only [upValue, hu, hv]
    refine Access.Gives.bind (hV _ _ _) ?_
    by_cases hxo : xo % 2 = 0
    · simp only [hxo, if_true]
      exact Access.Gives.bind (hV _ _ _) (Access.Gives.pure _)
    · simp only [hxo, if_false]
      exact Access.Gives.bind (hV _ _ _) (Access.Gives.pure _)

end

/-- UpsBand fills the UPlane samples of its rows. -/
theorem Access.fills_upsBand (hx : x.mem = s.mem) (hready : upsReady s b)
    (hr : ∀ c i j, c < s.dec.frm.ncomp.toNat → fullRes s.env c = false → i < (s.dec.frm.geo.get c).cw →
      j < (s.dec.frm.geo.get c).ch → x.mayRead (.plane c) (planeAddr s.env c i j))
    (hw : ∀ c xo yo, c < s.dec.frm.ncomp.toNat → fullRes s.env c = false →
      xo < 8 * s.dec.frm.hmax.toNat * s.dec.frm.mcux.toNat → 8 * s.dec.frm.vmax.toNat * b ≤ yo →
      yo < 8 * s.dec.frm.vmax.toNat * b + 8 * s.dec.frm.vmax.toNat → factorsOk s c ∧
        x.mayWrite (.uplane c) (uplaneAddr s.env c xo yo) ∧
        F (uplaneAddr s.env c xo yo) (BitVec.ofNat 8 (upValue s c xo yo))) :
    x.Fills F (upsBand s.env b) (upsStores s.env b) := by
  unfold upsBand
  by_cases hs : s.dec.frm.mode = .sof3
  · rw [if_pos (show s.env.frm.mode = .sof3 from hs)]
    exact (Access.Fills.pure ()).congr fun a => ⟨nofun, fun h => h.1 hs⟩
  · obtain ⟨hlayout, hcomp⟩ := hready hs
    rw [if_neg (show ¬s.env.frm.mode = .sof3 from hs), if_neg (show ¬s.env.frm.layout = .other from hlayout)]
    have comp : ∀ c, c < s.dec.frm.ncomp.toNat → x.Fills F (upsComp s.env b c) fun a =>
        fullRes s.env c = false ∧ ∃ yo, 8 * s.dec.frm.vmax.toNat * b ≤ yo ∧
          yo < 8 * s.dec.frm.vmax.toNat * b + 8 * s.dec.frm.vmax.toNat ∧
          ∃ xo, xo < 8 * s.dec.frm.hmax.toNat * s.dec.frm.mcux.toNat ∧ a = uplaneAddr s.env c xo yo := by
      intro c hc
      unfold upsComp
      cases hfull : fullRes s.env c with
      | true =>
        rw [if_pos rfl]
        exact (Access.Fills.pure ()).congr fun a => by simp
      | false =>
        obtain ⟨hcw, hch, -, -⟩ := hcomp c hc hfull
        rw [if_neg (by decide)]
        refine (Access.Fills.forRange _ _ fun yo h1 h2 => Access.Fills.rounds fun xo hxo => ?_).congr fun a =>
          (and_iff_right rfl).symm
        obtain ⟨hfac, hmay, hval⟩ := hw c xo yo hc hfull hxo h1 h2
        obtain ⟨u, hu, hgives⟩ := Access.gives_upSample hx hcw hch (fun i j => hr c i j hc hfull) hfac xo yo
        rw [upsSample, hu]
        exact Access.Fills.of_gives hgives (Access.fills_memWrite_one hmay (by rwa [BitVec.ofInt_natCast]))
    refine (Access.Fills.rounds comp).congr fun a => ⟨?_, ?_⟩
    · rintro ⟨c, hc, hfull, yo, h1, h2, xo, hxo, rfl⟩
      refine ⟨hs, c, yo - 8 * s.dec.frm.vmax.toNat * b, xo, hc, hfull, ?_, hxo, ?_⟩
      · simp only [State.env]
        omega
      · exact congrArg (uplaneAddr s.env c xo) (Nat.add_sub_cancel' h1).symm
    · rintro ⟨-, c, r, xo, hc, hfull, hr', hxo, rfl⟩
      exact ⟨c, hc, hfull, 8 * s.dec.frm.vmax.toNat * b + r, by simp, by simp only [State.env] at hr'; omega, xo, hxo, rfl⟩

/-! ### Colour conversion -/

theorem leValue_inputBytes (s : State) (c x y : Nat) :
    leValue s.mem (inputAddr s.env c x y) (inputBytes s.env c) = inputValue s c x y := by
  have hb : inputBytes s.env c = 1 ∨ inputBytes s.env c = 2 := by
    unfold inputBytes planeBps
    split <;> [split; skip] <;> simp
  unfold inputValue
  rcases hb with hb | hb <;> rw [hb, leValue_succ]
  · simp [leValue]
  · rw [leValue_succ]
    simp [leValue, byteAt]

theorem Access.gives_fullAll (hx : x.mem = s.mem) {px y n c : Nat}
    (hr : ∀ c', c ≤ c' → c' < c + n → ∀ k, k < inputBytes s.env c' →
      x.mayRead (if s.dec.frm.mode = .sof3 ∨ fullRes s.env c' = true then .plane c' else .uplane c')
        (inputAddr s.env c' px y + BitVec.ofNat 32 k)) :
    x.Gives (fullAll s.env px y n c) ((List.range' c n).map fun c' => (inputValue s c' px y : Int)) := by
  induction n generalizing c with
  | zero => exact Access.Gives.pure []
  | succ n ih =>
    refine Access.Gives.bind (v := inputValue s c px y) ?_
      (Access.Gives.bind (ih fun c' h1 h2 => hr c' (by omega) (by omega)) (Access.Gives.pure _))
    rw [fullAt_eq, ← leValue_inputBytes, ← hx]
    exact Access.gives_memRead (fun k hk => (hr c le_rfl (by omega) k hk).1) fun k hk => (hr c le_rfl (by omega) k hk).2

/-- The output channels follow the table of conversions. -/
theorem ccvPixel_getD {e : Env} {k : CcvKind} (hk : ConvRow e k) (hp : k ≠ .p422) (v : Nat → Int) {ch : Nat}
    (hch : ch < e.cfg.dstNch.toNat) :
    (ccvPixel e k ((List.range' 0 e.frm.ncomp.toNat).map v)).getD ch 0 = channelOf k e.cfg.dstCs.toNat v ch := by
  cases k with
  | copy =>
    obtain ⟨-, -, hn⟩ := hk
    have hc : ch < e.frm.ncomp.toNat := hn ▸ hch
    simp [ccvPixel, channelOf, List.getD_eq_getElem?_getD, hc]
  | rgb =>
    obtain ⟨-, -, hc, hdcs, hn⟩ := hk
    rw [hn] at hch
    have hch : ch < 3 := hch
    rcases hdcs with hd | hd <;> interval_cases ch <;>
      simp [ccvPixel, channelOf, hc, hd, ycc2rgb_eq, CSpace.code, List.range'_succ]
  | cmyk =>
    obtain ⟨-, -, hc, -, hn⟩ := hk
    rw [hn] at hch
    have hch : ch < 4 := hch
    interval_cases ch <;> simp [ccvPixel, channelOf, hc, ycck2cmyk_eq, List.range'_succ]
  | p422 => exact absurd rfl hp

theorem mem_imageRow {e : Env} {y : Nat} :
    imageRow e b y ↔ b * bandHeight e ≤ y ∧
      y < b * bandHeight e + (min ((b + 1) * bandHeight e) e.frm.y.toNat - b * bandHeight e) := by
  simp only [imageRow]
  omega

/-- CcvBand fills the pixels of its rows, one by one. -/
theorem Access.fills_ccvBand {k : CcvKind} (hx : x.mem = s.mem) (hv : s.dec.scn.csValid = true)
    (hk : ccvDispatch s.env = some k) (hp : k ≠ .p422)
    (hr : ∀ y px c j, imageRow s.env b y → px < s.dec.frm.x.toNat → c < s.dec.frm.ncomp.toNat → j < inputBytes s.env c →
      x.mayRead (if s.dec.frm.mode = .sof3 ∨ fullRes s.env c = true then .plane c else .uplane c)
        (inputAddr s.env c px y + BitVec.ofNat 32 j))
    (hw : ∀ y px ch i, imageRow s.env b y → px < s.dec.frm.x.toNat → ch < s.cfg.dstNch.toNat → i < dstBps s.env →
      x.mayWrite .dst (dstAddr s.env px y ch + BitVec.ofNat 32 i) ∧
        F (dstAddr s.env px y ch + BitVec.ofNat 32 i)
          (BitVec.ofInt 8 (channelOf k s.cfg.dstCs.toNat (fun c => (inputValue s c px y : Int)) ch / 256 ^ i))) :
    x.Fills F (ccvBand s.env b) (ccvStores s.env b) := by
  have hbps : dstBps s.env < 2 ^ 32 := by
    unfold dstBps
    split <;> omega
  obtain ⟨-, hrow⟩ := (ccvDispatch_eq_some_iff s.env k).mp hk
  rw [ccvBand_eq (e := s.env) hv hk]
  refine (Access.Fills.forRange (W := fun y a => ∃ px, px < s.dec.frm.x.toNat ∧ ∃ ch, ch < s.cfg.dstNch.toNat ∧
    ∃ i, i < dstBps s.env ∧ a = dstAddr s.env px y ch + BitVec.ofNat 32 i) _ _ fun y h1 h2 => ?_).congr fun a => ⟨?_, ?_⟩
  · have hy := mem_imageRow.mpr ⟨h1, h2⟩
    rw [ccvRow, if_neg hp]
    refine Access.Fills.rounds fun px hpx => Access.Fills.of_gives (Access.gives_fullAll hx fun c _ hc j hj =>
      hr y px c j hy hpx (lt_of_lt_of_eq hc (Nat.zero_add _)) hj) (Access.Fills.rounds fun ch hch => Access.fills_memWrite hbps ?_ ?_)
    · exact fun i hi => (hw y px ch i hy hpx hch hi).1
    · intro i hi
      rw [ccvPixel_getD hrow hp _ hch]
      exact (hw y px ch i hy hpx hch hi).2
  · rintro ⟨y, h1, h2, px, hpx, ch, hch, i, hi, rfl⟩
    exact ⟨y, mem_imageRow.mpr ⟨h1, h2⟩, .inr ⟨fun he => hp (Option.some.inj (hk.symm.trans he)), px, ch, i, hpx, hch, hi, rfl⟩⟩
  · rintro ⟨y, hy, ⟨he, -⟩ | ⟨-, px, ch, i, hpx, hch, hi, rfl⟩⟩
    · exact absurd (Option.some.inj (hk.symm.trans he)) hp
    · obtain ⟨h1, h2⟩ := mem_imageRow.mp hy
      exact ⟨y, h1, h2, px, hpx, ch, hch, i, hi, rfl⟩

theorem Access.fills_packPair {y pr : Nat}
    (hr : ∀ j, j < 4 → ∀ bf, x.mayRead bf (packedFrom s.env y pr j))
    (hw : ∀ j, j < 4 → x.mayWrite .dst (packedAddr s.env y pr j) ∧
      F (packedAddr s.env y pr j) (x.mem.read (packedFrom s.env y pr j).toNat)) :
    x.Fills F (packPair s.env y pr) fun a => ∃ j, j < 4 ∧ a = packedAddr s.env y pr j := by
  have byte : ∀ (c px j : Nat), j < 4 → packedFrom s.env y pr j = planeAddr s.env c px y →
      x.Fills F (packByte s.env c px y (packedAddr s.env y pr j)) fun a => a = packedAddr s.env y pr j := by
    intro c px j hj he
    refine Access.Fills.of_gives (Access.gives_memRead_one (he ▸ hr j hj (.plane c)))
      (Access.fills_memWrite_one (hw j hj).1 ?_)
    rw [BitVec.ofInt_natCast, BitVec.ofNat_toNat, BitVec.setWidth_eq, ← he]
    exact (hw j hj).2
  rw [packPair_eq]
  refine (Access.Fills.bind (byte 0 _ 0 (by omega) rfl) fun _ => Access.Fills.bind (byte 1 _ 1 (by omega) rfl) fun _ =>
    Access.Fills.bind (byte 0 _ 2 (by omega) rfl) fun _ => byte 2 _ 3 (by omega) rfl).congr fun a => ⟨?_, ?_⟩
  · rintro (h | h | h | h)
    · exact ⟨0, by omega, h⟩
    · exact ⟨1, by omega, h⟩
    · exact ⟨2, by omega, h⟩
    · exact ⟨3, by omega, h⟩
  · rintro ⟨j, hj, rfl⟩
    interval_cases j <;> simp

/-- CcvBand fills the packed pairs of its rows. -/
theorem Access.fills_ccvBand_packed (hv : s.dec.scn.csValid = true) (hk : ccvDispatch s.env = some .p422)
    (hr : ∀ y pr j, imageRow s.env b y → pr < upDiv s.dec.frm.x.toNat 2 → j < 4 → ∀ bf,
      x.mayRead bf (packedFrom s.env y pr j))
    (hw : ∀ y pr j, imageRow s.env b y → pr < upDiv s.dec.frm.x.toNat 2 → j < 4 →
      x.mayWrite .dst (packedAddr s.env y pr j) ∧
        F (packedAddr s.env y pr j) (x.mem.read (packedFrom s.env y pr j).toNat)) :
    x.Fills F (ccvBand s.env b) (ccvStores s.env b) := by
  rw [ccvBand_eq (e := s.env) hv hk]
  refine (Access.Fills.forRange (W := fun y a => ∃ pr, pr < upDiv s.dec.frm.x.toNat 2 ∧
    ∃ j, j < 4 ∧ a = packedAddr s.env y pr j) _ _ fun y h1 h2 => ?_).congr fun a => ⟨?_, ?_⟩
  · have hy := mem_imageRow.mpr ⟨h1, h2⟩
    rw [ccvRow, if_pos rfl, pack422Row, ceilDiv_eq_upDiv (by omega)]
    exact Access.Fills.rounds fun pr hpr =>
      Access.fills_packPair (fun j hj => hr y pr j hy hpr hj) fun j hj => hw y pr j hy hpr hj
  · rintro ⟨y, h1, h2, pr, hpr, j, hj, rfl⟩
    exact ⟨y, mem_imageRow.mpr ⟨h1, h2⟩, .inl ⟨hk, pr, j, hpr, hj, rfl⟩⟩
  · rintro ⟨y, hy, ⟨-, pr, j, hpr, hj, rfl⟩ | ⟨he, -⟩⟩
    · obtain ⟨h1, h2⟩ := mem_imageRow.mp hy
      exact ⟨y, h1, h2, pr, hpr, j, hj, rfl⟩
    · exact absurd hk he

end

end Sys2Proof.Cert
end

section
/-! IDCTROW, UPSROW and CCVROW store what their rules say (R272, R273 to R277, R278 to R282), and the lossless path (R284). -/
namespace Sys2Proof.Cert
open Sys2Proof.Machine

/-! ### From the bands to the command -/

/-- The accesses of a command that reads nothing that it writes. -/
def apart (W : Word → Prop) (m : Memory) : Access where
  writes _ a := W a
  reads _ a := ¬W a
  kept a := ¬W a
  mem := m

theorem apart_mayWrite {W : Word → Prop} {m : Memory} {a : Word} (h : W a) (b : Buf) : (apart W m).mayWrite b a :=
  ⟨h, not_not_intro h⟩

theorem apart_mayRead {W : Word → Prop} {m : Memory} {a : Word} (h : ¬W a) (b : Buf) : (apart W m).mayRead b a := ⟨h, h⟩

section
variable {s : State} {row n : Nat} {band : Nat → MM Unit} {op : Op}

/-- The bytes of the bands that a row command covers. -/
def bandsCover (s : State) (row n : Nat) (stores : Nat → Word → Prop) (a : Word) : Prop :=
  ∃ b, row ≤ b ∧ b < row + bandCount s row n ∧ stores b a

/-- A row command whose bands complete and fill their bytes, reading none of them, ends with these bytes filled. -/
theorem runMem_fills {stores : Nat → Word → Prop} {F : Word → Byte → Prop} (hm : s.memCanonical = true)
    (hrow : rowOk s row n) (hop : op.words = 2) (hcmd : ∀ a, bandsCover s row n stores a → notCommand s 8 a)
    (hcomp : ∀ b, row ≤ b → b < row + bandCount s row n → Completes (band b))
    (hfill : ∀ b, row ≤ b → b < row + bandCount s row n →
      (apart (bandsCover s row n stores) s.mem).Fills F (band b) (stores b)) :
    ∃ t, runMem op (bandsOf s.env row n band) s = .next { ranPast 8 s with mem := t } ∧
      (∀ a, bandsCover s row n stores a → F a (t.read a.toNat)) ∧
      ∀ a : Word, ¬bandsCover s row n stores a → t.read a.toNat = s.mem.read a.toNat := by
  obtain ⟨⟨⟩, w, hw⟩ := Completes.forRange row _ hcomp (MemW.start op s)
  have hstart : (apart (bandsCover s row n stores) s.mem).Ok (MemW.start op s) :=
    Access.Ok.start ((memCanonical_iff s).mp hm).1 (fun k hk hc => hcmd _ hc k (by omega) rfl) rfl
  obtain ⟨hok, hF, hrest⟩ := Access.Fills.forRange row _ hfill _ _ _ hstart hw
  refine ⟨w.mem, ?_, hF, hrest⟩
  rw [runMem, bandsOf_eq hrow, hw, finishMem, advance, hop, hok.settle fun _ _ a hwr hrd => absurd hwr hrd]
  rfl

/-- A row command raises what its first band raises. -/
theorem runMem_raises_first {r : Raise} (hrow : rowOk s row n) (h : ∀ w, band row w = .error r w) :
    runMem op (bandsOf s.env row n band) s = .next (errorEntry r s) := by
  refine runMem_raises ?_ (closed_sameStores.refl (MemW.start op s))
  obtain ⟨k, hk⟩ := Nat.exists_eq_succ_of_ne_zero (bandCount_pos hrow).ne'
  rw [bandsOf_eq hrow, hk, forRange, bind_run, h]

/-- A row command whose bands do nothing only moves on. -/
theorem runMem_idle (hrow : rowOk s row n) (hop : op.words = 2) (h : ∀ b, band b = pure ()) :
    runMem op (bandsOf s.env row n band) s = .next (ranPast 8 s) := by
  rw [runMem, bandsOf_eq hrow, show band = fun _ => pure () from funext h, forRange_pure, finishMem, advance, hop,
    settle_of_sameStores (closed_sameStores.refl _)]
  rfl

/-- A number lies in the rows of one of the bands exactly if it lies in the rows of all of them. -/
theorem exists_band {h m cnt y : Nat} :
    (∃ b, m ≤ b ∧ b < m + cnt ∧ b * h ≤ y ∧ y < b * h + h) ↔ m * h ≤ y ∧ y < (m + cnt) * h := by
  constructor
  · rintro ⟨b, h1, h2, h3, h4⟩
    have hle : m * h ≤ b * h := Nat.mul_le_mul_right h h1
    have hlt : (b + 1) * h ≤ (m + cnt) * h := Nat.mul_le_mul_right h h2
    rw [Nat.succ_mul] at hlt
    omega
  · rintro ⟨h1, h2⟩
    have hpos : 0 < h := Nat.pos_of_ne_zero fun h0 => by simp [h0] at h2
    have hdiv := Nat.div_add_mod y h
    have hmod := Nat.mod_lt y hpos
    rw [Nat.mul_comm] at hdiv
    exact ⟨y / h, (Nat.le_div_iff_mul_le hpos).mpr h1, (Nat.div_lt_iff_lt_mul hpos).mpr h2, by omega, by omega⟩

end

/-! ### IDCTROW -/

/-- Settles O48: no plane sample is read, and each is filled once. -/
theorem idctrowFillsThePlanes : Obligations.IdctrowFillsThePlanes := by
  intro s row n hm hrow hs covered sample hready hsep
  have hcover : ∀ a, bandsCover s row n (idctStores s.env) a ↔ ∃ c r bx m, covered c r bx m ∧ a = sample c r bx m := by
    intro a
    constructor
    · rintro ⟨b, h1, h2, -, c, r, bx, m, hc, hr, hbx, hm, rfl⟩
      obtain ⟨h3, h4⟩ := exists_band.mp ⟨b, h1, h2, Nat.le_add_right _ r, Nat.add_lt_add_left hr _⟩
      exact ⟨c, b * vOf s.env c + r, bx, m, ⟨hc, hbx, hm, h3, h4⟩, rfl⟩
    · rintro ⟨c, r, bx, m, ⟨hc, hbx, hm, h3, h4⟩, rfl⟩
      obtain ⟨b, h1, h2, h5, h6⟩ := exists_band.mpr ⟨h3, h4⟩
      refine ⟨b, h1, h2, hs, c, r - b * vOf s.env c, bx, m, hc, by omega, hbx, hm, ?_⟩
      simp only [sample]
      rw [Nat.add_sub_cancel' h5]
  have hin : ∀ {b c r bx m}, row ≤ b → b < row + bandCount s row n → c < s.dec.frm.ncomp.toNat → b * vOf s.env c ≤ r →
      r < b * vOf s.env c + vOf s.env c → bx < bwOf s.env c → m < 64 → covered c r bx m := by
    intro b c r bx m h1 h2 hc h3 h4 hbx hm
    obtain ⟨h5, h6⟩ := exists_band.mp ⟨b, h1, h2, h3, h4⟩
    exact ⟨hc, hbx, hm, h5, h6⟩
  obtain ⟨t, hexec, hF, hrest⟩ := runMem_fills (op := .idctrow) (stores := idctStores s.env) (band := idctBand s.env)
    (F := fun a v => ∀ c r bx m, covered c r bx m → a = sample c r bx m →
      v = BitVec.ofInt 8 (planeSample s s.mem c r bx m)) hm hrow rfl
    (fun a ha => by
      obtain ⟨c, r, bx, m, hcov, rfl⟩ := (hcover a).mp ha
      exact (hsep c r bx m hcov).1)
    (fun b h1 h2 => completes_idctBand (hready b h1 h2))
    (fun b h1 h2 => by
      refine Access.fills_idctBand (fun c r bx k hc h3 h4 hbx hk => apart_mayRead (fun ha => ?_) _)
        fun c r bx i hc h3 h4 hbx hi => ⟨apart_mayWrite ((hcover _).mpr ⟨c, r, bx, i, hin h1 h2 hc h3 h4 hbx hi, rfl⟩) _, ?_⟩
      · obtain ⟨c', r', bx', m', hcov, he⟩ := (hcover _).mp ha
        exact (hsep c' r' bx' m' hcov).2.2 c r bx k (hin h1 h2 hc h3 h4 hbx (by omega)) hk he.symm
      · intro c' r' bx' m' hcov he
        obtain ⟨rfl, rfl, rfl, rfl⟩ := (hsep c' r' bx' m' hcov).2.1 c r bx i (hin h1 h2 hc h3 h4 hbx hi) he.symm
        rfl)
  exact ⟨t, hexec, fun c r bx m hcov => hF _ ((hcover _).mpr ⟨c, r, bx, m, hcov, rfl⟩) c r bx m hcov rfl,
    fun a ha => hrest a fun hc => by
      obtain ⟨c, r, bx, m, hcov, he⟩ := (hcover a).mp hc
      exact ha c r bx m hcov he⟩

/-! ### UPSROW -/

/-- Settles O49: the first band raises for the layout OTHER; else no UPlane sample is read, and each is filled once. -/
theorem upsrowFillsTheUplanes : Obligations.UpsrowFillsTheUplanes := by
  intro s row n hm hrow hs
  refine ⟨fun hother => runMem_raises_first (band := upsBand s.env) hrow fun w => ?_, ?_⟩
  · rw [upsBand, if_neg (show ¬s.env.frm.mode = .sof3 from hs), if_pos (show s.env.frm.layout = .other from hother)]
    rfl
  intro covered hready hsep
  have hrows : ∀ yo, (∃ b, row ≤ b ∧ b < row + bandCount s row n ∧ 8 * s.dec.frm.vmax.toNat * b ≤ yo ∧
      yo < 8 * s.dec.frm.vmax.toNat * b + 8 * s.dec.frm.vmax.toNat) ↔
      8 * s.dec.frm.vmax.toNat * row ≤ yo ∧ yo < 8 * s.dec.frm.vmax.toNat * (row + bandCount s row n) := by
    intro yo
    simp only [Nat.mul_comm (8 * s.dec.frm.vmax.toNat)]
    exact exists_band
  have hcover : ∀ a, bandsCover s row n (upsStores s.env) a ↔ ∃ c xo yo, covered c xo yo ∧ a = uplaneAddr s.env c xo yo := by
    intro a
    constructor
    · rintro ⟨b, h1, h2, -, c, r, xo, hc, hfull, hr, hxo, rfl⟩
      obtain ⟨h3, h4⟩ := (hrows _).mp ⟨b, h1, h2, Nat.le_add_right _ r, Nat.add_lt_add_left hr _⟩
      exact ⟨c, xo, _, ⟨hc, hfull, hxo, h3, h4⟩, rfl⟩
    · rintro ⟨c, xo, yo, ⟨hc, hfull, hxo, h3, h4⟩, rfl⟩
      obtain ⟨b, h1, h2, h5, h6⟩ := (hrows yo).mpr ⟨h3, h4⟩
      refine ⟨b, h1, h2, hs, c, yo - 8 * s.dec.frm.vmax.toNat * b, xo, hc, hfull, ?_, hxo, ?_⟩
      · simp only [State.env]
        omega
      · exact congrArg (uplaneAddr s.env c xo) (Nat.add_sub_cancel' h5).symm
  obtain ⟨t, hexec, hF, hrest⟩ := runMem_fills (op := .upsrow) (stores := upsStores s.env) (band := upsBand s.env)
    (F := fun a v => ∀ c xo yo, covered c xo yo → a = uplaneAddr s.env c xo yo →
      v = BitVec.ofNat 8 (upValue s c xo yo)) hm hrow rfl
    (fun a ha => by
      obtain ⟨c, xo, yo, hcov, rfl⟩ := (hcover a).mp ha
      exact (hsep c xo yo hcov).2.1)
    (fun b h1 h2 => completes_upsBand (hready b h1 h2))
    (fun b h1 h2 => by
      refine Access.fills_upsBand rfl (hready b h1 h2) (fun c i j hc hfull hi hj => apart_mayRead (fun ha => ?_) _)
        fun c xo yo hc hfull hxo h3 h4 => ?_
      · obtain ⟨c', xo', yo', hcov, he⟩ := (hcover _).mp ha
        exact (hsep c' xo' yo' hcov).2.2.2 c i j hc hfull hi hj he.symm
      · obtain ⟨h5, h6⟩ := (hrows yo).mp ⟨b, h1, h2, h3, h4⟩
        have hcov : covered c xo yo := ⟨hc, hfull, hxo, h5, h6⟩
        refine ⟨(hsep c xo yo hcov).1, apart_mayWrite ((hcover _).mpr ⟨c, xo, yo, hcov, rfl⟩) _, fun c' xo' yo' hcov' he => ?_⟩
        obtain ⟨rfl, rfl, rfl⟩ := (hsep c xo yo hcov).2.2.1 c' xo' yo' hcov' he
        rfl)
  exact ⟨t, hexec, fun c xo yo hcov => hF _ ((hcover _).mpr ⟨c, xo, yo, hcov, rfl⟩) c xo yo hcov rfl,
    fun a ha => hrest a fun hc => by
      obtain ⟨c, xo, yo, hcov, he⟩ := (hcover a).mp hc
      exact ha c xo yo hcov he⟩

/-! ### CCVROW -/

/-- Settles O50: the first band raises without a colour space or a conversion; else no destination byte is read, and each is
filled once. -/
theorem ccvrowConvertsThePixels : Obligations.CcvrowConvertsThePixels := by
  intro s row n hm hrow
  refine ⟨fun hv => runMem_raises_first (band := ccvBand s.env) hrow fun w => ?_,
    fun hv hd => runMem_raises_first (band := ccvBand s.env) hrow fun w => ?_, ?_⟩
  · rw [ccvBand, if_pos (show s.env.scn.csValid = false from hv)]
    rfl
  · rw [ccvBand, if_neg (show ¬s.env.scn.csValid = false by simp [State.env, hv]), hd]
    rfl
  intro line hready
  have hvalid : s.dec.scn.csValid = true :=
    (hready row le_rfl (Nat.lt_add_of_pos_right (bandCount_pos hrow))).1
  refine ⟨?_, ?_⟩
  · intro hk covered hsep
    have hcover : ∀ a, bandsCover s row n (ccvStores s.env) a ↔ ∃ y pr j, covered y pr j ∧ a = packedAddr s.env y pr j := by
      intro a
      constructor
      · rintro ⟨b, h1, h2, y, hy, ⟨-, pr, j, hpr, hj, rfl⟩ | ⟨he, -⟩⟩
        · exact ⟨y, pr, j, ⟨⟨b, h1, h2, hy⟩, hpr, hj⟩, rfl⟩
        · exact absurd hk he
      · rintro ⟨y, pr, j, ⟨⟨b, h1, h2, hy⟩, hpr, hj⟩, rfl⟩
        exact ⟨b, h1, h2, y, hy, .inl ⟨hk, pr, j, hpr, hj, rfl⟩⟩
    obtain ⟨t, hexec, hF, hrest⟩ := runMem_fills (op := .ccvrow) (stores := ccvStores s.env) (band := ccvBand s.env)
      (F := fun a v => ∀ y pr j, covered y pr j → a = packedAddr s.env y pr j →
        v = s.mem.read (packedFrom s.env y pr j).toNat) hm hrow rfl
      (fun a ha => by
        obtain ⟨y, pr, j, hcov, rfl⟩ := (hcover a).mp ha
        exact (hsep y pr j hcov).1)
      (fun b h1 h2 => completes_ccvBand (hready b h1 h2))
      (fun b h1 h2 => by
        refine Access.fills_ccvBand_packed hvalid hk (fun y pr j hy hpr hj bf => apart_mayRead (fun ha => ?_) bf)
          fun y pr j hy hpr hj => ⟨apart_mayWrite ((hcover _).mpr ⟨y, pr, j, ⟨⟨b, h1, h2, hy⟩, hpr, hj⟩, rfl⟩) _, ?_⟩
        · obtain ⟨y', pr', j', hcov, he⟩ := (hcover _).mp ha
          exact (hsep y' pr' j' hcov).2.2 y pr j ⟨⟨b, h1, h2, hy⟩, hpr, hj⟩ he.symm
        · intro y' pr' j' hcov he
          obtain ⟨rfl, rfl, rfl⟩ := (hsep y pr j ⟨⟨b, h1, h2, hy⟩, hpr, hj⟩).2.1 y' pr' j' hcov he
          rfl)
    exact ⟨t, hexec, fun y pr j hcov => hF _ ((hcover _).mpr ⟨y, pr, j, hcov, rfl⟩) y pr j hcov rfl,
      fun a ha => hrest a fun hc => by
        obtain ⟨y, pr, j, hcov, he⟩ := (hcover a).mp hc
        exact ha y pr j hcov he⟩
  · intro k hk hp covered pixel hsep
    have hcover : ∀ a, bandsCover s row n (ccvStores s.env) a ↔ ∃ y x ch i, covered y x ch i ∧ a = pixel y x ch i := by
      intro a
      constructor
      · rintro ⟨b, h1, h2, y, hy, ⟨he, -⟩ | ⟨-, x, ch, i, hx, hch, hi, rfl⟩⟩
        · exact absurd (Option.some.inj (hk.symm.trans he)) hp
        · exact ⟨y, x, ch, i, ⟨⟨b, h1, h2, hy⟩, hx, hch, hi⟩, rfl⟩
      · rintro ⟨y, x, ch, i, ⟨⟨b, h1, h2, hy⟩, hx, hch, hi⟩, rfl⟩
        exact ⟨b, h1, h2, y, hy, .inr ⟨fun he => hp (Option.some.inj (hk.symm.trans he)), x, ch, i, hx, hch, hi, rfl⟩⟩
    obtain ⟨t, hexec, hF, hrest⟩ := runMem_fills (op := .ccvrow) (stores := ccvStores s.env) (band := ccvBand s.env)
      (F := fun a v => ∀ y x ch i, covered y x ch i → a = pixel y x ch i →
        v = BitVec.ofInt 8 (channelOf k s.cfg.dstCs.toNat (fun c => (inputValue s c x y : Int)) ch / 256 ^ i)) hm hrow rfl
      (fun a ha => by
        obtain ⟨y, x, ch, i, hcov, rfl⟩ := (hcover a).mp ha
        exact (hsep y x ch i hcov).1)
      (fun b h1 h2 => completes_ccvBand (hready b h1 h2))
      (fun b h1 h2 => by
        refine Access.fills_ccvBand rfl hvalid hk hp (fun y x c j hy hx hc hj => apart_mayRead (fun ha => ?_) _)
          fun y x ch i hy hx hch hi =>
            ⟨apart_mayWrite ((hcover _).mpr ⟨y, x, ch, i, ⟨⟨b, h1, h2, hy⟩, hx, hch, hi⟩, rfl⟩) _, ?_⟩
        · obtain ⟨y', x', ch', i', hcov, he⟩ := (hcover _).mp ha
          exact (hsep y' x' ch' i' hcov).2.2 y x c j ⟨b, h1, h2, hy⟩ hx hc hj he.symm
        · intro y' x' ch' i' hcov he
          obtain ⟨rfl, rfl, rfl, rfl⟩ := (hsep y x ch i ⟨⟨b, h1, h2, hy⟩, hx, hch, hi⟩).2.1 y' x' ch' i' hcov he
          rfl)
    exact ⟨t, hexec, fun y x ch i hcov => hF _ ((hcover _).mpr ⟨y, x, ch, i, hcov, rfl⟩) y x ch i hcov rfl,
      fun a ha => hrest a fun hc => by
        obtain ⟨y, x, ch, i, hcov, he⟩ := (hcover a).mp hc
        exact ha y x ch i hcov he⟩

/-! ### The lossless path -/

/-- Settles O52: on a lossless frame a band of IDCTROW or UPSROW is nothing, and one of RECROW is one of CCVROW. -/
theorem losslessFramesAreOnlyConverted : Obligations.LosslessFramesAreOnlyConverted := by
  intro s row n hs
  have hs' : s.env.frm.mode = .sof3 := hs
  refine ⟨fun hrow => ⟨runMem_idle hrow rfl fun b => ?_, runMem_idle hrow rfl fun b => ?_⟩, ?_, fun k hn hcs hk => ?_⟩
  · rw [idctBand, if_pos hs']
  · rw [upsBand, if_pos hs']
  · have hband : recBand s.env = ccvBand s.env := funext fun b => by rw [recBand, if_pos hs']
    have hrec : exec (.recrow row n) s = runMem .recrow (bandsOf s.env row n (recBand s.env)) s := rfl
    rw [hrec, hband]
    rfl
  · obtain ⟨⟨hprec, -⟩, hconv⟩ := (ccvDispatch_eq_some_iff s.env k).mp hk
    cases k with
    | copy =>
      obtain ⟨h422, hdcs, hnch⟩ := hconv
      rw [show s.env.scn.cs = .gray from hcs] at hdcs
      exact ⟨rfl, BitVec.eq_of_toNat_eq hdcs, hnch.trans hn, h422, hprec⟩
    | rgb => exact absurd (hcs.symm.trans hconv.2.1) nofun
    | p422 => exact absurd (hcs.symm.trans hconv.2.1) nofun
    | cmyk => exact absurd (hcs.symm.trans hconv.2.1) nofun

end Sys2Proof.Cert
end

section
/-! RECROW over a grey frame (R283): the transform of each band is done before the band's pixels are converted. -/
namespace Sys2Proof.Cert
open Sys2Proof.Machine

/-! ### Steps with a condition before and after -/

/-- Where the condition before holds and a computation completes, the condition after holds. -/
def Leads {σ ε α : Type} (P : σ → Prop) (m : EStateM ε σ α) (Q : σ → Prop) : Prop := ∀ w v w', P w → m w = .ok v w' → Q w'

section
variable {σ ε α β : Type} {P Q R : σ → Prop}

theorem Leads.pure (h : ∀ w, P w → Q w) (v : α) : Leads P (pure v : EStateM ε σ α) Q := fun w v' w' hw hm => by
  cases hm
  exact h w hw

theorem Leads.bind {m : EStateM ε σ α} {f : α → EStateM ε σ β} (hm : Leads P m Q) (hf : ∀ v, Leads Q (f v) R) :
    Leads P (m >>= f) R := fun w v w' hw h => by
  obtain ⟨v1, w1, h1, h2⟩ := bind_eq_ok.mp h
  exact hf v1 w1 v w' (hm w v1 w1 hw h1) h2

theorem Leads.cond {c : Prop} [Decidable c] {m n : EStateM ε σ α} (hm : c → Leads P m Q) (hn : ¬c → Leads P n Q) :
    Leads P (if c then m else n) Q := by
  split
  · exact hm (by assumption)
  · exact hn (by assumption)

end

/-! ### The frame -/

/-- The samples of the plane of a grey frame. -/
abbrev inPlane (s : State) (x y : Nat) : Prop := x < 8 * bwOf s.env 0 ∧ y < 8 * bandsIn s

/-- The pixels of its image. -/
abbrev inImage (s : State) (x y : Nat) : Prop := x < s.dec.frm.x.toNat ∧ y < s.dec.frm.y.toNat

/-- The sample of the coefficient block at a pixel. -/
def greyValue (s : State) (x y : Nat) : Byte :=
  BitVec.ofInt 8
    (idctSample s.params (dequantAt s s.mem (s.dec.frm.comp.get 0).tq.toNat (coefAddr s.env 0 (x / 8) (y / 8))) (x % 8)
      (y % 8))

/-- A byte of the plane. -/
def planeByte (s : State) (a : Word) : Prop := ∃ x y, inPlane s x y ∧ a = planeAddr s.env 0 x y

/-- A byte of the destination. -/
def imageByte (s : State) (a : Word) : Prop := ∃ x y, inImage s x y ∧ a = dstAddr s.env x y 0

/-- A grey frame whose buffers share no byte. -/
structure GreyFrame (s : State) : Prop where
  mode : s.dec.frm.mode ≠ .sof3
  ncomp : s.dec.frm.ncomp = 1
  v : vOf s.env 0 = 1
  full : fullRes s.env 0 = true
  vmax : s.dec.frm.vmax = 1
  csValid : s.dec.scn.csValid = true
  conv : ccvDispatch s.env = some .copy
  prec : s.cfg.dstPrec16 = false
  x_le : s.dec.frm.x.toNat ≤ 8 * bwOf s.env 0
  planeInj : ∀ x y x' y', inPlane s x y → inPlane s x' y' → planeAddr s.env 0 x y = planeAddr s.env 0 x' y' → x = x' ∧ y = y'
  pixelInj : ∀ x y x' y', inImage s x y → inImage s x' y' → dstAddr s.env x y 0 = dstAddr s.env x' y' 0 → x = x' ∧ y = y'
  apart : ∀ a, planeByte s a → ¬imageByte s a
  coef : ∀ bx r k, bx < bwOf s.env 0 → r < bandsIn s → k < 128 →
    ¬planeByte s (coefAddr s.env 0 bx r + BitVec.ofNat 32 k) ∧ ¬imageByte s (coefAddr s.env 0 bx r + BitVec.ofNat 32 k)

/-- RECROW's accesses over a grey frame; the bytes kept, and the memory they are kept from, change from stage to stage. -/
def greyAccess (s : State) (kept : Word → Prop) (m : Memory) : Access where
  writes b a := (b = .plane 0 ∧ planeByte s a) ∨ (b = .dst ∧ imageByte s a)
  reads b a := (b = .plane 0 ∧ planeByte s a) ∨ (¬planeByte s a ∧ ¬imageByte s a)
  kept := kept
  mem := m

/-- The bytes of neither buffer. -/
def outside (s : State) (a : Word) : Prop := ¬planeByte s a ∧ ¬imageByte s a

/-- The plane is done up to band `p` and the image up to band `i`. -/
structure GreyDone (s : State) (p i : Nat) (w : MemW) : Prop where
  ok : (greyAccess s (outside s) s.mem).Ok w
  plane : ∀ x y, inPlane s x y → y < 8 * p → w.mem.read (planeAddr s.env 0 x y).toNat = greyValue s x y
  image : ∀ x y, inImage s x y → y < 8 * i → w.mem.read (dstAddr s.env x y 0).toNat = greyValue s x y

section
variable {s : State} {b p i : Nat}

theorem planeSample_eq_greyValue (bx r n : Nat) (hn : n < 64) :
    BitVec.ofInt 8 (planeSample s s.mem 0 r bx n) = greyValue s (8 * bx + n % 8) (8 * r + n / 8) := by
  unfold greyValue planeSample
  rw [show (8 * bx + n % 8) / 8 = bx by omega, show (8 * bx + n % 8) % 8 = n % 8 by omega,
    show (8 * r + n / 8) / 8 = r by omega, show (8 * r + n / 8) % 8 = n / 8 by omega]

variable (h : GreyFrame s)
include h

theorem GreyFrame.toNat_ncomp : s.dec.frm.ncomp.toNat = 1 := by rw [h.ncomp]; rfl

/-- The transform stores the eight rows of its band. -/
theorem GreyFrame.idctStores_iff (a : Word) :
    idctStores s.env b a ↔ ∃ x y, x < 8 * bwOf s.env 0 ∧ 8 * b ≤ y ∧ y < 8 * b + 8 ∧ a = planeAddr s.env 0 x y := by
  have hn : s.env.frm.ncomp.toNat = 1 := h.toNat_ncomp
  constructor
  · rintro ⟨-, c, r, bx, n, hc, hr, hbx, hn', rfl⟩
    obtain rfl : c = 0 := by omega
    rw [h.v] at hr ⊢
    obtain rfl : r = 0 := by omega
    exact ⟨_, _, by omega, by omega, by omega, rfl⟩
  · rintro ⟨x, y, hx, h1, h2, rfl⟩
    refine ⟨h.mode, 0, 0, x / 8, 8 * (y % 8) + x % 8, by omega, by rw [h.v]; omega, by omega, by omega, ?_⟩
    rw [h.v, show 8 * (x / 8) + (8 * (y % 8) + x % 8) % 8 = x by omega,
      show 8 * (b * 1 + 0) + (8 * (y % 8) + x % 8) / 8 = y by omega]

theorem GreyFrame.not_upsStores (a : Word) : ¬upsStores s.env b a := by
  rintro ⟨-, c, r, xo, hc, hfull, -⟩
  have hn : s.env.frm.ncomp.toNat = 1 := h.toNat_ncomp
  obtain rfl : c = 0 := by omega
  exact absurd (h.full.symm.trans hfull) nofun

theorem GreyFrame.dstNch : s.cfg.dstNch.toNat = 1 := by
  obtain ⟨-, -, -, hn⟩ := (ccvDispatch_eq_some_iff s.env .copy).mp h.conv
  rw [show s.cfg.dstNch = s.dec.frm.ncomp from hn, h.toNat_ncomp]

theorem GreyFrame.dstBps : dstBps s.env = 1 := by
  rw [Machine.dstBps, show s.env.cfg.dstPrec16 = false from h.prec]
  rfl

theorem GreyFrame.imageRow_iff (y : Nat) :
    imageRow s.env b y ↔ 8 * b ≤ y ∧ y < 8 * b + 8 ∧ y < s.dec.frm.y.toNat := by
  have hbh : bandHeight s.env = 8 := by
    rw [bandHeight, if_neg (show ¬s.env.frm.mode = .sof3 from h.mode), show s.env.frm.vmax = 1 from h.vmax]
    rfl
  rw [imageRow, hbh]
  simp only [State.env]
  omega

/-- The conversion stores the eight rows of its band. -/
theorem GreyFrame.ccvStores_iff (a : Word) :
    ccvStores s.env b a ↔ ∃ x y, inImage s x y ∧ 8 * b ≤ y ∧ y < 8 * b + 8 ∧ a = dstAddr s.env x y 0 := by
  constructor
  · rintro ⟨y, hy, ⟨he, -⟩ | ⟨-, x, ch, k, hx, hch, hk, rfl⟩⟩
    · exact absurd (h.conv.symm.trans he) nofun
    · obtain ⟨h1, h2, h3⟩ := (h.imageRow_iff y).mp hy
      rw [h.dstBps] at hk
      obtain rfl : k = 0 := by omega
      obtain rfl : ch = 0 := by
        have := h.dstNch
        simp only [State.env] at hch
        omega
      exact ⟨x, y, ⟨hx, h3⟩, h1, h2, by simp⟩
  · rintro ⟨x, y, ⟨hx, hy⟩, h1, h2, rfl⟩
    refine ⟨y, (h.imageRow_iff y).mpr ⟨h1, h2, hy⟩, .inr ⟨?_, x, 0, 0, hx, ?_, ?_, by simp⟩⟩
    · rw [h.conv]
      decide
    · exact lt_of_lt_of_eq (by decide) h.dstNch.symm
    · rw [h.dstBps]
      omega

/-- The transform of a band does the next eight rows of the plane. -/
theorem GreyFrame.leads_idctBand (hb : b < bandsIn s) : Leads (GreyDone s b i) (idctBand s.env b) (GreyDone s (b + 1) i) := by
  intro w v w' hw hm
  have hn : s.dec.frm.ncomp.toNat = 1 := h.toNat_ncomp
  have hfill : (greyAccess s (outside s) s.mem).Fills
      (fun a v => ∀ x y, inPlane s x y → a = planeAddr s.env 0 x y → v = greyValue s x y) (idctBand s.env b)
      (idctStores s.env b) := by
    refine Access.fills_idctBand (fun c r bx k hc h1 h2 hbx hk => ?_) fun c r bx n hc h1 h2 hbx hn' => ?_
    · obtain rfl : c = 0 := by omega
      rw [h.v] at h1 h2
      have hout := h.coef bx r k hbx (by omega) hk
      exact ⟨.inr hout, hout⟩
    · obtain rfl : c = 0 := by omega
      rw [h.v] at h1 h2
      have hin : inPlane s (8 * bx + n % 8) (8 * r + n / 8) := ⟨by omega, by omega⟩
      refine ⟨⟨.inl ⟨rfl, _, _, hin, rfl⟩, fun hout => hout.1 ⟨_, _, hin, rfl⟩⟩, fun x y hxy he => ?_⟩
      obtain ⟨rfl, rfl⟩ := h.planeInj _ _ _ _ hin hxy he
      exact planeSample_eq_greyValue bx r n hn'
  obtain ⟨hok, hF, hrest⟩ := hfill _ _ _ hw.ok hm
  refine ⟨hok, fun x y hxy hy => ?_, fun x y hxy hy => ?_⟩
  · by_cases hlt : y < 8 * b
    · rw [hrest _ fun hst => ?_]
      · exact hw.plane x y hxy hlt
      · obtain ⟨x', y', hx', h1, h2, he⟩ := (h.idctStores_iff _).mp hst
        obtain ⟨-, rfl⟩ := h.planeInj _ _ _ _ hxy ⟨hx', by omega⟩ he
        omega
    · exact hF _ ((h.idctStores_iff _).mpr ⟨x, y, hxy.1, by omega, by omega, rfl⟩) x y hxy rfl
  · rw [hrest _ fun hst => ?_]
    · exact hw.image x y hxy hy
    · obtain ⟨x', y', hx', h1, h2, he⟩ := (h.idctStores_iff _).mp hst
      exact h.apart _ ⟨x', y', ⟨hx', by omega⟩, rfl⟩ ⟨x, y, hxy, he.symm⟩

/-- A full-resolution component is not upsampled. -/
theorem GreyFrame.leads_upsBand (hready : upsReady s b) : Leads (GreyDone s p i) (upsBand s.env b) (GreyDone s p i) := by
  intro w v w' hw hm
  have hnone : ∀ c, c < s.dec.frm.ncomp.toNat → fullRes s.env c = false → False := fun c hc hfull => by
    rw [h.toNat_ncomp] at hc
    obtain rfl : c = 0 := by omega
    exact absurd (h.full.symm.trans hfull) nofun
  obtain ⟨hok, -, hrest⟩ := Access.fills_upsBand (x := greyAccess s (outside s) s.mem) (F := fun _ _ => True) rfl hready
    (fun c i j hc hfull => (hnone c hc hfull).elim) (fun c xo yo hc hfull => (hnone c hc hfull).elim) _ _ _ hw.ok hm
  have hsame : ∀ a : Word, w'.mem.read a.toNat = w.mem.read a.toNat := fun a => hrest a (h.not_upsStores a)
  exact ⟨hok, fun x y hxy hy => (hsame _).trans (hw.plane x y hxy hy), fun x y hxy hy => (hsame _).trans (hw.image x y hxy hy)⟩

/-- The conversion of a band whose plane is done does the next eight rows of the image. -/
theorem GreyFrame.leads_ccvBand (hbp : b < p) (hb : b < bandsIn s) :
    Leads (GreyDone s p b) (ccvBand s.env b) (GreyDone s p (b + 1)) := by
  intro w v w' hw hm
  have hn : s.dec.frm.ncomp.toNat = 1 := h.toNat_ncomp
  have hok : (greyAccess s (fun a => ¬imageByte s a) w.mem).Ok w :=
    ⟨hw.ok.good, hw.ok.host, hw.ok.writes, hw.ok.reads, fun _ _ => rfl⟩
  have hin : ∀ x y, inputAddr s.env 0 x y = planeAddr s.env 0 x y := fun x y => if_pos (.inr h.full)
  have hbytes : inputBytes s.env 0 = 1 := by
    rw [inputBytes, if_pos (.inr h.full), planeBps, if_neg fun hc => h.mode hc.1]
  have hfill : (greyAccess s (fun a => ¬imageByte s a) w.mem).Fills
      (fun a v => ∀ x y, inImage s x y → a = dstAddr s.env x y 0 → v = greyValue s x y) (ccvBand s.env b)
      (ccvStores s.env b) := by
    refine Access.fills_ccvBand (s := { s with mem := w.mem }) rfl h.csValid h.conv nofun
      (fun y px c j hy hpx hc hj => ?_) fun y px ch k hy hpx hch hk => ?_
    · obtain ⟨h1, h2, h3⟩ := (h.imageRow_iff y).mp hy
      obtain rfl : c = 0 := by
        have : c < s.dec.frm.ncomp.toNat := hc
        omega
      obtain rfl : j = 0 := by
        have : j < inputBytes s.env 0 := hj
        omega
      have hplane : planeByte s (planeAddr s.env 0 px y) := ⟨px, y, ⟨lt_of_lt_of_le hpx h.x_le, by omega⟩, rfl⟩
      rw [if_pos (.inr (show fullRes s.env 0 = true from h.full)), show inputAddr (State.env { s with mem := w.mem }) 0 px y = _ from hin px y,
        BitVec.add_zero]
      exact ⟨.inl ⟨rfl, hplane⟩, h.apart _ hplane⟩
    · obtain ⟨h1, h2, h3⟩ := (h.imageRow_iff y).mp hy
      obtain rfl : k = 0 := by
        have : k < Machine.dstBps s.env := hk
        rw [h.dstBps] at this
        omega
      obtain rfl : ch = 0 := by
        have : ch < s.cfg.dstNch.toNat := hch
        rw [h.dstNch] at this
        omega
      rw [BitVec.add_zero]
      have himage : inImage s px y := ⟨hpx, h3⟩
      refine ⟨⟨.inr ⟨rfl, px, y, himage, rfl⟩, not_not_intro ⟨px, y, himage, rfl⟩⟩, fun x' y' hxy he => ?_⟩
      obtain ⟨rfl, rfl⟩ := h.pixelInj _ _ _ _ himage hxy he
      have hval : inputValue { s with mem := w.mem } 0 px y = (greyValue s px y).toNat := by
        rw [← hw.plane px y ⟨lt_of_lt_of_le hpx h.x_le, by omega⟩ (by omega), ← hin]
        unfold inputValue
        rw [show inputBytes (State.env { s with mem := w.mem }) 0 = 1 from hbytes]
        rfl
      simp only [channelOf, pow_zero, Int.ediv_one]
      rw [hval, BitVec.ofInt_natCast, BitVec.ofNat_toNat, BitVec.setWidth_eq]
  obtain ⟨hok', hF, hrest⟩ := hfill _ _ _ hok hm
  have hsame : ∀ a, ¬imageByte s a → w'.mem.read a.toNat = w.mem.read a.toNat := fun a ha => hok'.kept a ha
  refine ⟨⟨hok'.good, hok'.host, hok'.writes, hok'.reads, fun a ha => (hsame a ha.2).trans (hw.ok.kept a ha)⟩,
    fun x y hxy hy => (hsame _ (h.apart _ ⟨x, y, hxy, rfl⟩)).trans (hw.plane x y hxy hy), fun x y hxy hy => ?_⟩
  by_cases hlt : y < 8 * b
  · rw [hrest _ fun hst => ?_]
    · exact hw.image x y hxy hlt
    · obtain ⟨x', y', hxy', h1, h2, he⟩ := (h.ccvStores_iff _).mp hst
      obtain ⟨-, rfl⟩ := h.pixelInj _ _ _ _ hxy hxy' he
      omega
  · exact hF _ ((h.ccvStores_iff _).mpr ⟨x, y, hxy, by omega, by omega, rfl⟩) x y hxy rfl

/-- Up to which band the image is done before band `b` (R283): the one before it, and at the end all. -/
def imageDone (s : State) (b : Nat) : Nat := if b = bandsIn s then b else b - 1

/-- A band of RECROW does its part of the plane, and the image up to it. -/
theorem GreyFrame.leads_recBand (hb : b < bandsIn s) (hready : recReady s b) :
    Leads (GreyDone s b (imageDone s b)) (recBand s.env b) (GreyDone s (b + 1) (imageDone s (b + 1))) := by
  rw [recReady, if_neg h.mode] at hready
  obtain ⟨-, hbefore, hlast⟩ := hready
  have hi : imageDone s b = b - 1 := if_neg hb.ne
  have last : Leads (GreyDone s (b + 1) b) (if b + 1 = nbands s.env then do
      upsBand s.env b
      ccvBand s.env b
    else pure ()) (GreyDone s (b + 1) (imageDone s (b + 1))) := by
    refine Leads.cond (fun he => ?_) fun he => Leads.pure (fun w hw => ?_) ()
    · rw [imageDone, if_pos (show b + 1 = bandsIn s from he)]
      exact Leads.bind (h.leads_upsBand (hlast he).1) fun _ => h.leads_ccvBand (by omega) hb
    · rw [imageDone, if_neg (show ¬b + 1 = bandsIn s from he)]
      exact hw
  rw [recBand, if_neg (show ¬s.env.frm.mode = .sof3 from h.mode), hi]
  refine Leads.bind (h.leads_idctBand hb) fun _ => Leads.cond (fun h1 => ?_) fun h1 => ?_
  · refine Leads.bind (h.leads_upsBand (hbefore h1).1) fun _ =>
      Leads.bind (h.leads_ccvBand (by omega) (by omega)) fun _ => ?_
    rw [Nat.sub_add_cancel h1]
    exact last
  · obtain rfl : b = 0 := by omega
    exact last

end

/-- Settles O53: after the last band the plane and the image are done, and no byte is read through another buffer than it is
written through. -/
theorem recrowReconstructsAGreyFrame : Obligations.RecrowReconstructsAGreyFrame := by
  intro s hm hrow hs hn hv hfull hvmax hcs hconv hprec hx hy plane pixel inP inI coef hready hplane hpixel hsep hpc hic hpcmd
    hicmd
  have hgrey : GreyFrame s := {
    mode := hs, ncomp := hn, v := congrArg (fun q => q.toNat) hv, full := hfull, vmax := hvmax, csValid := hcs, conv := hconv,
    prec := hprec, x_le := hx, planeInj := hplane, pixelInj := hpixel
    apart := by
      rintro a ⟨x, y, hxy, rfl⟩ ⟨x', y', hxy', he⟩
      exact hsep x y x' y' hxy hxy' he
    coef := fun bx r k hbx hr hk => by
      refine ⟨?_, ?_⟩
      · rintro ⟨x, y, hxy, he⟩
        exact hpc x y bx r k hxy hbx hr hk he.symm
      · rintro ⟨x, y, hxy, he⟩
        exact hic x y bx r k hxy hbx hr hk he.symm }
  have hstart : GreyDone s 0 (imageDone s 0) (MemW.start .recrow s) := by
    refine ⟨Access.Ok.start ((memCanonical_iff s).mp hm).1 (fun k hk => .inr ⟨?_, ?_⟩) rfl, fun x y _ h0 => by omega,
      fun x y _ h0 => ?_⟩
    · rintro ⟨x, y, hxy, he⟩
      exact hpcmd x y hxy k hk he.symm
    · rintro ⟨x, y, hxy, he⟩
      exact hicmd x y hxy k hk he.symm
    · unfold imageDone at h0
      split at h0 <;> omega
  obtain ⟨w, hw, hdone⟩ := forRange_ok (f := recBand s.env) (fun b => GreyDone s b (imageDone s b)) 0 (bandsIn s)
    (fun b w _ hb hinv => by
      obtain ⟨⟨⟩, w', hw'⟩ := completes_recBand (hready b (by omega)) w
      exact ⟨w', hw', hgrey.leads_recBand (by omega) (hready b (by omega)) w () w' hinv hw'⟩) _ hstart
  rw [Nat.zero_add, imageDone, if_pos rfl] at hdone
  have hcount : bandCount s 0 0 = bandsIn s := rfl
  refine ⟨w.mem, ?_, fun x y hxy => hdone.image x y hxy (lt_of_lt_of_le hxy.2 hy), fun a hp hi => hdone.ok.kept a ⟨?_, ?_⟩⟩
  · have hexec : exec (.recrow 0 0) s = runMem .recrow (bandsOf s.env 0 0 (recBand s.env)) s := rfl
    rw [hexec, runMem, bandsOf_eq hrow, hcount, hw, finishMem, advance, hdone.ok.settle ?_]
    · rfl
    · rintro b b' a (⟨rfl, hwr⟩ | ⟨rfl, hwr⟩) (⟨rfl, hrd⟩ | hrd)
      · rfl
      · exact absurd hwr hrd.1
      · exact absurd hwr (hgrey.apart a hrd)
      · exact absurd hwr hrd.2
  · rintro ⟨x, y, hxy, he⟩
    exact hp x y hxy he
  · rintro ⟨x, y, hxy, he⟩
    exact hi x y hxy he

end Sys2Proof.Cert
end

section
/-! The inverse transform (R261 to R264): its bounds, and how near the fixed-point sum lies to the real one. -/
namespace Sys2Proof.Cert
open Sys2Proof.Machine

/-! ### Clamping -/

theorem clamp_range (v : Int) : 0 ≤ clamp v 0 255 ∧ clamp v 0 255 ≤ 255 := by
  rw [clamp]
  omega

theorem clamp_of_range {v : Int} (h0 : 0 ≤ v) (h1 : v ≤ 255) : clamp v 0 255 = v := by
  rw [clamp]
  omega

theorem abs_clamp_add_sub_le {r d : Int} (h0 : 0 ≤ r) (h1 : r ≤ 255) (hd : |d| ≤ 1) : |clamp (r + d) 0 255 - r| ≤ 1 := by
  rw [abs_le] at hd ⊢
  rw [clamp]
  omega

theorem refSample_range (nz : List (Nat × Int)) (x y : Nat) : 0 ≤ refSample nz x y ∧ refSample nz x y ≤ 255 := clamp_range _

theorem abs_idctDeviation_le (p : Params) (f : List Int) (n : Nat) : |idctDeviation p f n| ≤ 1 := by
  unfold idctDeviation
  split
  · norm_num
  · split
    · norm_num
    · rw [abs_le, clamp]
      omega

/-- A floor of a sum with a half, over a whole number, is a rounded quotient. -/
theorem floor_div_add_half {k : Type*} [Field k] [LinearOrder k] [IsStrictOrderedRing k] [FloorRing k] (v : Int) {d : Nat}
    (hd : d ≠ 0) : ⌊(v : k) / (2 * d : Nat) + 1 / 2⌋ = (v + d) / (2 * d : Nat) := by
  have hd' : (d : k) ≠ 0 := Nat.cast_ne_zero.mpr hd
  rw [show (v : k) / (2 * d : Nat) + 1 / 2 = ((v + d : Int) : k) / (2 * d : Nat) by push_cast; field_simp,
    Int.floor_div_natCast, Int.floor_intCast]

theorem cosScaled_zero : cosScaled 0 = 2 ^ cosBits := by decide +kernel

/-! ### A block with no coefficient but F[0] -/

section
variable {f : List Int} (hlen : f.length = 64) (hdc : ∀ n, 1 ≤ n → f.getD n 0 = 0)
include hlen hdc

theorem dcOnly_shape : ∃ l, f = f.getD 0 0 :: l ∧ ∀ v ∈ l, v = 0 := by
  cases f with
  | nil => simp at hlen
  | cons v l =>
    refine ⟨l, rfl, fun u hu => ?_⟩
    obtain ⟨n, hn, rfl⟩ := List.getElem_of_mem hu
    simpa [List.getD_eq_getElem?_getD, hn] using hdc (n + 1) (by omega)

theorem dcOnly_of_zeros : dcOnly f = true := by
  obtain ⟨l, hf, hl⟩ := dcOnly_shape hlen hdc
  rw [hf, dcOnly, List.tail_cons, List.all_eq_true]
  exact fun v hv => by simp [hl v hv]

omit hlen hdc in
theorem nonZeros_zeros {n : Nat} {l : List Int} (hl : ∀ v ∈ l, v = 0) : nonZeros n l = [] := by
  induction l generalizing n with
  | nil => rfl
  | cons v l ih => rw [nonZeros, if_pos (hl v (by simp)), ih fun u hu => hl u (by simp [hu])]

theorem idctSum_dcOnly (x y : Nat) : idctSum (nonZeros 0 f) x y = f.getD 0 0 * 2 ^ cosBits := by
  obtain ⟨l, hf, hl⟩ := dcOnly_shape hlen hdc
  have hw : weight 0 x y = 2 ^ cosBits := by
    have h : weight 0 x y = cosScaled 8 + cosScaled 0 := rfl
    rw [h, cosScaled_zero, show cosScaled 8 = 0 from rfl, zero_add]
  rw [hf, nonZeros, nonZeros_zeros hl]
  generalize f.getD 0 0 = v
  by_cases hv : v = 0
  · simp [hv, idctSum]
  · simp [hv, idctSum, hw]

theorem idctSample_dcOnly (p : Params) (x y : Nat) :
    idctSample p f x y = clamp ((f.getD 0 0 + 4) / 8 + 128) 0 255 := by
  have href : refSample (nonZeros 0 f) x y = clamp ((f.getD 0 0 + 4) / 8 + 128) 0 255 := by
    rw [refSample, idctSum_dcOnly hlen hdc, ← add_mul,
      Int.mul_ediv_mul_of_pos_left _ _ (by positivity)]
  obtain ⟨h0, h1⟩ := clamp_range ((f.getD 0 0 + 4) / 8 + 128)
  rw [idctSample, idctDeviation, if_pos (dcOnly_of_zeros hlen hdc), href, add_zero, clamp_of_range h0 h1]

end

/-- Settles O42: F[0] alone weighs 1/8, and the parameter's deviation is at most 1. -/
theorem transformMeetsItsBounds : Obligations.TransformMeetsItsBounds := by
  intro p f x y hlen _ _
  have hdc := fun h => idctSample_dcOnly hlen h p x y
  obtain ⟨h0, h1⟩ := refSample_range (nonZeros 0 f) x y
  refine ⟨fun h => ?_, fun h => ⟨fun hv => ?_, fun hv => ?_, fun hv => ?_⟩,
    abs_clamp_add_sub_le h0 h1 (abs_idctDeviation_le p f _), clamp_range _⟩
  · rw [hdc h]
    have hfloor := floor_div_add_half (k := ℚ) (f.getD 0 0) (d := 4) (by decide)
    norm_num at hfloor
    norm_num [hfloor]
  all_goals
    rw [hdc h, hv]
    rfl

/-! ### The cosine table -/

/-- The table's entry for an angle lies within `r` units of 2^-352 of its cosine. -/
def cosNear (j r : Nat) : Prop := |(cosScaled j : ℝ) - 2 ^ cosBits * Real.cos (j * Real.pi / 16)| ≤ (r : ℝ)

theorem cosNear_mono {j r r' : Nat} (h : cosNear j r) (hr : r ≤ r') : cosNear j r' :=
  le_trans h (Nat.cast_le.mpr hr)

/-- An angle with the opposite cosine, and the opposite entry. -/
theorem cosNear_neg {j j' r : Nat} (h : cosNear j r) (ht : cosScaled j' = -cosScaled j)
    (hc : Real.cos (j' * Real.pi / 16) = -Real.cos (j * Real.pi / 16)) : cosNear j' r := by
  rw [cosNear, ht, hc, Int.cast_neg, mul_neg, neg_sub_neg, abs_sub_comm]
  exact h

/-- An angle with the same cosine, and the same entry. -/
theorem cosNear_same {j j' r : Nat} (h : cosNear j r) (ht : cosScaled j' = cosScaled j)
    (hc : Real.cos (j' * Real.pi / 16) = Real.cos (j * Real.pi / 16)) : cosNear j' r := by
  rw [cosNear, ht, hc]
  exact h

/-- The supplement's cosine is the opposite. -/
theorem cos_supplement {j j' : Nat} (h : j + j' = 16) :
    Real.cos (j' * Real.pi / 16) = -Real.cos (j * Real.pi / 16) := by
  have hj : (j' : ℝ) = 16 - j := by
    have : ((j + j' : Nat) : ℝ) = 16 := by exact_mod_cast h
    push_cast at this
    linarith
  rw [← Real.cos_pi_sub]
  congr 1
  rw [hj]
  ring

/-- From the cosine of the double angle, by squares. -/
theorem cosNear_half {j r : Nat} (h : cosNear (2 * j) r) (hj : j ≤ 8) (k : Nat) (hk : 0 ≤ cosScaled j - k)
    (hlo : 2 * (cosScaled j - k) ^ 2 ≤ cosScaled 0 * (cosScaled 0 + cosScaled (2 * j) - r))
    (hhi : cosScaled 0 * (cosScaled 0 + cosScaled (2 * j) + r) ≤ 2 * (cosScaled j + k) ^ 2) : cosNear j k := by
  rw [cosScaled_zero] at hlo hhi
  have hu : (0 : ℝ) < 2 ^ cosBits := by positivity
  have hcos : 0 ≤ 2 ^ cosBits * Real.cos (j * Real.pi / 16) := by
    have hpi := Real.pi_pos
    have hj' : (j : ℝ) ≤ 8 := by exact_mod_cast hj
    exact mul_nonneg hu.le (Real.cos_nonneg_of_mem_Icc ⟨by linarith [show 0 ≤ j * Real.pi / 16 by positivity], by nlinarith⟩)
  have hsq : 2 * (2 ^ cosBits * Real.cos (j * Real.pi / 16)) ^ 2 =
      2 ^ cosBits * (2 ^ cosBits + 2 ^ cosBits * Real.cos ((2 * j : Nat) * Real.pi / 16)) := by
    rw [show ((2 * j : Nat) : ℝ) * Real.pi / 16 = 2 * (j * Real.pi / 16) by push_cast; ring, Real.cos_two_mul]
    ring
  have hlo' : 2 * ((cosScaled j : ℝ) - k) ^ 2 ≤ 2 ^ cosBits * (2 ^ cosBits + cosScaled (2 * j) - r) := by exact_mod_cast hlo
  have hhi' : 2 ^ cosBits * ((2 : ℝ) ^ cosBits + cosScaled (2 * j) + r) ≤ 2 * (cosScaled j + k) ^ 2 := by exact_mod_cast hhi
  have hk' : (0 : ℝ) ≤ cosScaled j - k := by exact_mod_cast hk
  obtain ⟨h1, h2⟩ := abs_le.mp h
  have hmul : ∀ a b : ℝ, a ≤ b → 2 ^ cosBits * a ≤ 2 ^ cosBits * b := fun a b hab => mul_le_mul_of_nonneg_left hab hu.le
  have hbelow : (cosScaled j : ℝ) - k ≤ 2 ^ cosBits * Real.cos (j * Real.pi / 16) := by
    refine (sq_le_sq₀ hk' hcos).mp ?_
    linarith [hmul (2 ^ cosBits + cosScaled (2 * j) - r)
      (2 ^ cosBits + 2 ^ cosBits * Real.cos ((2 * j : Nat) * Real.pi / 16)) (by linarith)]
  have habove : 2 ^ cosBits * Real.cos (j * Real.pi / 16) ≤ (cosScaled j : ℝ) + k := by
    refine (sq_le_sq₀ hcos (by linarith [show (0 : ℝ) ≤ k from Nat.cast_nonneg k])).mp ?_
    linarith [hmul (2 ^ cosBits + 2 ^ cosBits * Real.cos ((2 * j : Nat) * Real.pi / 16))
      (2 ^ cosBits + cosScaled (2 * j) + r) (by linarith)]
  exact abs_le.mpr ⟨by linarith, by linarith⟩

/-- Each entry of the first quarter, from the right angle by halving. -/
theorem cosNear_quarter {j : Nat} (hj : j ≤ 8) : cosNear j 8 := by
  have h8 : cosNear 8 0 := by
    have hcos : Real.cos ((8 : Nat) * Real.pi / 16) = 0 := by
      rw [show ((8 : Nat) : ℝ) * Real.pi / 16 = Real.pi / 2 by push_cast; ring, Real.cos_pi_div_two]
    rw [cosNear, hcos, show cosScaled 8 = 0 from rfl]
    simp
  have h4 : cosNear 4 1 := cosNear_half (j := 4) (r := 0) h8 (by decide) 1 (by decide) (by decide) (by decide)
  have h12 : cosNear 12 1 := cosNear_neg h4 (by decide) (cos_supplement (by decide))
  have h2 : cosNear 2 2 := cosNear_half (j := 2) (r := 1) h4 (by decide) 2 (by decide) (by decide) (by decide)
  have h6 : cosNear 6 2 := cosNear_half (j := 6) (r := 1) h12 (by decide) 2 (by decide) (by decide) (by decide)
  have h10 : cosNear 10 2 := cosNear_neg h6 (by decide) (cos_supplement (by decide))
  have h14 : cosNear 14 2 := cosNear_neg h2 (by decide) (cos_supplement (by decide))
  interval_cases j
  · rw [cosNear, cosScaled_zero]
    simp
  · exact cosNear_half (j := 1) (r := 2) h2 (by decide) 8 (by decide) (by decide) (by decide)
  · exact cosNear_mono h2 (by decide)
  · exact cosNear_half (j := 3) (r := 2) h6 (by decide) 8 (by decide) (by decide) (by decide)
  · exact cosNear_mono h4 (by decide)
  · exact cosNear_half (j := 5) (r := 2) h10 (by decide) 8 (by decide) (by decide) (by decide)
  · exact cosNear_mono h6 (by decide)
  · exact cosNear_half (j := 7) (r := 2) h14 (by decide) 8 (by decide) (by decide) (by decide)
  · exact cosNear_mono h8 (by decide)

/-- Each entry, by the cosine's symmetries. -/
theorem cosNear_all (j : Nat) : cosNear j 8 := by
  have hr : j % 32 < 32 := Nat.mod_lt _ (by decide)
  have hscaled : cosScaled j = cosScaled (j % 32) := by
    unfold cosScaled
    rw [Nat.mod_mod]
  have hcos : Real.cos (j * Real.pi / 16) = Real.cos ((j % 32 : Nat) * Real.pi / 16) := by
    have hj : (j : ℝ) = (j % 32 : Nat) + 32 * (j / 32 : Nat) := by exact_mod_cast (Nat.mod_add_div j 32).symm
    rw [← Real.cos_add_nat_mul_two_pi ((j % 32 : Nat) * Real.pi / 16) (j / 32)]
    congr 1
    rw [hj]
    ring
  refine cosNear_same ?_ hscaled hcos
  generalize j % 32 = r at hr
  by_cases h8 : r ≤ 8
  · exact cosNear_quarter h8
  by_cases h16 : r ≤ 16
  · refine cosNear_neg (cosNear_quarter (j := 16 - r) (by omega)) ?_ (cos_supplement (by omega))
    interval_cases r <;> rfl
  by_cases h24 : r ≤ 24
  · refine cosNear_neg (cosNear_quarter (j := r - 16) (by omega)) ?_ ?_
    · interval_cases r <;> rfl
    · rw [← Real.cos_add_pi]
      congr 1
      rw [Nat.cast_sub (by omega)]
      push_cast
      ring
  · refine cosNear_same (cosNear_quarter (j := 32 - r) (by omega)) ?_ ?_
    · interval_cases r <;> rfl
    · rw [← Real.cos_two_pi_sub]
      congr 1
      rw [Nat.cast_sub (by omega)]
      push_cast
      ring

/-! ### The weights -/

/-- The scaled cosine that a frequency contributes at a sample (R261) is the cosine of its angle. -/
theorem cos_angle (u x : Nat) :
    (if u = 0 then 1 / Real.sqrt 2 else 1) * Real.cos ((2 * x + 1) * (u : Nat) * Real.pi / 16) =
      Real.cos (angle u x * Real.pi / 16) := by
  unfold angle
  split
  · subst_vars
    rw [show (((4 : Nat) : ℝ) * Real.pi / 16) = Real.pi / 4 by push_cast; ring, Real.cos_pi_div_four]
    simp [← Real.sqrt_div_self]
  · push_cast
    rw [one_mul]

/-- The product of two cosines, by the sum and the difference of their angles. -/
theorem two_mul_cos_mul_cos (a b : Nat) :
    2 * Real.cos (a * Real.pi / 16) * Real.cos (b * Real.pi / 16) =
      Real.cos ((a + b : Nat) * Real.pi / 16) + Real.cos (absDiff a b * Real.pi / 16) := by
  have hdiff : Real.cos (absDiff a b * Real.pi / 16) = Real.cos (a * Real.pi / 16 - b * Real.pi / 16) := by
    unfold absDiff
    split
    · rw [Nat.cast_sub (by omega)]
      congr 1
      ring
    · rw [Nat.cast_sub (by omega), ← Real.cos_neg]
      congr 1
      ring
  rw [hdiff, show ((a + b : Nat) : ℝ) * Real.pi / 16 = a * Real.pi / 16 + b * Real.pi / 16 by push_cast; ring, Real.cos_add,
    Real.cos_sub]
  ring

/-- The real factor of a coefficient at a sample in 8·IDCT_REF. -/
noncomputable def realWeight (n x y : Nat) : ℝ :=
  2 * ((if n % 8 = 0 then 1 / Real.sqrt 2 else 1) * Real.cos ((2 * x + 1) * (n % 8 : Nat) * Real.pi / 16)) *
    ((if n / 8 = 0 then 1 / Real.sqrt 2 else 1) * Real.cos ((2 * y + 1) * (n / 8 : Nat) * Real.pi / 16))

theorem idctRef_eq (f : List Int) (x y : Nat) :
    idctRef f x y = 1 / 8 * ∑ n ∈ Finset.range 64, (f.getD n 0 : ℝ) * realWeight n x y := by
  rw [idctRef, show (1 / 4 : ℝ) = 1 / 8 * 2 by norm_num, mul_assoc (1 / 8 : ℝ), Finset.mul_sum]
  congr 1
  refine Finset.sum_congr rfl fun n _ => ?_
  rw [realWeight]
  ring

theorem abs_weight_sub_le (n x y : Nat) : |(weight n x y : ℝ) - 2 ^ cosBits * realWeight n x y| ≤ 16 := by
  rw [realWeight, cos_angle, cos_angle, two_mul_cos_mul_cos, weight]
  have h1 := abs_le.mp (cosNear_all (angle (n % 8) x + angle (n / 8) y))
  have h2 := abs_le.mp (cosNear_all (absDiff (angle (n % 8) x) (angle (n / 8) y)))
  push_cast at h1 h2 ⊢
  exact abs_le.mpr ⟨by linarith, by linarith⟩

/-- The sum over the non-zero coefficients is the sum over all. -/
theorem idctSum_nonZeros (f : List Int) (n x y : Nat) :
    idctSum (nonZeros n f) x y = ∑ k ∈ Finset.range f.length, f.getD k 0 * weight (n + k) x y := by
  induction f generalizing n with
  | nil => rfl
  | cons v f ih =>
    have htail := ih (n + 1)
    rw [List.length_cons, Finset.sum_range_succ']
    simp only [List.getD_cons_succ, List.getD_cons_zero, Nat.add_zero]
    rw [Finset.sum_congr rfl fun k _ => by rw [show n + (k + 1) = n + 1 + k by omega], ← htail, nonZeros]
    split
    · simp [*]
    · simp [idctSum, add_comm]

/-- Settles O43: each weight is within 16 units of its real factor, and there are 64 coefficients of at most 2^31. -/
theorem referenceTransformIsAccurate : Obligations.ReferenceTransformIsAccurate := by
  intro f x y hlen hf _ _
  have hu : (0 : ℝ) < 2 ^ cosBits := by positivity
  have hbound : ∀ n ∈ Finset.range 64, |(f.getD n 0 : ℝ) * (weight n x y - 2 ^ cosBits * realWeight n x y)| ≤ 2 ^ 31 * 16 := by
    intro n hn
    rw [abs_mul]
    refine mul_le_mul ?_ (abs_weight_sub_le n x y) (abs_nonneg _) (by positivity)
    have hn' : n < f.length := by rw [hlen]; exact Finset.mem_range.mp hn
    have := hf _ (List.getElem_mem hn')
    rw [List.getD_eq_getElem?_getD, List.getElem?_eq_getElem hn', Option.getD_some]
    exact_mod_cast this
  have hdiff : |(idctSum (nonZeros 0 f) x y : ℝ) - 2 ^ cosBits * ∑ n ∈ Finset.range 64, (f.getD n 0 : ℝ) * realWeight n x y| ≤
      64 * (2 ^ 31 * 16) := by
    have hsum : (idctSum (nonZeros 0 f) x y : ℝ) - 2 ^ cosBits * ∑ n ∈ Finset.range 64, (f.getD n 0 : ℝ) * realWeight n x y =
        ∑ n ∈ Finset.range 64, (f.getD n 0 : ℝ) * (weight n x y - 2 ^ cosBits * realWeight n x y) := by
      rw [idctSum_nonZeros, hlen, Finset.mul_sum]
      push_cast
      rw [← Finset.sum_sub_distrib]
      refine Finset.sum_congr rfl fun n _ => ?_
      rw [Nat.zero_add]
      ring
    rw [hsum]
    refine (Finset.abs_sum_le_sum_abs _ _).trans ((Finset.sum_le_sum hbound).trans ?_)
    simp
  rw [show (2 : ℝ) ^ 352 = 2 ^ cosBits from rfl]
  refine ⟨?_, ?_⟩
  · rw [idctRef_eq]
    generalize ∑ n ∈ Finset.range 64, (f.getD n 0 : ℝ) * realWeight n x y = r at hdiff
    have hsplit : (idctSum (nonZeros 0 f) x y : ℝ) / (8 * 2 ^ cosBits) - 1 / 8 * r =
        ((idctSum (nonZeros 0 f) x y : ℝ) - 2 ^ cosBits * r) / (8 * 2 ^ cosBits) := by
      field_simp
    have hbits : (2 : ℝ) ^ cosBits = 2 ^ 42 * 2 ^ 310 := by
      rw [← pow_add]
      rfl
    rw [hsplit, abs_div, abs_of_pos (show (0 : ℝ) < 8 * 2 ^ cosBits by positivity), div_le_div_iff₀ (by positivity) (by positivity),
      hbits]
    rw [hbits] at hdiff
    have h310 : (0 : ℝ) < 2 ^ 310 := by positivity
    generalize (2 : ℝ) ^ 310 = q at h310 hdiff ⊢
    linarith [mul_le_mul_of_nonneg_right hdiff h310.le]
  · have hfloor := floor_div_add_half (k := ℝ) (idctSum (nonZeros 0 f) x y) (d := 4 * 2 ^ cosBits) (by positivity)
    rw [show 2 * (4 * 2 ^ cosBits) = 8 * 2 ^ cosBits by ring] at hfloor
    push_cast at hfloor
    rw [refSample, hfloor]

end Sys2Proof.Cert
end

section
/-! The bit reader (R88), RECEIVE (R202), DECODE (R203) and restarts (R207, R208). -/
namespace Sys2Proof.Cert
open Sys2Proof.Machine

theorem bind_of_ok {ε σ α β : Type} {m : EStateM ε σ α} {f : α → EStateM ε σ β} {s t : σ} {a : α} (h : m s = .ok a t) :
    (m >>= f) s = f a t := by rw [bind_run, h]

theorem bind_of_error {ε σ α β : Type} {m : EStateM ε σ α} {f : α → EStateM ε σ β} {s t : σ} {r : ε}
    (h : m s = .error r t) : (m >>= f) s = .error r t := by rw [bind_run, h]

theorem modEnt_run (f : Entropy → Entropy) (w : DecW) : modEnt f w = .ok () { w with ent := f w.ent } := rfl

/-! ### RECEIVE -/

section
variable {e : Env}

theorem receiveFrom_succ (t acc : Nat) :
    receiveFrom e (t + 1) acc = nextBit e >>= fun b => receiveFrom e t (2 * acc + b) := rfl

/-- The first bits, then the next. -/
theorem receiveFrom_add (m n acc : Nat) :
    receiveFrom e (m + n) acc = receiveFrom e m acc >>= receiveFrom e n := by
  induction m generalizing acc with
  | zero => rw [Nat.zero_add, receiveFrom, pure_bind]
  | succ m ih => rw [Nat.add_right_comm, receiveFrom_succ, receiveFrom_succ, bind_assoc, funext fun b => ih (2 * acc + b)]

/-- The bits read so far stand before the next. -/
theorem receiveFrom_eq (n acc : Nat) :
    receiveFrom e n acc = receive e n >>= fun b => pure (acc * 2 ^ n + b) := by
  induction n generalizing acc with
  | zero => simp [receive, receiveFrom]
  | succ n ih =>
    rw [receive, receiveFrom_succ, receiveFrom_succ, bind_assoc]
    congr 1
    funext b
    rw [ih, ih (2 * 0 + b), bind_assoc]
    congr 1
    funext v
    rw [pure_bind]
    congr 1
    ring

theorem receiveFrom_div {w w' : DecW} {t acc v : Nat} (h : receiveFrom e t acc w = .ok v w') : v / 2 ^ t = acc := by
  rw [receiveFrom_eq] at h
  obtain ⟨b, w1, hb, hv⟩ := bind_eq_ok.mp h
  cases hv
  rw [Nat.mul_comm, Nat.mul_add_div (by positivity), Nat.div_eq_of_lt (receive_lt hb), Nat.add_zero]

/-- The bits of a buffer byte, from the most significant one left. -/
theorem mod_two_pow_div {x l n : Nat} (h : n ≤ l) :
    x % 2 ^ (l + 1) / 2 ^ (l - n) = (x.testBit l).toNat * 2 ^ n + x % 2 ^ l / 2 ^ (l - n) := by
  have hsplit : 2 ^ l = 2 ^ (l - n) * 2 ^ n := by rw [← pow_add, Nat.sub_add_cancel h]
  calc x % 2 ^ (l + 1) / 2 ^ (l - n)
      = (2 ^ (l - n) * (2 ^ n * (x.testBit l).toNat) + x % 2 ^ l) / 2 ^ (l - n) := by
        rw [pow_succ, Nat.mod_mul, Nat.toNat_testBit, ← Nat.mul_assoc, ← hsplit, Nat.add_comm]
    _ = (x.testBit l).toNat * 2 ^ n + x % 2 ^ l / 2 ^ (l - n) := by
        rw [Nat.mul_add_div (by positivity), Nat.mul_comm (2 ^ n)]

theorem receiveFrom_buffered {n acc : Nat} {w : DecW} (h8 : w.ent.bl.toNat ≤ 8) (hn : n ≤ w.ent.bl.toNat) :
    receiveFrom e n acc w =
      .ok (acc * 2 ^ n + w.ent.bb.toNat % 2 ^ w.ent.bl.toNat / 2 ^ (w.ent.bl.toNat - n))
        { w with ent := { w.ent with bl := w.ent.bl - BitVec.ofNat 4 n } } := by
  induction n generalizing acc w with
  | zero =>
    rw [receiveFrom, Nat.sub_zero, Nat.div_eq_of_lt (Nat.mod_lt _ (by positivity)), pow_zero, Nat.mul_one, Nat.add_zero]
    simp [pure_run]
  | succ n ih =>
    have hbl : (w.ent.bl - 1).toNat = w.ent.bl.toNat - 1 :=
      BitVec.toNat_sub_of_le (by rw [BitVec.le_def]; exact (by omega : 1 ≤ w.ent.bl.toNat))
    have hne : w.ent.bl ≠ 0 := fun h0 => by rw [h0] at hn; exact absurd hn (by simp)
    rw [receiveFrom_succ, bind_run, nextBit_buffered hne, takeBit_run]
    dsimp only
    rw [ih (by dsimp only; omega) (by dsimp only; omega)]
    dsimp only
    rw [hbl]
    obtain ⟨l, hl⟩ : ∃ l, w.ent.bl.toNat = l + 1 := ⟨_, (Nat.sub_add_cancel (by omega)).symm⟩
    rw [hl, Nat.add_sub_cancel, Nat.add_sub_add_right, mod_two_pow_div (by omega : n ≤ l)]
    congr 1
    · rw [show w.ent.bb.getLsbD l = w.ent.bb.toNat.testBit l from rfl]
      ring
    · congr 2
      rw [BitVec.sub_sub]
      congr 1
      rw [show (1 : BitVec 4) = BitVec.ofNat 4 1 from rfl, ← BitVec.ofNat_add, Nat.add_comm]

/-- With an empty buffer the next byte is loaded first. -/
theorem receive_empty {w : DecW} (n : Nat) (h : w.ent.bl = 0) :
    receive e (n + 1) w = (fillByte e >>= fun _ => receive e (n + 1)) w := by
  have hnext : receive e (n + 1) w =
      (fillByte e >>= fun _ => takeBit >>= fun b => receiveFrom e n (2 * 0 + b)) w := by
    rw [receive, receiveFrom_succ, bind_run, nextBit_empty h, ← bind_run, bind_assoc]
  rw [hnext]
  cases hf : fillByte e w with
  | error r w1 => rw [bind_of_error hf, bind_of_error hf]
  | ok _ w1 =>
    have hbl : w1.ent.bl ≠ 0 := by
      rw [bl_of_fillByte hf]
      decide
    rw [bind_of_ok hf, bind_of_ok hf, receive, receiveFrom_succ, bind_run, bind_run, nextBit_buffered hbl]

end

/-- Settles O31: RECEIVE reads bit by bit, so that its bits are those of the buffer, and a number read in two parts is one. -/
theorem bitsComeMostSignificantFirst : Obligations.BitsComeMostSignificantFirst := by
  intro e w h8
  refine ⟨fun n hn => ?_, fun n h0 => receive_empty n h0, fun m n => ?_⟩
  · have h := receiveFrom_buffered (e := e) (acc := 0) h8 hn
    rwa [Nat.zero_mul, Nat.zero_add] at h
  · rw [receive, receiveFrom_add, funext fun a => receiveFrom_eq (e := e) n a]
    rfl

/-! ### DECODE -/

/-- No code begins another, and each has its length's range. -/
structure PrefixFree (h : HuffTab) : Prop where
  len : ∀ x ∈ h.hcode, 1 ≤ x.len ∧ x.len ≤ 16
  free : ∀ x ∈ h.hcode, ∀ y ∈ h.hcode, x ≠ y → x.len ≤ y.len → y.code / 2 ^ (y.len - x.len) ≠ x.code

theorem prefixFree_of_buildHuff {h : HuffTab} {counts : List Nat} {vals : List Byte} (hlen : counts.length = 16)
    (hb : buildHuff counts vals = some h.hcode) : PrefixFree h := by
  rw [buildHuff_eq hlen] at hb
  split at hb
  · rename_i hfit
    obtain hb := Option.some.inj hb
    refine ⟨fun x hx => ?_, fun x hx y hy => ?_⟩
    · rw [← hb] at hx
      obtain ⟨h1, h2, -⟩ := canonicalCodes_bounds hfit hx
      exact ⟨h1, h2⟩
    · rw [← hb] at hx hy
      exact canonicalCodes_prefix_free hx hy
  · cases hb

section
variable {e : Env} {h : HuffTab}

theorem find_eq_some {len code : Nat} {v : Byte} (hf : h.find len code = some v) :
    ∃ x ∈ h.hcode, x.sym = v ∧ x.len = len ∧ x.code = code := by
  obtain ⟨x, hx, rfl⟩ := Option.map_eq_some_iff.mp hf
  have hp := List.find?_some hx
  simp only [Bool.and_eq_true, beq_iff_eq] at hp
  exact ⟨x, List.mem_of_find?_eq_some hx, rfl, hp.1, hp.2⟩

theorem find_eq_none {len code : Nat} (hf : h.find len code = none) {x : HEntry} (hx : x ∈ h.hcode) (hl : x.len = len) :
    x.code ≠ code := by
  intro hc
  have := List.find?_eq_none.mp (Option.map_eq_none_iff.mp hf) x hx
  simp [hl, hc] at this

theorem find_of_mem (hp : PrefixFree h) {x : HEntry} (hx : x ∈ h.hcode) : h.find x.len x.code = some x.sym := by
  cases hf : h.find x.len x.code with
  | none => exact absurd rfl (find_eq_none hf hx rfl)
  | some v =>
    obtain ⟨y, hy, rfl, hl, hc⟩ := find_eq_some hf
    by_cases he : y = x
    · rw [he]
    · exact absurd (by rw [hl, Nat.sub_self, pow_zero, Nat.div_one, hc]) (hp.free y hy x hx he hl.le)

theorem decodeFrom_succ (fuel len acc : Nat) :
    decodeFrom e h (fuel + 1) len acc =
      nextBit e >>= fun b => match h.find len (2 * acc + b) with
        | some v => pure v
        | none => decodeFrom e h fuel (len + 1) (2 * acc + b) := rfl

theorem decodeFrom_found {fuel len acc b : Nat} {v : Byte} {w w' : DecW} (hb : nextBit e w = .ok b w')
    (hf : h.find len (2 * acc + b) = some v) : decodeFrom e h (fuel + 1) len acc w = .ok v w' := by
  rw [decodeFrom_succ, bind_run, hb]
  dsimp only
  rw [hf]
  rfl

theorem decodeFrom_not_found {fuel len acc b : Nat} {w w' : DecW} (hb : nextBit e w = .ok b w')
    (hf : h.find len (2 * acc + b) = none) :
    decodeFrom e h (fuel + 1) len acc w = decodeFrom e h fuel (len + 1) (2 * acc + b) w' := by
  rw [decodeFrom_succ, bind_run, hb]
  dsimp only
  rw [hf]

/-- Reading the bits of a code decodes to its symbol: no shorter code begins them. -/
theorem decodeFrom_code (hp : PrefixFree h) {x : HEntry} (hx : x ∈ h.hcode) {w' : DecW} {t fuel len acc : Nat} {w : DecW}
    (hlen : x.len = len + t) (hfuel : t < fuel) (hr : receiveFrom e (t + 1) acc w = .ok x.code w') :
    decodeFrom e h fuel len acc w = .ok x.sym w' := by
  induction t generalizing fuel len acc w with
  | zero =>
    obtain ⟨f, rfl⟩ : ∃ f, fuel = f + 1 := ⟨fuel - 1, by omega⟩
    obtain ⟨b, w1, hb, hc⟩ := bind_eq_ok.mp hr
    obtain ⟨hcode, rfl⟩ := EStateM.Result.ok.inj hc
    refine decodeFrom_found hb ?_
    rw [← find_of_mem hp hx, hlen, ← hcode, Nat.add_zero]
  | succ t ih =>
    obtain ⟨f, rfl⟩ : ∃ f, fuel = f + 1 := ⟨fuel - 1, by omega⟩
    obtain ⟨b, w1, hb, hc⟩ := bind_eq_ok.mp hr
    have hnone : h.find len (2 * acc + b) = none := by
      by_contra hne
      obtain ⟨v, hv⟩ := Option.ne_none_iff_exists'.mp hne
      obtain ⟨y, hy, -, hyl, hyc⟩ := find_eq_some hv
      refine hp.free y hy x hx (fun he => by rw [he] at hyl; omega) (by omega) ?_
      rw [hyc, hlen, hyl, Nat.add_sub_cancel_left]
      exact receiveFrom_div hc
    rw [decodeFrom_not_found hb hnone]
    exact ih (by omega) (by omega) hc

/-- What decodes is the code whose bits were read. -/
theorem code_of_decodeFrom {fuel len acc : Nat} {w w' : DecW} {v : Byte} (hd : decodeFrom e h fuel len acc w = .ok v w') :
    ∃ x ∈ h.hcode, x.sym = v ∧ ∃ t, x.len = len + t ∧ receiveFrom e (t + 1) acc w = .ok x.code w' := by
  induction fuel generalizing len acc w with
  | zero => cases hd
  | succ fuel ih =>
    obtain ⟨b, w1, hb, hd'⟩ := bind_eq_ok.mp hd
    have hread : ∀ t, receiveFrom e (t + 1) acc w = receiveFrom e t (2 * acc + b) w1 := fun t => by
      rw [receiveFrom_succ, bind_run, hb]
    cases hf : h.find len (2 * acc + b) with
    | some u =>
      rw [decodeFrom_found hb hf] at hd
      cases hd
      obtain ⟨x, hx, hs, hl, hc⟩ := find_eq_some hf
      refine ⟨x, hx, hs, 0, hl, ?_⟩
      rw [hread, hc]
      rfl
    | none =>
      rw [decodeFrom_not_found hb hf] at hd
      obtain ⟨x, hx, hs, t, hl, hr⟩ := ih hd
      exact ⟨x, hx, hs, t + 1, by omega, by rw [hread]; exact hr⟩

/-- Bits that begin with no code decode to nothing. -/
theorem decodeFrom_no_code {fuel len acc v : Nat} {w w' : DecW} (hfuel : len + fuel = 17)
    (hr : receiveFrom e fuel acc w = .ok v w') (hno : ∀ x ∈ h.hcode, len ≤ x.len → v / 2 ^ (16 - x.len) ≠ x.code) :
    decodeFrom e h fuel len acc w = .error ⟨.internalError, w'.pos⟩ w' := by
  induction fuel generalizing len acc w with
  | zero =>
    cases hr
    rfl
  | succ fuel ih =>
    obtain ⟨b, w1, hb, hr'⟩ := bind_eq_ok.mp hr
    have hnone : h.find len (2 * acc + b) = none := by
      by_contra hne
      obtain ⟨u, hu⟩ := Option.ne_none_iff_exists'.mp hne
      obtain ⟨y, hy, -, hyl, hyc⟩ := find_eq_some hu
      refine hno y hy hyl.ge ?_
      rw [hyc, hyl, show 16 - len = fuel by omega]
      exact receiveFrom_div hr'
    rw [decodeFrom_not_found hb hnone]
    exact ih (by omega) hr' fun x hx hle => hno x hx (by omega)

end

/-- Settles O32, from the codes' being free of prefixes. -/
theorem huffmanDecodeInvertsTheCode : Obligations.HuffmanDecodeInvertsTheCode := by
  intro e h counts vals hlen hb
  have hp := prefixFree_of_buildHuff hlen hb
  refine ⟨fun w w' x hx hr => ?_, fun w w' v hd => ?_, fun w w' v hr hno => ?_⟩
  · obtain ⟨h1, h16⟩ := hp.len x hx
    refine decodeFrom_code hp hx (t := x.len - 1) (by omega) (by omega) ?_
    rw [Nat.sub_add_cancel h1]
    exact hr
  · obtain ⟨x, hx, hs, t, hl, hr⟩ := code_of_decodeFrom hd
    refine ⟨x, hx, hs, ?_⟩
    rw [hl, Nat.add_comm]
    exact hr
  · exact decodeFrom_no_code rfl hr fun x hx _ => hno x hx

/-! ### Restarts -/

section
variable {e : Env} {w : DecW}

theorem skipPairs_succ (fuel p : Nat) :
    skipPairs e (fuel + 1) p =
      (liftMem (srcByte e p) >>= fun b =>
        if b = 0xFF#8 then liftMem (srcByte e (p + 1)) >>= fun b' => if b' = 0xFF#8 then skipPairs e fuel (p + 1) else pure p
        else pure p) := rfl

/-- The skip passes the fill bytes, and stops at the two marker bytes. -/
theorem skipPairs_stops {n p fuel : Nat} {b0 b1 : Byte} (hn : w.mw.host = .none)
    (h : srcIs e.params e.cfg w.mw.mem p (List.replicate n 0xFF#8 ++ [b0, b1])) (hpair : ¬(b0 = 0xFF#8 ∧ b1 = 0xFF#8))
    (hb0 : n = 0 ∨ b0 = 0xFF#8) (hf : n < fuel) : ∃ r, skipPairs e fuel p w = .ok (p + n) (withReads r w) := by
  induction n generalizing p fuel w with
  | zero =>
    obtain ⟨f, rfl⟩ : ∃ f, fuel = f + 1 := ⟨fuel - 1, by omega⟩
    obtain ⟨h0, hrest⟩ := srcIs_cons.mp h
    obtain ⟨h1, -⟩ := srcIs_cons.mp hrest
    obtain ⟨r, hr⟩ := liftMem_srcByte_ok hn h0
    by_cases hff : b0 = 0xFF#8
    · obtain ⟨r', hr'⟩ := liftMem_srcByte_ok (w := withReads r w) hn h1
      refine ⟨r', ?_⟩
      rw [skipPairs_succ, bind_run, hr]
      simp only [if_pos hff]
      rw [bind_run, hr']
      simp only [if_neg fun h1 => hpair ⟨hff, h1⟩]
      rfl
    · refine ⟨r, ?_⟩
      rw [skipPairs_succ, bind_run, hr]
      simp only [if_neg hff]
      rfl
  | succ n ih =>
    obtain rfl : b0 = 0xFF#8 := hb0.resolve_left (by omega)
    obtain ⟨f, rfl⟩ : ∃ f, fuel = f + 1 := ⟨fuel - 1, by omega⟩
    obtain ⟨h0, hrest⟩ := srcIs_cons.mp h
    have h1 : srcByteIn e.params e.cfg w.mw.mem (p + 1) = .ok 0xFF#8 := by
      cases n with
      | zero => exact (srcIs_cons.mp hrest).1
      | succ n => exact (srcIs_cons.mp hrest).1
    obtain ⟨r, hr⟩ := liftMem_srcByte_ok hn h0
    obtain ⟨r', hr'⟩ := liftMem_srcByte_ok (w := withReads r w) hn h1
    obtain ⟨r'', hr''⟩ := ih (w := withReads r' w) (fuel := f) hn hrest (.inr rfl) (by omega)
    refine ⟨r'', ?_⟩
    rw [skipPairs_succ, bind_run, hr]
    simp only [if_true]
    rw [bind_run, hr']
    simp only [if_true]
    rw [show withReads r' (withReads r w) = withReads r' w from rfl, hr'', Nat.add_right_comm, Nat.add_assoc]
    rfl

/-- Whether the marker is the expected one, by its two bytes. -/
theorem expectedRst_run {p : Nat} {b0 b1 : Byte} (hn : w.mw.host = .none)
    (h : srcIs e.params e.cfg w.mw.mem p [b0, b1]) (n : BitVec 3) :
    ∃ r, expectedRst e p n w = .ok (decide (b0.toNat = 0xFF ∧ b1.toNat = 0xD0 + n.toNat)) (withReads r w) := by
  obtain ⟨h0, hrest⟩ := srcIs_cons.mp h
  obtain ⟨h1, -⟩ := srcIs_cons.mp hrest
  obtain ⟨r, hr⟩ := liftMem_srcByte_ok hn h0
  have hff : b0 = 0xFF#8 ↔ b0.toNat = 0xFF := ⟨fun h => by rw [h]; rfl, fun h => BitVec.eq_of_toNat_eq h⟩
  have hrst : (b1 == 0xD0#8 + n.zeroExtend 8) = decide (b1.toNat = 0xD0 + n.toNat) := by
    rw [Bool.beq_eq_decide_eq]
    refine decide_eq_decide.mpr ?_
    have hnlt := n.isLt
    rw [← BitVec.toNat_inj, BitVec.toNat_add, BitVec.zeroExtend, BitVec.toNat_setWidth]
    simp only [BitVec.toNat_ofNat]
    omega
  unfold expectedRst
  rw [bind_of_ok hr]
  by_cases hb : b0.toNat = 0xFF
  · obtain ⟨r', hr'⟩ := liftMem_srcByte_ok (w := withReads r w) hn h1
    refine ⟨r', ?_⟩
    simp only [if_pos (hff.mpr hb)]
    rw [bind_of_ok hr', pure_run, hrst]
    simp only [hb, true_and]
    rfl
  · refine ⟨r, ?_⟩
    simp only [if_neg fun h => hb (hff.mp h), hb, false_and, decide_false]
    rfl

theorem warnRst_run (w : DecW) : warnRst w = .ok () { w with warn := warnedRst w.warn } := by
  rw [warnedRst, ← satInc_eq_countUp]
  rfl

theorem processRestart_consumes {n : Nat} {b0 b1 : Byte}
    (h : streamHolds e w w.pos.toNat (List.replicate n 0xFF#8 ++ [b0, b1])) (hpair : ¬(b0 = 0xFF#8 ∧ b1 = 0xFF#8))
    (hb0 : n = 0 ∨ b0 = 0xFF#8) :
    ∃ r, processRestart e w =
      .ok ()
        (withReads r
          (afterRestart e.ri (w.pos.toNat + n + 2)
            (if b0.toNat = 0xFF ∧ b1.toNat = 0xD0 + w.ent.nextRst.toNat then w.warn else warnedRst w.warn) w)) := by
  obtain ⟨hs, hn⟩ := h
  have hlen := length_le_of_srcIs hs
  simp only [List.length_append, List.length_replicate, List.length_cons, List.length_nil] at hlen
  have hmark := (srcIs_append.mp hs).2
  rw [List.length_replicate] at hmark
  obtain ⟨r, hr⟩ := skipPairs_stops (w := { w with ent := { w.ent with bl := 0 } }) hn hs hpair hb0
    (show n < e.cfg.srcLen.toNat + 1 - w.pos.toNat by omega)
  obtain ⟨r', hr'⟩ := expectedRst_run (w := withReads r { w with ent := { w.ent with bl := 0 } }) hn hmark w.ent.nextRst
  refine ⟨r', ?_⟩
  unfold processRestart
  rw [bind_of_ok (modEnt_run _ w), bind_of_ok (get_run _), bind_of_ok hr, bind_of_ok hr']
  by_cases hok : b0.toNat = 0xFF ∧ b1.toNat = 0xD0 + w.ent.nextRst.toNat
  · simp only [hok, and_self, decide_true, if_true]
    rfl
  · simp only [hok, decide_false, if_false]
    rw [if_neg (by decide), bind_of_ok (warnRst_run _)]
    rfl

/-- A restart begins a new interval. -/
theorem rtg_of_processRestart {w' : DecW} (h : processRestart e w = .ok () w') : w'.ent.rtg = e.ri := by
  obtain ⟨-, w1, -, h⟩ := bind_eq_ok.mp h
  obtain ⟨-, w2, -, h⟩ := bind_eq_ok.mp h
  obtain ⟨u, w3, -, h⟩ := bind_eq_ok.mp h
  obtain ⟨p, w4, -, h⟩ := bind_eq_ok.mp h
  obtain ⟨ok, w5, -, h⟩ := bind_eq_ok.mp h
  dsimp only at h
  split at h
  · cases h
    rfl
  · obtain ⟨-, w6, -, h⟩ := bind_eq_ok.mp h
    cases h
    rfl

end

/-- Settles O33: the restart interval counts down, and at its end the restart takes the fill bytes and two bytes more. -/
theorem restartConsumesTwoBytes : Obligations.RestartConsumesTwoBytes := by
  intro e w
  refine ⟨fun n b0 b1 h hpair hb0 => processRestart_consumes h hpair hb0, fun h0 => ?_, fun h0 hrtg => ?_,
    fun w' h0 hrtg hp => ?_⟩
  · rw [beforeMcu, if_pos h0]
    rfl
  · simp only [beforeMcu, if_neg h0, bind_run, get_run, if_neg hrtg]
    rfl
  · simp only [beforeMcu, if_neg h0]
    rw [bind_of_ok (get_run _), if_pos hrtg, bind_of_ok hp, modEnt_run, rtg_of_processRestart hp]

end Sys2Proof.Cert
end

section
/-! AC tokens (R209, R212): a loop that reads the tokens of values in zigzag order stores the values. -/
namespace Sys2Proof.Cert
open Sys2Proof.Machine

/-! ### Values and their bits -/

/-- EXTEND of a value's bits is the value. -/
theorem extend_bitsOf (c : Int) : extend (bitsOf c) (categoryOf c) = c := by
  by_cases hc : c = 0
  · subst hc
    rfl
  obtain ⟨t, ht⟩ : ∃ t, categoryOf c = t + 1 := by
    refine ⟨categoryOf c - 1, (Nat.sub_add_cancel ?_).symm⟩
    exact Nat.size_pos.mpr (by omega)
  have hlo : 2 ^ t ≤ c.natAbs := Nat.lt_size.mp (by unfold categoryOf at ht; omega)
  have hhi : c.natAbs < 2 ^ (t + 1) := Nat.size_le.mp (by unfold categoryOf at ht; omega)
  have hpow : (2 : Int) ^ (t + 1) = 2 * (2 ^ t : Nat) := by push_cast; ring
  rw [pow_succ] at hhi
  rw [ht, bitsOf]
  split
  · rw [extend_upper (by omega)]
    omega
  · rw [ht, hpow, extend_lower (by omega), hpow]
    omega

theorem categoryOf_range {c : Int} (h0 : c ≠ 0) (hc : c.natAbs ≤ 32767) : 1 ≤ categoryOf c ∧ categoryOf c ≤ 15 :=
  ⟨Nat.size_pos.mpr (by omega), Nat.size_le.mpr (by omega)⟩

/-! ### Reading tokens -/

section
variable {e : Env} {h : HuffTab}

theorem readsTokens_cons_iff {w w' : DecW} {r s v : Nat} {ts : List Token} :
    ReadsTokens e h w ((r, s, v) :: ts) w' ↔
      ∃ rs w1 w2, decodeSym e h w = .ok rs w1 ∧ (hi4 rs).toNat = r ∧ (lo4 rs).toNat = s ∧ receive e s w1 = .ok v w2 ∧
        ReadsTokens e h w2 ts w' := by
  constructor
  · intro hr
    cases hr with
    | cons _ w1 w2 _ rs _ _ hd hv ht => exact ⟨rs, w1, w2, hd, toNat_hi4 rs, toNat_lo4 rs, hv, ht⟩
  · rintro ⟨rs, w1, w2, hd, rfl, rfl, hv, ht⟩
    rw [toNat_hi4, toNat_lo4] at *
    exact .cons w w1 w2 w' rs v ts hd hv ht

theorem readsTokens_append {w w' : DecW} {ts us : List Token} (hr : ReadsTokens e h w (ts ++ us) w') :
    ∃ u, ReadsTokens e h w ts u ∧ ReadsTokens e h u us w' := by
  induction ts generalizing w with
  | nil => exact ⟨w, .nil w, hr⟩
  | cons t ts ih =>
    obtain ⟨rs, w1, w2, hd, h1, h2, hv, ht⟩ := readsTokens_cons_iff.mp hr
    obtain ⟨u, hu, hu'⟩ := ih ht
    exact ⟨u, readsTokens_cons_iff.mpr ⟨rs, w1, w2, hd, h1, h2, hv, hu⟩, hu'⟩

end

/-! ### A loop over tokens -/

/-- A block whose coefficients from zigzag index `lo` on hold the values of a list times 2^AL, but where the value is 0. -/
def filled (lo : Nat) (cs : List Int) (al : Nat) (old new : Block) : Prop :=
  ∀ n, n < 64 → new.at (zz n) =
    if lo ≤ n ∧ cs.getD (n - lo) 0 ≠ 0 then wrap16 (cs.getD (n - lo) 0 * 2 ^ al) else old.at (zz n)

section
variable {lo al : Nat} {cs : List Int} {old new : Block}

theorem filled_nil : filled lo [] al old old := fun n _ => by simp

theorem filled_zero (h : filled (lo + 1) cs al old new) : filled lo (0 :: cs) al old new := by
  intro n hn
  rw [h n hn]
  rcases Nat.lt_trichotomy n lo with hlt | rfl | hgt
  · rw [if_neg (by omega), if_neg (by omega)]
  · rw [if_neg (by omega), if_neg (by simp)]
  · obtain ⟨d, rfl⟩ : ∃ d, n = lo + 1 + d := ⟨n - (lo + 1), by omega⟩
    rw [show lo + 1 + d - lo = d + 1 by omega, Nat.add_sub_cancel_left, List.getD_cons_succ]
    simp only [show lo + 1 ≤ lo + 1 + d by omega, show lo ≤ lo + 1 + d by omega]

theorem filled_cons {c : Int} (hc : c ≠ 0) (hlo : lo < 64)
    (h : filled (lo + 1) cs al (old.put (zz lo) (wrap16 (c * 2 ^ al))) new) : filled lo (c :: cs) al old new := by
  intro n hn
  rw [h n hn]
  rcases Nat.lt_trichotomy n lo with hlt | rfl | hgt
  · rw [if_neg (by omega), if_neg (by omega), blockAt_put old (zz_lt lo hlo),
      if_neg fun he => hlt.ne (zz_inj n hn lo hlo he)]
  · rw [if_neg (by omega), blockAt_put old (zz_lt n hn), if_pos rfl, Nat.sub_self, if_pos ⟨le_rfl, hc⟩]
    rfl
  · obtain ⟨d, rfl⟩ : ∃ d, n = lo + 1 + d := ⟨n - (lo + 1), by omega⟩
    have hne : zz (lo + 1 + d) ≠ zz lo := fun he => by
      have := zz_inj _ hn lo hlo he
      omega
    rw [show lo + 1 + d - lo = d + 1 by omega, Nat.add_sub_cancel_left, List.getD_cons_succ,
      blockAt_put old (zz_lt lo hlo), if_neg hne]
    simp only [show lo + 1 ≤ lo + 1 + d by omega, show lo ≤ lo + 1 + d by omega]

/-- What a list of values leaves is the one block that `filled` allows. -/
theorem eq_of_filled {new' : Block} (h : filled lo cs al old new) (h' : filled lo cs al old new') : new = new' := by
  refine block_ext_at fun n hn => ?_
  obtain ⟨k, hk, rfl⟩ := zz_diagonal.2.1 n hn
  rw [h k hk, h' k hk]

end

/-- A loop with fuel, from an index on, that takes ZRL and value tokens up to the index `lim`. -/
structure TokenLoop (e : Env) (h : HuffTab) (lim al : Nat) (L : Nat → Nat → Block → DM Block) : Prop where
  zrl : ∀ {fuel k b rs w w1}, k ≤ lim → decodeSym e h w = .ok rs w1 → (hi4 rs).toNat = 15 → (lo4 rs).toNat = 0 →
    L (fuel + 1) k b w = L fuel (k + 16) b w1
  value : ∀ {fuel k b rs v w w1 w2}, k ≤ lim → decodeSym e h w = .ok rs w1 → (lo4 rs).toNat ≠ 0 →
    k + (hi4 rs).toNat ≤ lim → receive e (lo4 rs).toNat w1 = .ok v w2 →
    L (fuel + 1) k b w =
      L fuel (k + (hi4 rs).toNat + 1)
        (b.put (zz (k + (hi4 rs).toNat)) (wrap16 (extend v (lo4 rs).toNat * 2 ^ al))) w2

section
variable {e : Env} {h : HuffTab} {lim al : Nat} {L : Nat → Nat → Block → DM Block} (hL : TokenLoop e h lim al L)
include hL

/-- Sixteen zeros at a time. -/
theorem TokenLoop.runZrl {q fuel k : Nat} {b : Block} {w w' : DecW} (hk : k + 16 * q ≤ lim + 15)
    (hfuel : lim + 2 ≤ fuel + k) (hr : ReadsTokens e h w (List.replicate q (15, 0, 0)) w') :
    ∃ fuel', lim + 2 ≤ fuel' + (k + 16 * q) ∧ L fuel k b w = L fuel' (k + 16 * q) b w' := by
  induction q generalizing fuel k w with
  | zero =>
    cases hr
    exact ⟨fuel, hfuel, rfl⟩
  | succ q ih =>
    obtain ⟨rs, w1, w2, hd, h1, h2, hv, ht⟩ := readsTokens_cons_iff.mp hr
    obtain ⟨f, rfl⟩ : ∃ f, fuel = f + 1 := ⟨fuel - 1, by omega⟩
    cases hv
    obtain ⟨fuel', hf, he⟩ := ih (fuel := f) (k := k + 16) (by omega) (by omega) ht
    refine ⟨fuel', by omega, ?_⟩
    rw [hL.zrl (by omega) hd h1 h2, he, show k + 16 + 16 * q = k + 16 * (q + 1) by omega]

/-- Values in zigzag order, `run` zeros already passed. -/
theorem TokenLoop.runTokens (hlim : lim ≤ 63) {cs : List Int} {run fuel k : Nat} {b : Block} {w w' : DecW}
    (hend : cs = [] → run = 0) (hlast : cs.getLast? ≠ some 0) (hcs : ∀ c ∈ cs, c.natAbs ≤ 32767)
    (hk : k + run + cs.length ≤ lim + 1) (hfuel : lim + 2 ≤ fuel + k) (hr : ReadsTokens e h w (tokensOf run cs) w') :
    ∃ fuel' b', L fuel k b w = L fuel' (k + run + cs.length) b' w' ∧ lim + 2 ≤ fuel' + (k + run + cs.length) ∧
      filled (k + run) cs al b b' := by
  induction cs generalizing run fuel k b w with
  | nil =>
    obtain rfl := hend rfl
    cases hr
    exact ⟨fuel, b, rfl, hfuel, filled_nil⟩
  | cons c cs ih =>
    rw [List.length_cons] at hk ⊢
    have hlast' : cs.getLast? ≠ some 0 := fun hl => hlast (by rw [List.getLast?_cons, hl]; rfl)
    have hcs' : ∀ c ∈ cs, c.natAbs ≤ 32767 := fun c hc => hcs c (List.mem_cons_of_mem _ hc)
    rw [tokensOf] at hr
    split at hr
    · subst_vars
      have hne : cs ≠ [] := fun h0 => hlast (by rw [h0]; rfl)
      obtain ⟨fuel', b', he, hf, hfill⟩ := ih (run := run + 1) (fun h0 => absurd h0 hne) hlast' hcs' (by omega) hfuel hr
      refine ⟨fuel', b', ?_, by omega, filled_zero hfill⟩
      rw [he, show k + (run + 1) + cs.length = k + run + (cs.length + 1) by omega]
    · rename_i hc
      obtain ⟨h1, h15⟩ := categoryOf_range hc (hcs c (by simp))
      obtain ⟨u, hz, hr⟩ := readsTokens_append hr
      obtain ⟨f1, hf1, he1⟩ := hL.runZrl (b := b) (by omega) hfuel hz
      obtain ⟨rs, w1, w2, hd, hhi, hlo, hv, ht⟩ := readsTokens_cons_iff.mp hr
      obtain ⟨f2, rfl⟩ : ∃ f, f1 = f + 1 := ⟨f1 - 1, by omega⟩
      have hidx : k + 16 * (run / 16) + (hi4 rs).toNat = k + run := by omega
      have hval := hL.value (fuel := f2) (k := k + 16 * (run / 16)) (b := b) (by omega) hd (by omega) (by omega)
        (hlo.symm ▸ hv)
      rw [hidx, hlo, extend_bitsOf] at hval
      obtain ⟨fuel', b', he, hf, hfill⟩ := ih (run := 0) (fuel := f2) (k := k + run + 1)
        (b := b.put (zz (k + run)) (wrap16 (c * 2 ^ al))) (fun _ => rfl) hlast' hcs' (by omega) (by omega) ht
      refine ⟨fuel', b', ?_, by omega, filled_cons hc (by omega) hfill⟩
      rw [he1, hval, he, show k + run + 1 + 0 + cs.length = k + run + (cs.length + 1) by omega]

end

/-! ### Sequential blocks -/

section
variable {e : Env} {j : Nat}

theorem seqAc_succ (fuel k : Nat) (b : Block) :
    seqAc e j (fuel + 1) k b =
      if 63 < k then pure b
      else decodeSym e (e.acTab j) >>= fun rs =>
        if (lo4 rs).toNat = 0 then (if (hi4 rs).toNat = 15 then seqAc e j fuel (k + 16) b else pure b)
        else if 63 < k + (hi4 rs).toNat then raiseInternal
        else receive e (lo4 rs).toNat >>= fun v =>
          seqAc e j fuel (k + (hi4 rs).toNat + 1) (b.put (zz (k + (hi4 rs).toNat)) (wrap16 (extend v (lo4 rs).toNat))) := rfl

theorem seqAc_past {k : Nat} (hk : 63 < k) (fuel : Nat) (b : Block) (w : DecW) : seqAc e j fuel k b w = .ok b w := by
  cases fuel with
  | zero => rfl
  | succ fuel => rw [seqAc_succ, if_pos hk]; rfl

theorem seqAc_symbol {fuel k : Nat} {b : Block} {rs : Byte} {w w1 : DecW} (hk : k ≤ 63)
    (hd : decodeSym e (e.acTab j) w = .ok rs w1) :
    seqAc e j (fuel + 1) k b w =
      (if (lo4 rs).toNat = 0 then (if (hi4 rs).toNat = 15 then seqAc e j fuel (k + 16) b else pure b)
        else if 63 < k + (hi4 rs).toNat then raiseInternal
        else receive e (lo4 rs).toNat >>= fun v =>
          seqAc e j fuel (k + (hi4 rs).toNat + 1) (b.put (zz (k + (hi4 rs).toNat)) (wrap16 (extend v (lo4 rs).toNat)))) w1 := by
  rw [seqAc_succ, if_neg (by omega), bind_of_ok hd]

theorem tokenLoop_seqAc : TokenLoop e (e.acTab j) 63 0 (seqAc e j) where
  zrl hk hd h1 h2 := by rw [seqAc_symbol hk hd, if_pos h2, if_pos h1]
  value hk hd h1 h2 hv := by
    rw [seqAc_symbol hk hd, if_neg h1, if_neg (by omega), bind_of_ok hv, pow_zero, mul_one]

theorem seqBlock_run {a : Word} {w w' : DecW} {dc : Half} (hdc : dcDiff e j w = .ok dc w') :
    seqBlock e j a w =
      (seqAc e j 64 1 (Block.zero.put 0 dc) >>= fun b => liftMem (writeBlock e.params .coef a b)) w' := by
  rw [seqBlock, bind_of_ok hdc]

theorem zero_at (n : Nat) : Block.zero.at n = 0 := by
  rw [Block.at, Block.zero, Vector.toList_replicate, List.getD_eq_getElem?_getD, List.getElem?_replicate]
  split <;> rfl

/-- The block of a predictor and values in zigzag order. -/
theorem filled_of_coefs {cs : List Int} {dc : Half} {b : Block} (h0 : b.at 0 = dc)
    (hcs : ∀ k, k < 63 → b.at (zz (k + 1)) = wrap16 (cs.getD k 0)) : filled 1 cs 0 (Block.zero.put 0 dc) b := by
  intro n hn
  cases n with
  | zero =>
    rw [if_neg (by omega), zz_diagonal.1, h0, blockAt_put _ (by omega), if_pos rfl]
  | succ k =>
    rw [hcs k (by omega), Nat.add_sub_cancel, pow_zero, mul_one]
    split
    · rfl
    · rename_i hc
      have hz : cs.getD k 0 = 0 := by
        by_contra h
        exact hc ⟨by omega, h⟩
      have hne : zz (k + 1) ≠ 0 := fun he => by
        have := zz_inj (k + 1) hn 0 (by omega) (by rw [he, zz_diagonal.1])
        omega
      rw [hz, blockAt_put _ (by omega), if_neg hne, zero_at]
      rfl

end

/-- Settles O34: the tokens fill the block, and its end is by its last index, by EOB, by a ZRL past it, or an error. -/
theorem seqBlockInvertsRunLengthCoding : Obligations.SeqBlockInvertsRunLengthCoding := by
  intro e j a w w1 w2 w3 s v cs b hsym
  refine ⟨fun hs => ?_, ?_⟩
  · rw [seqBlock, bind_of_error (by rw [dcDiff_of_decodeSym hsym, if_pos hs])]
  intro hs hv dc hlen hlast hcs hr h0 hb stores
  have hdc : dcDiff e j w = .ok dc (withDcpred e j dc w2) := by
    rw [dcDiff_of_decodeSym hsym, if_neg (by omega), hv]
    rfl
  obtain ⟨fuel, b', hrun, hfuel, hfill⟩ := tokenLoop_seqAc.runTokens (by omega) (run := 0) (fuel := 64) (k := 1)
    (b := Block.zero.put 0 dc) (w := withDcpred e j dc w2) (fun _ => rfl) hlast hcs (by omega) (by omega) hr
  obtain rfl : b' = b := eq_of_filled hfill (filled_of_coefs h0 hb)
  have hblock : ∀ u, seqAc e j fuel (1 + 0 + cs.length) b' w3 = .ok b' u → stores u := fun u hu => by
    show seqBlock e j a w = _
    rw [seqBlock_run hdc, bind_of_ok (hrun.trans hu)]
  refine ⟨fun h63 => hblock w3 (seqAc_past (by omega) _ _ _), fun hlt rs w4 hd => ?_⟩
  obtain ⟨f, rfl⟩ : ∃ f, fuel = f + 1 := ⟨fuel - 1, by omega⟩
  have hstep := seqAc_symbol (fuel := f) (b := b') (k := 1 + 0 + cs.length) (by omega) hd
  rw [toNat_hi4, toNat_lo4] at hstep
  refine ⟨fun h1 h2 => hblock w4 ?_, fun h1 h2 => hblock w4 ?_, fun h1 h2 => ?_⟩
  · rw [hstep, if_pos h1, if_neg (by omega)]
    rfl
  · subst h1
    rw [hstep, if_pos (by decide), if_pos (by decide), seqAc_past (by omega)]
  · rw [seqBlock_run hdc, bind_of_error (hrun.trans (hstep.trans ?_))]
    rw [if_neg h1, if_pos (by omega)]
    rfl

end Sys2Proof.Cert
end

section
/-! Two runs of one computation from states that differ only in what it does not look at: they end alike. -/
namespace Sys2Proof.Cert
open Sys2Proof.Machine

section
variable {ε σ α β : Type}

/-- Two ends are the same, but for states that a relation takes for alike. -/
def SameEnd (R : σ → σ → Prop) : EStateM.Result ε σ α → EStateM.Result ε σ α → Prop
  | .ok a u, .ok a' u' => a = a' ∧ R u u'
  | .error r u, .error r' u' => r = r' ∧ R u u'
  | _, _ => False

/-- A computation does not see the difference between states that a relation takes for alike. -/
def Blind (R : σ → σ → Prop) (m : EStateM ε σ α) : Prop := ∀ w w', R w w' → SameEnd R (m w) (m w')

variable {R : σ → σ → Prop}

theorem Blind.ok {m : EStateM ε σ α} (hm : Blind R m) {w w' u : σ} {a : α} (hR : R w w') (h : m w = .ok a u) :
    ∃ u', m w' = .ok a u' ∧ R u u' := by
  have he := hm w w' hR
  rw [h] at he
  cases hm' : m w' with
  | ok a' u' =>
    rw [hm'] at he
    exact ⟨u', by rw [he.1], he.2⟩
  | error r u' => rw [hm'] at he; exact he.elim

theorem Blind.error {m : EStateM ε σ α} (hm : Blind R m) {w w' u : σ} {r : ε} (hR : R w w') (h : m w = .error r u) :
    ∃ u', m w' = .error r u' ∧ R u u' := by
  have he := hm w w' hR
  rw [h] at he
  cases hm' : m w' with
  | ok a' u' => rw [hm'] at he; exact he.elim
  | error r' u' =>
    rw [hm'] at he
    exact ⟨u', by rw [he.1], he.2⟩

theorem Blind.pure (a : α) : Blind R (pure a : EStateM ε σ α) := fun _ _ hR => ⟨rfl, hR⟩

theorem Blind.throw (r : ε) : Blind R (throw r : EStateM ε σ α) := fun _ _ hR => ⟨rfl, hR⟩

theorem Blind.modify {f : σ → σ} (h : ∀ w w', R w w' → R (f w) (f w')) : Blind R (modify f : EStateM ε σ PUnit) :=
  fun w w' hR => ⟨rfl, h w w' hR⟩

theorem Blind.bind {m : EStateM ε σ α} {f : α → EStateM ε σ β} (hm : Blind R m) (hf : ∀ a, Blind R (f a)) :
    Blind R (m >>= f) := by
  intro w w' hR
  cases h : m w with
  | ok a u =>
    obtain ⟨u', h', hu⟩ := hm.ok hR h
    rw [bind_of_ok h, bind_of_ok h']
    exact hf a u u' hu
  | error r u =>
    obtain ⟨u', h', hu⟩ := hm.error hR h
    rw [bind_of_error h, bind_of_error h']
    exact ⟨rfl, hu⟩

/-- A state looked at, where what follows is the same for states alike. -/
theorem Blind.get {f : σ → EStateM ε σ β} (hsame : ∀ w w', R w w' → f w' = f w) (hf : ∀ u, Blind R (f u)) :
    Blind R (get >>= f) := by
  intro w w' hR
  rw [bind_of_ok (get_run w), bind_of_ok (get_run w'), hsame w w' hR]
  exact hf w w w' hR

theorem Blind.cond {c : Prop} [Decidable c] {m n : EStateM ε σ α} (hm : Blind R m) (hn : Blind R n) :
    Blind R (if c then m else n) := by
  split
  · exact hm
  · exact hn

/-- A choice before the rest. -/
theorem Blind.when {c : Prop} [Decidable c] {m n : EStateM ε σ α} {f : α → EStateM ε σ β} (hm : Blind R m) (hn : Blind R n)
    (hf : ∀ a, Blind R (f a)) : Blind R (if c then m >>= f else n >>= f) := Blind.cond (hm.bind hf) (hn.bind hf)

theorem Blind.forRange {f : Nat → EStateM ε σ Unit} (hf : ∀ i, Blind R (f i)) (lo n : Nat) :
    Blind R (Sys2Proof.Machine.forRange lo n f) := by
  induction n generalizing lo with
  | zero => exact Blind.pure ()
  | succ n ih => exact Blind.bind (hf lo) fun _ => ih _

end

/-! ### The bit reader -/

/-- The state with SRC_POS and the bit reader's fields set. -/
def withReader (p : Word) (bb : Byte) (bl : BitVec 4) (hit : Bool) (w : DecW) : DecW :=
  { w with pos := p, ent := { w.ent with bb := bb, bl := bl, markerHit := hit } }

/-- States alike in all that the bit reader looks at, and still alike after what it does. -/
structure ReaderBlind (R : DecW → DecW → Prop) : Prop where
  pos : ∀ {w w'}, R w w' → w'.pos = w.pos
  mw : ∀ {w w'}, R w w' → w'.mw = w.mw
  buf : ∀ {w w'}, R w w' → w'.ent.bb = w.ent.bb ∧ w'.ent.bl = w.ent.bl ∧ w'.ent.markerHit = w.ent.markerHit
  setMw : ∀ {w w'}, R w w' → ∀ x, R { w with mw := x } { w' with mw := x }
  setBuf : ∀ {w w'}, R w w' → ∀ p bb bl hit, R (withReader p bb bl hit w) (withReader p bb bl hit w')
  warnEnt : ∀ {w w'}, R w w' → R { w with warn := w.warn.warnEnt } { w' with warn := w'.warn.warnEnt }

section
variable {R : DecW → DecW → Prop} (hR : ReaderBlind R) {e : Env} {α : Type}
include hR

theorem ReaderBlind.liftMem (m : MM α) : Blind R (liftMem m) := by
  intro w w' h
  unfold Sys2Proof.Machine.liftMem
  rw [hR.mw h]
  cases m w.mw with
  | ok a x => exact ⟨rfl, hR.setMw h x⟩
  | error r x => exact ⟨rfl, hR.setMw h x⟩

theorem ReaderBlind.raiseInternal : Blind R (raiseInternal : DM α) := fun w w' h => ⟨by rw [hR.pos h], h⟩

/-- A change of the reader's fields to what the reader's fields decide. -/
theorem ReaderBlind.modReader {f : DecW → DecW} {g : DecW → Word × Byte × BitVec 4 × Bool}
    (hf : ∀ w, f w = withReader (g w).1 (g w).2.1 (g w).2.2.1 (g w).2.2.2 w) (hg : ∀ w w', R w w' → g w' = g w) :
    Blind R (modify f : DM PUnit) := Blind.modify fun w w' h => by
  rw [hf, hf, hg w w' h]
  exact hR.setBuf h ..

/-- A change of the bit buffer. -/
theorem ReaderBlind.modBuf {f : Byte × BitVec 4 × Bool → Byte × BitVec 4 × Bool} :
    Blind R (modEnt fun s =>
      { s with
        bb := (f (s.bb, s.bl, s.markerHit)).1, bl := (f (s.bb, s.bl, s.markerHit)).2.1
        markerHit := (f (s.bb, s.bl, s.markerHit)).2.2 }) :=
  hR.modReader (g := fun w => (w.pos, f (w.ent.bb, w.ent.bl, w.ent.markerHit))) (fun _ => rfl) fun w w' h => by
    obtain ⟨hbb, hbl, hhit⟩ := hR.buf h
    rw [hR.pos h, hbb, hbl, hhit]

theorem ReaderBlind.loadByte (pos : Nat) (b : Byte) : Blind R (loadByte pos b) :=
  hR.modReader (g := fun w => (BitVec.ofNat 32 pos, b, 8, w.ent.markerHit)) (fun _ => rfl) fun w w' h => by
    rw [(hR.buf h).2.2]

theorem ReaderBlind.warn : Blind R Machine.warnEnt := Blind.modify fun _ _ h => hR.warnEnt h

theorem ReaderBlind.supplyZero : Blind R supplyZero :=
  Blind.bind hR.warn fun _ => hR.modBuf (f := fun b => (0, 8, b.2.2))

theorem ReaderBlind.skipFill (fuel q : Nat) : Blind R (skipFill e fuel q) := by
  induction fuel generalizing q with
  | zero => exact Blind.pure q
  | succ fuel ih => exact Blind.bind (hR.liftMem _) fun _ => Blind.cond (ih _) (Blind.pure q)

theorem ReaderBlind.afterFill (q : Nat) : Blind R (afterFill e q) :=
  Blind.bind (hR.liftMem _) fun _ => Blind.cond (hR.loadByte _ _) <|
    Blind.bind (hR.modBuf (f := fun b => (b.1, b.2.1, true))) fun _ => hR.supplyZero

theorem ReaderBlind.fillByte : Blind R (fillByte e) := by
  refine Blind.get (fun w w' h => ?_) fun u => ?_
  · obtain ⟨-, -, hhit⟩ := hR.buf h
    rw [hhit, hR.pos h]
  · exact Blind.cond hR.supplyZero <| Blind.bind (hR.liftMem _) fun _ =>
      Blind.cond (hR.loadByte _ _) (Blind.bind (hR.skipFill _ _) fun q => hR.afterFill q)

theorem ReaderBlind.takeBit : Blind R takeBit := by
  refine Blind.get (fun w w' h => ?_) fun u => ?_
  · obtain ⟨hbb, hbl, -⟩ := hR.buf h
    rw [hbb, hbl]
  · exact Blind.bind (hR.modBuf (f := fun b => (b.1, b.2.1 - 1, b.2.2))) fun _ => Blind.pure _

theorem ReaderBlind.nextBit : Blind R (nextBit e) := by
  refine Blind.get (fun w w' h => ?_) fun u => ?_
  · obtain ⟨-, hbl, -⟩ := hR.buf h
    rw [hbl]
  · exact Blind.cond (Blind.bind hR.fillByte fun _ => hR.takeBit) hR.takeBit

theorem ReaderBlind.receive (t : Nat) : Blind R (receive e t) := by
  have key : ∀ t acc, Blind R (receiveFrom e t acc) := by
    intro t
    induction t with
    | zero => exact fun acc => Blind.pure acc
    | succ t ih => exact fun acc => Blind.bind hR.nextBit fun b => ih _
  exact key t 0

theorem ReaderBlind.decodeSym (t : HuffTab) : Blind R (decodeSym e t) := by
  have key : ∀ fuel len acc, Blind R (decodeFrom e t fuel len acc) := by
    intro fuel
    induction fuel with
    | zero => exact fun _ _ => hR.raiseInternal
    | succ fuel ih =>
      refine fun len acc => Blind.bind hR.nextBit fun b => ?_
      split
      · exact Blind.pure _
      · exact ih _ _
  exact key 16 1 0

end

/-- The states that an end-of-band run's count sets apart. -/
theorem readerBlind_eobrun (n : Nat) : ReaderBlind fun w w' => w' = withEobrun n w where
  pos h := by rw [h]; rfl
  mw h := by rw [h]; rfl
  buf h := by rw [h]; exact ⟨rfl, rfl, rfl⟩
  setMw h _ := by rw [h]; rfl
  setBuf h _ _ _ _ := by rw [h]; rfl
  warnEnt h := by rw [h]; rfl

end Sys2Proof.Cert
end

section
/-! The AC passes (R212, R213): they change nothing outside their band, pass blocks over in an end-of-band run, and store
what their tokens or marks say. -/
namespace Sys2Proof.Cert
open Sys2Proof.Machine

/-! ### Answers that differ from a block in the band only -/

/-- A computation leaves memory and answers what a condition allows. -/
def Answers {α : Type} (m : DM α) (Q : α → Prop) : Prop := ∀ w x w', m w = .ok x w' → leavesMem w.mw w'.mw ∧ Q x

section
variable {α β : Type} {Q : α → Prop}

theorem Answers.pure {a : α} (h : Q a) : Answers (pure a) Q := fun w x w' hm => by
  cases hm
  exact ⟨closed_leavesMem.refl _, h⟩

theorem Answers.raise : Answers (raiseInternal : DM α) Q := fun w x w' hm => by cases hm

theorem Answers.of_keeps {m : DM α} (h : Keeps OnlyReads m) : Answers m fun _ => True := fun w x w' hm => by
  have hk := (h w).mem
  rw [hm] at hk
  exact ⟨hk, trivial⟩

theorem Answers.modEnt (f : Entropy → Entropy) : Answers (modEnt f) fun _ => True := fun w x w' hm => by
  cases hm
  exact ⟨closed_leavesMem.refl _, trivial⟩

theorem Answers.bind {P : β → Prop} {m : DM α} {f : α → DM β} (hm : Answers m Q) (hf : ∀ x, Q x → Answers (f x) P) :
    Answers (m >>= f) P := fun w y w' h => by
  obtain ⟨x, u, hx, hy⟩ := bind_eq_ok.mp h
  obtain ⟨h1, hQ⟩ := hm _ _ _ hx
  obtain ⟨h2, hP⟩ := hf x hQ _ _ _ hy
  exact ⟨closed_leavesMem.trans _ _ _ h1 h2, hP⟩

theorem Answers.cond {c : Prop} [Decidable c] {m n : DM α} (hm : c → Answers m Q) (hn : ¬c → Answers n Q) :
    Answers (if c then m else n) Q := by
  split
  · exact hm (by assumption)
  · exact hn (by assumption)

/-- After a computation that only reads. -/
theorem Answers.read {m : DM β} {f : β → DM α} (hm : Keeps OnlyReads m) (hf : ∀ x, Answers (f x) Q) :
    Answers (m >>= f) Q := Answers.bind (Answers.of_keeps hm) fun x _ => hf x

end

/-- Two blocks with the same coefficients outside the band. -/
def bandSame (e : Env) (old new : Block) : Prop :=
  ∀ n, n < 64 → (∀ k, e.scn.ss.toNat ≤ k → k ≤ e.scn.se.toNat → n ≠ zz k) → new.at n = old.at n

section
variable {e : Env} {j : Nat} {b b' b'' : Block}

theorem bandSame.refl (b : Block) : bandSame e b b := fun _ _ _ => rfl

theorem bandSame.trans (h : bandSame e b b') (h' : bandSame e b' b'') : bandSame e b b'' := fun n hn ho =>
  (h' n hn ho).trans (h n hn ho)

variable (hse : e.scn.se.toNat ≤ 63)
include hse

theorem bandSame.put {k : Nat} (h1 : e.scn.ss.toNat ≤ k) (h2 : k ≤ e.scn.se.toNat) (v : Half) :
    bandSame e b (b.put (zz k) v) := fun n _ ho => by
  rw [blockAt_put b (zz_lt k (by omega)), if_neg (ho k h1 h2)]

theorem answers_acFirstLoop {fuel k : Nat} (hk : e.scn.ss.toNat ≤ k) : Answers (acFirstLoop e j fuel k b) (bandSame e b) := by
  induction fuel generalizing k b with
  | zero => exact Answers.pure (bandSame.refl b)
  | succ fuel ih =>
    refine Answers.cond (fun _ => Answers.pure (bandSame.refl b)) fun hk2 => ?_
    refine Answers.read (onlyReads_decodeSym _) fun rs => Answers.cond (fun _ => ?_) fun _ => ?_
    · refine Answers.cond (fun _ => Answers.raise) fun hin => Answers.read (onlyReads_receive _) fun v => ?_
      exact fun w x w' h => ⟨(ih (by omega) w x w' h).1,
        (bandSame.put hse (by omega) (by omega) _).trans (ih (by omega) w x w' h).2⟩
    · refine Answers.cond (fun _ => ih (by omega)) fun _ => Answers.read (onlyReads_receive _) fun v => ?_
      exact Answers.bind (Answers.modEnt _) fun _ _ => Answers.pure (bandSame.refl b)

theorem answers_refine {k : Nat} (h1 : e.scn.ss.toNat ≤ k) (h2 : k ≤ e.scn.se.toNat) :
    Answers (refine e b (zz k)) (bandSame e b) :=
  Answers.read (onlyReads_receive _) fun _ => Answers.cond (fun _ => Answers.pure (bandSame.put hse h1 h2 _)) fun _ =>
    Answers.pure (bandSame.refl b)

theorem answers_skipZeros {fuel k r : Nat} (hk : e.scn.ss.toNat ≤ k) :
    Answers (skipZeros e fuel k r b) fun kb => e.scn.ss.toNat ≤ kb.1 ∧ bandSame e b kb.2 := by
  induction fuel generalizing k r b with
  | zero => exact Answers.pure ⟨hk, bandSame.refl b⟩
  | succ fuel ih =>
    refine Answers.cond (fun _ => Answers.pure ⟨hk, bandSame.refl b⟩) fun hk2 => Answers.cond (fun _ => ?_) fun _ => ?_
    · refine Answers.bind (answers_refine hse hk (by omega)) fun b1 h1 => ?_
      intro w x w' h
      obtain ⟨hm, hle, hs⟩ := ih (by omega) w x w' h
      exact ⟨hm, hle, h1.trans hs⟩
    · exact Answers.cond (fun _ => Answers.pure ⟨hk, bandSame.refl b⟩) fun _ => ih (by omega)

theorem answers_acRefineLoop {fuel k : Nat} (hk : e.scn.ss.toNat ≤ k) :
    Answers (acRefineLoop e j fuel k b) fun kb => e.scn.ss.toNat ≤ kb.1 ∧ bandSame e b kb.2 := by
  induction fuel generalizing k b with
  | zero => exact Answers.pure ⟨hk, bandSame.refl b⟩
  | succ fuel ih =>
    refine Answers.cond (fun _ => Answers.pure ⟨hk, bandSame.refl b⟩) fun hk2 => ?_
    have hskip : ∀ r, Answers (skipZeros e 256 k r b) _ := fun r => answers_skipZeros hse hk
    refine Answers.read (onlyReads_decodeSym _) fun rs => Answers.cond (fun _ => ?_) fun _ => Answers.cond (fun _ => ?_) fun _ => ?_
    · have hrest : Answers (receive e 1 >>= fun v => skipZeros e 256 k (hi4 rs).toNat b >>= fun kb =>
          if e.scn.se.toNat < kb.1 then raiseInternal
          else acRefineLoop e j fuel (kb.1 + 1)
            (kb.2.put (zz kb.1) (wrap16 (if v = 1 then 2 ^ e.scn.al.toNat else -(2 ^ e.scn.al.toNat)))))
          fun kb => e.scn.ss.toNat ≤ kb.1 ∧ bandSame e b kb.2 := by
        refine Answers.read (onlyReads_receive _) fun v => Answers.bind (hskip _) fun kb hkb => ?_
        refine Answers.cond (fun _ => Answers.raise) fun hin => fun w x w' h => ?_
        obtain ⟨hm, hle, hs⟩ := ih (by omega) w x w' h
        exact ⟨hm, hle, hkb.2.trans ((bandSame.put hse hkb.1 (by omega) _).trans hs)⟩
      exact Answers.cond (fun _ => Answers.read (onlyReads_modify (fun _ => rfl) fun _ => rfl) fun _ => hrest) fun _ => hrest
    · refine Answers.read (onlyReads_receive _) fun v => ?_
      exact Answers.bind (Answers.modEnt _) fun _ _ => Answers.pure ⟨hk, bandSame.refl b⟩
    · refine Answers.bind (hskip _) fun kb hkb => fun w x w' h => ?_
      obtain ⟨hm, hle, hs⟩ := ih (by omega) w x w' h
      exact ⟨hm, hle, hkb.2.trans hs⟩

theorem answers_refineRest {fuel k : Nat} (hk : e.scn.ss.toNat ≤ k) : Answers (refineRest e fuel k b) (bandSame e b) := by
  induction fuel generalizing k b with
  | zero => exact Answers.pure (bandSame.refl b)
  | succ fuel ih =>
    refine Answers.cond (fun _ => Answers.pure (bandSame.refl b)) fun hk2 => Answers.cond (fun _ => ?_) fun _ => ih (by omega)
    refine Answers.bind (answers_refine hse hk (by omega)) fun b1 h1 => fun w x w' h => ?_
    obtain ⟨hm, hs⟩ := ih (by omega) w x w' h
    exact ⟨hm, h1.trans hs⟩

end

/-! ### The frame of a pass -/

/-- A block that has been read was accessible. -/
theorem blockOk_of_readBlock {p : Params} {b : Buf} {a : Word} {w w' : MemW} {blk : Block} (hn : w.host = .none)
    (h : readBlock p b a w = .ok blk w') : blockOk p a := by
  by_contra hno
  obtain ⟨k, hk, hbad, hok⟩ : ∃ k, k < 128 ∧ ¬okAt p a k ∧ ∀ j, j < k → okAt p a j := by
    simp only [not_forall] at hno
    obtain ⟨k, hk, hbad⟩ := hno
    classical
    have hex : ∃ k, ¬okAt p a k := ⟨k, hbad⟩
    exact ⟨Nat.find hex, lt_of_le_of_lt (Nat.find_min' hex hbad) hk, Nat.find_spec hex,
      fun j hj => not_not.mp (Nat.find_min hex hj)⟩
  obtain ⟨u, hu⟩ := readCoefs_busError (b := b) (k := 64) (n := 0) (by omega) (by omega) Block.zero hok hbad hn
  rw [readBlock, hu] at h
  cases h

section
variable {e : Env} {j : Nat} {a addr : Word} {w w' : DecW}

/-- The bytes outside the band are those of the block's other coefficients. -/
theorem not_inBand {n : Nat} (h : ¬inBand e a addr)
    (haddr : addr = a + BitVec.ofNat 32 (2 * n) ∨ addr = a + BitVec.ofNat 32 (2 * n + 1)) :
    ∀ k, e.scn.ss.toNat ≤ k → k ≤ e.scn.se.toNat → n ≠ zz k := fun k h1 h2 he => by
  subst he
  exact h ⟨k, h1, h2, haddr⟩

/-- A block read, worked on within the band and written back. -/
theorem read_of_acBlock {f : Block → DM Block} (hf : ∀ b, Answers (f b) (bandSame e b)) (hwf : w.mw.mem.wf = true)
    (hn : w.mw.host = .none) (hout : ¬inBand e a addr)
    (h : (liftMem (readBlock e.params .coef a) >>= fun b => f b >>= fun b' => liftMem (writeBlock e.params .coef a b')) w =
      .ok () w') : w'.mw.mem.read addr.toNat = w.mw.mem.read addr.toNat := by
  obtain ⟨old, u, hread, h⟩ := bind_eq_ok.mp h
  obtain ⟨new, v, hx, hwrite⟩ := bind_eq_ok.mp h
  obtain ⟨mw, hmw, rfl⟩ := liftMem_eq_ok.mp hread
  obtain ⟨mw', hmw', rfl⟩ := liftMem_eq_ok.mp hwrite
  have hok := blockOk_of_readBlock hn hmw
  obtain ⟨hstored, hmem⟩ := blockStored_of_readBlock hwf hn hok hmw
  obtain ⟨hleaves, hsame⟩ := hf old _ _ _ hx
  refine (read_of_writeBlock (hstored.of_leavesMem hleaves) hok hmw' fun n hlt haddr =>
    hsame n hlt (not_inBand hout haddr)).trans ?_
  rw [hleaves.1, hmem]

/-- The work of a first pass on a block. -/
def acFirstWork (e : Env) (j : Nat) (b : Block) : DM Block := do
  let w ← get
  if w.ent.eobrun ≠ 0 then do
    modEnt fun s => { s with eobrun := s.eobrun - 1 }
    pure b
  else acFirstLoop e j 256 e.scn.ss.toNat b

theorem acFirstBlock_eq (e : Env) (j : Nat) (a : Word) :
    acFirstBlock e j a =
      liftMem (readBlock e.params .coef a) >>= fun b => acFirstWork e j b >>= fun b' =>
        liftMem (writeBlock e.params .coef a b') := by
  unfold acFirstBlock acFirstWork
  congr 1
  funext b
  rw [bind_assoc]
  congr 1
  funext w
  split
  · rw [bind_assoc]
    rfl
  · rfl

/-- The end of a refinement pass on a block. -/
def refineFinish (e : Env) (kb : Nat × Block) : DM Block := do
  let w ← get
  if w.ent.eobrun = 0 then pure kb.2
  else do
    let b ← refineRest e 256 kb.1 kb.2
    modEnt fun s => { s with eobrun := s.eobrun - 1 }
    pure b

theorem refineEnd_eq (kb : Nat × Block) :
    refineEnd e a kb = refineFinish e kb >>= fun b => liftMem (writeBlock e.params .coef a b) := by
  unfold refineEnd refineFinish
  rw [bind_assoc]
  congr 1
  funext w
  split
  · rfl
  · simp only [bind_assoc, pure_bind]

/-- The work of a refinement pass on a block. -/
def acRefineWork (e : Env) (j : Nat) (b : Block) : DM Block := do
  let w ← get
  let kb ← if w.ent.eobrun = 0 then acRefineLoop e j 256 e.scn.ss.toNat b else pure (e.scn.ss.toNat, b)
  refineFinish e kb

theorem acRefineBlock_eq (e : Env) (j : Nat) (a : Word) :
    acRefineBlock e j a =
      liftMem (readBlock e.params .coef a) >>= fun b => acRefineWork e j b >>= fun b' =>
        liftMem (writeBlock e.params .coef a b') := by
  unfold acRefineBlock acRefineWork
  congr 1
  funext b
  rw [bind_assoc]
  congr 1
  funext w
  dsimp only
  split
  · show (acRefineLoop e j 256 e.scn.ss.toNat b >>= refineEnd e a) = _
    rw [bind_assoc, funext fun kb => refineEnd_eq (e := e) (a := a) kb]
  · show (pure (e.scn.ss.toNat, b) >>= refineEnd e a) = _
    rw [bind_assoc, funext fun kb => refineEnd_eq (e := e) (a := a) kb]

theorem Answers.get {α : Type} {f : DecW → DM α} {Q : α → Prop} (hf : ∀ u, Answers (f u) Q) : Answers (get >>= f) Q :=
  fun w x w' h => hf w w x w' (by rwa [bind_of_ok (get_run w)] at h)

variable (hse : e.scn.se.toNat ≤ 63)
include hse

theorem answers_acFirstWork (b : Block) : Answers (acFirstWork e j b) (bandSame e b) :=
  Answers.get fun _ => Answers.cond
    (fun _ => Answers.bind (Answers.modEnt _) fun _ _ => Answers.pure (bandSame.refl b))
    fun _ => answers_acFirstLoop hse le_rfl

theorem answers_acRefineWork (b : Block) : Answers (acRefineWork e j b) (bandSame e b) := by
  have hfinish : ∀ kb : Nat × Block, e.scn.ss.toNat ≤ kb.1 ∧ bandSame e b kb.2 →
      Answers (refineFinish e kb) (bandSame e b) := fun kb hkb =>
    Answers.get fun _ => Answers.cond (fun _ => Answers.pure hkb.2) fun _ =>
      Answers.bind (answers_refineRest hse hkb.1) fun b' hb' =>
        Answers.bind (Answers.modEnt _) fun _ _ => Answers.pure (hkb.2.trans hb')
  exact Answers.get fun _ => Answers.cond
    (fun _ => Answers.bind (answers_acRefineLoop hse le_rfl) hfinish)
    fun _ => Answers.bind (Answers.pure ⟨le_rfl, bandSame.refl b⟩) hfinish

end

end Sys2Proof.Cert
end

section
/-! The AC passes (R212, R213): end-of-band runs, first passes and refinement passes. -/
namespace Sys2Proof.Cert
open Sys2Proof.Machine

/-! ### A block written back unchanged -/

theorem read_of_unlisted {m : Memory} {a : Nat} (h : ∀ c ∈ m, c.1 ≠ a) : m.read a = 0 := by
  induction m with
  | nil => rfl
  | cons c m ih =>
    show Sparse.read ((c.1, c.2) :: m) a = 0
    rw [Sparse.read_cons, if_neg fun he => h c (by simp) he.symm]
    exact ih fun d hd => h d (by simp [hd])

/-- Memories in canonical form with equal bytes are equal. -/
theorem Memory.ext_of_bytes {m n : Memory} (hm : m.wf = true) (hn : n.wf = true)
    (h : ∀ a : Word, m.read a.toNat = n.read a.toNat) : m = n := by
  refine Memory.ext_of_read hm hn fun a => ?_
  by_cases ha : a < 2 ^ 32
  · have := h (BitVec.ofNat 32 a)
    rwa [BitVec.toNat_ofNat, Nat.mod_eq_of_lt ha] at this
  · rw [read_of_unlisted fun c hc => by have := ((Memory.wf_iff m).mp hm).2 c hc; omega,
      read_of_unlisted fun c hc => by have := ((Memory.wf_iff n).mp hn).2 c hc; omega]

section
variable {e : Env} {j : Nat} {a : Word} {w w' : DecW} {old new : Block} {mw : MemW}

/-- What a pass does, its work on the block done. -/
theorem acBlock_of_work {block : DM Unit} {work : Block → DM Block}
    (hblock : block = liftMem (readBlock e.params .coef a) >>= fun b => work b >>= fun b' =>
      liftMem (writeBlock e.params .coef a b'))
    (hread : readBlock e.params .coef a w.mw = .ok old mw) (hwork : work old { w with mw := mw } = .ok new w') :
    block w = liftMem (writeBlock e.params .coef a new) w' := by
  rw [hblock, bind_of_ok (liftMem_eq_ok.mpr ⟨mw, hread, rfl⟩), bind_of_ok hwork]

theorem acBlock_of_error {block : DM Unit} {work : Block → DM Block} {r : Raise}
    (hblock : block = liftMem (readBlock e.params .coef a) >>= fun b => work b >>= fun b' =>
      liftMem (writeBlock e.params .coef a b'))
    (hread : readBlock e.params .coef a w.mw = .ok old mw) (hwork : work old { w with mw := mw } = .error r w') :
    block w = .error r w' := by
  rw [hblock, bind_of_ok (liftMem_eq_ok.mpr ⟨mw, hread, rfl⟩), bind_of_error hwork]

/-- A pass that leaves the block as it is leaves memory as it is. -/
theorem acBlock_unchanged {block : DM Unit} {work : Block → DM Block} {f : Entropy → Entropy}
    (hblock : block = liftMem (readBlock e.params .coef a) >>= fun b => work b >>= fun b' =>
      liftMem (writeBlock e.params .coef a b'))
    (hwf : w.mw.mem.wf = true) (hn : w.mw.host = .none) (hok : blockOk e.params a)
    (hwork : ∀ old mw, (∀ n, n < 64 → old.at n = coefIn w.mw.mem a n) →
      work old { w with mw := mw } = .ok old { w with mw := mw, ent := f w.ent }) :
    ∃ mw, block w = .ok () { w with ent := f w.ent, mw := mw } ∧ mw.mem = w.mw.mem := by
  obtain ⟨old, mw, hread, hat, -, -⟩ := readBlock_ok (b := .coef) hn hok
  obtain ⟨hstored, hmem⟩ := blockStored_of_readBlock hwf hn hok hread
  obtain ⟨mw', hmw', hnew⟩ := writeBlock_ok (b := .coef) hstored.wf hstored.host hok old
  refine ⟨mw', ?_, Memory.ext_of_bytes hnew.wf hwf fun addr => ?_⟩
  · rw [acBlock_of_work hblock hread (hwork old mw hat)]
    exact liftMem_eq_ok.mpr ⟨mw', hmw', rfl⟩
  · rw [read_of_writeBlock hstored hok hmw' fun _ _ _ => rfl, hmem]

/-- An end-of-band run passes over a band of zeros. -/
theorem refineRest_zeros {fuel k : Nat} {b : Block} (h : ∀ i, k ≤ i → i ≤ e.scn.se.toNat → b.at (zz i) = 0) (u : DecW) :
    refineRest e fuel k b u = .ok b u := by
  induction fuel generalizing k with
  | zero => rfl
  | succ fuel ih =>
    rw [refineRest]
    split
    · rfl
    · rw [if_neg (not_not_intro (h k le_rfl (by omega)))]
      exact ih fun i h1 h2 => h i (by omega) h2

theorem acFirstWork_run {b : Block} (h : w.ent.eobrun ≠ 0) :
    acFirstWork e j b w = .ok b { w with ent := { w.ent with eobrun := w.ent.eobrun - 1 } } := by
  rw [acFirstWork, bind_of_ok (get_run w), if_pos h]
  rfl

theorem acFirstWork_band {b : Block} (h : w.ent.eobrun = 0) :
    acFirstWork e j b w = acFirstLoop e j 256 e.scn.ss.toNat b w := by
  rw [acFirstWork, bind_of_ok (get_run w), if_neg (not_not_intro h)]

theorem refineFinish_done {kb : Nat × Block} (h : w.ent.eobrun = 0) : refineFinish e kb w = .ok kb.2 w := by
  rw [refineFinish, bind_of_ok (get_run w), if_pos h]
  rfl

theorem refineFinish_run {kb : Nat × Block} {b : Block} (h : w.ent.eobrun ≠ 0)
    (hr : refineRest e 256 kb.1 kb.2 w = .ok b w') :
    refineFinish e kb w = .ok b { w' with ent := { w'.ent with eobrun := w'.ent.eobrun - 1 } } := by
  rw [refineFinish, bind_of_ok (get_run w), if_neg h, bind_of_ok hr]
  rfl

theorem acRefineWork_run {b : Block} (h : w.ent.eobrun ≠ 0) :
    acRefineWork e j b w = refineFinish e (e.scn.ss.toNat, b) w := by
  rw [acRefineWork, bind_of_ok (get_run w), if_neg h]
  rfl

theorem acRefineWork_band {b : Block} {kb : Nat × Block} (h : w.ent.eobrun = 0)
    (hr : acRefineLoop e j 256 e.scn.ss.toNat b w = .ok kb w') : acRefineWork e j b w = refineFinish e kb w' := by
  rw [acRefineWork, bind_of_ok (get_run w), if_pos h]
  exact bind_of_ok hr

theorem acRefineWork_error {b : Block} {r : Raise} (h : w.ent.eobrun = 0)
    (hr : acRefineLoop e j 256 e.scn.ss.toNat b w = .error r w') : acRefineWork e j b w = .error r w' := by
  rw [acRefineWork, bind_of_ok (get_run w), if_pos h]
  exact bind_of_error hr

/-! ### First passes -/

theorem acFirstLoop_past {fuel k : Nat} {b : Block} (hk : e.scn.se.toNat < k) (u : DecW) :
    acFirstLoop e j fuel k b u = .ok b u := by
  cases fuel with
  | zero => rfl
  | succ fuel => rw [acFirstLoop, if_pos hk]; rfl

theorem acFirstLoop_symbol {fuel k : Nat} {b : Block} {rs : Byte} {u u1 : DecW} (hk : k ≤ e.scn.se.toNat)
    (hd : decodeSym e (e.acTab j) u = .ok rs u1) :
    acFirstLoop e j (fuel + 1) k b u =
      (if (lo4 rs).toNat ≠ 0 then
        if e.scn.se.toNat < k + (hi4 rs).toNat then raiseInternal
        else receive e (lo4 rs).toNat >>= fun v =>
          acFirstLoop e j fuel (k + (hi4 rs).toNat + 1)
            (b.put (zz (k + (hi4 rs).toNat)) (wrap16 (extend v (lo4 rs).toNat * 2 ^ e.scn.al.toNat)))
      else if (hi4 rs).toNat = 15 then acFirstLoop e j fuel (k + 16) b
      else receive e (hi4 rs).toNat >>= fun v =>
        (modEnt fun s => { s with eobrun := BitVec.ofNat 16 (2 ^ (hi4 rs).toNat + v - 1) }) >>= fun _ => pure b) u1 := by
  rw [acFirstLoop, if_neg (by omega), bind_of_ok hd]

theorem tokenLoop_acFirstLoop : TokenLoop e (e.acTab j) e.scn.se.toNat e.scn.al.toNat (acFirstLoop e j) where
  zrl hk hd h1 h2 := by rw [acFirstLoop_symbol hk hd, if_neg (not_not_intro h2), if_pos h1]
  value hk hd h1 h2 hv := by rw [acFirstLoop_symbol hk hd, if_pos h1, if_neg (by omega), bind_of_ok hv]

end

/-! ### Reading marks -/

section
variable {e : Env} {h : HuffTab} {w w' : DecW}

theorem readsItems_sym_iff {v : Byte} {is : List Item} :
    ReadsItems e h w (.sym v :: is) w' ↔ ∃ u, decodeSym e h w = .ok v u ∧ ReadsItems e h u is w' := by
  constructor
  · intro hr
    cases hr with
    | sym _ u _ _ _ hd hi => exact ⟨u, hd, hi⟩
  · rintro ⟨u, hd, hi⟩
    exact .sym _ _ _ _ _ hd hi

theorem readsItems_bits_iff {n v : Nat} {is : List Item} :
    ReadsItems e h w (.bits n v :: is) w' ↔ ∃ u, receive e n w = .ok v u ∧ ReadsItems e h u is w' := by
  constructor
  · intro hr
    cases hr with
    | bits _ u _ _ _ _ hd hi => exact ⟨u, hd, hi⟩
  · rintro ⟨u, hd, hi⟩
    exact .bits _ _ _ _ _ _ hd hi

theorem readsItems_append {is js : List Item} (hr : ReadsItems e h w (is ++ js) w') :
    ∃ u, ReadsItems e h w is u ∧ ReadsItems e h u js w' := by
  induction is generalizing w with
  | nil => exact ⟨w, .nil w, hr⟩
  | cons i is ih =>
    cases hr with
    | sym _ u _ v _ hd hi =>
      obtain ⟨x, h1, h2⟩ := ih hi
      exact ⟨x, .sym _ _ _ _ _ hd h1, h2⟩
    | bits _ u _ n v _ hd hi =>
      obtain ⟨x, h1, h2⟩ := ih hi
      exact ⟨x, .bits _ _ _ _ _ _ hd h1, h2⟩
    | warn _ _ _ hi =>
      obtain ⟨x, h1, h2⟩ := ih hi
      exact ⟨x, .warn _ _ _ h1, h2⟩

/-- Reading items only reads. -/
theorem onlyReads_readsItems {is : List Item} (hr : ReadsItems e h w is w') : OnlyReads w w' := by
  induction hr with
  | nil w => exact closed_onlyReads.refl w
  | sym w w1 w2 v is hd _ ih =>
    have hk := onlyReads_decodeSym (e := e) h w
    rw [hd] at hk
    exact closed_onlyReads.trans _ _ _ hk ih
  | bits w w1 w2 n v is hd _ ih =>
    have hk := onlyReads_receive (e := e) n w
    rw [hd] at hk
    exact closed_onlyReads.trans _ _ _ hk ih
  | warn w w2 is _ ih =>
    exact closed_onlyReads.trans _ { w with warn := warnedEnt w.warn } _ ⟨closed_leavesMem.refl w.mw, rfl⟩ ih

end

/-- A mark that makes nothing new. -/
def Mark.old (m : Mark) : Prop := ∀ size pos, m ≠ .fresh size pos

/-- A block whose coefficients from zigzag index `lo` on are those that the marks leave. -/
def refinedFrom (lo al : Nat) (ms : List Mark) (old new : Block) : Prop :=
  ∀ n, n < 64 → new.at (zz n) =
    if lo ≤ n ∧ n - lo < ms.length then (ms.getD (n - lo) .zero).value al (old.at (zz n)) else old.at (zz n)

/-- Each mark may stand for its coefficient. -/
def fitsFrom (lo : Nat) (ms : List Mark) (b : Block) : Prop :=
  ∀ i, i < ms.length → (ms.getD i .zero).fits (b.at (zz (lo + i)))

section
variable {lo al : Nat} {ms ms' : List Mark} {b b1 b2 : Block}

theorem refinedFrom_nil (lo al : Nat) (b : Block) : refinedFrom lo al [] b b := fun n _ => by
  rw [if_neg]
  simp

theorem eq_of_refinedFrom (h1 : refinedFrom lo al ms b b1) (h2 : refinedFrom lo al ms b b2) : b1 = b2 := by
  refine block_ext_at fun n hn => ?_
  obtain ⟨k, hk, rfl⟩ := zz_diagonal.2.1 n hn
  rw [h1 k hk, h2 k hk]

theorem refinedFrom_append (h1 : refinedFrom lo al ms b b1) (h2 : refinedFrom (lo + ms.length) al ms' b1 b2) :
    refinedFrom lo al (ms ++ ms') b b2 := by
  intro n hn
  rw [h2 n hn, h1 n hn, List.length_append]
  by_cases hlo : n < lo
  · rw [if_neg (by omega), if_neg (by omega), if_neg (by omega)]
  by_cases hmid : n < lo + ms.length
  · rw [if_neg (by omega), if_pos (by omega), if_pos (by omega), List.getD_append _ _ _ _ (by omega)]
  · rw [if_neg (by omega : ¬(lo ≤ n ∧ n - lo < ms.length)), List.getD_append_right _ _ _ _ (by omega),
      show n - lo - ms.length = n - (lo + ms.length) by omega]
    by_cases hin : n - (lo + ms.length) < ms'.length
    · rw [if_pos (by omega), if_pos (by omega)]
    · rw [if_neg (by omega), if_neg (by omega)]

/-- One coefficient. -/
theorem refinedFrom_one (hlo : lo < 64) {m : Mark} {v : Half} (hv : v = m.value al (b.at (zz lo))) :
    refinedFrom lo al [m] b (b.put (zz lo) v) := by
  intro n hn
  rw [blockAt_put b (zz_lt lo hlo), List.length_singleton]
  by_cases he : n = lo
  · subst he
    rw [if_pos rfl, if_pos (by omega), Nat.sub_self, hv]
    rfl
  · rw [if_neg fun hz => he (zz_inj n hn lo hlo hz), if_neg (by omega)]

/-- A coefficient that its mark leaves. -/
theorem refinedFrom_same {m : Mark} (hv : m.value al (b.at (zz lo)) = b.at (zz lo)) : refinedFrom lo al [m] b b := by
  intro n hn
  split
  · rename_i hc
    rw [List.length_singleton] at hc
    obtain rfl : n = lo := by omega
    rw [Nat.sub_self]
    exact hv.symm
  · rfl

theorem at_of_refinedFrom (h : refinedFrom lo al ms b b1) {n : Nat} (hn : n < 64) (hpast : lo + ms.length ≤ n) :
    b1.at (zz n) = b.at (zz n) := by
  rw [h n hn, if_neg (by omega)]

theorem fitsFrom_append : fitsFrom lo (ms ++ ms') b ↔ fitsFrom lo ms b ∧ fitsFrom (lo + ms.length) ms' b := by
  constructor
  · refine fun h => ⟨fun i hi => ?_, fun i hi => ?_⟩
    · have := h i (by rw [List.length_append]; omega)
      rwa [List.getD_append _ _ _ _ hi] at this
    · have := h (ms.length + i) (by rw [List.length_append]; omega)
      rwa [List.getD_append_right _ _ _ _ (by omega), Nat.add_sub_cancel_left, ← Nat.add_assoc] at this
  · rintro ⟨h1, h2⟩ i hi
    rw [List.length_append] at hi
    by_cases hlt : i < ms.length
    · rw [List.getD_append _ _ _ _ hlt]
      exact h1 i hlt
    · rw [List.getD_append_right _ _ _ _ (by omega)]
      have := h2 (i - ms.length) (by omega)
      rwa [Nat.add_assoc, Nat.add_sub_cancel' (by omega : ms.length ≤ i)] at this

theorem fitsFrom_of_refinedFrom (h : refinedFrom lo al ms b b1) {k : Nat} (hk : lo + ms.length ≤ k)
    (h64 : k + ms'.length ≤ 64) (hf : fitsFrom k ms' b) : fitsFrom k ms' b1 := fun i hi => by
  rw [at_of_refinedFrom h (by omega) (by omega)]
  exact hf i hi

end

theorem corrections_append (ms ms' : List Mark) : corrections (ms ++ ms') = corrections ms ++ corrections ms' :=
  List.filterMap_append

theorem length_corrections_le (ms : List Mark) : (corrections ms).length ≤ ms.length := List.length_filterMap_le _ _

theorem zerosOf_append_zero (ms : List Mark) : zerosOf (ms ++ [.zero]) = zerosOf ms + 1 := by
  have := length_corrections_le ms
  rw [zerosOf, zerosOf, corrections_append, List.length_append, List.length_append]
  show ms.length + 1 - ((corrections ms).length + 0) = _
  omega

theorem zerosOf_append_corr (ms : List Mark) (b : Bool) : zerosOf (ms ++ [.corr b]) = zerosOf ms := by
  rw [zerosOf, zerosOf, corrections_append, List.length_append, List.length_append]
  show ms.length + 1 - ((corrections ms).length + 1) = _
  omega

/-! ### Passing marks that make nothing new -/

section
variable {e : Env} {h : HuffTab} (hse : e.scn.se.toNat ≤ 63) (hal : e.scn.al.toNat ≤ 13)

include hal in
/-- A correction bit. -/
theorem refine_corr {b : Block} {k : Nat} {w u : DecW} {bit : Bool} (hk : k < 64)
    (hr : receive e 1 w = .ok bit.toNat u) :
    ∃ b', refine e b (zz k) w = .ok b' u ∧ refinedFrom k e.scn.al.toNat [.corr bit] b b' := by
  have hmask : (b.at (zz k) &&& BitVec.ofNat 16 (2 ^ e.scn.al.toNat) = 0) ↔ (b.at (zz k)).getLsbD e.scn.al.toNat = false := by
    have hpow : BitVec.ofNat 16 (2 ^ e.scn.al.toNat) = BitVec.twoPow 16 e.scn.al.toNat :=
      BitVec.eq_of_toNat_eq (by rw [BitVec.toNat_ofNat, BitVec.toNat_twoPow])
    have hne : BitVec.twoPow 16 e.scn.al.toNat ≠ 0#16 := by
      rw [← hpow, ← BitVec.toNat_inj.ne, BitVec.toNat_ofNat,
        Nat.mod_eq_of_lt (Nat.pow_lt_pow_right (by omega) (by omega))]
      exact (Nat.two_pow_pos _).ne'
    rw [hpow, BitVec.and_twoPow]
    cases (b.at (zz k)).getLsbD e.scn.al.toNat <;> simp [hne]
  rw [Machine.refine, bind_of_ok hr]
  by_cases hc : bit = true ∧ (b.at (zz k)).getLsbD e.scn.al.toNat = false
  · refine ⟨_, ?_, refinedFrom_one hk rfl⟩
    rw [if_pos ⟨by rw [hc.1]; rfl, hmask.mpr hc.2⟩]
    simp only [Mark.value, if_pos hc]
    rfl
  · refine ⟨b, ?_, refinedFrom_same (by rw [Mark.value, if_neg hc])⟩
    rw [if_neg fun hv => hc ⟨?_, hmask.mp hv.2⟩]
    · rfl
    · cases bit
      · exact absurd hv.1 (by decide)
      · rfl

include hse hal in
/-- The inner loop passes marks that make nothing new, as many zeros as it may. -/
theorem skipZeros_old {ms : List Mark} (hms : ∀ m ∈ ms, m.old) {k r fuel : Nat} {b : Block} {w w' : DecW}
    (hr : zerosOf ms ≤ r) (hk : k + ms.length ≤ e.scn.se.toNat + 1) (hf : fitsFrom k ms b)
    (hread : ReadsItems e h w (corrItems (corrections ms)) w') :
    ∃ b', skipZeros e (ms.length + fuel) k r b w = skipZeros e fuel (k + ms.length) (r - zerosOf ms) b' w' ∧
      refinedFrom k e.scn.al.toNat ms b b' := by
  induction ms generalizing k r b w with
  | nil =>
    cases hread
    exact ⟨b, by simp [zerosOf], refinedFrom_nil _ _ _⟩
  | cons m ms ih =>
    have hms' : ∀ m ∈ ms, m.old := fun x hx => hms x (by simp [hx])
    have hlen := length_corrections_le ms
    rw [List.length_cons] at hk ⊢
    obtain ⟨hf1, hf2⟩ := fitsFrom_append (ms := [m]).mp hf
    have hfit := hf1 0 (by simp)
    rw [Nat.add_zero] at hfit
    rw [Nat.add_right_comm]
    cases m with
    | zero =>
      have hz : zerosOf (.zero :: ms) = zerosOf ms + 1 := by
        show ms.length + 1 - (corrections ms).length = _
        rw [zerosOf]
        omega
      have hzero : b.at (zz k) = 0 := hfit
      rw [hz] at hr ⊢
      obtain ⟨b', he, href⟩ := ih hms' (k := k + 1) (r := r - 1) (b := b) (by omega) (by omega) hf2 hread
      refine ⟨b', ?_, refinedFrom_append (ms := [.zero]) (refinedFrom_same rfl) href⟩
      rw [skipZeros, if_neg (by omega), if_neg (not_not_intro hzero), if_neg (by omega), he,
        show k + 1 + ms.length = k + (ms.length + 1) by omega, show r - 1 - zerosOf ms = r - (zerosOf ms + 1) by omega]
    | corr bit =>
      have hz : zerosOf (.corr bit :: ms) = zerosOf ms := by
        show ms.length + 1 - ((corrections ms).length + 1) = _
        rw [zerosOf]
        omega
      have hcoef : b.at (zz k) ≠ 0 := hfit
      rw [hz] at hr ⊢
      obtain ⟨u, hu, hrest⟩ := readsItems_bits_iff.mp hread
      obtain ⟨b1, hb1, href1⟩ := refine_corr hal (b := b) (by omega : k < 64) hu
      obtain ⟨b', he, href⟩ := ih hms' (k := k + 1) (r := r) (b := b1) (by omega) (by omega)
        (fitsFrom_of_refinedFrom href1 (by simp) (by omega) hf2) hrest
      refine ⟨b', ?_, refinedFrom_append (ms := [.corr bit]) href1 href⟩
      rw [skipZeros, if_neg (by omega), if_pos hcoef, bind_of_ok hb1, he, show k + 1 + ms.length = k + (ms.length + 1) by omega]
    | fresh size pos => exact absurd rfl (hms _ (by simp) size pos)

end

end Sys2Proof.Cert
end

section
/-! The AC passes (R212, R213): the marks of a refinement pass, and the obligation. -/
namespace Sys2Proof.Cert
open Sys2Proof.Machine

section
variable {e : Env} {j : Nat}

/-! ### The steps of a refinement pass -/

theorem skipZeros_past {fuel k r : Nat} {b : Block} (hk : e.scn.se.toNat < k) (w : DecW) :
    skipZeros e fuel k r b w = .ok (k, b) w := by
  cases fuel with
  | zero => rfl
  | succ fuel => rw [skipZeros, if_pos hk]; rfl

theorem skipZeros_stop {fuel k : Nat} {b : Block} (hk : k ≤ e.scn.se.toNat) (h0 : b.at (zz k) = 0) (w : DecW) :
    skipZeros e (fuel + 1) k 0 b w = .ok (k, b) w := by
  rw [skipZeros, if_neg (by omega), if_neg (not_not_intro h0), if_pos rfl]
  rfl

theorem acRefineLoop_past {fuel k : Nat} {b : Block} (hk : e.scn.se.toNat < k) (w : DecW) :
    acRefineLoop e j fuel k b w = .ok (k, b) w := by
  cases fuel with
  | zero => rfl
  | succ fuel => rw [acRefineLoop, if_pos hk]; rfl

theorem warnEnt_run (w : DecW) : warnEnt w = .ok () { w with warn := warnedEnt w.warn } := by
  rw [← warnEnt_eq_warnedEnt]
  rfl

/-- After a new coefficient's symbol, its warning and its sign, the loop passes the zeros before it. -/
theorem acRefineLoop_fresh {fuel k run size v : Nat} {b : Block} {is : List Item} {w w' : DecW}
    (hk : k ≤ e.scn.se.toNat) (hrun : run ≤ 15) (h1 : 1 ≤ size) (h15 : size ≤ 15)
    (hread : ReadsItems e (e.acTab j) w (.sym (nibbles run size) :: sizeItems size ++ .bits 1 v :: is) w') :
    ∃ u, ReadsItems e (e.acTab j) u is w' ∧ acRefineLoop e j (fuel + 1) k b w =
      (skipZeros e 256 k run b >>= fun kb =>
        if e.scn.se.toNat < kb.1 then raiseInternal
        else acRefineLoop e j fuel (kb.1 + 1)
          (kb.2.put (zz kb.1) (wrap16 (if v = 1 then 2 ^ e.scn.al.toNat else -(2 ^ e.scn.al.toNat))))) u := by
  obtain ⟨w1, hd, hread⟩ := readsItems_sym_iff.mp hread
  have hhi := toNat_hi4_nibbles (show run < 16 by omega) (show size < 16 by omega)
  have hlo := toNat_lo4_nibbles (show run < 16 by omega) (show size < 16 by omega)
  have hwarn : ∃ w2, (if size ≠ 1 then warnEnt else pure () : DM Unit) w1 = .ok () w2 ∧
      ReadsItems e (e.acTab j) w2 (.bits 1 v :: is) w' := by
    unfold sizeItems at hread
    by_cases hs : size = 1
    · rw [if_pos hs] at hread
      exact ⟨w1, by rw [if_neg (not_not_intro hs)]; rfl, hread⟩
    · rw [if_neg hs] at hread
      cases hread with
      | warn _ _ _ hr => exact ⟨_, by rw [if_pos hs]; exact warnEnt_run w1, hr⟩
  obtain ⟨w2, hw2, hread⟩ := hwarn
  obtain ⟨w3, hv, hread⟩ := readsItems_bits_iff.mp hread
  refine ⟨w3, hread, ?_⟩
  rw [acRefineLoop, if_neg (by omega), bind_of_ok hd]
  simp only [hhi, hlo]
  rw [if_pos (by omega)]
  by_cases hs : size = 1
  · rw [if_neg (not_not_intro hs)] at hw2 ⊢
    cases hw2
    exact bind_of_ok hv
  · rw [if_pos hs] at hw2 ⊢
    exact (bind_of_ok hw2).trans (bind_of_ok hv)

/-- After ZRL the loop passes fifteen zeros and stops at the sixteenth. -/
theorem acRefineLoop_zrl {fuel k : Nat} {b : Block} {is : List Item} {w w' : DecW} (hk : k ≤ e.scn.se.toNat)
    (hread : ReadsItems e (e.acTab j) w (.sym 0xF0#8 :: is) w') :
    ∃ u, ReadsItems e (e.acTab j) u is w' ∧ acRefineLoop e j (fuel + 1) k b w =
      (skipZeros e 256 k 15 b >>= fun kb => acRefineLoop e j fuel (kb.1 + 1) kb.2) u := by
  obtain ⟨w1, hd, hread⟩ := readsItems_sym_iff.mp hread
  refine ⟨w1, hread, ?_⟩
  rw [acRefineLoop, if_neg (by omega), bind_of_ok hd]
  rfl

/-- EOBr begins an end-of-band run. -/
theorem acRefineLoop_eob {fuel k r v : Nat} {b : Block} {w w1 w2 : DecW} (hk : k ≤ e.scn.se.toNat) (hr : r ≤ 14)
    (hd : decodeSym e (e.acTab j) w = .ok (nibbles r 0) w1) (hv : receive e r w1 = .ok v w2) :
    acRefineLoop e j (fuel + 1) k b w = .ok (k, b) (withEobrun (2 ^ r + v) w2) := by
  have hhi := toNat_hi4_nibbles (show r < 16 by omega) (show 0 < 16 by omega)
  have hlo := toNat_lo4_nibbles (show r < 16 by omega) (show 0 < 16 by omega)
  rw [acRefineLoop, if_neg (by omega), bind_of_ok hd]
  simp only [hhi, hlo]
  rw [if_neg (by omega), if_pos (by omega), bind_of_ok hv]
  rfl

/-! ### The marks of a band -/

variable (hse : e.scn.se.toNat ≤ 63) (hal : e.scn.al.toNat ≤ 13)
include hse hal

/-- Passing marks that make nothing new, up to a zero that stops the loop. -/
theorem skipZeros_to_zero {ms : List Mark} (hms : ∀ m ∈ ms, m.old) {k : Nat} {b : Block} {w w' : DecW}
    (hk : k + ms.length ≤ e.scn.se.toNat) (hf : fitsFrom k ms b) (h0 : b.at (zz (k + ms.length)) = 0)
    (hread : ReadsItems e (e.acTab j) w (corrItems (corrections ms)) w') :
    ∃ b', skipZeros e 256 k (zerosOf ms) b w = .ok (k + ms.length, b') w' ∧ refinedFrom k e.scn.al.toNat ms b b' := by
  obtain ⟨b', he, href⟩ := skipZeros_old hse hal hms (fuel := 255 - ms.length + 1) (r := zerosOf ms) le_rfl (by omega) hf hread
  refine ⟨b', ?_, href⟩
  rw [show 256 = ms.length + (255 - ms.length + 1) by omega, he, Nat.sub_self, skipZeros_stop hk]
  rw [at_of_refinedFrom href (by omega) le_rfl]
  exact h0

/-- Passing the rest of the band, where nothing new is in it. -/
theorem skipZeros_rest {ms : List Mark} (hms : ∀ m ∈ ms, m.old) {k r : Nat} {b : Block} {w w' : DecW}
    (hr : zerosOf ms ≤ r) (hk : k + ms.length = e.scn.se.toNat + 1) (hf : fitsFrom k ms b)
    (hread : ReadsItems e (e.acTab j) w (corrItems (corrections ms)) w') :
    ∃ b', skipZeros e 256 k r b w = .ok (k + ms.length, b') w' ∧ refinedFrom k e.scn.al.toNat ms b b' := by
  obtain ⟨b', he, href⟩ := skipZeros_old hse hal hms (fuel := 256 - ms.length) hr (by omega) hf hread
  refine ⟨b', ?_, href⟩
  rw [show 256 = ms.length + (256 - ms.length) by omega, he, skipZeros_past (by omega)]

/-- Corrections in an end-of-band run. -/
theorem refineRest_marks {ms : List Mark} (hms : ∀ m ∈ ms, m.old) {k fuel : Nat} {b : Block} {w w' : DecW}
    (hfuel : ms.length < fuel) (hk : k + ms.length = e.scn.se.toNat + 1) (hf : fitsFrom k ms b)
    (hread : ReadsItems e (e.acTab j) w (corrItems (corrections ms)) w') :
    ∃ b', refineRest e fuel k b w = .ok b' w' ∧ refinedFrom k e.scn.al.toNat ms b b' := by
  induction ms generalizing k b w fuel with
  | nil =>
    cases hread
    obtain ⟨f, rfl⟩ : ∃ f, fuel = f + 1 := ⟨fuel - 1, by simp at hfuel; omega⟩
    refine ⟨b, ?_, refinedFrom_nil _ _ _⟩
    rw [refineRest, if_pos (by simp at hk; omega)]
    rfl
  | cons m ms ih =>
    have hms' : ∀ m ∈ ms, m.old := fun x hx => hms x (by simp [hx])
    rw [List.length_cons] at hk hfuel
    obtain ⟨f, rfl⟩ : ∃ f, fuel = f + 1 := ⟨fuel - 1, by omega⟩
    obtain ⟨hf1, hf2⟩ := fitsFrom_append (ms := [m]).mp hf
    have hfit := hf1 0 (by simp)
    rw [Nat.add_zero] at hfit
    rw [refineRest, if_neg (by omega)]
    cases m with
    | zero =>
      have hzero : b.at (zz k) = 0 := hfit
      obtain ⟨b', he, href⟩ := ih hms' (k := k + 1) (fuel := f) (by omega) (by omega) hf2 hread
      exact ⟨b', by rw [if_neg (not_not_intro hzero), he], refinedFrom_append (ms := [.zero]) (refinedFrom_same rfl) href⟩
    | corr bit =>
      have hcoef : b.at (zz k) ≠ 0 := hfit
      obtain ⟨u, hu, hrest⟩ := readsItems_bits_iff.mp hread
      obtain ⟨b1, hb1, href1⟩ := refine_corr hal (b := b) (by omega : k < 64) hu
      obtain ⟨b', he, href⟩ := ih hms' (k := k + 1) (fuel := f) (by omega) (by omega)
        (fitsFrom_of_refinedFrom href1 (by simp) (by omega) hf2) hrest
      exact ⟨b', by rw [if_pos hcoef, bind_of_ok hb1, he], refinedFrom_append (ms := [.corr bit]) href1 href⟩
    | fresh size pos => exact absurd rfl (hms _ (by simp) size pos)

/-- Marks that end with a new coefficient or a sixteenth zero, marks `ps` that make nothing new already passed. -/
theorem acRefineLoop_marks {ms ps : List Mark} (hps : ∀ m ∈ ps, m.old) (h15 : zerosOf ps ≤ 15) {k fuel : Nat} {b : Block}
    {w w' : DecW} {is : List Item} (hk : k + ps.length + ms.length ≤ e.scn.se.toNat + 1)
    (hfuel : e.scn.se.toNat + 2 ≤ fuel + k) (hf : fitsFrom k (ps ++ ms) b)
    (his : refineItems (zerosOf ps) (corrections ps) ms = some is) (hread : ReadsItems e (e.acTab j) w is w') :
    ∃ fuel' b', acRefineLoop e j fuel k b w = acRefineLoop e j fuel' (k + ps.length + ms.length) b' w' ∧
      e.scn.se.toNat + 2 ≤ fuel' + (k + ps.length + ms.length) ∧ refinedFrom k e.scn.al.toNat (ps ++ ms) b b' := by
  induction ms generalizing ps k fuel b w is with
  | nil =>
    rw [refineItems] at his
    split at his
    · rename_i hc
      cases his
      cases hread
      have hlen := length_corrections_le ps
      have hps0 : ps = [] := List.eq_nil_of_length_eq_zero (by
        have := hc.1
        rw [zerosOf, hc.2] at this
        simpa using this)
      subst hps0
      exact ⟨fuel, b, rfl, hfuel, refinedFrom_nil _ _ _⟩
    · cases his
  | cons m ms ih =>
    rw [List.length_cons] at hk ⊢
    obtain ⟨hfp, hfm⟩ := fitsFrom_append.mp hf
    have hfit := hfm 0 (by simp)
    rw [Nat.add_zero] at hfit
    obtain ⟨-, hfrest⟩ := fitsFrom_append (ms := [m]).mp hfm
    have hone : k + ps.length + 1 + ms.length = k + ps.length + (ms.length + 1) := by omega
    have more : m.old → zerosOf (ps ++ [m]) ≤ 15 →
        refineItems (zerosOf (ps ++ [m])) (corrections (ps ++ [m])) ms = some is → ∃ fuel' b',
          acRefineLoop e j fuel k b w = acRefineLoop e j fuel' (k + ps.length + (ms.length + 1)) b' w' ∧
          e.scn.se.toNat + 2 ≤ fuel' + (k + ps.length + (ms.length + 1)) ∧
          refinedFrom k e.scn.al.toNat (ps ++ m :: ms) b b' := by
      intro hold hz hi
      obtain ⟨fuel', b', he, hf', href⟩ := ih (ps := ps ++ [m])
        (fun x hx => (List.mem_append.mp hx).elim (hps x) fun hx => by rw [List.mem_singleton.mp hx]; exact hold)
        hz (by rw [List.length_append, List.length_singleton]; omega) hfuel (by rwa [List.append_assoc]) hi hread
      have hlen : k + (ps ++ [m]).length + ms.length = k + ps.length + (ms.length + 1) := by
        rw [List.length_append, List.length_singleton]
        omega
      rw [hlen] at he hf'
      exact ⟨fuel', b', he, hf', by rwa [List.append_assoc] at href⟩
    have after : ∀ {fuel2 : Nat} {b1 b2 : Block} {u : DecW} {is2 : List Item}, refinedFrom k e.scn.al.toNat ps b b1 →
        refinedFrom (k + ps.length) e.scn.al.toNat [m] b1 b2 → acRefineLoop e j fuel k b w =
          acRefineLoop e j fuel2 (k + ps.length + 1) b2 u → e.scn.se.toNat + 2 ≤ fuel2 + (k + ps.length + 1) →
        refineItems 0 [] ms = some is2 → ReadsItems e (e.acTab j) u is2 w' → ∃ fuel' b',
          acRefineLoop e j fuel k b w = acRefineLoop e j fuel' (k + ps.length + (ms.length + 1)) b' w' ∧
          e.scn.se.toNat + 2 ≤ fuel' + (k + ps.length + (ms.length + 1)) ∧
          refinedFrom k e.scn.al.toNat (ps ++ m :: ms) b b' := by
      intro fuel2 b1 b2 u is2 href1 href2 hloop hf2 hi hr
      have href := refinedFrom_append href1 href2
      obtain ⟨fuel', b', he, hf', href'⟩ := ih (ps := []) (by simp) (by simp [zerosOf]) (k := k + ps.length + 1) (b := b2)
        (by simp; omega) hf2
        (fitsFrom_of_refinedFrom href (by simp; omega) (by simp; omega) hfrest) hi hr
      rw [List.length_nil, Nat.add_zero, hone] at he hf'
      refine ⟨fuel', b', hloop.trans he, hf', ?_⟩
      have hall := refinedFrom_append href (by rw [List.length_append, List.length_singleton, ← Nat.add_assoc]; exact href')
      simpa using hall
    obtain ⟨f, rfl⟩ : ∃ f, fuel = f + 1 := ⟨fuel - 1, by omega⟩
    cases m with
    | corr bit =>
      rw [refineItems] at his
      refine more (fun _ _ => nofun) (by rwa [zerosOf_append_corr]) ?_
      rw [zerosOf_append_corr, corrections_append]
      exact his
    | zero =>
      have hzero : b.at (zz (k + ps.length)) = 0 := hfit
      rw [refineItems] at his
      split at his
      · rename_i h15'
        obtain ⟨is2, hi2, rfl⟩ := Option.map_eq_some_iff.mp his
        obtain ⟨u, hu, hrest⟩ := readsItems_append (is := .sym 0xF0#8 :: corrItems (corrections ps)) hread
        obtain ⟨w1, hcorr, hloop⟩ := acRefineLoop_zrl (fuel := f) (b := b) (by omega : k ≤ e.scn.se.toNat) hu
        obtain ⟨b1, hskip, href1⟩ := skipZeros_to_zero hse hal hps (by omega) hfp hzero hcorr
        rw [h15'] at hskip
        exact after (fuel2 := f) href1 (refinedFrom_same rfl) (hloop.trans (bind_of_ok hskip)) (by omega) hi2 hrest
      · refine more (fun _ _ => nofun) (by rw [zerosOf_append_zero]; omega) ?_
        rw [zerosOf_append_zero, corrections_append]
        simpa [corrections] using his
    | fresh size pos =>
      obtain ⟨hzero, hs1, hs15⟩ : b.at (zz (k + ps.length)) = 0 ∧ 1 ≤ size ∧ size ≤ 15 := hfit
      rw [refineItems] at his
      obtain ⟨is2, hi2, rfl⟩ := Option.map_eq_some_iff.mp his
      obtain ⟨u, hu, hrest⟩ := readsItems_append
        (is := .sym (nibbles (zerosOf ps) size) :: sizeItems size ++ .bits 1 pos.toNat :: corrItems (corrections ps))
        (js := is2) (by simpa using hread)
      obtain ⟨w1, hcorr, hloop⟩ := acRefineLoop_fresh (fuel := f) (b := b) (by omega : k ≤ e.scn.se.toNat) h15 hs1 hs15 hu
      obtain ⟨b1, hskip, href1⟩ := skipZeros_to_zero hse hal hps (by omega) hfp hzero hcorr
      rw [bind_of_ok hskip, if_neg (by omega)] at hloop
      refine after (fuel2 := f) href1 (refinedFrom_one (by omega) ?_) hloop (by omega) hi2 hrest
      cases pos <;> rfl

end

end Sys2Proof.Cert
end

section
/-! The AC passes (R212, R213): the obligation. -/
namespace Sys2Proof.Cert
open Sys2Proof.Machine

section
variable {e : Env} {j : Nat} {a : Word} {w w1 : DecW} {old new : Block} {mw : MemW}

/-- What is read does not depend on the end-of-band run. -/
theorem readsItems_withEobrun {h : HuffTab} {is : List Item} {w w' : DecW} (hr : ReadsItems e h w is w') (n : Nat) :
    ReadsItems e h (withEobrun n w) is (withEobrun n w') := by
  induction hr with
  | nil w => exact .nil _
  | sym w w1 w2 v is hd _ ih =>
    obtain ⟨u, hu, rfl⟩ := ((readerBlind_eobrun n).decodeSym h).ok rfl hd
    exact .sym _ _ _ _ _ hu ih
  | bits w w1 w2 m v is hd _ ih =>
    obtain ⟨u, hu, rfl⟩ := ((readerBlind_eobrun n).receive m).ok rfl hd
    exact .bits _ _ _ _ _ _ hu ih
  | warn w w2 is _ ih => exact .warn _ _ _ ih

/-- One block of an end-of-band run. -/
theorem eobrun_down {n : Nat} (h0 : 0 < n) (w : DecW) :
    { withEobrun n w with ent := { (withEobrun n w).ent with eobrun := (withEobrun n w).ent.eobrun - 1 } } =
      withEobrun (n - 1) w := by
  have hsub : BitVec.ofNat 16 n - 1 = BitVec.ofNat 16 (n - 1) := by
    obtain ⟨m, rfl⟩ : ∃ m, n = m + 1 := ⟨n - 1, by omega⟩
    rw [Nat.add_sub_cancel, BitVec.ofNat_add]
    exact BitVec.add_sub_cancel _ _
  simp only [withEobrun, hsub]

theorem withEobrun_self (w : DecW) : withEobrun w.ent.eobrun.toNat w = w := by
  rw [withEobrun, BitVec.ofNat_toNat, BitVec.setWidth_eq]

/-- The values of a first pass, and its ends. -/
theorem acFirst_tokens (hse : e.scn.se.toNat ≤ 63) (hread : readBlock e.params .coef a w.mw = .ok old mw) {cs : List Int}
    (h0 : w.ent.eobrun = 0) (hlen : e.scn.ss.toNat + cs.length ≤ e.scn.se.toNat + 1) (hlast : cs.getLast? ≠ some 0)
    (hcs : ∀ c ∈ cs, c.natAbs ≤ 32767) (hr : ReadsTokens e (e.acTab j) { w with mw := mw } (tokensOf 0 cs) w1)
    (hfill : bandFilled e cs old new) :
    (e.scn.ss.toNat + cs.length = e.scn.se.toNat + 1 →
      acFirstBlock e j a w = liftMem (writeBlock e.params .coef a new) w1) ∧
    (e.scn.ss.toNat + cs.length ≤ e.scn.se.toNat → ∀ rs w2, decodeSym e (e.acTab j) w1 = .ok rs w2 →
      (∀ v w3, rs.toNat % 16 = 0 → rs.toNat / 16 < 15 → receive e (rs.toNat / 16) w2 = .ok v w3 →
        acFirstBlock e j a w =
          liftMem (writeBlock e.params .coef a new) (withEobrun (2 ^ (rs.toNat / 16) + v - 1) w3)) ∧
      (rs = 0xF0#8 → e.scn.se.toNat < e.scn.ss.toNat + cs.length + 16 →
        acFirstBlock e j a w = liftMem (writeBlock e.params .coef a new) w2) ∧
      (rs.toNat % 16 ≠ 0 → e.scn.se.toNat < e.scn.ss.toNat + cs.length + rs.toNat / 16 →
        acFirstBlock e j a w = .error ⟨.internalError, w2.pos⟩ w2)) := by
  obtain ⟨fuel, b', hrun, hfuel, hfill'⟩ := tokenLoop_acFirstLoop.runTokens hse (run := 0) (fuel := 256)
    (k := e.scn.ss.toNat) (b := old) (fun _ => rfl) hlast hcs (by omega) (by omega) hr
  obtain rfl : b' = new := eq_of_filled hfill' hfill
  rw [Nat.add_zero] at hrun hfuel
  have hband : acFirstWork e j old { w with mw := mw } = _ := (acFirstWork_band (w := { w with mw := mw }) h0).trans hrun
  have hstores : ∀ u, acFirstLoop e j fuel (e.scn.ss.toNat + cs.length) b' w1 = .ok b' u →
      acFirstBlock e j a w = liftMem (writeBlock e.params .coef a b') u := fun u hu =>
    acBlock_of_work (acFirstBlock_eq e j a) hread (hband.trans hu)
  refine ⟨fun hend => hstores _ (acFirstLoop_past (by omega) _), fun hin rs w2 hd => ?_⟩
  obtain ⟨f, rfl⟩ : ∃ f, fuel = f + 1 := ⟨fuel - 1, by omega⟩
  have hstep := acFirstLoop_symbol (fuel := f) (b := b') hin hd
  rw [toNat_hi4, toNat_lo4] at hstep
  refine ⟨fun v w3 h1 h2 hv => hstores _ ?_, fun h1 h2 => hstores _ ?_, fun h1 h2 => ?_⟩
  · rw [hstep, if_neg (not_not_intro h1), if_neg (by omega), bind_of_ok hv]
    rfl
  · subst h1
    rw [hstep, if_neg (by decide), if_pos (by decide), acFirstLoop_past (by omega)]
  · refine acBlock_of_error (acFirstBlock_eq e j a) hread (hband.trans (hstep.trans ?_))
    rw [if_pos h1, if_pos h2]
    rfl

/-- The marks of a refinement pass outside an end-of-band run, and its ends. -/
theorem acRefine_marks (hse : e.scn.se.toNat ≤ 63) (hal : e.scn.al.toNat ≤ 13)
    (hread : readBlock e.params .coef a w.mw = .ok old mw) {ms rest : List Mark} {is : List Item}
    (hlen : e.scn.ss.toNat + (ms ++ rest).length = e.scn.se.toNat + 1) (hfit : fitsFrom e.scn.ss.toNat (ms ++ rest) old)
    (hrest : ∀ m ∈ rest, m.old) (hnew : bandRefined e (ms ++ rest) old new) (h0 : w.ent.eobrun = 0)
    (his : refineItems 0 [] ms = some is) (hr : ReadsItems e (e.acTab j) { w with mw := mw } is w1) :
    (rest = [] → acRefineBlock e j a w = liftMem (writeBlock e.params .coef a new) w1) ∧
    (rest ≠ [] →
      (∀ r v w2, r ≤ 14 →
        ReadsItems e (e.acTab j) w1 (.sym (nibbles r 0) :: .bits r v :: corrItems (corrections rest)) w2 →
        acRefineBlock e j a w = liftMem (writeBlock e.params .coef a new) (withEobrun (2 ^ r + v - 1) w2)) ∧
      (∀ w2, zerosOf rest ≤ 15 → ReadsItems e (e.acTab j) w1 (.sym 0xF0#8 :: corrItems (corrections rest)) w2 →
        acRefineBlock e j a w = liftMem (writeBlock e.params .coef a new) w2) ∧
      ∀ run size b w2, run ≤ 15 → 1 ≤ size → size ≤ 15 → zerosOf rest ≤ run →
        ReadsItems e (e.acTab j) w1
          (.sym (nibbles run size) :: sizeItems size ++ .bits 1 b :: corrItems (corrections rest)) w2 →
        acRefineBlock e j a w = .error ⟨.internalError, w2.pos⟩ w2) := by
  rw [List.length_append] at hlen
  obtain ⟨hfit1, hfit2⟩ := fitsFrom_append.mp hfit
  obtain ⟨fuel, b1, hrun, hfuel, href1⟩ := acRefineLoop_marks hse hal (ps := []) (by simp) (by simp [zerosOf])
    (k := e.scn.ss.toNat) (fuel := 256) (b := old) (by simp; omega) (by omega) hfit1 his hr
  rw [List.length_nil, Nat.add_zero] at hrun hfuel
  have hnow : ∀ {is' : List Item} {u : DecW}, ReadsItems e (e.acTab j) w1 is' u → u.ent.eobrun = 0 := fun hu =>
    ((onlyReads_readsItems hu).eobrun.trans (onlyReads_readsItems hr).eobrun).trans h0
  have hstores : ∀ {kb u u'}, acRefineLoop e j fuel (e.scn.ss.toNat + ms.length) b1 w1 = .ok kb u →
      refineFinish e kb u = .ok new u' → acRefineBlock e j a w = liftMem (writeBlock e.params .coef a new) u' := fun hl hf =>
    acBlock_of_work (acRefineBlock_eq e j a) hread
      ((acRefineWork_band (w := { w with mw := mw }) h0 (hrun.trans hl)).trans hf)
  refine ⟨fun hnil => ?_, fun hne => ?_⟩
  · subst hnil
    rw [List.append_nil] at hnew
    obtain rfl : b1 = new := eq_of_refinedFrom href1 hnew
    exact hstores (acRefineLoop_past (by simp at hlen; omega) _) (refineFinish_done (hnow (.nil _)))
  · have hpos : 0 < rest.length := List.length_pos_iff.mpr hne
    have hfit' : fitsFrom (e.scn.ss.toNat + ms.length) rest b1 :=
      fitsFrom_of_refinedFrom href1 (by simp) (by omega) hfit2
    have heq : ∀ {b2}, refinedFrom (e.scn.ss.toNat + ms.length) e.scn.al.toNat rest b1 b2 → b2 = new := fun h2 =>
      eq_of_refinedFrom (refinedFrom_append href1 h2) hnew
    have hk : e.scn.ss.toNat + ms.length ≤ e.scn.se.toNat := by omega
    obtain ⟨f, rfl⟩ : ∃ f, fuel = f + 1 := ⟨fuel - 1, by omega⟩
    refine ⟨fun r v w2 h14 hread2 => ?_, fun w2 hz hread2 => ?_, fun run size b w2 hrun15 hs1 hs15 hz hread2 => ?_⟩
    · obtain ⟨u1, hd, hread3⟩ := readsItems_sym_iff.mp hread2
      obtain ⟨u2, hv, hcorr⟩ := readsItems_bits_iff.mp hread3
      obtain ⟨b2, hb2, href2⟩ := refineRest_marks (j := j) hse hal hrest (fuel := 256) (by omega) (by omega) hfit'
        (readsItems_withEobrun hcorr (2 ^ r + v))
      have hv' := receive_lt hv
      have hpow : 2 ^ r ≤ 2 ^ 14 := Nat.pow_le_pow_right (by omega) h14
      have hrpos := Nat.two_pow_pos r
      have hfin := refineFinish_run (kb := (e.scn.ss.toNat + ms.length, b1)) (w := withEobrun (2 ^ r + v) u2) (fun hzero => by
        have := congrArg BitVec.toNat hzero
        rw [show (withEobrun (2 ^ r + v) u2).ent.eobrun = BitVec.ofNat 16 (2 ^ r + v) from rfl, BitVec.toNat_ofNat,
          Nat.mod_eq_of_lt (by omega)] at this
        simp at this) hb2
      rw [eobrun_down (by omega), heq href2] at hfin
      exact hstores (acRefineLoop_eob hk h14 hd hv) hfin
    · obtain ⟨u, hcorr, hloop⟩ := acRefineLoop_zrl (fuel := f) (b := b1) hk hread2
      obtain ⟨b2, hb2, href2⟩ := skipZeros_rest hse hal hrest hz (by omega) hfit' hcorr
      obtain rfl := heq href2
      exact hstores (hloop.trans ((bind_of_ok hb2).trans (acRefineLoop_past (by omega) _))) (refineFinish_done (hnow hread2))
    · obtain ⟨u, hcorr, hloop⟩ := acRefineLoop_fresh (fuel := f) (b := b1) hk hrun15 hs1 hs15 hread2
      obtain ⟨b2, hb2, -⟩ := skipZeros_rest hse hal hrest hz (by omega) hfit' hcorr
      exact acBlock_of_error (acRefineBlock_eq e j a) hread
        (acRefineWork_error (w := { w with mw := mw }) h0
          (hrun.trans (hloop.trans ((bind_of_ok hb2).trans (by rw [if_pos (by omega)]; rfl)))))

/-- The corrections of a refinement pass inside an end-of-band run. -/
theorem acRefine_run (hse : e.scn.se.toNat ≤ 63) (hal : e.scn.al.toNat ≤ 13)
    (hread : readBlock e.params .coef a w.mw = .ok old mw) {rest : List Mark}
    (hlen : e.scn.ss.toNat + rest.length = e.scn.se.toNat + 1) (hfit : fitsFrom e.scn.ss.toNat rest old)
    (hrest : ∀ m ∈ rest, m.old) (hnew : bandRefined e rest old new) (h0 : w.ent.eobrun ≠ 0)
    (hr : ReadsItems e (e.acTab j) { w with mw := mw } (corrItems (corrections rest)) w1) :
    acRefineBlock e j a w = liftMem (writeBlock e.params .coef a new) (withEobrun (w.ent.eobrun.toNat - 1) w1) := by
  obtain ⟨b2, hb2, href2⟩ := refineRest_marks hse hal hrest (fuel := 256) (by omega) hlen hfit hr
  obtain rfl : b2 = new := eq_of_refinedFrom href2 hnew
  have hpos : 0 < w.ent.eobrun.toNat := Nat.pos_of_ne_zero fun h => h0 (BitVec.eq_of_toNat_eq h)
  have he : w1.ent.eobrun = w.ent.eobrun := (onlyReads_readsItems hr).eobrun
  refine acBlock_of_work (acRefineBlock_eq e j a) hread ?_
  rw [acRefineWork_run (w := { w with mw := mw }) h0, refineFinish_run (w := { w with mw := mw }) h0 hb2, ← he,
    ← eobrun_down (he ▸ hpos), withEobrun_self]

end

/-- Settles O36: a pass answers a block that differs in its band only; an end-of-band run counts down; and the tokens or marks
read decide the block written. -/
theorem acPassesStayInTheirBand : Obligations.AcPassesStayInTheirBand := by
  refine ⟨fun e j a w w' hwf hn hse h addr hout => ?_, fun e j a w hwf hn hok h0 => ⟨?_, fun hz hse => ?_⟩,
    fun e j a w w0 w1 old new mw hse hread hw0 => ⟨?_, ?_⟩⟩
  · rcases h with h | h
    · rw [acFirstBlock_eq] at h
      exact read_of_acBlock (answers_acFirstWork hse) hwf hn hout h
    · rw [acRefineBlock_eq] at h
      exact read_of_acBlock (answers_acRefineWork hse) hwf hn hout h
  · exact acBlock_unchanged (f := fun s => { s with eobrun := s.eobrun - 1 }) (acFirstBlock_eq e j a) hwf hn hok
      fun old mw _ => acFirstWork_run (w := { w with mw := mw }) h0
  · refine acBlock_unchanged (f := fun s => { s with eobrun := s.eobrun - 1 }) (acRefineBlock_eq e j a) hwf hn hok
      fun old mw hat => ?_
    rw [acRefineWork_run (w := { w with mw := mw }) h0]
    exact refineFinish_run (kb := (e.scn.ss.toNat, old)) (w := { w with mw := mw }) h0
      (refineRest_zeros (fun i h1 h2 => (hat _ (zz_lt i (by omega))).trans (hz i h1 h2)) _)
  · subst hw0
    intro cs h0 hlen hlast hcs hr hfill
    exact acFirst_tokens hse hread h0 hlen hlast hcs hr hfill
  · subst hw0
    intro ms rest hal hlen hfit hrest hnew
    refine ⟨fun is h0 his hr => acRefine_marks hse hal hread hlen hfit hrest hnew h0 his hr, fun h0 hms hr => ?_⟩
    subst hms
    exact acRefine_run hse hal hread hlen hfit hrest hnew h0 hr

end Sys2Proof.Cert
end

section
/-! Lossless lines (R214, R215), and the zero bits read after a marker (R87). -/
namespace Sys2Proof.Cert
open Sys2Proof.Machine

variable {e : Env}

/-! ### The zero bits after a marker -/

/-- The stream has met a marker, and only zero bits come. -/
def zeroBits (w : DecW) : Prop := w.ent.markerHit = true ∧ (w.ent.bl = 0 ∨ w.ent.bb = 0)

/-- Zero bits have been read: the bit buffer and the warnings apart, nothing changes. -/
structure ZeroRead (w w' : DecW) : Prop where
  zero : zeroBits w'
  pos : w'.pos = w.pos
  mw : w'.mw = w.mw
  ent : { w'.ent with bb := w.ent.bb, bl := w.ent.bl } = w.ent

theorem ZeroRead.refl {w : DecW} (h : zeroBits w) : ZeroRead w w := ⟨h, rfl, rfl, rfl⟩

theorem ZeroRead.trans {w w' w'' : DecW} (h : ZeroRead w w') (h' : ZeroRead w' w'') : ZeroRead w w'' :=
  ⟨h'.zero, h'.pos.trans h.pos, h'.mw.trans h.mw,
    (congrArg (fun s : Entropy => { s with bb := w.ent.bb, bl := w.ent.bl }) h'.ent).trans h.ent⟩

theorem takeBit_zero {w : DecW} (h0 : w.ent.bb = 0) :
    takeBit w = .ok 0 { w with ent := { w.ent with bl := w.ent.bl - 1 } } := by
  have hbit : (w.ent.bb.getLsbD (w.ent.bl - 1).toNat).toNat = 0 := by rw [h0]; simp
  rw [takeBit, bind_of_ok (get_run w), bind_of_ok (modEnt_run _ w), hbit]
  rfl

/-- The next bit is 0. -/
theorem nextBit_zero {w : DecW} (h : zeroBits w) : ∃ w', nextBit e w = .ok 0 w' ∧ ZeroRead w w' := by
  obtain ⟨hm, hb⟩ := h
  rw [nextBit, bind_of_ok (get_run w)]
  by_cases h0 : w.ent.bl = 0
  · rw [if_pos h0, bind_of_ok (fillByte_of_markerHit hm)]
    exact ⟨_, takeBit_zero rfl, ⟨rfl, .inr rfl⟩, rfl, rfl, congrArg (fun b => { w.ent with markerHit := b }) hm.symm⟩
  · have hbb := hb.resolve_left h0
    rw [if_neg h0]
    exact ⟨_, takeBit_zero hbb, ⟨hm, .inr hbb⟩, rfl, rfl, rfl⟩

/-- A table that gives the code 0 a symbol decodes it. -/
theorem decodeSym_zero {h : HuffTab} {s : Byte} {w : DecW} (hz : zeroBits w) (hf : h.find 1 0 = some s) :
    ∃ w', decodeSym e h w = .ok s w' ∧ ZeroRead w w' := by
  obtain ⟨w', hb, hr⟩ := nextBit_zero (e := e) hz
  exact ⟨w', decodeFrom_found hb hf, hr⟩

theorem receive_zero (w : DecW) : receive e 0 w = .ok 0 w := rfl

/-! ### Predictions -/

/-- The sample before sample `x` of a line, 0 before the first. -/
def before (cur : Nat → Half) (x : Nat) : Half := if x = 0 then 0 else cur (x - 1)

theorem before_succ (cur : Nat → Half) (x : Nat) : before cur (x + 1) = cur x := rfl

theorem predict_eq (ss : Byte) (ra rb rc : Int) :
    predict ss.toNat ra rb rc =
      if ss = 1 then ra else if ss = 2 then rb else if ss = 3 then rc else if ss = 4 then ra + rb - rc
      else if ss = 5 then ra + (rb - rc) / 2 else if ss = 6 then rb + (ra - rc) / 2 else (ra + rb) / 2 := by
  have hss : ss = BitVec.ofNat 8 ss.toNat := by simp
  have hne : ∀ k : Byte, (ss.toNat = k.toNat → False) → ¬ss = k := fun k hn h => hn (congrArg BitVec.toNat h)
  unfold predict
  split
  iterate 6
    rename_i h
    rw [h] at hss
    subst hss
    rfl
  rename_i h1 h2 h3 h4 h5 h6
  rw [if_neg (hne 1 h1), if_neg (hne 2 h2), if_neg (hne 3 h3), if_neg (hne 4 h4), if_neg (hne 5 h5), if_neg (hne 6 h6)]

/-- The model's prediction is R214's. -/
theorem predictAt_eq (s : Entropy) (cur : Nat → Half) (x : Nat) :
    predictAt e s x (before cur x) =
      predicted e s.llfirst (fun i => ((s.llprev.read i).toNat : Int)) (fun i => ((cur i).toNat : Int)) x := by
  unfold predictAt predicted
  cases x with
  | zero => rfl
  | succ x => simp [before_succ, predict_eq]

/-! ### What a line's parts keep -/

/-- Memory and the previous line are kept. -/
def keepsLine (w w' : DecW) : Prop := w'.mw.mem = w.mw.mem ∧ w'.ent.llprev = w.ent.llprev

theorem closed_keepsLine : Closed keepsLine :=
  ⟨fun _ => ⟨rfl, rfl⟩, fun _ _ _ h1 h2 => ⟨h2.1.trans h1.1, h2.2.trans h1.2⟩⟩

theorem keepsLine_of_onlyReads {w w' : DecW} (h : OnlyReads w w') : keepsLine w w' :=
  ⟨h.mem.1, (congrArg Entropy.llprev h.ent :)⟩

theorem keepsLine_of_quiet {α : Type} {m : DM α} (hm : Keeps Quiet m) : Keeps keepsLine m :=
  keeps_mono (fun _ _ h => keepsLine_of_onlyReads h.reads) hm

theorem keepsLine_processRestart : Keeps keepsLine (processRestart e) := by
  have hmod : ∀ {f : DecW → DecW}, (∀ w, keepsLine w (f w)) → Keeps keepsLine (modify f : DM PUnit) := Keeps.modify
  refine Keeps.bind closed_keepsLine (hmod fun _ => ⟨rfl, rfl⟩) fun _ =>
    Keeps.bind closed_keepsLine (Keeps.get closed_keepsLine) fun w =>
      Keeps.bind closed_keepsLine (keepsLine_of_quiet (quiet_skipPairs _ _)) fun p =>
        Keeps.bind closed_keepsLine (keepsLine_of_quiet (quiet_expectedRst _ _)) fun ok => ?_
  have hlast : Keeps keepsLine
      (modify fun w => { w with pos := BitVec.ofNat 32 (p + 2), ent := restarted e.ri w.ent } : DM PUnit) :=
    hmod fun _ => ⟨rfl, rfl⟩
  exact Keeps.ite hlast (Keeps.bind closed_keepsLine (keepsLine_of_quiet quiet_warnRst) fun _ => hlast)

theorem keepsLine_beforeMcu : Keeps keepsLine (beforeMcu e) := by
  have hcount : Keeps keepsLine (modEnt fun s => { s with rtg := s.rtg - 1 }) := Keeps.modify fun _ => ⟨rfl, rfl⟩
  exact Keeps.ite (Keeps.pure closed_keepsLine _) <|
    Keeps.bind closed_keepsLine (Keeps.get closed_keepsLine) fun _ =>
      Keeps.ite (Keeps.bind closed_keepsLine keepsLine_processRestart fun _ => hcount) hcount

/-- What a computation that completes keeps. -/
theorem Keeps.of_ok {ε σ α : Type} {P : σ → σ → Prop} {m : EStateM ε σ α} (hm : Keeps P m) {s t : σ} {a : α}
    (h : m s = .ok a t) : P s t := by
  have := hm s
  rwa [h] at this

theorem keepsLine_residual {w w' : DecW} {d : Int} (h : readsResidual e w d w') : keepsLine w w' := by
  obtain ⟨s, w1, hs, h⟩ := h
  have h1 := keepsLine_of_onlyReads (Keeps.of_ok (onlyReads_decodeSym _) hs)
  rcases h with ⟨-, -, rfl⟩ | ⟨-, v, hv, -⟩
  · exact h1
  · exact closed_keepsLine.trans _ _ _ h1 (keepsLine_of_onlyReads (Keeps.of_ok (onlyReads_receive _) hv))

theorem residual_of_reads {w w' : DecW} {d : Int} (h : readsResidual e w d w') : Machine.residual e w = .ok d w' := by
  obtain ⟨s, w1, hs, h⟩ := h
  rw [Machine.residual, bind_of_ok hs]
  rcases h with ⟨rfl, rfl, rfl⟩ | ⟨hle, v, hv, rfl⟩
  · rfl
  · rw [if_neg (by omega), if_neg (by omega), bind_of_ok hv]
    rfl

theorem residual_error {w w' : DecW} {s : Byte} (hs : decodeSym e (e.dcTab 0) w = .ok s w') (h16 : 16 < s.toNat) :
    residual e w = .error ⟨.internalError, w'.pos⟩ w' := by
  rw [Machine.residual, bind_of_ok hs, if_neg (by omega), if_pos h16]
  rfl

/-! ### The samples read -/

/-- The samples read are the loop's, when each is its prediction plus its residual. -/
theorem losslessFrom_samples {y x : Nat} {cur : Nat → Half} {w w' : DecW} {rs : List (Bool × Int)}
    (hr : ReadsSamples e y cur x w rs w')
    (hcur : ∀ i, i < rs.length → cur (x + i) =
      wrap16 (predicted e (rs.getD i (false, 0)).1 (fun i => ((w.ent.llprev.read i).toNat : Int))
        (fun i => ((cur i).toNat : Int)) (x + i) + (rs.getD i (false, 0)).2)) (n : Nat) :
    losslessFrom e y (rs.length + n) x (before cur x) w =
      (losslessFrom e y n (x + rs.length) (before cur (x + rs.length)) >>= fun rest =>
        pure ((List.range' x rs.length).map cur ++ rest)) w' := by
  induction hr with
  | nil x w =>
    rw [List.length_nil, Nat.zero_add]
    simp only [List.range'_zero, List.map_nil, List.nil_append, bind_pure]
    rfl
  | cons x w w0 w1 w2 w3 d rs hb hd hw hr ih =>
    have hline0 := Keeps.of_ok keepsLine_beforeMcu hb
    have hline := closed_keepsLine.trans _ _ _ hline0 (keepsLine_residual hd)
    obtain ⟨mw, hmw, rfl⟩ := liftMem_eq_ok.mp hw
    have hx : wrap16 (predictAt e w0.ent x (before cur x) + d) = cur x := by
      rw [predictAt_eq, hline0.2]
      exact (hcur 0 (by simp)).symm
    have hrest := ih (fun i hi => by
      have := hcur (i + 1) (by simpa using hi)
      rw [show x + (i + 1) = x + 1 + i by omega] at this
      rw [show ({ w1 with mw := mw } : DecW).ent.llprev = w.ent.llprev from hline.2]
      exact this)
    rw [List.length_cons, Nat.add_right_comm, losslessFrom, bind_of_ok hb, bind_of_ok (get_run w0),
      bind_of_ok (residual_of_reads hd)]
    simp only [hx]
    rw [bind_of_ok hw, ← before_succ cur x, bind_run, hrest, Nat.add_right_comm x 1]
    rw [← bind_run, bind_assoc]
    simp only [pure_bind, List.range'_succ, List.map_cons, List.cons_append, Nat.add_assoc]
    rfl

end Sys2Proof.Cert
end

section
/-! Lossless lines (R214, R215): the samples stored, and the obligation. -/
namespace Sys2Proof.Cert
open Sys2Proof.Machine

/-- What a list written to a sparse memory reads. -/
theorem Sparse.read_writeList {w : Nat} {m : Sparse w} (h : m.wf = true) (k : Nat) (xs : List (BitVec w)) (j : Nat) :
    Sparse.read (Sparse.writeList m k xs) j = if k ≤ j ∧ j < k + xs.length then xs.getD (j - k) 0 else Sparse.read m j := by
  induction xs generalizing m k with
  | nil =>
    rw [if_neg (by simp)]
    rfl
  | cons x xs ih =>
    rw [Sparse.writeList, ih (Sparse.wf_write h k x), Sparse.read_write h, List.length_cons]
    by_cases hj : j = k
    · subst hj
      rw [if_neg (by omega), if_pos rfl, if_pos (by omega), Nat.sub_self]
      rfl
    · rw [if_neg hj]
      by_cases hin : k + 1 ≤ j ∧ j < k + 1 + xs.length
      · rw [if_pos hin, if_pos (by omega), show j - k = j - (k + 1) + 1 by omega]
        rfl
      · rw [if_neg hin, if_neg (by omega)]

/-- A MemWrite that completes has stored its bytes. -/
theorem stored_of_memWrite {p : Params} {b : Buf} {a : Word} {n : Nat} {v : Int} {w w' : MemW} (hn : n < 2 ^ 32)
    (hwf : w.mem.wf = true) (h : memWrite p b n a v w = .ok () w') : Stored w.mem w'.mem a n v := by
  by_cases hok : ∀ k, k < n → okAt p a k
  · obtain ⟨u, hu, hs, -⟩ := memWrite_ok (b := b) (v := v) hn hwf hok
    rw [hu] at h
    cases h
    exact hs
  · classical
    have hex : ∃ k, k < n ∧ ¬okAt p a k := by simpa only [not_forall, exists_prop] using hok
    obtain ⟨hlt, hbad⟩ := Nat.find_spec hex
    have hmin : ∀ k, k < Nat.find hex → okAt p a k := fun k hk =>
      not_not.mp fun hno => Nat.find_min hex hk ⟨by omega, hno⟩
    obtain ⟨u, hu, -⟩ := memWrite_busError (b := b) (v := v) hlt (by omega) hwf hmin hbad
    rw [hu] at h
    cases h

variable {e : Env}

/-! ### The samples of a line in memory -/

theorem planeBps_le (e : Env) : planeBps e ≤ 2 := by
  unfold planeBps
  split <;> omega

/-- Different samples of a line are different bytes. -/
theorem planeAddr_ne {c x x' y k k' : Nat} (hx : x < 65536) (hx' : x' < 65536) (hne : x ≠ x') (hk : k < planeBps e)
    (hk' : k' < planeBps e) :
    planeAddr e c x y + BitVec.ofNat 32 k ≠ planeAddr e c x' y + BitVec.ofNat 32 k' := by
  have hb := planeBps_le e
  have hle := Nat.mul_le_mul_left x hb
  have hle' := Nat.mul_le_mul_left x' hb
  unfold planeAddr
  rw [addr_add, addr_add]
  refine addr_ne _ (by omega) (by omega) fun h => ?_
  rcases Nat.lt_or_gt_of_ne hne with hlt | hlt
  · have := Nat.mul_le_mul_right (planeBps e) (Nat.succ_le_of_lt hlt)
    rw [Nat.succ_mul] at this
    omega
  · have := Nat.mul_le_mul_right (planeBps e) (Nat.succ_le_of_lt hlt)
    rw [Nat.succ_mul] at this
    omega

/-- The value a sample is stored as (R91). -/
abbrev sampleValue (e : Env) (v : Half) : Nat := v.toNat * 2 ^ e.scn.al.toNat % 65536

/-- Memory holds the samples of a line from sample `x` on, and elsewhere what it held. -/
structure LineStored (e : Env) (y x n : Nat) (cur : Nat → Half) (m m' : Memory) : Prop where
  wf : m'.wf = true
  bytes : ∀ i k, x ≤ i → i < x + n → k < planeBps e →
    byteAt m' (planeAddr e 0 i y) k = BitVec.ofNat 8 (sampleValue e (cur i) / 256 ^ k)
  frame : ∀ addr : Word, (∀ i k, x ≤ i → i < x + n → k < planeBps e → addr ≠ planeAddr e 0 i y + BitVec.ofNat 32 k) →
    m'.read addr.toNat = m.read addr.toNat

theorem lineStored_zero {m : Memory} (h : m.wf = true) (y x : Nat) (cur : Nat → Half) : LineStored e y x 0 cur m m :=
  ⟨h, fun _ _ _ _ => by omega, fun _ _ => rfl⟩

/-- A sample stored, then those after it. -/
theorem lineStored_succ {y x n : Nat} {cur : Nat → Half} {m m1 m2 : Memory} (hx : x + n < 65536)
    (h1 : Stored m m1 (planeAddr e 0 x y) (planeBps e) (sampleValue e (cur x) : Nat))
    (h2 : LineStored e y (x + 1) n cur m1 m2) : LineStored e y x (n + 1) cur m m2 := by
  refine ⟨h2.wf, fun i k hi hlt hk => ?_, fun addr h => ?_⟩
  · by_cases hix : i = x
    · subst hix
      refine (h2.frame _ fun i' k' h1 h2 hk' => planeAddr_ne (by omega) (by omega) (by omega) hk hk').trans ?_
      refine (h1.bytes k hk).trans ?_
      rw [← BitVec.ofInt_natCast]
      norm_cast
    · exact h2.bytes i k (by omega) (by omega) hk
  · exact (h2.frame addr fun i k h1 h2 hk => h i k (by omega) (by omega) hk).trans
      (h1.frame addr fun k hk => h x k le_rfl (by omega) hk)

/-- The samples read are stored, and the previous line is kept. -/
theorem lineStored_of_reads {y x : Nat} {cur : Nat → Half} {w w' : DecW} {rs : List (Bool × Int)}
    (hr : ReadsSamples e y cur x w rs w') (hwf : w.mw.mem.wf = true) (hx : x + rs.length ≤ 65536) :
    LineStored e y x rs.length cur w.mw.mem w'.mw.mem ∧ w'.ent.llprev = w.ent.llprev := by
  induction hr with
  | nil x w => exact ⟨lineStored_zero hwf y x cur, rfl⟩
  | cons x w w0 w1 w2 w3 d rs hb hd hw hr ih =>
    rw [List.length_cons] at hx ⊢
    obtain ⟨hmem, hprev⟩ := closed_keepsLine.trans _ _ _ (Keeps.of_ok keepsLine_beforeMcu hb) (keepsLine_residual hd)
    obtain ⟨mw, hmw, rfl⟩ := liftMem_eq_ok.mp hw
    have hs := stored_of_memWrite (by have := planeBps_le e; omega) (hmem ▸ hwf) hmw
    rw [hmem] at hs
    obtain ⟨hline, hprev'⟩ := ih hs.wf (by omega)
    exact ⟨lineStored_succ (by omega) hs hline, hprev'.trans hprev⟩

/-! ### The line after its samples -/

/-- The values of the samples read: each its prediction plus its residual (R214). -/
def lineValues (e : Env) (cur : Nat → Half) (w : DecW) (rs : List (Bool × Int)) : Prop :=
  ∀ x, x < rs.length → cur x =
    wrap16 (predicted e (rs.getD x (false, 0)).1 (fun i => ((w.ent.llprev.read i).toNat : Int))
      (fun i => ((cur i).toNat : Int)) x + (rs.getD x (false, 0)).2)

section
variable {y : Nat} {cur : Nat → Half} {w w' : DecW} {rs : List (Bool × Int)}
  (hr : ReadsSamples e y cur 0 w rs w') (hcur : lineValues e cur w rs)
include hr hcur

/-- The loop over a line, the samples read. -/
theorem losslessFrom_read {n : Nat} (hn : rs.length + n = e.frm.x.toNat) :
    losslessFrom e y e.frm.x.toNat 0 0 w =
      (losslessFrom e y n rs.length (before cur rs.length) >>= fun rest =>
        pure ((List.range' 0 rs.length).map cur ++ rest)) w' := by
  have h := losslessFrom_samples hr (fun i hi => by simpa only [Nat.zero_add] using hcur i hi) n
  rw [hn, Nat.zero_add] at h
  exact h

/-- A line whose samples are all read completes, and becomes the previous line. -/
theorem losslessLine_read (hwf : w.ent.llprev.wf = true) (hprev : w'.ent.llprev = w.ent.llprev)
    (hn : rs.length = e.frm.x.toNat) :
    ∃ prev : Sparse 16, losslessLine e y w = .ok () { w' with ent := { w'.ent with llprev := prev, llfirst := false } } ∧
      ∀ x, prev.read x = if x < e.frm.x.toNat then cur x else w.ent.llprev.read x := by
  refine ⟨w'.ent.llprev.writeList 0 ((List.range' 0 rs.length).map cur), ?_, fun x => ?_⟩
  · have h := losslessFrom_read hr hcur (n := 0) hn
    rw [losslessFrom, pure_bind, pure_run, List.append_nil] at h
    rw [losslessLine, bind_of_ok h]
    rfl
  · rw [hprev, Sparse.read_writeList hwf, List.length_map, List.length_range', hn]
    by_cases hx : x < e.frm.x.toNat
    · rw [if_pos (by omega), if_pos hx, Nat.sub_zero, List.getD_eq_getElem _ _ (by simpa using hx)]
      simp
    · rw [if_neg (by omega), if_neg hx]

/-- A category above 16 raises. -/
theorem losslessLine_error (hn : rs.length < e.frm.x.toNat) {w0 w1 : DecW} {s : Byte} (hb : beforeMcu e w' = .ok () w0)
    (hs : decodeSym e (e.dcTab 0) w0 = .ok s w1) (h16 : 16 < s.toNat) :
    losslessLine e y w = .error ⟨.internalError, w1.pos⟩ w1 := by
  obtain ⟨m, hm⟩ : ∃ m, rs.length + (m + 1) = e.frm.x.toNat := ⟨e.frm.x.toNat - rs.length - 1, by omega⟩
  have h := losslessFrom_read hr hcur hm
  rw [losslessFrom, bind_assoc, bind_of_ok hb, bind_assoc, bind_of_ok (get_run w0), bind_assoc,
    bind_of_error (residual_error hs h16)] at h
  rw [losslessLine, bind_of_error h]

end

/-! ### A line of zero residuals -/

/-- The samples of a line without residuals. -/
def zeroLine (e : Env) (s : Entropy) : Nat → Half
  | 0 => wrap16 (predictAt e s 0 0)
  | x + 1 => wrap16 (predictAt e s (x + 1) (zeroLine e s x))

theorem zeroLine_eq (s : Entropy) (x : Nat) :
    zeroLine e s x = wrap16 (predicted e s.llfirst (fun i => ((s.llprev.read i).toNat : Int))
      (fun i => ((zeroLine e s i).toNat : Int)) x) := by
  rw [← predictAt_eq]
  cases x <;> rfl

/-- A prediction depends on the sample before it only. -/
theorem predicted_congr {cur cur' : Nat → Half} (s : Entropy) {x : Nat} (h : ∀ i, i < x → cur i = cur' i) :
    predicted e s.llfirst (fun i => ((s.llprev.read i).toNat : Int)) (fun i => ((cur i).toNat : Int)) x =
      predicted e s.llfirst (fun i => ((s.llprev.read i).toNat : Int)) (fun i => ((cur' i).toNat : Int)) x := by
  have hb : before cur x = before cur' x := by
    cases x with
    | zero => rfl
    | succ x => exact h x (by omega)
  rw [← predictAt_eq, ← predictAt_eq, hb]

/-- After a marker, where the code 0 has symbol 0, every residual is 0. -/
theorem readsSamples_zero (hri : e.ri = 0) (hf : (e.dcTab 0).find 1 0 = some 0) (y : Nat) (cur : Nat → Half) {n x : Nat}
    {w : DecW} (hz : zeroBits w) (hwf : w.mw.mem.wf = true)
    (hok : ∀ i k, i < x + n → k < planeBps e → okAt e.params (planeAddr e 0 i y) k) :
    ∃ w', ReadsSamples e y cur x w (List.replicate n (w.ent.llfirst, 0)) w' ∧ w'.pos = w.pos := by
  induction n generalizing x w with
  | zero => exact ⟨w, .nil x w, rfl⟩
  | succ n ih =>
    obtain ⟨w1, hs, h1⟩ := decodeSym_zero (e := e) hz hf
    have hmem : w1.mw.mem.wf = true := by rw [h1.mw]; exact hwf
    obtain ⟨mw, hmw, hstored, -⟩ := memWrite_ok (b := .plane 0) (v := (sampleValue e (cur x) : Nat))
      (by have := planeBps_le e; omega) hmem fun k hk => hok x k (by omega) hk
    have hfirst : w1.ent.llfirst = w.ent.llfirst := (congrArg Entropy.llfirst h1.ent :)
    obtain ⟨w', hr, hpos⟩ := ih (x := x + 1) (w := { w1 with mw := mw }) h1.zero hstored.wf
      fun i k hi hk => hok i k (by omega) hk
    rw [show ({ w1 with mw := mw } : DecW).ent.llfirst = w.ent.llfirst from hfirst] at hr
    refine ⟨w', .cons x w w w1 _ w' 0 _ ?_ ⟨0, w1, hs, .inr ⟨by decide, 0, receive_zero w1, rfl⟩⟩
      (liftMem_eq_ok.mpr ⟨mw, hmw, rfl⟩) hr, hpos.trans h1.pos⟩
    rw [beforeMcu, if_pos hri]
    rfl

/-- Settles O37: the samples are the loop's by induction over the reading of them, each stored at bytes of its own; after a
marker every symbol is that of the code 0. -/
theorem losslessLineFollowsThePredictor : Obligations.LosslessLineFollowsThePredictor := by
  refine ⟨fun e y w w' cur rs hwf hprev hlen hr hcur => ?_, fun e y w hwf hm hbl hri hf hx hprev hok => ?_⟩
  · have hlt := e.frm.x.isLt
    obtain ⟨hline, hkept⟩ := lineStored_of_reads hr hwf (by omega)
    exact ⟨fun x k hx hk => hline.bytes x k (by omega) (by omega) hk, losslessLine_read hr hcur hprev hkept,
      fun hn w0 w1 s hb hs h16 => losslessLine_error hr hcur hn hb hs h16⟩
  · have hlt := e.frm.x.isLt
    obtain ⟨u, hr, hpos⟩ := readsSamples_zero hri hf y (zeroLine e w.ent) (n := e.frm.x.toNat) (x := 0) ⟨hm, .inl hbl⟩ hwf
      fun i k hi hk => hok i k (by omega) hk
    have hlen := List.length_replicate (n := e.frm.x.toNat) (a := (w.ent.llfirst, (0 : Int)))
    obtain ⟨hline, hkept⟩ := lineStored_of_reads hr hwf (by omega)
    obtain ⟨prev, hrun, hread⟩ := losslessLine_read hr (fun x hx => by
      rw [List.getD_replicate _ (by omega), zeroLine_eq]
      simp) hprev hkept hlen
    have hcur : ∀ x, x < e.frm.x.toNat → prev.read x = zeroLine e w.ent x := fun x hx => by rw [hread, if_pos hx]
    refine ⟨_, hrun, hpos, rfl, fun x hx => ⟨?_, fun k hk => ?_⟩, fun x hx => (hread x).trans (if_neg (by omega))⟩
    · rw [show ∀ v : DecW, ({ v with ent := { v.ent with llprev := prev, llfirst := false } } : DecW).ent.llprev = prev from
        fun _ => rfl, hcur x hx, predicted_congr w.ent fun i hi => hcur i (by omega)]
      exact zeroLine_eq w.ent x
    · exact (hline.bytes x k (by omega) (by omega) hk).trans (by rw [← hcur x hx])

end Sys2Proof.Cert
end

section
/-! DECROW after a marker (R87, R205, R206, R209): every symbol is that of the code 0. -/
namespace Sys2Proof.Cert
open Sys2Proof.Machine

section
variable {e : Env} {j : Nat} {w : DecW}

/-! ### Blocks of zero bits -/

theorem Quad.set_get_self {α : Type} (q : Quad α) (i : Nat) : q.set i (q.get i) = q := by
  unfold Quad.get
  split
  iterate 3 rfl
  rw [Quad.set]
  iterate 3 assumption

/-- A DC difference of 0 leaves the predictor. -/
theorem dcDiff_zero (hz : zeroBits w) (hf : (e.dcTab j).find 1 0 = some 0) :
    ∃ u, dcDiff e j w = .ok (w.ent.dcpred.get (e.comp j)) u ∧ ZeroRead w u := by
  obtain ⟨u, hs, hr⟩ := decodeSym_zero (e := e) hz hf
  have hpred : u.ent.dcpred = w.ent.dcpred := (congrArg Entropy.dcpred hr.ent :)
  have hnext : nextDc e j u 0#8 0 = w.ent.dcpred.get (e.comp j) := by
    rw [nextDc, hpred]
    simp [extend, wrap16]
  refine ⟨u, ?_, hr⟩
  rw [dcDiff_of_decodeSym hs, if_neg (by decide)]
  show EStateM.Result.ok (nextDc e j u 0#8 0) (withDcpred e j (nextDc e j u 0#8 0) u) = _
  rw [hnext, withDcpred, ← hpred, Quad.set_get_self]

/-- The block of a predictor and zeros. -/
abbrev dcBlock (d : Half) : Block := Block.zero.put 0 d

theorem dcBlock_at (d : Half) (n : Nat) : (dcBlock d).at n = if n = 0 then d else 0 := by
  rw [blockAt_put _ (by omega), zero_at]

/-- A sequential block of zero bits holds the predictor and zeros. -/
theorem seqBlock_zero (hz : zeroBits w) (hdc : (e.dcTab j).find 1 0 = some 0) (hac : (e.acTab j).find 1 0 = some 0)
    (a : Word) :
    ∃ u, seqBlock e j a w = liftMem (writeBlock e.params .coef a (dcBlock (w.ent.dcpred.get (e.comp j)))) u ∧
      ZeroRead w u := by
  obtain ⟨u, hd, hr⟩ := dcDiff_zero hz hdc
  obtain ⟨v, hs, hr'⟩ := decodeSym_zero (e := e) hr.zero hac
  refine ⟨v, ?_, hr.trans hr'⟩
  rw [seqBlock_run hd, bind_of_ok]
  rw [seqAc_symbol (fuel := 63) (by omega) hs, if_pos (by decide), if_neg (by decide)]
  rfl

end

/-! ### The rows as stores -/

/-- A state met on the rows from `w0`, at row `r`: the bit buffer, the warnings and memory apart, nothing has changed. -/
structure ZeroAt (w0 : DecW) (r : Half) (w : DecW) : Prop where
  zero : zeroBits w
  pos : w.pos = w0.pos
  ent : { w.ent with bb := w0.ent.bb, bl := w0.ent.bl, srow := w0.ent.srow } = w0.ent
  row : w.ent.srow = r

theorem ZeroAt.dcpred {w0 w : DecW} {r : Half} (h : ZeroAt w0 r w) : w.ent.dcpred = w0.ent.dcpred :=
  (congrArg Entropy.dcpred h.ent :)

theorem ZeroAt.read {w0 w w' : DecW} {r : Half} (h : ZeroAt w0 r w) (hr : ZeroRead w w') (mw : MemW) :
    ZeroAt w0 r { w' with mw := mw } where
  zero := hr.zero
  pos := hr.pos.trans h.pos
  ent := (congrArg (fun s : Entropy => { s with bb := w0.ent.bb, bl := w0.ent.bl, srow := w0.ent.srow }) hr.ent).trans h.ent
  row := (congrArg Entropy.srow hr.ent :).trans h.row

/-- A part of the decoding that does to memory what a program of stores does, from row `r` to row `r'`. -/
def Follows (w0 : DecW) (D : DM Unit) (m : MM Unit) (r r' : Half) : Prop :=
  ∀ w mw, ZeroAt w0 r w → m w.mw = .ok () mw → ∃ w', D w = .ok () w' ∧ w'.mw = mw ∧ ZeroAt w0 r' w'

section
variable {w0 : DecW}

theorem Follows.forRange {f : Nat → DM Unit} {g : Nat → MM Unit} {row : Nat → Half} (lo n : Nat)
    (hf : ∀ i, Follows w0 (f i) (g i) (row i) (row (i + 1))) :
    Follows w0 (Sys2Proof.Machine.forRange lo n f) (Sys2Proof.Machine.forRange lo n g) (row lo) (row (lo + n)) := by
  induction n generalizing lo with
  | zero =>
    intro w mw hw hm
    cases hm
    exact ⟨w, rfl, rfl, hw⟩
  | succ n ih =>
    intro w mw hw hm
    obtain ⟨_, mw1, h1, h2⟩ := bind_eq_ok.mp hm
    obtain ⟨w1, hrun, rfl, hw1⟩ := hf lo w mw1 hw h1
    obtain ⟨w2, hrun2, hmw, hw2⟩ := ih (lo + 1) w1 mw hw1 h2
    exact ⟨w2, bind_eq_ok.mpr ⟨(), w1, hrun, hrun2⟩, hmw, by rwa [show lo + (n + 1) = lo + 1 + n by omega]⟩

variable {e : Env} (hri : e.ri = 0) (hmode : e.scn.smode = .seq) (hns : e.scn.ns = 1)
  (hdc : (e.dcTab 0).find 1 0 = some 0) (hac : (e.acTab 0).find 1 0 = some 0)
include hri hmode hns hdc hac

theorem follows_decodeMcu (r : Half) (my mx : Nat) :
    Follows w0 (decodeMcu e my mx)
      (writeBlock e.params .coef (coefAddr e (e.comp 0) mx my) (dcBlock (w0.ent.dcpred.get (e.comp 0)))) r r := by
  intro w mw hw hm
  obtain ⟨u, hblock, hr⟩ := seqBlock_zero hw.zero hdc hac (coefAddr e (e.comp 0) mx my)
  rw [hw.dcpred] at hblock
  refine ⟨{ u with mw := mw }, ?_, rfl, hw.read hr mw⟩
  have hbefore : beforeMcu e w = .ok () w := by
    rw [beforeMcu, if_pos hri]
    rfl
  rw [decodeMcu, bind_of_ok hbefore, if_neg (by rw [hns]; decide), decodeBlock]
  simp only [hmode]
  exact hblock.trans (liftMem_eq_ok.mpr ⟨mw, by rw [hr.mw]; exact hm, rfl⟩)

/-- The stores of one row. -/
def zeroRow (e : Env) (d : Half) (y : Nat) : MM Unit :=
  forRange 0 e.scn.scols.toNat fun mx => writeBlock e.params .coef (coefAddr e (e.comp 0) mx y) (dcBlock d)

theorem follows_decodeRow (r : Half) :
    Follows w0 (decodeRow e) (zeroRow e (w0.ent.dcpred.get (e.comp 0)) r.toNat) r (r + 1) := by
  intro w mw hw hm
  obtain ⟨u, hrun, hmw, hu⟩ := Follows.forRange (row := fun _ => r) 0 e.scn.scols.toNat
    (fun mx => follows_decodeMcu hri hmode hns hdc hac r r.toNat mx) w mw hw hm
  refine ⟨{ u with ent := { u.ent with srow := u.ent.srow + 1 } }, ?_, hmw, hu.zero, hu.pos, hu.ent, ?_⟩
  · rw [decodeRow, bind_of_ok (get_run w)]
    simp only [hmode, hw.row, reduceCtorEq, if_false]
    rw [bind_of_ok hrun]
    rfl
  · exact congrArg (· + 1) hu.row

theorem follows_decodeRows (r : Half) (n : Nat) :
    Follows w0 (decodeRows e n)
      (forRange 0 n fun i => zeroRow e (w0.ent.dcpred.get (e.comp 0)) (r + BitVec.ofNat 16 i).toNat) r
      (r + BitVec.ofNat 16 n) := by
  have h := Follows.forRange (w0 := w0) (f := fun _ => decodeRow e) (row := fun i => r + BitVec.ofNat 16 i) 0 n fun i => by
    have hnext : r + BitVec.ofNat 16 (i + 1) = r + BitVec.ofNat 16 i + 1 := by
      rw [BitVec.ofNat_add, ← BitVec.add_assoc]
      rfl
    rw [hnext]
    exact follows_decodeRow hri hmode hns hdc hac _
  rw [Nat.zero_add, show r + BitVec.ofNat 16 0 = r from BitVec.add_zero r] at h
  exact h

end

/-! ### The bytes stored -/

/-- Coefficient blocks lie 128 bytes apart: at one address they have one offset. -/
theorem coefAddr_offset {e : Env} {c x y x' y' j k : Nat} (hj : j < 128) (hk : k < 128)
    (h : coefAddr e c x y + BitVec.ofNat 32 j = coefAddr e c x' y' + BitVec.ofNat 32 k) : j = k := by
  unfold coefAddr at h
  rw [addr_add, addr_add] at h
  have hto := congrArg BitVec.toNat (add_left_cancel h)
  rw [BitVec.toNat_ofNat, BitVec.toNat_ofNat] at hto
  omega

section
variable (s : State) (n : Nat)

/-- The bytes of the blocks of the rows. -/
def zeroStores (a : Word) : Prop :=
  ∃ y x k, y < rowsOf s n ∧ x < s.dec.scn.scols.toNat ∧ k < 128 ∧
    a = coefAddr s.env (scanComp s) x (s.dec.ent.srow.toNat + y) + BitVec.ofNat 32 k

/-- The command reads its own word and stores to its blocks. -/
def zeroAccess : Access where
  writes b a := b = .coef ∧ zeroStores s n a
  reads b a := b = .cmd ∧ ∃ k, k < 4 ∧ a = s.proc.cqPtr + BitVec.ofNat 32 k
  kept a := ¬zeroStores s n a
  mem := s.mem

/-- The byte a block of a predictor and zeros has at an address. -/
def zeroByteAt (d : Half) (a : Word) (v : Byte) : Prop :=
  ∀ y x i k, i < 64 → k < 2 →
    a = coefAddr s.env (scanComp s) x (s.dec.ent.srow.toNat + y) + BitVec.ofNat 32 (2 * i + k) →
    v = BitVec.ofInt 8 ((dcBlock d).val i / 256 ^ k)

variable {s n} {d : Half}

theorem fills_zeroBlock {x y : Nat} (hy : y < rowsOf s n) (hx : x < s.dec.scn.scols.toNat) :
    (zeroAccess s n).Fills (zeroByteAt s d)
      (writeBlock s.params .coef (coefAddr s.env (scanComp s) x (s.dec.ent.srow.toNat + y)) (dcBlock d)) fun a =>
      ∃ k, k < 128 ∧ a = coefAddr s.env (scanComp s) x (s.dec.ent.srow.toNat + y) + BitVec.ofNat 32 k := by
  refine (Access.Fills.rounds fun i hi => Access.fills_memWrite (by omega) (fun k hk => ?_) fun k hk => ?_).congr
    fun a => ⟨?_, ?_⟩
  · rw [addr_add]
    have hin : zeroStores s n (coefAddr s.env (scanComp s) x (s.dec.ent.srow.toNat + y) + BitVec.ofNat 32 (2 * i + k)) :=
      ⟨y, x, 2 * i + k, hy, hx, by omega, rfl⟩
    exact ⟨⟨rfl, hin⟩, not_not_intro hin⟩
  · intro y' x' i' k' hi' hk' he
    rw [addr_add] at he
    have := coefAddr_offset (by omega) (by omega) he
    obtain ⟨rfl, rfl⟩ : i' = i ∧ k' = k := by omega
    rfl
  · rintro ⟨i, hi, k, hk, rfl⟩
    exact ⟨2 * i + k, by omega, addr_add _ _ _⟩
  · rintro ⟨k, hk, rfl⟩
    exact ⟨k / 2, by omega, k % 2, by omega, by rw [addr_add, Nat.div_add_mod]⟩

theorem rowsOf_row {y : Nat} (hy : y < rowsOf s n) :
    (s.dec.ent.srow + BitVec.ofNat 16 y).toNat = s.dec.ent.srow.toNat + y := by
  have hlt := s.dec.scn.srows.isLt
  have hle : rowsOf s n ≤ s.dec.scn.srows.toNat - s.dec.ent.srow.toNat := by
    unfold rowsOf
    split <;> omega
  rw [BitVec.toNat_add, BitVec.toNat_ofNat]
  omega

theorem fills_zeroRows :
    (zeroAccess s n).Fills (zeroByteAt s d)
      (forRange 0 (rowsOf s n) fun y => zeroRow s.env d (s.dec.ent.srow + BitVec.ofNat 16 y).toNat) (zeroStores s n) := by
  refine (Access.Fills.rounds (W := fun y a => ∃ x, x < s.dec.scn.scols.toNat ∧ ∃ k, k < 128 ∧
      a = coefAddr s.env (scanComp s) x (s.dec.ent.srow.toNat + y) + BitVec.ofNat 32 k) fun y hy => ?_).congr fun a => ?_
  · rw [rowsOf_row hy]
    exact Access.Fills.rounds fun x hx => fills_zeroBlock hy hx
  · exact ⟨fun ⟨y, hy, x, hx, k, hk, he⟩ => ⟨y, x, k, hy, hx, hk, he⟩,
      fun ⟨y, x, k, hy, hx, hk, he⟩ => ⟨y, hy, x, hx, k, hk, he⟩⟩

theorem completes_zeroRows
    (hok : ∀ y x, y < rowsOf s n → x < s.dec.scn.scols.toNat →
      blockOk s.params (coefAddr s.env (scanComp s) x (s.dec.ent.srow.toNat + y))) :
    Completes (forRange 0 (rowsOf s n) fun y => zeroRow s.env d (s.dec.ent.srow + BitVec.ofNat 16 y).toNat) := by
  refine Completes.rounds fun y hy => Completes.rounds fun x hx => Completes.rounds fun i hi => ?_
  rw [rowsOf_row hy]
  refine completes_memWrite (fun k hk => ?_) _
  rw [okAt, addr_add]
  exact hok y x hy hx _ (by omega)

end

/-- Settles O39: the rows do to memory what a program of stores does, since every symbol is 0, and that program fills the
blocks. -/
theorem decrowFillsOutAfterAMarker : Obligations.DecrowFillsOutAfterAMarker := by
  rintro s n hcan ⟨hact, hmode, hns, hm, hbl, hri, hdc, hac⟩ hblocks
  have hwf := ((memCanonical_iff s).mp hcan).1
  have hstart : ZeroAt (DecW.start s) s.dec.ent.srow (DecW.start s) := ⟨⟨hm, .inl hbl⟩, rfl, rfl, rfl⟩
  obtain ⟨_, mw, hmw⟩ := completes_zeroRows (d := s.dec.ent.dcpred.get (scanComp s))
    (fun y x hy hx k hk => (hblocks y x k hy hx hk).1) (DecW.start s).mw
  obtain ⟨w, hrun, rfl, hw⟩ := follows_decodeRows (e := s.env) hri hmode hns hdc hac s.dec.ent.srow (rowsOf s n) _ mw hstart hmw
  have hok0 : (zeroAccess s n).Ok (DecW.start s).mw :=
    Access.Ok.start hwf (fun k hk => ⟨rfl, k, by simpa [Op.words] using hk, rfl⟩) rfl
  obtain ⟨hok, hfill, hframe⟩ := fills_zeroRows (d := s.dec.ent.dcpred.get (scanComp s)) _ _ _ hok0 hmw
  have hsettle : s.settle w.mw = { s with mem := w.mw.mem } := hok.settle (fun b b' a ⟨_, hin⟩ ⟨_, k, hk, he⟩ => by
    obtain ⟨y, x, i, hy, hx, hi, rfl⟩ := hin
    exact absurd he ((hblocks y x i hy hx hi).2 k hk)) s
  refine ⟨decrowDone w s, exec_decrow_ok hact hrun, rfl, hw.pos, (congrArg State.free hsettle :), hw.row, hw.dcpred, hw.zero.1,
    fun y x k hy hx hk => ?_, fun addr h => ?_⟩
  · have hbyte : ∀ b, b < 2 → byteAt w.mw.mem (coefAddr s.env (scanComp s) x (s.dec.ent.srow.toNat + y)) (2 * k + b) =
        BitVec.ofInt 8 ((dcBlock (s.dec.ent.dcpred.get (scanComp s))).val k / 256 ^ b) := fun b hb =>
      hfill _ ⟨y, x, 2 * k + b, hy, hx, by omega, rfl⟩ y x k b hk hb rfl
    have h0 := hbyte 0 (by omega)
    have h1 := hbyte 1 (by omega)
    rw [pow_zero, Int.ediv_one, Nat.add_zero] at h0
    rw [pow_one] at h1
    rw [← dcBlock_at, show (decrowDone w s).mem = w.mw.mem from (congrArg State.mem hsettle :), coefIn, h0, h1]
    exact bytes_append _
  · rw [show (decrowDone w s).mem = w.mw.mem from (congrArg State.mem hsettle :)]
    exact hframe addr fun ⟨y, x, k, hy, hx, hk, he⟩ => h y x k hy hx hk he

end Sys2Proof.Cert
end

section
/-! The decoding of rows does not look at the warnings (R351). -/
namespace Sys2Proof.Cert
open Sys2Proof.Machine

/-- Two states of the decoding that differ in the warnings at most. -/
structure WarnApart (w w' : DecW) : Prop where
  pos : w'.pos = w.pos
  ent : w'.ent = w.ent
  mw : w'.mw = w.mw

theorem readerBlind_warn : ReaderBlind WarnApart where
  pos h := h.pos
  mw h := h.mw
  buf h := by
    rw [h.ent]
    exact ⟨rfl, rfl, rfl⟩
  setMw h _ := ⟨h.pos, h.ent, rfl⟩
  setBuf h p bb bl hit :=
    ⟨rfl, congrArg (fun s : Entropy => { s with bb := bb, bl := bl, markerHit := hit }) h.ent, h.mw⟩
  warnEnt h := ⟨h.pos, h.ent, h.mw⟩

section
variable {e : Env} {j : Nat} {α : Type}

/-! ### The parts of the decoding -/

theorem blind_modEnt (f : Entropy → Entropy) : Blind WarnApart (modEnt f) :=
  Blind.modify fun _ _ h => ⟨h.pos, congrArg f h.ent, h.mw⟩

/-- A step taken under a condition, before what follows either way. -/
theorem blind_maybe {c : Prop} [Decidable c] {m : DM Unit} {n : DM α} (hm : Blind WarnApart m) (hn : Blind WarnApart n) :
    Blind WarnApart (if c then m >>= fun _ => n else n) := Blind.cond (Blind.bind hm fun _ => hn) hn

theorem blind_liftMem (m : MM α) : Blind WarnApart (liftMem m) := readerBlind_warn.liftMem m

theorem blind_receive (t : Nat) : Blind WarnApart (receive e t) := readerBlind_warn.receive t

theorem blind_decodeSym (t : HuffTab) : Blind WarnApart (decodeSym e t) := readerBlind_warn.decodeSym t

theorem blind_raiseInternal : Blind WarnApart (raiseInternal : DM α) := readerBlind_warn.raiseInternal

theorem blind_warnRst : Blind WarnApart warnRst := Blind.modify fun _ _ h => ⟨h.pos, h.ent, h.mw⟩

theorem blind_skipPairs (fuel p : Nat) : Blind WarnApart (skipPairs e fuel p) := by
  induction fuel generalizing p with
  | zero => exact Blind.pure p
  | succ fuel ih =>
    exact Blind.bind (blind_liftMem _) fun _ =>
      Blind.cond (Blind.bind (blind_liftMem _) fun _ => Blind.cond (ih _) (Blind.pure p)) (Blind.pure p)

theorem blind_expectedRst (p : Nat) (n : BitVec 3) : Blind WarnApart (expectedRst e p n) :=
  Blind.bind (blind_liftMem _) fun _ => Blind.cond (Blind.bind (blind_liftMem _) fun _ => Blind.pure _) (Blind.pure _)

theorem blind_processRestart : Blind WarnApart (processRestart e) := by
  refine Blind.bind (blind_modEnt _) fun _ => Blind.get (fun w w' h => by rw [h.pos, h.ent]) fun w =>
    Blind.bind (blind_skipPairs _ _) fun p => Blind.bind (blind_expectedRst _ _) fun ok => ?_
  have hlast : Blind WarnApart
      (modify fun w => { w with pos := BitVec.ofNat 32 (p + 2), ent := restarted e.ri w.ent } : DM PUnit) :=
    Blind.modify fun _ _ h => ⟨rfl, congrArg (restarted e.ri) h.ent, h.mw⟩
  exact Blind.cond hlast (Blind.bind blind_warnRst fun _ => hlast)

theorem blind_beforeMcu : Blind WarnApart (beforeMcu e) :=
  Blind.cond (Blind.pure ()) <|
    Blind.get (fun w w' h => by rw [h.ent]) fun _ => blind_maybe blind_processRestart (blind_modEnt _)

/-! ### Blocks -/

theorem blind_dcDiff : Blind WarnApart (dcDiff e j) :=
  Blind.bind (blind_decodeSym _) fun _ => Blind.cond blind_raiseInternal <|
    Blind.bind (blind_receive _) fun v => Blind.get (fun w w' h => by rw [h.ent]) fun _ =>
      Blind.bind (blind_modEnt _) fun _ => Blind.pure _

theorem blind_seqAc (fuel k : Nat) (b : Block) : Blind WarnApart (seqAc e j fuel k b) := by
  induction fuel generalizing k b with
  | zero => exact Blind.pure b
  | succ fuel ih =>
    exact Blind.cond (Blind.pure b) <| Blind.bind (blind_decodeSym _) fun _ =>
      Blind.cond (Blind.cond (ih _ _) (Blind.pure b)) <|
        Blind.cond blind_raiseInternal (Blind.bind (blind_receive _) fun _ => ih _ _)

theorem blind_acFirstLoop (fuel k : Nat) (b : Block) : Blind WarnApart (acFirstLoop e j fuel k b) := by
  induction fuel generalizing k b with
  | zero => exact Blind.pure b
  | succ fuel ih =>
    exact Blind.cond (Blind.pure b) <| Blind.bind (blind_decodeSym _) fun _ =>
      Blind.cond (Blind.cond blind_raiseInternal (Blind.bind (blind_receive _) fun _ => ih _ _)) <|
        Blind.cond (ih _ _) (Blind.bind (blind_receive _) fun _ => Blind.bind (blind_modEnt _) fun _ => Blind.pure b)

theorem blind_refine (b : Block) (z : Nat) : Blind WarnApart (refine e b z) :=
  Blind.bind (blind_receive _) fun _ => Blind.cond (Blind.pure _) (Blind.pure _)

theorem blind_skipZeros (fuel k r : Nat) (b : Block) : Blind WarnApart (skipZeros e fuel k r b) := by
  induction fuel generalizing k r b with
  | zero => exact Blind.pure _
  | succ fuel ih =>
    exact Blind.cond (Blind.pure _) <| Blind.cond (Blind.bind (blind_refine _ _) fun _ => ih _ _ _) <|
      Blind.cond (Blind.pure _) (ih _ _ _)

theorem blind_acRefineLoop (fuel k : Nat) (b : Block) : Blind WarnApart (acRefineLoop e j fuel k b) := by
  induction fuel generalizing k b with
  | zero => exact Blind.pure _
  | succ fuel ih =>
    exact Blind.cond (Blind.pure _) <| Blind.bind (blind_decodeSym _) fun _ =>
      Blind.cond
        (blind_maybe readerBlind_warn.warn <| Blind.bind (blind_receive _) fun _ =>
          Blind.bind (blind_skipZeros _ _ _ _) fun _ => Blind.cond blind_raiseInternal (ih _ _)) <|
        Blind.cond (Blind.bind (blind_receive _) fun _ => Blind.bind (blind_modEnt _) fun _ => Blind.pure _)
          (Blind.bind (blind_skipZeros _ _ _ _) fun _ => ih _ _)

theorem blind_refineRest (fuel k : Nat) (b : Block) : Blind WarnApart (refineRest e fuel k b) := by
  induction fuel generalizing k b with
  | zero => exact Blind.pure b
  | succ fuel ih =>
    exact Blind.cond (Blind.pure b) (Blind.cond (Blind.bind (blind_refine _ _) fun _ => ih _ _) (ih _ _))

theorem blind_acFirstWork (b : Block) : Blind WarnApart (acFirstWork e j b) :=
  Blind.get (fun w w' h => by rw [h.ent]) fun _ =>
    Blind.cond (Blind.bind (blind_modEnt _) fun _ => Blind.pure b) (blind_acFirstLoop _ _ _)

theorem blind_refineFinish (kb : Nat × Block) : Blind WarnApart (refineFinish e kb) :=
  Blind.get (fun w w' h => by rw [h.ent]) fun _ => Blind.cond (Blind.pure _) <|
    Blind.bind (blind_refineRest _ _ _) fun _ => Blind.bind (blind_modEnt _) fun _ => Blind.pure _

theorem blind_acRefineWork (b : Block) : Blind WarnApart (acRefineWork e j b) :=
  Blind.get (fun w w' h => by rw [h.ent]) fun _ =>
    Blind.when (blind_acRefineLoop _ _ _) (Blind.pure _) fun kb => blind_refineFinish kb

theorem blind_decodeBlock (bx byy : Nat) : Blind WarnApart (decodeBlock e j bx byy) := by
  unfold decodeBlock
  dsimp only
  split
  case h_1 | h_7 => exact Blind.pure ()
  case h_2 =>
    exact Blind.bind blind_dcDiff fun _ => Blind.bind (blind_seqAc _ _ _) fun _ => blind_liftMem _
  case h_3 => exact Blind.bind (blind_liftMem _) fun _ => Blind.bind blind_dcDiff fun _ => blind_liftMem _
  case h_4 => exact Blind.bind (blind_liftMem _) fun _ => Blind.bind (blind_receive _) fun _ => blind_liftMem _
  case h_5 =>
    rw [acFirstBlock_eq]
    exact Blind.bind (blind_liftMem _) fun _ => Blind.bind (blind_acFirstWork _) fun _ => blind_liftMem _
  case h_6 =>
    rw [acRefineBlock_eq]
    exact Blind.bind (blind_liftMem _) fun _ => Blind.bind (blind_acRefineWork _) fun _ => blind_liftMem _

/-! ### Rows -/

theorem blind_decodeMcu (my mx : Nat) : Blind WarnApart (decodeMcu e my mx) :=
  Blind.bind blind_beforeMcu fun _ => Blind.cond
    (Blind.forRange (fun _ => Blind.forRange (fun _ => Blind.forRange (fun _ => blind_decodeBlock _ _) _ _) _ _) _ _)
    (blind_decodeBlock _ _)

theorem blind_residual : Blind WarnApart (Machine.residual e) :=
  Blind.bind (blind_decodeSym _) fun _ => Blind.cond (Blind.pure _) <|
    Blind.cond blind_raiseInternal (Blind.bind (blind_receive _) fun _ => Blind.pure _)

theorem blind_losslessFrom (y n x : Nat) (ra : Half) : Blind WarnApart (losslessFrom e y n x ra) := by
  induction n generalizing x ra with
  | zero => exact Blind.pure []
  | succ n ih =>
    exact Blind.bind blind_beforeMcu fun _ => Blind.get (fun w w' h => by rw [h.ent]) fun _ =>
      Blind.bind blind_residual fun _ => Blind.bind (blind_liftMem _) fun _ => Blind.bind (ih _ _) fun _ => Blind.pure _

theorem blind_losslessLine (y : Nat) : Blind WarnApart (losslessLine e y) :=
  Blind.bind (blind_losslessFrom _ _ _ _) fun _ => blind_modEnt _

theorem blind_decodeRow : Blind WarnApart (decodeRow e) :=
  Blind.get (fun w w' h => by rw [h.ent]) fun _ =>
    Blind.when (blind_losslessLine _) (Blind.forRange (fun _ => blind_decodeMcu _ _) _ _) fun _ => blind_modEnt _

theorem blind_decodeRows (n : Nat) : Blind WarnApart (decodeRows e n) := Blind.forRange (fun _ => blind_decodeRow) 0 n

end

end Sys2Proof.Cert
end

section
/-! Warnings change nothing else (R351). -/
namespace Sys2Proof.Cert
open Sys2Proof.Machine

/-- The state with other warnings. -/
def withWarn (w : Warn) (s : State) : State := { s with dec := { s.dec with warn := w } }

section
variable {s : State} {w : Warn}

/-- A command gives the same state but for the warnings. -/
def WarnFree (s : State) (w : Warn) (f : State → Answer) : Prop :=
  ∃ t w', f s = .next t ∧ f (withWarn w s) = .next (withWarn w' t)

theorem settle_withWarn (mw : MemW) : (withWarn w s).settle mw = withWarn w (s.settle mw) := by
  unfold State.settle
  split <;> rfl

/-! ### The segment commands -/

theorem warnFree_seek (offset : Word) : WarnFree s w (execSeek offset) := by
  by_cases h : s.cfg.srcLen.toNat < offset.toNat
  · exact ⟨_, w, if_pos h, if_pos h⟩
  · exact ⟨_, w, if_neg h, if_neg h⟩

theorem finishTables_withWarn (op : Op) (r : EStateM.Result Raise Tables Nat) :
    ∃ t, finishTables op s r = .next t ∧ finishTables op (withWarn w s) r = .next (withWarn w t) := by
  cases r <;> exact ⟨_, rfl, rfl⟩

theorem ldqtLoop_withWarn (fuel p rem : Nat) : ldqtLoop (withWarn w s) fuel p rem = ldqtLoop s fuel p rem := by
  induction fuel generalizing p rem with
  | zero => rfl
  | succ fuel ih =>
    simp only [ldqtLoop, ih]
    rfl

theorem ldhtLoop_withWarn (fuel p rem : Nat) : ldhtLoop (withWarn w s) fuel p rem = ldhtLoop s fuel p rem := by
  induction fuel generalizing p rem with
  | zero => rfl
  | succ fuel ih =>
    simp only [ldhtLoop, ih]
    rfl

theorem ldqtBody_withWarn : ldqtBody (withWarn w s) = ldqtBody s := by
  simp only [ldqtBody, ldqtLoop_withWarn]
  rfl

theorem ldhtBody_withWarn : ldhtBody (withWarn w s) = ldhtBody s := by
  simp only [ldhtBody, ldhtLoop_withWarn]
  rfl

theorem warnFree_ldqt : WarnFree s w execLdqt := by
  obtain ⟨t, h, h'⟩ := finishTables_withWarn (s := s) (w := w) .ldqt (ldqtBody s s.dec.tab)
  exact ⟨t, w, h, by rw [execLdqt, ldqtBody_withWarn]; exact h'⟩

theorem warnFree_ldht : WarnFree s w execLdht := by
  obtain ⟨t, h, h'⟩ := finishTables_withWarn (s := s) (w := w) .ldht (ldhtBody s s.dec.tab)
  exact ⟨t, w, h, by rw [execLdht, ldhtBody_withWarn]; exact h'⟩

theorem warnFree_setri : WarnFree s w execSetri := by
  unfold WarnFree execSetri
  rw [show parseDri (withWarn w s) = parseDri s from rfl]
  cases parseDri s <;> exact ⟨_, w, rfl, rfl⟩

theorem warnFree_setscn : WarnFree s w execSetscn := by
  have hparse : parseScan (withWarn w s) = parseScan s :=
    parseScan_congr rfl (fun _ _ => rfl) (fun _ _ _ _ => rfl) rfl rfl rfl rfl
  unfold WarnFree execSetscn
  rw [hparse]
  cases parseScan s <;> exact ⟨_, w, rfl, rfl⟩

theorem warnFree_setfrm (k : SofKind) : WarnFree s w (execSetfrm k) := by
  have hparse : parseFrame (withWarn w s) (modeOf k) = parseFrame s (modeOf k) :=
    parseFrame_congr _ rfl (fun _ _ => rfl) fun _ _ _ _ => rfl
  unfold WarnFree execSetfrm
  rw [hparse]
  cases parseFrame s (modeOf k) with
  | error r => exact ⟨_, w, rfl, rfl⟩
  | ok f =>
    dsimp only
    rw [show (withWarn w s).cfg = s.cfg from rfl,
      show zeroFill (withWarn w s) (geometry (modeOf k) f).need (frameMem (withWarn w s) f) =
        zeroFill s (geometry (modeOf k) f).need (frameMem s f) from rfl]
    split
    · exact ⟨_, w, rfl, rfl⟩
    · cases zeroFill s (geometry (modeOf k) f).need (frameMem s f) with
      | ok _ u =>
        exact ⟨_, w, rfl, congrArg (fun t => (.next (advance .setfrm (commitFrame (modeOf k) f (geometry (modeOf k) f) t)) : Answer))
          (settle_withWarn u)⟩
      | error r u => exact ⟨_, w, rfl, congrArg (fun t => (.next (errorEntry r t) : Answer)) (settle_withWarn u)⟩

/-! ### The commands that work in memory -/

theorem finishMem_withWarn (op : Op) (r : EStateM.Result Raise MemW Unit) :
    ∃ t, finishMem op s r = .next t ∧ finishMem op (withWarn w s) r = .next (withWarn w t) := by
  cases r with
  | ok _ u => exact ⟨_, rfl, congrArg (fun t => (.next (advance op t) : Answer)) (settle_withWarn u)⟩
  | error r u => exact ⟨_, rfl, congrArg (fun t => (.next (errorEntry r t) : Answer)) (settle_withWarn u)⟩

/-- A command that works in memory does not see the warnings at all. -/
theorem warnFree_runMem (op : Op) (m : Env → MM Unit) : WarnFree s w fun s => runMem op (m s.env) s := by
  obtain ⟨t, h, h'⟩ := finishMem_withWarn (s := s) (w := w) op (m s.env (MemW.start op s))
  exact ⟨t, w, h, h'⟩

/-- What DECROW leaves, but for the warnings. -/
theorem withDec_apart {u u' : DecW} (h : WarnApart u u') :
    (withWarn w s).withDec u' = withWarn u'.warn (s.withDec u) := by
  obtain ⟨hpos, hent, hmw⟩ := h
  unfold State.withDec
  rw [hpos, hent, hmw, settle_withWarn]
  rfl

theorem scanComplete_withWarn (w : Warn) (t : State) : scanComplete (withWarn w t) = withWarn w (scanComplete t) := by
  unfold scanComplete
  rw [show (withWarn w t).dec.ent.srow = t.dec.ent.srow from rfl, show (withWarn w t).dec.scn.srows = t.dec.scn.srows from rfl]
  split <;> rfl

theorem warnFree_decrow (n : Nat) : WarnFree s w (execDecrow n) := by
  by_cases h : s.dec.scn.active = false
  · exact ⟨_, w, if_pos h, if_pos h⟩
  have hexec : ∀ t : State, t.dec.scn.active = s.dec.scn.active →
      execDecrow n t = finishDecrow t (decodeRows t.env (rowCount t n) (DecW.start t)) := fun t ht => if_neg (ht ▸ h)
  have hblind := blind_decodeRows (e := s.env) (rowCount s n)
  have hstart : WarnApart (DecW.start s) (DecW.start (withWarn w s)) := ⟨rfl, rfl, rfl⟩
  cases hrun : decodeRows s.env (rowCount s n) (DecW.start s) with
  | ok _ u =>
    obtain ⟨u', hrun', hu⟩ := hblind.ok hstart hrun
    refine ⟨advance .decrow (scanComplete (s.withDec u)), u'.warn, ?_, ?_⟩
    · rw [hexec s rfl, hrun, finishDecrow]
    · rw [hexec (withWarn w s) rfl, show decodeRows (withWarn w s).env (rowCount (withWarn w s) n)
        (DecW.start (withWarn w s)) = _ from hrun', finishDecrow, withDec_apart hu, scanComplete_withWarn]
      rfl
  | error r u =>
    obtain ⟨u', hrun', hu⟩ := hblind.error hstart hrun
    refine ⟨errorEntry r (s.withDec u), u'.warn, ?_, ?_⟩
    · rw [hexec s rfl, hrun, finishDecrow]
    · rw [hexec (withWarn w s) rfl, show decodeRows (withWarn w s).env (rowCount (withWarn w s) n)
        (DecW.start (withWarn w s)) = _ from hrun', finishDecrow, withDec_apart hu]
      rfl

/-- No command sees the warnings. -/
theorem warnFree_exec (i : Instr) (s : State) (w : Warn) : WarnFree s w (exec i) := by
  cases i with
  | nop | endList => exact ⟨_, w, rfl, rfl⟩
  | reset => exact ⟨_, Dec.reset.warn, rfl, rfl⟩
  | seek offset => exact warnFree_seek offset
  | ldqt => exact warnFree_ldqt
  | ldht => exact warnFree_ldht
  | setfrm k => exact warnFree_setfrm k
  | setri => exact warnFree_setri
  | setscn => exact warnFree_setscn
  | decrow n => exact warnFree_decrow n
  | idctblk tq src dst stride => exact warnFree_runMem .idctblk fun e => idctBlock e .blkSrc .blkDst tq src dst stride
  | idctrow row n => exact warnFree_runMem .idctrow fun e => bandsOf e row n (idctBand e)
  | upsrow row n => exact warnFree_runMem .upsrow fun e => bandsOf e row n (upsBand e)
  | ccvrow row n => exact warnFree_runMem .ccvrow fun e => bandsOf e row n (ccvBand e)
  | recrow row n => exact warnFree_runMem .recrow fun e => bandsOf e row n (recBand e)

end

/-! ### The warning bits -/

/-- STATUS bits 3 and 4 are the two warnings (R24). -/
theorem statusWord_warn (s : State) (h1 : s.dec.warn.rst = false) (h2 : s.dec.warn.ent = false) :
    (statusWord s).extractLsb' 3 2 = 0#2 := by
  refine BitVec.eq_of_getLsbD_eq fun i hi => ?_
  rw [BitVec.getLsbD_extractLsb', getLsbD_statusWord]
  interval_cases i <;> simp [h1, h2]

theorem csrRead_warnCnt (s : State) : csrRead s 0x01C = s.dec.warn.cntEnt ++ s.dec.warn.cntRst := rfl

/-- With the decoder as at reset the counts read 0. -/
theorem csrRead_warnCnt_reset {s : State} (h : s.dec = Dec.reset) : csrRead s 0x01C = 0 := by
  rw [csrRead_warnCnt, h]
  rfl

/-- Settles O59: no part of the decoding looks at the warnings, and no other command touches them. -/
theorem warningsChangeNothingElse : Obligations.WarningsChangeNothingElse := by
  refine ⟨fun i s w => warnFree_exec i s w, fun s => ⟨?_, ⟨_, rfl, statusWord_warn _ rfl rfl, csrRead_warnCnt_reset rfl⟩,
    statusWord_warn (hardReset s) rfl rfl, csrRead_warnCnt_reset rfl⟩⟩
  exact statusWord_warn _ (Bool.and_false _) (Bool.and_false _)

end Sys2Proof.Cert
end

section
/-! A command changes no byte that it does not note as written (R100), and what a step of a run leaves of memory (R97). -/
namespace Sys2Proof.Cert
open Sys2Proof.Machine

/-! ### The bytes not written -/

/-- A byte that is not noted as written holds what it held. -/
def notesWrites (addr : Word) (v w : MemW) : Prop :=
  covers w.writes addr = false → covers v.writes addr = false ∧ w.mem.read addr.toNat = v.mem.read addr.toNat

theorem closed_notesWrites (addr : Word) : Closed (notesWrites addr) where
  refl _ h := ⟨h, rfl⟩
  trans _ _ _ h1 h2 h := by
    obtain ⟨hv, hread⟩ := h2 h
    exact ⟨(h1 hv).1, hread.trans (h1 hv).2⟩

theorem notesWrites_readByte (addr : Word) (p : Params) (b : Buf) (a : Word) : Keeps (notesWrites addr) (readByte p b a) := by
  intro w
  rw [readByte_run]
  split <;> exact fun h => ⟨h, rfl⟩

theorem notesWrites_writeByte (addr : Word) (p : Params) (b : Buf) (a : Word) (v : Byte) :
    Keeps (notesWrites addr) (writeByte p b a v) := by
  intro w
  rw [writeByte_run]
  split
  · intro h
    obtain ⟨hold, hne⟩ := not_or.mp (mt (covers_logAccess b a addr w.writes).mpr (Bool.eq_false_iff.mp h))
    exact ⟨Bool.eq_false_iff.mpr hold, Memory.read_write_other (fun he => hne (BitVec.eq_of_toNat_eq he)) w.mem v⟩
  · exact fun h => ⟨h, rfl⟩

section
variable {s : State} {addr : Word}

theorem Micro.notesWrites {e : Env} {W : Word → Prop} {w w' : DecW} (h : Micro e W w w') :
    notesWrites addr w.mw w'.mw := by
  cases h with
  | reads h hm _ => exact fun hc => ⟨hm.2 ▸ hc, congrArg (·.read addr.toNat) h.mem.1⟩
  | write b a v _ => exact notesWrites_writeByte addr _ b a v w.mw
  | _ => exact (closed_notesWrites addr).refl w.mw

theorem notesWrites_decrowRun (h : Beside) (n : Nat) :
    notesWrites addr (MemW.start .decrow s) (stateAfter (decrowRun h n s)).mw :=
  decrowRun_keeps h (R := fun w w' => notesWrites addr w.mw w'.mw)
    ⟨fun w => (closed_notesWrites addr).refl w.mw, fun _ _ _ h1 h2 => (closed_notesWrites addr).trans _ _ _ h1 h2⟩
    (fun _ _ hm => hm.notesWrites) fun w => (closed_notesWrites addr).refl w.mw

/-- A command's work leaves the bytes that it does not note as written. -/
theorem workOf_read {h : Beside} {i : Instr} (hc : covers (accessOf h i s).writes addr = false) :
    (workOf h i s).mem.read addr.toNat = s.mem.read addr.toNat := by
  have hmem : ∀ j, covers (accessOf h j s).writes addr = false → workOf h j s = stateAfter (memRun h j s) →
      (workOf h j s).mem.read addr.toNat = s.mem.read addr.toNat := fun j hc hw => by
    rw [accessOf, hw] at hc
    rw [hw]
    exact (keeps_memBody (closed_notesWrites addr) (notesWrites_readByte addr) (notesWrites_writeByte addr) j s _ hc).2
  cases i with
  | nop | endList | reset | seek _ | ldqt | ldht | setri | setscn => rfl
  | setfrm k =>
    rw [accessOf, show workOf h (.setfrm k) s = frameWork k s from rfl] at hc
    show (frameWork k s).mem.read addr.toNat = _
    unfold frameWork at hc ⊢
    cases hp : parseFrame s (modeOf k) with
    | error r => rfl
    | ok f =>
      rw [hp] at hc
      dsimp only at hc ⊢
      split
      · rfl
      · rename_i hsize
        rw [if_neg hsize] at hc
        exact (Keeps.forRange (closed_notesWrites addr) (fun _ => notesWrites_writeByte addr _ _ _ _) _ _ _ hc).2
  | decrow n =>
    rw [accessOf, show workOf h (.decrow n) s = decrowWork h n s from rfl] at hc
    show (decrowWork h n s).mem.read addr.toNat = _
    unfold decrowWork at hc ⊢
    split
    · rfl
    · rename_i hact
      rw [if_neg hact] at hc
      exact (notesWrites_decrowRun h n hc).2
  | idctblk _ _ _ _ => exact hmem _ hc rfl
  | idctrow _ _ => exact hmem _ hc rfl
  | upsrow _ _ => exact hmem _ hc rfl
  | ccvrow _ _ => exact hmem _ hc rfl
  | recrow _ _ => exact hmem _ hc rfl

/-- A command leaves the bytes that it does not note as written. -/
theorem execBeside_read {h : Beside} {i : Instr} {t : State} (ht : execBeside h i s = .next t)
    (hc : covers (accessOf h i s).writes addr = false) : t.mem.read addr.toNat = s.mem.read addr.toNat := by
  rw [execBeside_mem ht, settle_read_unwritten hc]
  exact workOf_read hc

theorem runCommand_read {t : State} (ht : runCommand s = .next t) (hc : covers (commandAccess s).writes addr = false) :
    t.mem.read addr.toNat = s.mem.read addr.toNat := by
  unfold runCommand at ht
  unfold commandAccess at hc
  cases hf : fetch s with
  | error r =>
    rw [hf] at ht
    cases ht
    rfl
  | ok i =>
    rw [hf] at ht hc
    exact execBeside_read ((execBeside_none i s).trans ht) hc

/-- What a fetch sees of a byte that the host has not stored to is what memory holds. -/
theorem seen_read (h : addr ∉ s.race.stored) : s.seen.mem.read addr.toNat = s.mem.read addr.toNat :=
  freeBytes_read_other _ h

theorem wf_seen (h : s.mem.wf = true) : s.seen.mem.wf = true := wf_freeBytes h _ _

theorem wf_runRaced {t : State} (hs : s.mem.wf = true) (ht : runRaced s = .next t) : t.mem.wf = true := by
  unfold runRaced at ht
  cases hf : fetch s.seen with
  | error r =>
    rw [hf] at ht
    cases ht
    exact wf_seen hs
  | ok i =>
    rw [hf] at ht
    exact wf_execBeside (wf_seen (wf_seen hs)) ht

/-- A command the host has raced with leaves the bytes neither stored to nor noted as written. -/
theorem runRaced_read {t : State} (ht : runRaced s = .next t) (hst : addr ∉ s.race.stored)
    (hc : covers (racedAccess s).writes addr = false) : t.mem.read addr.toNat = s.mem.read addr.toNat := by
  unfold runRaced at ht
  unfold racedAccess at hc
  cases hf : fetch s.seen with
  | error r =>
    rw [hf] at ht
    cases ht
    exact seen_read hst
  | ok i =>
    rw [hf] at ht hc
    exact (execBeside_read ht hc).trans ((seen_read (s := s.seen) hst).trans (seen_read hst))

/-- What the host's stores do not leave open. -/
theorem not_mem_openBytes {stored : List Word} {log : List Machine.Access} (h : keptBeside s stored log addr) (k : Nat) :
    addr ∉ s.openBytes k stored log := by
  rcases h with hno | ⟨hin, hw, hall⟩ | ⟨hout, hall⟩
  · rw [openBytes_untouched (by simpa using hno)]
    exact List.not_mem_nil
  · exact not_mem_openBytes_stored hin hw hall k
  · exact not_mem_openBytes_other hout hall k

theorem wroteByte_cons (x : Machine.Access) (l : List Machine.Access) :
    wroteByte (x :: l) addr = false ↔ covers x.writes addr = false ∧ wroteByte l addr = false := by
  simp [wroteByte]

/-- A step of a run changes no byte that it does not write and that is not open. -/
theorem runStep_read {t : State} (hs : s.mem.wf = true) (ht : runStep s = .next t)
    (hc : wroteByte t.race.log addr = false) (hk : keptBeside s s.race.stored t.race.log addr) :
    t.mem.read addr.toNat = s.mem.read addr.toNat := by
  cases hq : s.race.quiet with
  | true =>
    cases hr : runCommand s with
    | next u =>
      rw [runStep_quiet hq hr] at ht
      cases ht
      exact runCommand_read (t := u) hr ((wroteByte_cons _ _).mp hc).1
    | _ => simp [runStep, hq, hr] at ht
  | false =>
    cases hr : runRaced s with
    | next u =>
      rw [runStep_raced hq hr] at ht
      cases ht
      obtain ⟨hnew, -⟩ := (wroteByte_cons _ _).mp hc
      have hopen := not_mem_openBytes hk u.free
      by_cases hst : addr ∈ s.race.stored
      · exact afterRace_read_stored (wf_runRaced hs hr) hst hnew hopen
      · exact (afterRace_read_other hst hopen).trans (runRaced_read hr hst hnew)
    | _ => simp [runStep, hq, hr] at ht

/-- Where the host has raced with the run, a byte not stored to and not open is what the command left. -/
theorem runStep_read_raced {t : State} (hq : s.race.quiet = false) (ht : runStep s = .next t) :
    ∃ u, runRaced s = .next u ∧ ∀ addr : Word, addr ∉ s.race.stored → keptBeside s s.race.stored t.race.log addr →
      t.mem.read addr.toNat = u.mem.read addr.toNat := by
  cases hr : runRaced s with
  | next u =>
    rw [runStep_raced hq hr] at ht
    cases ht
    exact ⟨u, rfl, fun addr hst hk => afterRace_read_other hst (not_mem_openBytes hk u.free)⟩
  | _ => simp [runStep, hq, hr] at ht

end

end Sys2Proof.Cert
end

section
/-! The host's loads and stores of system memory (R21, R82, R97). -/
namespace Sys2Proof.Cert
open Sys2Proof.Machine

/-! ### Little-endian accesses -/

/-- A store stores its bytes. -/
theorem stored_storeMem {m : Memory} {n : Nat} (hn : n < 2 ^ 32) (hm : m.wf = true) (a : Word) (v : Nat) :
    Stored m (storeMem m n a v) a n v := by
  induction n generalizing m a v with
  | zero => exact stored_zero hm a v
  | succ n ih =>
    refine stored_succ hm hn ?_
    have h := ih (by omega) (Memory.wf_write hm a.isLt (BitVec.ofNat 8 v)) (a + 1) (v / 256)
    rw [BitVec.ofInt_natCast]
    exact_mod_cast h

/-- What a load of stored bytes gives. -/
theorem loadMem_of_bytes {m : Memory} {n v : Nat} {a : Word} (h : ∀ k, k < n → byteAt m a k = BitVec.ofNat 8 (v / 256 ^ k)) :
    loadMem m n a = v % 256 ^ n := by
  induction n generalizing a v with
  | zero => rw [pow_zero, Nat.mod_one]; rfl
  | succ n ih =>
    have h0 := h 0 (by omega)
    rw [byteAt, show a + BitVec.ofNat 32 0 = a from BitVec.add_zero a, pow_zero, Nat.div_one] at h0
    rw [loadMem, h0, ih (a := a + 1) (v := v / 256) fun k hk => ?_, pow_succ', Nat.mod_mul, BitVec.toNat_ofNat]
    rw [byteAt, addr_succ, Nat.div_div_eq_div_mul, ← pow_succ']
    exact h (k + 1) (by omega)

/-- Byte `k` of a load. -/
theorem loadMem_byte (m : Memory) {n k : Nat} (a : Word) (hk : k < n) :
    loadMem m n a / 256 ^ k % 256 = (byteAt m a k).toNat := by
  have hlt := (m.read a.toNat).isLt
  induction k generalizing n a with
  | zero =>
    obtain ⟨n, rfl⟩ : ∃ d, n = d + 1 := ⟨n - 1, by omega⟩
    rw [loadMem, pow_zero, Nat.div_one, byteAt, show a + BitVec.ofNat 32 0 = a from BitVec.add_zero a]
    omega
  | succ k ih =>
    obtain ⟨n, rfl⟩ : ∃ d, n = d + 1 := ⟨n - 1, by omega⟩
    rw [loadMem, pow_succ', ← Nat.div_div_eq_div_mul, show ((m.read a.toNat).toNat + 256 * loadMem m n (a + 1)) / 256 =
      loadMem m n (a + 1) by omega, ih (a + 1) (by omega) (m.read (a + 1).toNat).isLt, byteAt, addr_succ]

theorem bytes_le_four (w : Width) : w.bytes ≤ 4 := by cases w <;> decide

theorem extractLsb'_eq_ofNat (v : Word) (k : Nat) : v.extractLsb' (8 * k) 8 = BitVec.ofNat 8 (v.toNat / 256 ^ k) := by
  refine BitVec.eq_of_toNat_eq ?_
  rw [BitVec.extractLsb'_toNat, BitVec.toNat_ofNat, Nat.shiftRight_eq_div_pow, pow_mul]
  rfl

section
variable {s : State} {a : Word} {w : Width}

/-- The bytes of a host's store. -/
theorem storeMem_bytes (hm : s.mem.wf = true) (v : Word) {k : Nat} (hk : k < w.bytes) :
    byteAt (storeMem s.mem w.bytes a v.toNat) a k = v.extractLsb' (8 * k) 8 := by
  have hn := bytes_le_four w
  rw [(stored_storeMem (by omega) hm a v.toNat).bytes k hk, extractLsb'_eq_ofNat, ← BitVec.ofInt_natCast]
  norm_cast

theorem storeMem_read_other (hm : s.mem.wf = true) (v : Word) {addr : Word}
    (h : ¬∃ k, k < w.bytes ∧ addr = a + BitVec.ofNat 32 k) :
    (storeMem s.mem w.bytes a v.toNat).read addr.toNat = s.mem.read addr.toNat := by
  have hn := bytes_le_four w
  exact (stored_storeMem (by omega) hm a v.toNat).frame addr fun k hk he => h ⟨k, hk, he⟩

/-- A load of what has been stored is the low bytes of the value stored. -/
theorem loadMem_storeMem (hm : s.mem.wf = true) (v : Word) :
    loadMem (storeMem s.mem w.bytes a v.toNat) w.bytes a = v.toNat % 2 ^ (8 * w.bytes) := by
  rw [pow_mul]
  exact loadMem_of_bytes fun k hk => (storeMem_bytes hm v hk).trans (extractLsb'_eq_ofNat v k)

/-! ### The host's accesses outside the window -/

variable (hout : touchesWindow s.params a w = false)
include hout

theorem hostStore_idle (hb : s.proc.busy = false) (v : Word) :
    hostStore a w v s = .next { s with mem := storeMem s.mem w.bytes a v.toNat } := by
  rw [hostStore, if_neg (by simp [hout]), if_neg (by simp [hb])]

theorem hostStore_busy (hb : s.proc.busy = true) (v : Word) : hostStore a w v s = .next (racedStore a w v s) := by
  rw [hostStore, if_neg (by simp [hout]), if_pos hb]

theorem hostLoad_idle (hb : s.proc.busy = false) :
    hostLoad a w s = .next (withLoad a w (BitVec.ofNat 32 (loadMem s.mem w.bytes a)) s) := by
  rw [hostLoad, if_neg (by simp [hout]), if_neg (by simp [hb])]
  rfl

theorem hostLoad_busy (hb : s.proc.busy = true) : hostLoad a w s = .next (racedLoad a w s) := by
  rw [hostLoad, if_neg (by simp [hout]), if_pos hb]

end

section
variable {s : State} {a : Word} {w : Width}

/-- A store beside a run: a byte that is not left open holds what the store put there. -/
theorem racedStore_read {v addr : Word}
    (hk : keptBeside s (accessAddrs a w ++ s.race.stored) s.race.log addr) :
    (racedStore a w v s).mem.read addr.toNat = (storeMem s.mem w.bytes a v.toNat).read addr.toNat :=
  freeBytes_read_other _ (not_mem_openBytes hk s.free)

/-- A load beside a run gives the bytes that the run has not touched. -/
theorem racedLoad_byte {k n : Nat} (hk : k < w.bytes) (h : touchedByte s.race.log (a + BitVec.ofNat 32 k) = false) :
    (BitVec.ofNat 32 (loadMem (freeBytes n s.mem ((accessAddrs a w).filter (touchedByte s.race.log))) w.bytes a)).extractLsb'
      (8 * k) 8 = byteAt s.mem a k := by
  have hn := bytes_le_four w
  have hread := freeBytes_read_other (m := s.mem) n (as := (accessAddrs a w).filter (touchedByte s.race.log))
    (a := a + BitVec.ofNat 32 k) fun hm => by
      rw [(List.mem_filter.mp hm).2] at h
      cases h
  have hbyte := loadMem_byte (freeBytes n s.mem ((accessAddrs a w).filter (touchedByte s.race.log))) a hk
  rw [byteAt, hread] at hbyte
  refine BitVec.eq_of_toNat_eq ?_
  rw [extractLsb'_eq_ofNat, BitVec.toNat_ofNat, BitVec.toNat_ofNat, ← hbyte]
  have h32 : (2 : Nat) ^ 32 = 256 ^ k * 256 * 256 ^ (3 - k) := by
    rw [← pow_succ, ← pow_add, show k + 1 + (3 - k) = 4 by omega]
    norm_num
  rw [h32, Nat.mul_assoc, Nat.mod_mul_right_div_self, Nat.mod_mul_right_mod]

end

/-- Settles O60: the bytes that an access beside a run may leave open are those of the model's own list, and a step of the
run changes no byte that it does not note as written. -/
theorem hostLoadsWhatItStored : Obligations.HostLoadsWhatItStored := by
  refine ⟨fun s a w v hcan hout => ?_, fun s t hcan hb hev ht => ?_⟩
  · have hm := ((memCanonical_iff s).mp hcan).1
    refine ⟨fun hb => ⟨_, hostStore_idle hout hb v, rfl, fun k hk => storeMem_bytes hm v hk,
      fun addr h => storeMem_read_other hm v h, ?_⟩, fun hb => ⟨⟨_, hostStore_busy hout hb v, rfl, rfl,
      fun k hk hkept => ?_, fun addr h hkept => ?_⟩, _, hostLoad_busy hout hb, fun k hk h => racedLoad_byte hk h⟩⟩
    · rw [hostLoad_idle (s := { s with mem := storeMem s.mem w.bytes a v.toNat }) hout hb, loadMem_storeMem hm]
    · exact (racedStore_read hkept).trans (storeMem_bytes hm v hk)
    · exact (racedStore_read hkept).trans (storeMem_read_other hm v h)
  · have hm := ((memCanonical_iff s).mp hcan).1
    rw [step, hev] at ht
    have hrun : runStep s = .next t := by rwa [blockStep, if_pos hb] at ht
    exact ⟨fun addr hc hk => runStep_read hm hrun hc hk, fun hq => runStep_read_raced hq hrun⟩

end Sys2Proof.Cert
end
